-- ==== Sys2Proof/Word.lean ====
section
/-! DEFINITION. The words of the engine: bytes, register words and the binary32 encoding of a sample. -/
namespace Sys2Proof

/-- One byte of host memory (R70). -/
abbrev Byte := BitVec 8

/-- A 32-bit register: CMD or STATUS (R31). -/
abbrev Word32 := BitVec 32

/-- A 64-bit register: RES or an argument register (R31). -/
abbrev Word64 := BitVec 64

/-- The encoding of a sample, an IEEE 754 binary32 value (R11, D11). -/
abbrev F32 := BitVec 32

/-- The number of host addresses (R70: 64-bit addresses `[0, 2^64)`). -/
abbrev addrLimit : Nat := 2 ^ 64

end Sys2Proof
end

