-- ==== Sys2Proof/Config.lean ====
section
/-! DEFINITION. What the spec leaves to the platform (00_scope.md R7, 10_state.md R45) and to free values
(93_implementation_defined.md sections 2 and 5). -/
namespace Sys2Proof

/-- The two kinds of transform (R200): complex and packed real. -/
inductive FftKind where
  | cplx
  | real
  deriving DecidableEq, Repr

/-- Which configuration function `fftImpl` is (R207): the reference datapath of R212 to R215, which the spec calls
one admissible value, or function number `k` of an unconstrained family. Log 11. -/
inductive FftChoice where
  | reference
  | other (k : Nat)
  deriving DecidableEq, Repr

/-- A run of byte addresses `[base, base + len)`. -/
structure Span where
  base : Nat
  len  : Nat
  deriving DecidableEq, Repr

/-- The model arguments of R7 and R45, fixed for one platform; no step changes them (log 1).
`regBase` is `REG_BASE`, `mem` the spans whose union is `MEM`, `fftMaxN` is `FFT_MAX_N`. -/
structure Platform where
  regBase : Nat
  mem     : List Span
  fftMaxN : Nat
  fft     : FftChoice
  deriving DecidableEq, Repr

/-- Free value: draw number `draw` of the byte at address `addr` (R82, R216; log 5). -/
opaque Config.freeByte (draw addr : Nat) : Byte

/-- Free value: the bits of a NaN that draw `draw` leaves as element `i` of a command's output (R9, D11; log 6). -/
opaque Config.freeOutNan (draw i : Nat) : F32

/-- Free value: the bits of a NaN that draw `draw` leaves as element `i` of the accumulator at the inverse transform
of the command's block number `block` (R9, D11; log 6). -/
opaque Config.freeAccNan (draw block i : Nat) : F32

/-- Free value: element `i` of the output of member `choice` of the family of admissible `fftImpl` (R207; log 11). -/
opaque Config.fftOut (choice : Nat) (kind : FftKind) (n : Nat) (flag : Int) (v : List F32) (i : Nat) : F32

/-- Free value: element `i` of the reference `fftImpl`'s output on an input with a NaN or an infinity, which R207
leaves unconstrained (log 12). -/
opaque Config.fftNonFinite (kind : FftKind) (n : Nat) (flag : Int) (v : List F32) (i : Nat) : F32

/-- Free value: the bits of a NaN that the reference datapath gives as element `i` on a finite input (D11; log 12). -/
opaque Config.fftNan (kind : FftKind) (n : Nat) (flag : Int) (v : List F32) (i : Nat) : F32

end Sys2Proof
end

