-- ==== Sys2Proof/Syntax.lean ====
section
/-! DEFINITION. The commands (30_encoding.md R102), the fields of a command word (R100), the assembly lines of R108 and
the actions of the host (R30, R78). -/
namespace Sys2Proof

/-- The 33 commands, one constructor per row of spec/opcode_table.json. Their operands are the argument registers (R103). -/
inductive Instr where
  | rbWorksize | rbCreate | rbDestroy | rbClear | rbPut | rbPeek | rbGet | rbDpeek | rbRemain | rbFree
  | fftCplx | fftReal
  | kcWorksize | kcCreate | kcDestroy | kcReset | kcSetcoef | kcConvolve | kcGetlat
  | pcWorksize | pcCreate | pcDestroy | pcReset | pcSetcoef | pcConvolve | pcGetlat
  | hcWorksize | hcCreate | hcDestroy | hcReset | hcSetcoef | hcConvolve | hcGetlat
  deriving DecidableEq, Repr

/-- Every command, in the opcode table's order. -/
def Instr.all : List Instr :=
  [.rbWorksize, .rbCreate, .rbDestroy, .rbClear, .rbPut, .rbPeek, .rbGet, .rbDpeek, .rbRemain, .rbFree,
   .fftCplx, .fftReal,
   .kcWorksize, .kcCreate, .kcDestroy, .kcReset, .kcSetcoef, .kcConvolve, .kcGetlat,
   .pcWorksize, .pcCreate, .pcDestroy, .pcReset, .pcSetcoef, .pcConvolve, .pcGetlat,
   .hcWorksize, .hcCreate, .hcDestroy, .hcReset, .hcSetcoef, .hcConvolve, .hcGetlat]

/-- The fields of a 32-bit command word: `rsv` in bits 31:8, `unit` in bits 7:4, `op` in bits 3:0 (R100). -/
structure CmdWord where
  rsv  : BitVec 24
  unit : BitVec 4
  op   : BitVec 4
  deriving DecidableEq, Repr

/-- An assembly command line `MNEMONIC op0, ..., opk` (R108). `none` is the operand `_`, which leaves its register as it is. -/
structure CommandLine where
  instr : Instr
  ops   : List (Option Word64)
  deriving DecidableEq, Repr

/-- An assembly line (R108): a command line, one of the host's register reads, or a statement of memory contents. -/
inductive AsmLine where
  | command (line : CommandLine)
  | readRes
  | readStatus
  | memF32 (addr : Nat) (samples : List F32)
  | memBytes (addr : Nat) (bytes : List Byte)
  deriving DecidableEq, Repr

/-- What the host does to the engine or to host memory, one action at a time (R30, R78): it reads `width` bytes at a
physical address, an agent of it writes bytes there, or it applies block reset (R440). Log 2, log 4. -/
inductive HostAction where
  | read (addr width : Nat)
  | write (agent addr : Nat) (data : List Byte)
  | reset
  deriving DecidableEq, Repr

end Sys2Proof
end

