-- ==== Sys2Proof/WellFormed.lean ====
section
/-! DEFINITION. Well-formed syntax: the checks a command word (R100, R106), an assembly line (R108), a host action and a
platform must pass. -/
namespace Sys2Proof

/-- How many operations each unit has (R102, R106): unit numbers 0 and 6 to 15 are reserved and have none. -/
def unitOps (unit : BitVec 4) : Nat :=
  match unit.toNat with
  | 1 => 10
  | 2 => 2
  | 3 => 7
  | 4 => 7
  | 5 => 7
  | _ => 0

/-- A legal command word: the reserved bits are 0 and the opcode is assigned (R106). -/
def CmdWord.wellFormed (c : CmdWord) : Bool := decide (c.rsv = 0) && decide (c.op.toNat < unitOps c.unit)

/-- `MNEMONIC op0, ..., opk` with `k ≤ 5` (R108). -/
def CommandLine.wellFormed (l : CommandLine) : Bool := decide (1 ≤ l.ops.length) && decide (l.ops.length ≤ 6)

/-- A range of bytes inside the address space (R70). -/
def rangeFits (addr len : Nat) : Bool := decide (addr + len ≤ addrLimit)

/-- An assembly line whose parts fit. -/
def AsmLine.wellFormed : AsmLine → Bool
  | .command l => l.wellFormed
  | .readRes => true
  | .readStatus => true
  | .memF32 addr samples => rangeFits addr (4 * samples.length)
  | .memBytes addr bytes => rangeFits addr bytes.length

/-- A host action that accesses at least one byte, inside the address space. -/
def HostAction.wellFormed : HostAction → Bool
  | .read addr width => decide (1 ≤ width) && rangeFits addr width
  | .write _ addr data => decide (1 ≤ data.length) && rangeFits addr data.length
  | .reset => true

/-- A platform whose register block lies in the address space on a 64-bit boundary, whose memory lies in the address
space, and whose `FFT_MAX_N` is a power of two not below 2 (R7). `MEM` may cover the register block (log 22). -/
def Platform.wellFormed (p : Platform) : Bool :=
  decide (p.regBase % 8 = 0) && rangeFits p.regBase 0x100 && p.mem.all (fun sp => rangeFits sp.base sp.len)
    && decide (2 ≤ p.fftMaxN) && decide (2 ^ p.fftMaxN.log2 = p.fftMaxN)

end Sys2Proof
end

