-- ==== Sys2Proof/Decode.lean ====
section
/-! DEFINITION. Decoding a command word (30_encoding.md R100 to R106), total on any bytes, rejecting by name; and the
encoder: the word of a command (R102) and the register writes of an assembly line (R109). -/
namespace Sys2Proof

/-- Why a word is no command (R105, R106). Every reason makes the engine answer ILLEGAL_COMMAND. -/
inductive Reject where
  /-- not exactly four bytes -/
  | notAWord
  /-- bits 31:8 are not 0 -/
  | reservedBits
  /-- bits 7:0 are no assigned opcode -/
  | unassigned
  deriving DecidableEq, Repr

/-- The fields of a word (R100). -/
def CmdWord.ofWord (w : Word32) : CmdWord :=
  { rsv := w.extractLsb' 8 24, unit := w.extractLsb' 4 4, op := w.extractLsb' 0 4 }

/-- The word with these fields (R100). -/
def CmdWord.toWord (c : CmdWord) : Word32 := (c.rsv ++ c.unit : BitVec 28) ++ c.op

/-- The opcode map (R102), read by unit number and operation number. -/
def opcodeMap (unit op : Nat) : Option Instr :=
  match unit, op with
  | 1, 0 => some .rbWorksize
  | 1, 1 => some .rbCreate
  | 1, 2 => some .rbDestroy
  | 1, 3 => some .rbClear
  | 1, 4 => some .rbPut
  | 1, 5 => some .rbPeek
  | 1, 6 => some .rbGet
  | 1, 7 => some .rbDpeek
  | 1, 8 => some .rbRemain
  | 1, 9 => some .rbFree
  | 2, 0 => some .fftCplx
  | 2, 1 => some .fftReal
  | 3, 0 => some .kcWorksize
  | 3, 1 => some .kcCreate
  | 3, 2 => some .kcDestroy
  | 3, 3 => some .kcReset
  | 3, 4 => some .kcSetcoef
  | 3, 5 => some .kcConvolve
  | 3, 6 => some .kcGetlat
  | 4, 0 => some .pcWorksize
  | 4, 1 => some .pcCreate
  | 4, 2 => some .pcDestroy
  | 4, 3 => some .pcReset
  | 4, 4 => some .pcSetcoef
  | 4, 5 => some .pcConvolve
  | 4, 6 => some .pcGetlat
  | 5, 0 => some .hcWorksize
  | 5, 1 => some .hcCreate
  | 5, 2 => some .hcDestroy
  | 5, 3 => some .hcReset
  | 5, 4 => some .hcSetcoef
  | 5, 5 => some .hcConvolve
  | 5, 6 => some .hcGetlat
  | _, _ => none

/-- The decode procedure of R105. -/
def decodeWord (w : Word32) : Except Reject Instr :=
  let c := CmdWord.ofWord w
  if c.rsv ≠ 0 then .error .reservedBits
  else
    match opcodeMap c.unit.toNat c.op.toNat with
    | some i => .ok i
    | none => .error .unassigned

/-- Four bytes, lowest address first, as a little-endian word (R72). -/
def wordOfBytes (b0 b1 b2 b3 : Byte) : BitVec 32 := (b3 ++ b2 : BitVec 16) ++ (b1 ++ b0 : BitVec 16)

/-- The bytes of a 32-bit word, lowest address first (R72). -/
def bytesOfWord32 (w : BitVec 32) : List Byte :=
  [w.extractLsb' 0 8, w.extractLsb' 8 8, w.extractLsb' 16 8, w.extractLsb' 24 8]

/-- The bytes of a 64-bit word, lowest address first: the low half stands at the lower offset (R34). -/
def bytesOfWord64 (w : Word64) : List Byte := bytesOfWord32 (w.extractLsb' 0 32) ++ bytesOfWord32 (w.extractLsb' 32 32)

/-- Decoding any bytes: a command is exactly one 32-bit word (R100). -/
def decode : List Byte → Except Reject Instr
  | [b0, b1, b2, b3] => decodeWord (wordOfBytes b0 b1 b2 b3)
  | _ => .error .notAWord

/-- The instruction the decoder reads from the table word `w` of `nbits` bits: the word is laid out in four bytes,
little-endian, with 0 in every bit above `nbits`. A word of more than 32 bits is no command. -/
def decodeTableWord (nbits w : Nat) : Option Instr :=
  if w % 2 ^ nbits < 2 ^ 32 then
    match decode (bytesOfWord32 (BitVec.ofNat 32 (w % 2 ^ nbits))) with
    | .ok i => some i
    | .error _ => none
  else none

/-- The opcode of each command (R102): `unit * 16 + op`. -/
def opcode : Instr → Nat
  | .rbWorksize => 0x10
  | .rbCreate => 0x11
  | .rbDestroy => 0x12
  | .rbClear => 0x13
  | .rbPut => 0x14
  | .rbPeek => 0x15
  | .rbGet => 0x16
  | .rbDpeek => 0x17
  | .rbRemain => 0x18
  | .rbFree => 0x19
  | .fftCplx => 0x20
  | .fftReal => 0x21
  | .kcWorksize => 0x30
  | .kcCreate => 0x31
  | .kcDestroy => 0x32
  | .kcReset => 0x33
  | .kcSetcoef => 0x34
  | .kcConvolve => 0x35
  | .kcGetlat => 0x36
  | .pcWorksize => 0x40
  | .pcCreate => 0x41
  | .pcDestroy => 0x42
  | .pcReset => 0x43
  | .pcSetcoef => 0x44
  | .pcConvolve => 0x45
  | .pcGetlat => 0x46
  | .hcWorksize => 0x50
  | .hcCreate => 0x51
  | .hcDestroy => 0x52
  | .hcReset => 0x53
  | .hcSetcoef => 0x54
  | .hcConvolve => 0x55
  | .hcGetlat => 0x56

/-- The word of a command (R110: `match = opcode`, every bit significant). -/
def encode (i : Instr) : Word32 := BitVec.ofNat 32 (opcode i)

/-- The offset of argument register `i` in the register block (R31). -/
def argOffset (i : Nat) : Nat := 0x10 + 8 * i

/-- The operand writes of a line whose first operand belongs to register `i`; the operand `_` writes nothing (R109). -/
def operandWrites (regBase agent : Nat) : Nat → List (Option Word64) → List HostAction
  | _, [] => []
  | i, none :: ops => operandWrites regBase agent (i + 1) ops
  | i, some v :: ops =>
    .write agent (regBase + argOffset i) (bytesOfWord64 v) :: operandWrites regBase agent (i + 1) ops

/-- The host actions of a command line: its operand writes, then the write of its command word to CMD (R109). -/
def CommandLine.expand (regBase agent : Nat) (l : CommandLine) : List HostAction :=
  operandWrites regBase agent 0 l.ops ++ [.write agent regBase (bytesOfWord32 (encode l.instr))]

/-- The host actions of an assembly line (R108, R109). -/
def AsmLine.expand (regBase agent : Nat) : AsmLine → List HostAction
  | .command l => l.expand regBase agent
  | .readRes => [.read (regBase + 0x08) 8]
  | .readStatus => [.read (regBase + 0x04) 4]
  | .memF32 addr samples => [.write agent addr (samples.flatMap bytesOfWord32)]
  | .memBytes addr bytes => [.write agent addr bytes]

end Sys2Proof
end

