-- ==== Sys2Proof/Machine/State.lean ====
section
/-! DEFINITION. The state of the engine and its host memory (10_state.md, 20_memory.md), as plain data, and its value
after block reset (70_reset_and_hazards.md R440). -/
namespace Sys2Proof.Machine

/-- The argument registers A0..A7 (R31, R32). -/
structure Args where
  a0 : Word64
  a1 : Word64
  a2 : Word64
  a3 : Word64
  a4 : Word64
  a5 : Word64
  a6 : Word64
  a7 : Word64
  deriving DecidableEq, Repr

/-- RB unit state (R40). `n` is the capacity `N`, `d` the base `D` of the data region, whose bytes are host memory. -/
structure RbState where
  n   : Nat
  rs  : Nat
  mrs : Nat
  r   : Nat
  w   : Nat
  d   : Nat
  deriving DecidableEq, Repr

/-- An internal ring of samples (R159): an RB unit state with `rs = 4` whose slots, the shadow region's included, hold
sample values. `n` is the capacity `N`; the base `D` is `internalRings` of the handle and the configuration. Log 14. -/
structure SampleRing (α : Type) where
  n     : Nat
  mrs   : Nat
  r     : Nat
  w     : Nat
  slots : List α
  deriving DecidableEq, Repr

/-- KC unit state (R42). -/
structure KcState (α : Type) where
  maxc  : Nat
  maxin : Nat
  nc    : Nat
  coef  : List α
  ovl   : List α
  deriving DecidableEq, Repr

/-- PC unit state (R43). `h` is `H`, the packed spectra of the partitions; `fb` is `FB`, those of past input blocks. -/
structure PcState (α : Type) where
  maxc    : Nat
  maxin   : Nat
  f       : Nat
  nc      : Nat
  np      : Nat
  h       : List (List α)
  fb      : List (List α)
  head    : Nat
  acc     : List α
  inCount : Nat
  cursor  : Nat
  inRing  : SampleRing α
  outRing : SampleRing α
  deriving DecidableEq, Repr

/-- The mode of a hybrid convolver (R44). -/
inductive HcMode where
  | timeOnly
  | hybrid
  deriving DecidableEq, Repr

/-- HC unit state (R44). `t` is the threshold `T`; `k`, `q` and `dly` are the sub-states `K`, `Q` and `Dly`. -/
structure HcState (α : Type) where
  maxc  : Nat
  maxin : Nat
  f     : Nat
  t     : Nat
  mode  : HcMode
  k     : KcState α
  q     : PcState α
  dly   : SampleRing α
  deriving DecidableEq, Repr

/-- The unit of an instance with its configuration and unit state (R38). The FFT unit has no instances (R41). -/
inductive UnitState where
  | rb (st : RbState)
  | kc (st : KcState F32)
  | pc (st : PcState F32)
  | hc (st : HcState F32)
  deriving DecidableEq, Repr

/-- A live instance (R38): the arena address `buf` the host passed, the work size `ws`, the unit and its state. -/
structure Instance where
  buf  : Nat
  ws   : Nat
  unit : UnitState
  deriving DecidableEq, Repr

/-- Host memory (R70). `cells` lists the bytes that differ from what an unlisted address reads as, at strictly rising
addresses. `drawn` lists the addresses whose byte is an unconstrained value, each with the number of the draw that gave
it (R82, R216; log 5). An address stands in at most one of the two. -/
structure Memory where
  cells : List Host.Cell
  drawn : List (Nat × Nat)
  deriving DecidableEq, Repr

/-- What an address in neither list reads as. DESIGN CHOICE: the spec gives no power-on contents (log 7). -/
def Memory.unlisted : Byte := 0

/-- The machine's state. The first six fields and `mem.cells` are the spec's (10_state.md); the others are the model's own
(INVENTORY.md, '## State'). -/
structure State where
  /-- CMD: the last value written to it (R31) -/
  cmd     : Word32
  /-- STATUS: CODE in bits 7:0, bits 31:8 always 0 (R35) -/
  status  : Word32
  /-- RES: the result value of the last command (R36) -/
  res     : Word64
  /-- A0..A7 (R32) -/
  args    : Args
  /-- the instance set, by handle, at strictly rising handles (R38) -/
  insts   : List (Nat × Instance)
  /-- host memory (R70) -/
  mem     : Memory
  /-- the host's pending actions, oldest first (log 2) -/
  inputs  : List HostAction
  /-- the bytes the last host read returned (log 3) -/
  readOut : List Byte
  /-- the agent whose operand writes its CMD write has not closed yet (R413, log 4) -/
  owner   : Option Nat
  /-- the number of the next draw (log 5) -/
  draws   : Nat
  /-- the model arguments (R7, R45; log 1) -/
  plat    : Platform
  deriving DecidableEq, Repr

/-- The sticky fault's reasons (R404, R405): the run has no defined continuation, so stopping is safe. -/
inductive Fault where
  /-- raised by a command whose engine access leaves `MEM` (R71); safe -/
  | bus
  /-- raised by a host write into a live arena (R87), a command whose destination or new arena overlaps a live arena
  (R88, R89), and operand writes of two agents that interleave (R413); safe -/
  | hostProtocol
  /-- raised by PC and HC commands when an internal ring operation fails its checks (R159), which no reachable state does; safe -/
  | internal
  deriving DecidableEq, Repr

/-- Why the model gives an action no meaning. -/
inductive Refusal where
  /-- raised by exec for an instruction without a meaning yet; safe -/
  | notModelled (mnemonic : String)
  /-- raised by a host access to the register block that R34 does not list: another width, a misaligned one, or one that
  leaves the block; safe -/
  | registerAccess
  /-- raised by a host access to host memory outside `MEM`, whose effect the platform decides (R70, log 9); safe -/
  | hostUnbacked
  deriving DecidableEq, Repr

/-- A0..A7 after block reset (R31). -/
def Args.zero : Args := { a0 := 0, a1 := 0, a2 := 0, a3 := 0, a4 := 0, a5 := 0, a6 := 0, a7 := 0 }

/-- The platform the reset state stands on. DESIGN CHOICE: the spec leaves every field open (log 1). -/
def Platform.default : Platform :=
  { regBase := 2 ^ 64 - 256, mem := [{ base := 0, len := 2 ^ 64 - 256 }], fftMaxN := 65536, fft := .other 0 }

/-- The machine right after block reset: registers 0, no instance (R31, R440), memory with nothing listed, no pending
host action. -/
def State.reset : State :=
  { cmd := 0, status := 0, res := 0, args := Args.zero, insts := [], mem := { cells := [], drawn := [] },
    inputs := [], readOut := [], owner := none, draws := 0, plat := Platform.default }

end Sys2Proof.Machine
end

