-- ==== Sys2Proof/Machine/Flags.lean ====
section
/-! DEFINITION. The status codes (60_exceptions.md R400) and the writing of STATUS and RES at the end of a command
(10_state.md R35 to R37). STATUS.CODE is the engine's only condition code; there are no other flags (R35, R402). -/
namespace Sys2Proof.Machine

/-- The status codes a command writes (R400). Codes 6 to 255 are never written. -/
inductive StatusCode where
  | ok
  | invalidArgument
  | exceedsCapacity
  | exceedsRemainingData
  | exceedsMaxRequiredSize
  | illegalCommand
  deriving DecidableEq, Repr

/-- The number of a status code (R400). -/
def StatusCode.number : StatusCode → BitVec 8
  | .ok => 0
  | .invalidArgument => 1
  | .exceedsCapacity => 2
  | .exceedsRemainingData => 3
  | .exceedsMaxRequiredSize => 4
  | .illegalCommand => 5

/-- STATUS with CODE in bits 7:0 and 0 in bits 31:8 (R35). -/
def statusWord (c : StatusCode) : Word32 := c.number.zeroExtend 32

/-- STATUS.CODE (R35). -/
def State.code (s : State) : BitVec 8 := s.status.extractLsb' 0 8

/-- The end of a failing command: CODE is the failing code, RES is 0, and nothing else changes (R37). -/
def State.raise (s : State) (c : StatusCode) : State := { s with status := statusWord c, res := 0 }

/-- The end of a successful command: CODE is OK and RES its result value (R36). -/
def State.complete (s : State) (v : Nat) : State := { s with status := statusWord .ok, res := BitVec.ofNat 64 v }

end Sys2Proof.Machine
end

