-- ==== Sys2Proof/Machine/Sizes.lean ====
section
/-! DEFINITION. The fixed parameters of R7, the integer functions of R8, the derived sizes of the unit states (R40 to R44),
the work sizes (R83 to R86) and the valid configurations (R144, R250, R313, R361). -/
namespace Sys2Proof.Machine

/-- `HDR_SIZE` (R7): bytes of the per-instance header. -/
def hdrSize : Nat := 64

/-- `ARENA_ALIGN` (R7): the alignment of every internal array, and the slack of a work size (R80). -/
def arenaAlign : Nat := 16

/-- `T_DEFAULT` (R7): the default hybrid threshold. -/
def tDefault : Nat := 1024

/-- `KARATSUBA_BASE` (R7): the largest length the direct base case computes. -/
def karatsubaBase : Nat := 8

/-- `KARATSUBA_SCRATCH` (R7): the recursion workspace in multiples of the block. -/
def karatsubaScratch : Nat := 6

/-- `ceil_div(a, b) = (a + b − 1) div b` (R8). -/
def ceilDiv (a b : Nat) : Nat := (a + b - 1) / b

/-- `nextpow2(v)`: the least power of two not below `v`, with `nextpow2(0) = nextpow2(1) = 1` (R8). -/
def nextpow2 (v : Nat) : Nat := if v ≤ 1 then 1 else 2 ^ ((v - 1).log2 + 1)

/-- `align16(v) = (v + 15) div 16 × 16` (R8). -/
def align16 (v : Nat) : Nat := (v + (arenaAlign - 1)) / arenaAlign * arenaAlign

/-- `ispow2(v)`: `v = 2^k` for some `k ≥ 0` (R8). -/
def ispow2 (v : Nat) : Bool := decide (2 ^ v.log2 = v)

/-- `(a − b) mod m` as the representative in `[0, m)`, also when `a < b` (R8). -/
def subMod (a b m : Nat) : Nat := (a + (m - b % m)) % m

/-- `B = N + 1` (R140). -/
def RbState.size (st : RbState) : Nat := st.n + 1

/-- `remaining = (w − r) mod B` (R40). -/
def RbState.remaining (st : RbState) : Nat := subMod st.w st.r st.size

/-- `capacity_available = B − remaining − 1` (R40). -/
def RbState.free (st : RbState) : Nat := st.size - st.remaining - 1

/-- The bytes of the data region: `(B + mrs) · rs` (R40). -/
def RbState.dataLen (st : RbState) : Nat := (st.size + st.mrs) * st.rs

/-- The address of slot `s` (R141). -/
def RbState.slotAddr (st : RbState) (s : Nat) : Nat := st.d + s * st.rs

/-- `B = N + 1` of an internal ring (R140). -/
def SampleRing.size {α : Type} (q : SampleRing α) : Nat := q.n + 1

/-- `remaining = (w − r) mod B` of an internal ring (R40). -/
def SampleRing.remaining {α : Type} (q : SampleRing α) : Nat := subMod q.w q.r q.size

/-- `capacity_available` of an internal ring (R40). -/
def SampleRing.free {α : Type} (q : SampleRing α) : Nat := q.size - q.remaining - 1

/-- `Bmax = nextpow2(max(maxc, maxin))` (R42). -/
def kcBmax (maxc maxin : Nat) : Nat := nextpow2 (max maxc maxin)

/-- `Bmax` of a KC state (R42). -/
def KcState.bmax {α : Type} (st : KcState α) : Nat := kcBmax st.maxc st.maxin

/-- `P = F / 2`, the partition size and the latency (R43, R250). -/
def PcState.p {α : Type} (st : PcState α) : Nat := st.f / 2

/-- `NPmax = ceil_div(maxc, P)` (R43). -/
def pcNpMax (maxc f : Nat) : Nat := ceilDiv maxc (f / 2)

/-- `NPmax` of a PC state (R43). -/
def PcState.npMax {α : Type} (st : PcState α) : Nat := pcNpMax st.maxc st.f

/-- `L = F / 2`, the latency of the sub-PC (R44). -/
def HcState.l {α : Type} (st : HcState α) : Nat := st.f / 2

/-- `WS_RB` (R83). -/
def wsRb (n rs mrs : Nat) : Nat := arenaAlign + hdrSize + align16 ((n + 1 + mrs) * rs)

/-- `WS_KC` (R84): `coef`, `inblk`, `zbuf`, `ovl`, `scr`. -/
def wsKc (maxc maxin : Nat) : Nat :=
  let b := kcBmax maxc maxin
  arenaAlign + hdrSize + align16 (4 * b) + align16 (4 * b) + align16 (8 * b) + align16 (8 * b)
    + align16 (4 * karatsubaScratch * b)

/-- `WS_PC` (R85): the two rings, `H` and `FB`, `acc` and the two FFT buffers. -/
def wsPc (maxc maxin f : Nat) : Nat :=
  arenaAlign + hdrSize + wsRb (2 * (f / 2) + maxin) 4 f + wsRb (f / 2 + maxin) 4 maxin
    + 2 * align16 (4 * pcNpMax maxc f * f) + 3 * align16 (4 * f)

/-- `WS_HC` (R86): `K`, `Q`, `Dly` and the `yp` buffer. -/
def wsHc (maxc maxin f t : Nat) : Nat :=
  arenaAlign + hdrSize + wsKc (min maxc t) maxin + wsPc (max 1 (maxc - t)) maxin f
    + wsRb ((t - f / 2) + maxin) 4 maxin + align16 (4 * maxin)

/-- The data region of the internal ring whose part of an arena begins at `base`: behind the ring's own header,
`(B + mrs) · 4` bytes (R40, R83). -/
def ringSpan (base n mrs : Nat) : Span := { base := base + hdrSize, len := (n + 1 + mrs) * 4 }

/-- The data regions of `InRing` and `OutRing` of a PC state whose part of an arena begins at `base`: R80 puts the arrays
behind the header, and they stand in the order in which R85 lists their sizes (log 23). Every size is a multiple of 16,
so each begins on a 16-byte boundary when `base` does. -/
def pcRingSpans (base maxin f : Nat) : List Span :=
  let inBase := base + hdrSize
  let outBase := inBase + wsRb (2 * (f / 2) + maxin) 4 f
  [ringSpan inBase (2 * (f / 2) + maxin) f, ringSpan outBase (f / 2 + maxin) maxin]

/-- The data regions of the rings of `Q` and of `Dly` of an HC state whose arena part begins at `base`, in the order in which
R86 lists the sizes of `K`, `Q` and `Dly` (log 23). -/
def hcRingSpans (base maxc maxin f t : Nat) : List Span :=
  let qBase := base + hdrSize + wsKc (min maxc t) maxin
  let dlyBase := qBase + wsPc (max 1 (maxc - t)) maxin f
  pcRingSpans qBase maxin f ++ [ringSpan dlyBase ((t - f / 2) + maxin) maxin]

/-- The data regions of the internal rings of the instance at a handle (R43, R44); RB and KC have none. -/
def internalRings (hdl : Nat) : UnitState → List Span
  | .rb _ => []
  | .kc _ => []
  | .pc st => pcRingSpans hdl st.maxin st.f
  | .hc st => hcRingSpans hdl st.maxc st.maxin st.f st.t

/-- `ValidRB` (R144). -/
def validRb (n rs mrs : Nat) : Bool :=
  decide (1 ≤ n) && decide (1 ≤ rs) && decide (1 ≤ mrs) && decide (mrs ≤ n) && decide (wsRb n rs mrs < addrLimit)

/-- `ValidKC` (R313). -/
def validKc (maxc maxin : Nat) : Bool :=
  decide (1 ≤ maxc) && decide (1 ≤ maxin) && decide (wsKc maxc maxin < addrLimit)

/-- A legal `fft_size`: a power of two, `2 ≤ F ≤ FFT_MAX_N` (R250, R361). -/
def validFftSize (fftMaxN f : Nat) : Bool := ispow2 f && decide (2 ≤ f) && decide (f ≤ fftMaxN)

/-- `ValidPC` (R250). -/
def validPc (fftMaxN maxc maxin f : Nat) : Bool :=
  decide (1 ≤ maxc) && decide (1 ≤ maxin) && validFftSize fftMaxN f && decide (wsPc maxc maxin f < addrLimit)

/-- `ValidHC` (R361). -/
def validHc (fftMaxN maxc maxin f t : Nat) : Bool :=
  decide (1 ≤ maxc) && decide (1 ≤ maxin) && validFftSize fftMaxN f && decide (f / 2 ≤ t)
    && decide (wsHc maxc maxin f t < addrLimit)

/-- The threshold an operand selects: 0 selects `T_DEFAULT` (R360). -/
def thresholdOf (targ : Nat) : Nat := if targ = 0 then tDefault else targ

/-- `ValidFFT(kind, n, flag)` (R201). -/
def validFft (fftMaxN : Nat) (kind : FftKind) (n : Nat) (flag : Int) : Bool :=
  ispow2 n && (match kind with | .cplx => decide (1 ≤ n) | .real => decide (2 ≤ n)) && decide (n ≤ fftMaxN)
    && (decide (flag = -1) || decide (flag = 1))

/-- The number of floats an FFT operand holds: `n` complex values are `2n` floats (R200). -/
def fftFloats (kind : FftKind) (n : Nat) : Nat :=
  match kind with
  | .cplx => 2 * n
  | .real => n

end Sys2Proof.Machine
end

