-- ==== Sys2Proof/Machine/Ops.lean ====
section
/-! DEFINITION. The shared operations: how a command ends, maps keyed by naturals, host memory, arenas, the engine's memory
accesses (20_memory.md) and the handle check (60_exceptions.md R403). The engine has no exception to take or to return
from (R407): `finish` is the one place where a command stops. -/
namespace Sys2Proof

/-- `a` lies in the span. -/
def Span.has (p : Span) (a : Nat) : Bool := decide (p.base ≤ a) && decide (a < p.base + p.len)

/-- The address `a` is backed by platform memory: `a ∈ MEM`, a set of addresses below `2^64` (R70). -/
def Platform.backed (p : Platform) (a : Nat) : Bool := decide (a < addrLimit) && p.mem.any (Span.has · a)

end Sys2Proof

namespace Sys2Proof.Machine

/-- Why a command stops before its effects: a failing status code (R37) or the model's fault (R404). -/
inductive Stop where
  | status (c : StatusCode)
  | fault (f : Fault)
  deriving DecidableEq, Repr

/-- A command, or a part of one: a value, or the reason it stops. The first failing check is the one reported (R401). -/
abbrev Cmd (α : Type) := Except Stop α

/-- `if not p : raise Status(c)` (R9). -/
def require (p : Prop) [Decidable p] (c : StatusCode) : Cmd Unit :=
  if p then .ok () else .error (.status c)

/-- `if p : fault(f)` (R9). -/
def faultIf (p : Prop) [Decidable p] (f : Fault) : Cmd Unit :=
  if p then .error (.fault f) else .ok ()

/-- The value of an internal operation, which may assert its checks (R159). -/
def orInternal {α : Type} : Option α → Cmd α
  | some v => .ok v
  | none => .error (.fault .internal)

/-- How a command started in `s` ends: in the state it computed; all-or-nothing in `s` with the failing code and RES 0
(R37); or in the sticky fault (R404). -/
def finish (s : State) : Cmd State → Host.Outcome State Fault Refusal
  | .ok t => .next t
  | .error (.status c) => .next (s.raise c)
  | .error (.fault f) => .fault f

/-! ### Maps from naturals, as lists of pairs at strictly rising keys -/

/-- The value at key `k`. -/
def assocGet {β : Type} (k : Nat) : List (Nat × β) → Option β
  | [] => none
  | (j, v) :: t => if j = k then some v else assocGet k t

/-- Add or replace the value at key `k`. -/
def assocSet {β : Type} (k : Nat) (v : β) : List (Nat × β) → List (Nat × β)
  | [] => [(k, v)]
  | (j, u) :: t =>
    if k < j then (k, v) :: (j, u) :: t
    else if k = j then (k, v) :: t
    else (j, u) :: assocSet k v t

/-- Remove the keys in `[lo, lo + len)`. -/
def assocDrop {β : Type} (lo len : Nat) (l : List (Nat × β)) : List (Nat × β) :=
  l.filter fun p => decide (p.1 < lo) || decide (lo + len ≤ p.1)

/-- The keys rise strictly. -/
abbrev assocRising {β : Type} (l : List (Nat × β)) : Prop := (l.map Prod.fst).Pairwise (· < ·)

/-! ### Host memory -/

/-- The canonical form of memory: both lists rise strictly, no listed byte equals what an unlisted address reads as, and
no address stands in both lists. -/
abbrev Memory.wf (m : Memory) : Prop :=
  assocRising m.cells ∧ assocRising m.drawn ∧ (∀ c ∈ m.cells, c.2 ≠ Memory.unlisted) ∧
    ∀ c ∈ m.cells, assocGet c.1 m.drawn = none

/-- The byte at an address (R78): a drawn byte is the value of its draw (R216). -/
def Memory.read (m : Memory) (a : Nat) : Byte :=
  match assocGet a m.drawn with
  | some draw => Config.freeByte draw a
  | none => (assocGet a m.cells).getD Memory.unlisted

/-- Store one byte. -/
def Memory.set (m : Memory) (a : Nat) (b : Byte) : Memory :=
  { cells := if b = Memory.unlisted then assocDrop a 1 m.cells else assocSet a b m.cells,
    drawn := assocDrop a 1 m.drawn }

/-- Store bytes at rising addresses from `a`. -/
def Memory.write (m : Memory) (a : Nat) : List Byte → Memory
  | [] => m
  | b :: bs => (m.set a b).write (a + 1) bs

/-- Store `len` bytes 0 from `a`: an address reads 0 by not being listed. -/
def Memory.zeroFill (m : Memory) (a len : Nat) : Memory :=
  { cells := assocDrop a len m.cells, drawn := assocDrop a len m.drawn }

/-- Give the `len` bytes from `a` the unconstrained values of draw `draw` (R82, R216). -/
def Memory.havoc (m : Memory) (draw a len : Nat) : Memory :=
  { cells := assocDrop a len m.cells,
    drawn := m.drawn.filter (fun p => decide (p.1 < a)) ++ (List.range len).map (fun i => (a + i, draw))
      ++ m.drawn.filter (fun p => decide (a + len ≤ p.1)) }

/-- Every address of `[lo, hi)` lies in one of the spans: step from `lo` to the end of a span that has it, at most
`fuel` times. -/
def coverFrom (spans : List Span) : Nat → Nat → Nat → Bool
  | 0, lo, hi => decide (hi ≤ lo)
  | fuel + 1, lo, hi =>
    if hi ≤ lo then true
    else
      match spans.find? (Span.has · lo) with
      | some sp => coverFrom spans fuel (sp.base + sp.len) hi
      | none => false

/-- Every byte of `[a, a + len)` is in `MEM` (R71); no byte is when `len = 0`. -/
def backedRange (p : Platform) (a len : Nat) : Bool :=
  decide (len = 0) || (decide (a + len ≤ addrLimit) && coverFrom p.mem p.mem.length a (a + len))

/-! ### Arenas -/

/-- `[a, a + n)` and `[b, b + m)` have an address in common; an empty range meets none (log 15). -/
def rangesMeet (a n b m : Nat) : Bool :=
  decide (0 < n) && decide (0 < m) && decide (a < b + m) && decide (b < a + n)

/-- The address lies in the instance's arena `[buf, buf + ws)` (R38). -/
def Instance.arenaHas (i : Instance) (a : Nat) : Bool := decide (i.buf ≤ a) && decide (a < i.buf + i.ws)

/-- The address lies in the data region of an RB instance (R81). -/
def UnitState.dataHas (u : UnitState) (a : Nat) : Bool :=
  match u with
  | .rb st => decide (st.d ≤ a) && decide (a < st.d + st.dataLen)
  | _ => false

/-- The address lies in a live arena, outside the data region of an RB instance: its byte may hold any value at any
time (R82). -/
def State.unconstrained (s : State) (a : Nat) : Bool :=
  s.insts.any fun p => p.2.arenaHas a && !p.2.unit.dataHas a

/-- The region `[a, a + n)` overlaps a live arena (R87 to R89). -/
def State.meetsArena (s : State) (a n : Nat) : Bool :=
  s.insts.any fun p => rangesMeet a n p.2.buf p.2.ws

/-- The byte an access in `s` reads at `a`: the memory's byte, or a draw of this step (R78, R81, R82, R88). -/
def State.readByte (s : State) (a : Nat) : Byte :=
  if s.unconstrained a then Config.freeByte s.draws a else s.mem.read a

/-- The `n` bytes an access in `s` reads from `a`. -/
def State.readBytes (s : State) (a n : Nat) : List Byte := (List.range n).map fun i => s.readByte (a + i)

/-- The next draw is a fresh one. -/
def State.nextDraw (s : State) : State := { s with draws := s.draws + 1 }

/-! ### The engine's memory accesses -/

/-- The platform backs every byte of the spans. -/
def allBacked (p : Platform) (spans : List Span) : Bool := spans.all fun sp => backedRange p sp.base sp.len

/-- The accesses of internal ring operations to the rings' data regions in the arena (R71, R142, R148, R159): the bytes
they leave are unconstrained (R82), so what there is of them is the bus fault. A command that operates on internal rings
is checked on their whole data regions (log 23). -/
def touchRings (s : State) (spans : List Span) : Cmd Unit := faultIf (allBacked s.plat spans = false) .bus

/-- `MemRead(a, n)` (R9, R71). -/
def memRead (s : State) (a n : Nat) : Cmd (List Byte) :=
  if backedRange s.plat a n then .ok (s.readBytes a n) else .error (.fault .bus)

/-- `MemWrite(a, n, v)` (R9, R71). -/
def memWrite (s : State) (a : Nat) (bs : List Byte) : Cmd State :=
  if backedRange s.plat a bs.length then .ok { s with mem := s.mem.write a bs } else .error (.fault .bus)

/-- `MemWrite(a, n, zeros)` (R9, R71). -/
def memZero (s : State) (a n : Nat) : Cmd State :=
  if backedRange s.plat a n then .ok { s with mem := s.mem.zeroFill a n } else .error (.fault .bus)

/-- A write of any value to `[a, a + n)` (R216). -/
def memHavoc (s : State) (a n : Nat) : Cmd State :=
  if backedRange s.plat a n then .ok { s with mem := s.mem.havoc s.draws a n } else .error (.fault .bus)

/-- The samples of a byte string, four bytes each, least significant byte first (R72). -/
def samplesOf : List Byte → List F32
  | b0 :: b1 :: b2 :: b3 :: bs => wordOfBytes b0 b1 b2 b3 :: samplesOf bs
  | _ => []

/-- The bytes of a sequence of samples (R72). -/
def bytesOf (xs : List F32) : List Byte := xs.flatMap bytesOfWord32

/-- `n` samples read from `a` (R9, R72). -/
def readSamples (s : State) (a n : Nat) : Cmd (List F32) := do
  let bs ← memRead s a (4 * n)
  return samplesOf bs

/-! ### The instance set -/

/-- CheckHandle (R403) with a projection to the state of the unit the command belongs to. -/
def checkHandle {σ : Type} (proj : UnitState → Option σ) (s : State) (hdl : Nat) : Cmd (Instance × σ) :=
  match assocGet hdl s.insts with
  | none => .error (.status .invalidArgument)
  | some i =>
    match proj i.unit with
    | none => .error (.status .invalidArgument)
    | some st => .ok (i, st)

/-- The RB state of a unit. -/
def UnitState.asRb : UnitState → Option RbState
  | .rb st => some st
  | _ => none

/-- The KC state of a unit. -/
def UnitState.asKc : UnitState → Option (KcState F32)
  | .kc st => some st
  | _ => none

/-- The PC state of a unit. -/
def UnitState.asPc : UnitState → Option (PcState F32)
  | .pc st => some st
  | _ => none

/-- The HC state of a unit. -/
def UnitState.asHc : UnitState → Option (HcState F32)
  | .hc st => some st
  | _ => none

/-- `instances[hdl] <- i` (R38). -/
def State.setInstance (s : State) (hdl : Nat) (i : Instance) : State := { s with insts := assocSet hdl i s.insts }

/-- `remove instances[hdl]` (R38). -/
def State.removeInstance (s : State) (hdl : Nat) : State := { s with insts := assocDrop hdl 1 s.insts }

/-- The checks and effects every CREATE shares (R146, R253, R318, R363): the null pointer, the configuration, the buffer
size, the address overflow and the arena overlap, in this order; then the new instance at `align16(buf)`, whose arena
bytes take any value (R80, R82). An arena may cover addresses of the register block (log 22). The answer is the handle
and the state. -/
def createInstance (s : State) (buf bsz : Nat) (valid : Bool) (ws : Nat) (mk : Nat → UnitState) : Cmd (Nat × State) := do
  require (buf ≠ 0) .invalidArgument
  require (valid = true) .invalidArgument
  require (ws ≤ bsz) .invalidArgument
  require (buf + ws ≤ addrLimit) .invalidArgument
  faultIf (s.meetsArena buf ws = true) .hostProtocol
  let hdl := align16 buf
  let s1 : State := { s with mem := s.mem.havoc s.draws buf ws }
  return (hdl, (s1.setInstance hdl { buf := buf, ws := ws, unit := mk hdl }).nextDraw)

/-- The body every DESTROY shares (R147, R254, R319, R364): the arena is zeroed and the instance removed. -/
def destroyInstance (s : State) (hdl : Nat) (i : Instance) : Cmd State := do
  let s1 ← memZero s i.buf i.ws
  return (s1.removeInstance hdl).complete 0

end Sys2Proof.Machine
end

