-- ==== Sys2Proof/Machine/Operands.lean ====
section
/-! DEFINITION. The operands of a command: the argument registers (10_state.md R32, 30_encoding.md R103, R104), and the
operand checks the convolvers share (R256, R259 and the like, 20_memory.md R90). -/
namespace Sys2Proof.Machine

/-- The register `A_i`; only `i < 8` names a register. -/
def Args.get (a : Args) (i : Nat) : Word64 :=
  match i with
  | 0 => a.a0
  | 1 => a.a1
  | 2 => a.a2
  | 3 => a.a3
  | 4 => a.a4
  | 5 => a.a5
  | 6 => a.a6
  | 7 => a.a7
  | _ => 0

/-- `A_i <- v`; only `i < 8` names a register. -/
def Args.set (a : Args) (i : Nat) (v : Word64) : Args :=
  match i with
  | 0 => { a with a0 := v }
  | 1 => { a with a1 := v }
  | 2 => { a with a2 := v }
  | 3 => { a with a3 := v }
  | 4 => { a with a4 := v }
  | 5 => { a with a5 := v }
  | 6 => { a with a6 := v }
  | 7 => { a with a7 := v }
  | _ => a

/-- An operand: the register's 64 bits as an unsigned number (R8, R104). -/
def State.arg (s : State) (i : Nat) : Nat := (s.args.get i).toNat

/-- A signed operand: the register's 64 bits as two's complement; only the FFT `flag` is one (R8, R104). -/
def State.sarg (s : State) (i : Nat) : Int := (s.args.get i).toInt

/-- The operands of a SETCOEF after its handle check (R256, R316, R365): the pointer in A1, the count in A2 within the
configured maximum, the region inside the address space; then the coefficients, read in full (R92). -/
def readCoefficients (s : State) (maxc : Nat) : Cmd (List F32) := do
  require (s.arg 1 ≠ 0) .invalidArgument
  require (s.arg 2 ≠ 0 ∧ s.arg 2 ≤ maxc) .invalidArgument
  require (s.arg 1 + 4 * s.arg 2 ≤ addrLimit) .invalidArgument
  readSamples s (s.arg 1) (s.arg 2)

/-- The checks of a CONVOLVE after its handle check (R259, R322, R368): `in` in A1, `out` in A2, `n` in A3; null
pointers, the per-call maximum, the address overflow, then the destination against the live arenas (R88). -/
def checkBlock (s : State) (maxin : Nat) : Cmd Unit := do
  require (s.arg 1 ≠ 0 ∧ s.arg 2 ≠ 0) .invalidArgument
  require (s.arg 3 ≤ maxin) .invalidArgument
  require (s.arg 1 + 4 * s.arg 3 ≤ addrLimit ∧ s.arg 2 + 4 * s.arg 3 ≤ addrLimit) .invalidArgument
  faultIf (s.meetsArena (s.arg 2) (4 * s.arg 3) = true) .hostProtocol

end Sys2Proof.Machine
end

