-- ==== Sys2Proof/Machine/F32.lean ====
section
/-! DEFINITION. Binary32 arithmetic (00_scope.md R9, R10, D11): IEEE 754 add, subtract and multiply under
round-to-nearest-even, subnormals kept, no flags; and the interface the datapaths are written over, so that their ideal
laws can be stated over exact arithmetic (R11). -/
namespace Sys2Proof.Machine

/-- The sign bit. -/
def f32Neg (x : F32) : Bool := x.getLsbD 31

/-- The biased exponent field. -/
def f32Exp (x : F32) : Nat := (x.extractLsb' 23 8).toNat

/-- The fraction field. -/
def f32Frac (x : F32) : Nat := (x.extractLsb' 0 23).toNat

/-- A NaN: exponent field all ones, fraction not 0. -/
def f32IsNaN (x : F32) : Bool := decide (f32Exp x = 255) && decide (f32Frac x ≠ 0)

/-- An infinity: exponent field all ones, fraction 0. -/
def f32IsInf (x : F32) : Bool := decide (f32Exp x = 255) && decide (f32Frac x = 0)

/-- A finite value. -/
def f32IsFinite (x : F32) : Bool := decide (f32Exp x ≠ 255)

/-- The magnitude of a finite value in units of `2^-149`, the least subnormal: every finite binary32 value is a whole
number of them. -/
def f32Mag (x : F32) : Nat :=
  if f32Exp x = 0 then f32Frac x else (2 ^ 23 + f32Frac x) * 2 ^ (f32Exp x - 1)

/-- A finite value in units of `2^-149`. -/
def f32Units (x : F32) : Int := if f32Neg x then -(f32Mag x : Int) else (f32Mag x : Int)

/-- A sign and the 31 bits below it. -/
def f32Pack (neg : Bool) (mag : Nat) : F32 := BitVec.ofNat 32 ((if neg then 2 ^ 31 else 0) + mag)

/-- The 31 low bits of the magnitude `n · 2^(-149 - k)` rounded to nearest, ties to even; a magnitude that rounds past
the greatest finite value gives the infinity. -/
def roundMag (n k : Nat) : Nat :=
  let q := max k (n.log2 - 23)
  let m := n / 2 ^ q
  let rem := n % 2 ^ q
  let up := if 2 ^ q < 2 * rem ∨ (2 * rem = 2 ^ q ∧ m % 2 = 1) then 1 else 0
  min ((q - k) * 2 ^ 23 + m + up) 0x7F800000

/-- `+0.0`. -/
def f32Zero : F32 := 0

/-- The infinity with a sign. -/
def f32Inf (neg : Bool) : F32 := f32Pack neg 0x7F800000

/-- What an operation leaves inside the engine when its result is a NaN. Its bits never reach the host: where a NaN
leaves a command, a draw takes its place (log 6). -/
def f32NaN : F32 := 0x7FC00000#32

/-- The value with the opposite sign: the exact negation used by `conj`, `mulj` and `⊖` (R10). -/
def f32Negate (x : F32) : F32 := x ^^^ 0x80000000#32

/-- `a ⊕ b` (R9). -/
def f32Add (a b : F32) : F32 :=
  if f32IsNaN a || f32IsNaN b then f32NaN
  else if f32IsInf a then (if f32IsInf b && (f32Neg a != f32Neg b) then f32NaN else a)
  else if f32IsInf b then b
  else
    let t := f32Units a + f32Units b
    if t = 0 then f32Pack (f32Neg a && f32Neg b) 0
    else f32Pack (decide (t < 0)) (roundMag t.natAbs 0)

/-- `a ⊖ b` (R9). -/
def f32Sub (a b : F32) : F32 := f32Add a (f32Negate b)

/-- `a ⊗ b` (R9). -/
def f32Mul (a b : F32) : F32 :=
  let neg := f32Neg a != f32Neg b
  if f32IsNaN a || f32IsNaN b then f32NaN
  else if f32IsInf a then (if f32IsFinite b && decide (f32Mag b = 0) then f32NaN else f32Inf neg)
  else if f32IsInf b then (if decide (f32Mag a = 0) then f32NaN else f32Inf neg)
  else f32Pack neg (roundMag (f32Mag a * f32Mag b) 149)

/-- The binary32 value `2 / F` of a power of two `F` (R257). -/
def f32TwoOver (f : Nat) : F32 := f32Pack false (roundMag (2 ^ 150 / f) 0)

/-- A NaN with the sign and payload of some bits: the exponent field is all ones, and a zero fraction gives way to one
that is not 0, so that the result is a NaN whatever the bits are. -/
def f32NaNOf (bits : F32) : F32 :=
  let x := bits ||| 0x7F800000#32
  if f32Frac x = 0 then x ||| 0x00400000#32 else x

/-- Replace each NaN of a vector by the NaN of a free value for its place (D11; log 6). -/
def settleNaNs (free : Nat → F32) (xs : List F32) : List F32 :=
  xs.mapIdx fun i x => if f32IsNaN x then f32NaNOf (free i) else x

/-- Arithmetic on samples: binary32 for the machine, exact for the ideal laws (R11). -/
structure Arith (α : Type) where
  zero : α
  add  : α → α → α
  sub  : α → α → α
  mul  : α → α → α

/-- `⊕`, `⊖`, `⊗` on binary32 (R9). -/
def f32Arith : Arith F32 := { zero := f32Zero, add := f32Add, sub := f32Sub, mul := f32Mul }

/-- `cadd` (R10). -/
def cadd (a b : F32 × F32) : F32 × F32 := (f32Add a.1 b.1, f32Add a.2 b.2)

/-- `csub` (R10). -/
def csub (a b : F32 × F32) : F32 × F32 := (f32Sub a.1 b.1, f32Sub a.2 b.2)

/-- `cmul` in the evaluation order of R10. -/
def cmul (a b : F32 × F32) : F32 × F32 :=
  (f32Sub (f32Mul a.1 b.1) (f32Mul a.2 b.2), f32Add (f32Mul a.1 b.2) (f32Mul a.2 b.1))

/-- `mulj`: multiplication by `j`, an exact swap (R10). -/
def mulj (a : F32 × F32) : F32 × F32 := (f32Negate a.2, a.1)

/-- `mulnegj`: multiplication by `−j` (R212). -/
def mulnegj (a : F32 × F32) : F32 × F32 := (a.2, f32Negate a.1)

/-- `conj` (R10). -/
def cconj (a : F32 × F32) : F32 × F32 := (a.1, f32Negate a.2)

end Sys2Proof.Machine
end

