-- ==== Sys2Proof/Machine/Fft.lean ====
section
/-! DEFINITION. The FFT unit (41_fft.md): the configuration function `fftImpl` (R207), the reference datapath that is one
admissible value of it (R212 to R215), the packed multiply-accumulate (R218), and the commands (R210, R211). -/
namespace Sys2Proof.Machine

/-! ### Twiddle factors (R213) -/

/-- Bits after the binary point of the trigonometric series. -/
def trigBits : Nat := 192

/-- `π / 2` with 256 bits after the binary point, rounded down. -/
def halfPi256 : Nat := 0x1921fb54442d18469898cc51701b839a252049c1114cf98e804177d4c76273644

/-- The alternating series `term − term·φ²/((i+1)(i+2)) + …` in fixed point, as the sums of its positive and of its
negative terms. -/
def trigSeries (phi : Nat) : Nat → Nat → Nat → Bool → Nat × Nat → Nat × Nat
  | 0, _, _, _, acc => acc
  | fuel + 1, term, i, pos, acc =>
    let next := term * phi / 2 ^ trigBits * phi / 2 ^ trigBits / ((i + 1) * (i + 2))
    trigSeries phi fuel next (i + 2) (!pos) (if pos then (acc.1 + term, acc.2) else (acc.1, acc.2 + term))

/-- `(cos φ, sin φ)` in fixed point for `φ = (π/2)·(r/m)`, `0 ≤ r < m`; exact for `r = 0`. Log 11 says how far this is
from the correctly rounded values. -/
def trigFixed (r m : Nat) : Nat × Nat :=
  if r = 0 then (2 ^ trigBits, 0)
  else
    let phi := halfPi256 * r / m / 2 ^ (256 - trigBits)
    let c := trigSeries phi 40 (2 ^ trigBits) 0 true (0, 0)
    let s := trigSeries phi 40 phi 1 true (0, 0)
    (c.1 - c.2, s.1 - s.2)

/-- `rnd` of a signed fixed-point number: nearest binary32, ties to even (R213). R213 does not say which of the two zeros an
exact 0 gives; that it is `+0.0` whatever the sign is the model's choice, log 24. -/
def rndFixed (neg : Bool) (n : Nat) : F32 :=
  if n = 0 then f32Zero else f32Pack neg (roundMag n (trigBits - 149))

/-- `Tw(flag, m, k) = (rnd(cos(2πk/m)), rnd(flag·sin(2πk/m)))` (R213), by reduction to the first quadrant; a component that
is 0 is `+0.0` (log 24). -/
def twiddle (flag : Int) (m k : Nat) : F32 × F32 :=
  let cs := trigFixed (4 * (k % m) % m) m
  let down := decide (flag < 0)
  match 4 * (k % m) / m with
  | 0 => (rndFixed false cs.1, rndFixed down cs.2)
  | 1 => (rndFixed true cs.2, rndFixed down cs.1)
  | 2 => (rndFixed true cs.1, rndFixed (!down) cs.2)
  | _ => (rndFixed false cs.2, rndFixed (!down) cs.1)

/-! ### The reference datapath (R212, R214, R215) -/

/-- Element `i` of a complex array. -/
def cget (x : List (F32 × F32)) (i : Nat) : F32 × F32 := x.getD i (f32Zero, f32Zero)

/-- The radix-4 butterfly of R212 at `p`: the four output runs, each over `q < s`, in the order of their indices. -/
def butterfly4 (flag : Int) (m s p : Nat) (x : List (F32 × F32)) : List (F32 × F32) :=
  let m1 := m / 4
  let w1 := twiddle flag m p
  let w2 := twiddle flag m (2 * p)
  let w3 := twiddle flag m (3 * p)
  let quad := (List.range s).map fun q =>
    let a := cget x (q + s * p)
    let b := cget x (q + s * (p + m1))
    let c := cget x (q + s * (p + 2 * m1))
    let d := cget x (q + s * (p + 3 * m1))
    let apc := cadd a c
    let amc := csub a c
    let bpd := cadd b d
    let jbmd := if flag = -1 then mulj (csub b d) else mulnegj (csub b d)
    (cadd apc bpd, cmul w1 (csub amc jbmd), cmul w2 (csub apc bpd), cmul w3 (cadd amc jbmd))
  quad.map (·.1) ++ quad.map (·.2.1) ++ quad.map (·.2.2.1) ++ quad.map (·.2.2.2)

/-- The radix-2 pass of R212. -/
def radix2 (s : Nat) (x : List (F32 × F32)) : List (F32 × F32) :=
  (List.range s).map (fun q => cadd (cget x q) (cget x (q + s)))
    ++ (List.range s).map (fun q => csub (cget x q) (cget x (q + s)))

/-- `Stage(m, s, …)` of R212. The two buffers take turns; the result is the array the recursion ends with. -/
def fftStage (flag : Int) : Nat → Nat → Nat → List (F32 × F32) → List (F32 × F32)
  | 0, _, _, x => x
  | fuel + 1, m, s, x =>
    if m ≤ 1 then x
    else if m = 2 then radix2 s x
    else fftStage flag fuel (m / 4) (4 * s) ((List.range (m / 4)).flatMap fun p => butterfly4 flag m s p x)

/-- `CFFT_ref(n, flag, x)` (R212). -/
def cfftRef (n : Nat) (flag : Int) (x : List (F32 × F32)) : List (F32 × F32) := fftStage flag n.log2 n 1 x

/-- Consecutive floats as complex values (R72). -/
def toComplex : List F32 → List (F32 × F32)
  | re :: im :: t => (re, im) :: toComplex t
  | _ => []

/-- Complex values as consecutive floats (R72). -/
def ofComplex (x : List (F32 × F32)) : List F32 := x.flatMap fun z => [z.1, z.2]

/-- `0.5` -/
def f32Half : F32 := 0x3F000000#32

/-- `(0.5 ⊗ re, 0.5 ⊗ im)` -/
def chalf (a : F32 × F32) : F32 × F32 := (f32Mul f32Half a.1, f32Mul f32Half a.2)

/-- `Post(A, Bv, k)` of R214. -/
def realPost (n : Nat) (a bv : F32 × F32) (k : Nat) : F32 × F32 :=
  cadd (chalf (cadd a (cconj bv))) (cmul (twiddle (-1) n k) (mulnegj (chalf (csub a (cconj bv)))))

/-- The reference real forward transform (R214). The loop's two writes give element `k` the value `Post(Z[k], Z[m−k], k)`
for every `1 ≤ k < m`. -/
def realForwardRef (n : Nat) (v : List F32) : List F32 :=
  let m := n / 2
  let z := cfftRef m (-1) (toComplex v)
  let z0 := cget z 0
  [f32Add z0.1 z0.2, f32Sub z0.1 z0.2]
    ++ ofComplex ((List.range (m - 1)).map fun i => realPost n (cget z (i + 1)) (cget z (m - (i + 1))) (i + 1))

/-- `Pre(A, Bv, k)` of R215. -/
def realPre (n : Nat) (a bv : F32 × F32) (k : Nat) : F32 × F32 :=
  cadd (chalf (cadd a (cconj bv))) (mulj (cmul (twiddle 1 n k) (chalf (csub a (cconj bv)))))

/-- The reference real inverse transform (R215). -/
def realInverseRef (n : Nat) (v : List F32) : List F32 :=
  let m := n / 2
  let x := toComplex v
  let p := cget x 0
  let z0 := (f32Mul f32Half (f32Add p.1 p.2), f32Mul f32Half (f32Sub p.1 p.2))
  ofComplex (cfftRef m 1
    (z0 :: (List.range (m - 1)).map fun i => realPre n (cget x (i + 1)) (cget x (m - (i + 1))) (i + 1)))

/-- The reference datapath on a valid operand. -/
def fftReference (kind : FftKind) (n : Nat) (flag : Int) (v : List F32) : List F32 :=
  match kind with
  | .cplx => ofComplex (cfftRef n flag (toComplex v))
  | .real => if flag = -1 then realForwardRef n v else realInverseRef n v

/-- `fftImpl(kind, n, flag, v)` (R207): a function of its operands alone. On an input with a NaN or an infinity nothing is
known of its output; a NaN the reference gives on a finite input has unconstrained bits (log 11, log 12). -/
def fftImpl (p : Platform) (kind : FftKind) (n : Nat) (flag : Int) (v : List F32) : List F32 :=
  match p.fft with
  | .other k => (List.range (fftFloats kind n)).map (Config.fftOut k kind n flag v)
  | .reference =>
    if v.all f32IsFinite then settleNaNs (Config.fftNan kind n flag v) (fftReference kind n flag v)
    else (List.range (fftFloats kind n)).map (Config.fftNonFinite kind n flag v)

/-! ### The packed multiply-accumulate -/

/-- The bins `k ≥ 1` of R218: pairs of real and imaginary parts. -/
def packedBins {α : Type} (ar : Arith α) : List α → List α → List α → List α
  | a0 :: a1 :: acc, x0 :: x1 :: x, h0 :: h1 :: h =>
    let tr := ar.sub (ar.mul x0 h0) (ar.mul x1 h1)
    let ti := ar.add (ar.mul x0 h1) (ar.mul x1 h0)
    ar.add a0 tr :: ar.add a1 ti :: packedBins ar acc x h
  | acc, _, _ => acc

/-- `PackedMAC(acc, X, H)` (R218): the DC and Nyquist bins are real, the others complex. -/
def packedMac {α : Type} (ar : Arith α) : List α → List α → List α → List α
  | a0 :: a1 :: acc, x0 :: x1 :: x, h0 :: h1 :: h =>
    ar.add a0 (ar.mul x0 h0) :: ar.add a1 (ar.mul x1 h1) :: packedBins ar acc x h
  | acc, _, _ => acc

/-! ### The commands -/

/-- The pseudocode of R210 and R211, which differ in `kind`: `n`, `flag`, `x`, `scratch` in A0 to A3. -/
def fftCommand (kind : FftKind) (s : State) : Cmd State := do
  let n := s.arg 0
  let flag := s.sarg 1
  let x := s.arg 2
  let scratch := s.arg 3
  let len := 4 * fftFloats kind n
  require (x ≠ 0 ∧ scratch ≠ 0) .invalidArgument
  require (validFft s.plat.fftMaxN kind n flag = true) .invalidArgument
  require (x + len ≤ addrLimit ∧ scratch + len ≤ addrLimit) .invalidArgument
  require (rangesMeet x len scratch len = false) .invalidArgument
  faultIf (s.meetsArena x len = true ∨ s.meetsArena scratch len = true) .hostProtocol
  let v ← readSamples s x (fftFloats kind n)
  let s1 ← memWrite s x (bytesOf (fftImpl s.plat kind n flag v))
  let s2 ← memHavoc s1 scratch len
  return s2.nextDraw.complete 0

/-- FFT.CPLX (R210). -/
def execFftCplx (s : State) : Host.Outcome State Fault Refusal := finish s (fftCommand .cplx s)
/-- FFT.REAL (R211). -/
def execFftReal (s : State) : Host.Outcome State Fault Refusal := finish s (fftCommand .real s)

end Sys2Proof.Machine
end

