-- ==== Sys2Proof/Machine/Karatsuba.lean ====
section
/-! DEFINITION. The Karatsuba convolver unit (43_karatsuba.md): the recursive product, the state's operations, written over
any arithmetic, and the commands. -/
namespace Sys2Proof.Machine

/-- `z[i] <- z[i] + v`. -/
def addAt {α : Type} (ar : Arith α) (z : List α) (i : Nat) (v : α) : List α := z.modify i (fun x => ar.add x v)

/-- The base case of KMul: the direct product, `i` outer, `j` inner (R310). -/
def directProduct {α : Type} (ar : Arith α) (n : Nat) (a b : List α) : List α :=
  (List.range n).foldl
    (fun z i => (List.range n).foldl
      (fun z j => addAt ar z (i + j) (ar.mul (a.getD i ar.zero) (b.getD j ar.zero))) z)
    (List.replicate (2 * n) ar.zero)

/-- `KMul(n, a, b)` for `n = 2^e` (R310). -/
def kmul {α : Type} (ar : Arith α) : Nat → List α → List α → List α
  | 0, a, b => directProduct ar 1 a b
  | e + 1, a, b =>
    if 2 ^ (e + 1) ≤ karatsubaBase then directProduct ar (2 ^ (e + 1)) a b
    else
      let h := 2 ^ e
      let n := 2 ^ (e + 1)
      let x1 := kmul ar e (a.take h) (b.take h)
      let x2 := kmul ar e (a.drop h) (b.drop h)
      let x3 := kmul ar e (List.zipWith ar.add (a.take h) (a.drop h)) (List.zipWith ar.add (b.take h) (b.drop h))
      let z := x1 ++ x2
      let mid := List.zipWith ar.sub (List.zipWith ar.sub x3 x1) x2
      z.take h ++ List.zipWith ar.add ((z.drop h).take n) mid ++ z.drop (h + n)

/-- The first `len` elements, with zeros after the end. -/
def padTo {α : Type} (zero : α) (len : Nat) (xs : List α) : List α := (xs ++ List.replicate len zero).take len

/-- `bs(n) = nextpow2(max(n, nc))` (R314). -/
def kcBlock (n nc : Nat) : Nat := nextpow2 (max n nc)

/-- The body of KC.RESET (R320). -/
def kcReset {α : Type} (ar : Arith α) (st : KcState α) : KcState α :=
  { st with ovl := List.replicate (2 * st.bmax) ar.zero }

/-- The body of KC.SETCOEF: the coefficients zero-padded to `Bmax`, and the history reset (R316). -/
def kcSetCoefficients {α : Type} (ar : Arith α) (st : KcState α) (c : List α) : KcState α :=
  kcReset ar { st with nc := c.length, coef := padTo ar.zero st.bmax c }

/-- The state KC.CREATE installs: a single zero tap, reset (R318, R321). -/
def kcFresh {α : Type} (ar : Arith α) (maxc maxin : Nat) : KcState α :=
  { maxc := maxc, maxin := maxin, nc := 1,
    coef := List.replicate (kcBmax maxc maxin) ar.zero,
    ovl := List.replicate (2 * kcBmax maxc maxin) ar.zero }

/-- The body of KC.CONVOLVE on `n ≥ 1` samples, `KConv` (R322): the state afterwards and the output. -/
def kcConvolve {α : Type} (ar : Arith α) (st : KcState α) (xs : List α) : KcState α × List α :=
  let n := xs.length
  let b := kcBlock n st.nc
  let z := kmul ar b.log2 (padTo ar.zero b xs) (st.coef.take b)
  let y := List.zipWith ar.add (z.take n) (st.ovl.take n)
  let carry := List.zipWith ar.add (padTo ar.zero (2 * st.bmax) (st.ovl.drop n)) (padTo ar.zero (2 * st.bmax) (z.drop n))
  ({ st with ovl := carry }, y)

/-- What a command writes for a sample vector computed by `⊕`, `⊖`, `⊗`: a NaN's bits are a draw (D11, log 6). -/
def outputSamples (s : State) (ys : List F32) : List F32 := settleNaNs (Config.freeOutNan s.draws) ys

/-- KC.WORKSIZE (R317): `maxc`, `maxin` in A0, A1. -/
def kcWorksize (s : State) : Cmd State := do
  require (validKc (s.arg 0) (s.arg 1) = true) .invalidArgument
  return s.complete (wsKc (s.arg 0) (s.arg 1))

/-- KC.CREATE (R318): `maxc`, `maxin` in A0, A1, `buf`, `bsz` in A4, A5. -/
def kcCreate (s : State) : Cmd State := do
  let (hdl, s1) ← createInstance s (s.arg 4) (s.arg 5) (validKc (s.arg 0) (s.arg 1)) (wsKc (s.arg 0) (s.arg 1))
    (fun _ => .kc (kcFresh f32Arith (s.arg 0) (s.arg 1)))
  return s1.complete hdl

/-- KC.DESTROY (R319). -/
def kcDestroy (s : State) : Cmd State := do
  let (i, _) ← checkHandle UnitState.asKc s (s.arg 0)
  destroyInstance s (s.arg 0) i

/-- KC.RESET (R320). -/
def kcResetCommand (s : State) : Cmd State := do
  let (i, st) ← checkHandle UnitState.asKc s (s.arg 0)
  return (s.setInstance (s.arg 0) { i with unit := .kc (kcReset f32Arith st) }).complete 0

/-- KC.SETCOEF (R316). -/
def kcSetcoef (s : State) : Cmd State := do
  let (i, st) ← checkHandle UnitState.asKc s (s.arg 0)
  let c ← readCoefficients s st.maxc
  return ((s.setInstance (s.arg 0) { i with unit := .kc (kcSetCoefficients f32Arith st c) }).nextDraw).complete 0

/-- KC.CONVOLVE (R322). -/
def kcConvolveCommand (s : State) : Cmd State := do
  let (i, st) ← checkHandle UnitState.asKc s (s.arg 0)
  checkBlock s st.maxin
  if s.arg 3 = 0 then return s.complete 0
  else
    let xs ← readSamples s (s.arg 1) (s.arg 3)
    let r := kcConvolve f32Arith st xs
    let s1 ← memWrite s (s.arg 2) (bytesOf (outputSamples s r.2))
    return ((s1.setInstance (s.arg 0) { i with unit := .kc r.1 }).nextDraw).complete 0

/-- KC.GETLAT (R323). -/
def kcGetlat (s : State) : Cmd State := do
  let _ ← checkHandle UnitState.asKc s (s.arg 0)
  return s.complete 0

/-- KC.WORKSIZE (R317). -/
def execKcWorksize (s : State) : Host.Outcome State Fault Refusal := finish s (kcWorksize s)
/-- KC.CREATE (R318). -/
def execKcCreate (s : State) : Host.Outcome State Fault Refusal := finish s (kcCreate s)
/-- KC.DESTROY (R319). -/
def execKcDestroy (s : State) : Host.Outcome State Fault Refusal := finish s (kcDestroy s)
/-- KC.RESET (R320). -/
def execKcReset (s : State) : Host.Outcome State Fault Refusal := finish s (kcResetCommand s)
/-- KC.SETCOEF (R316). -/
def execKcSetcoef (s : State) : Host.Outcome State Fault Refusal := finish s (kcSetcoef s)
/-- KC.CONVOLVE (R322). -/
def execKcConvolve (s : State) : Host.Outcome State Fault Refusal := finish s (kcConvolveCommand s)
/-- KC.GETLAT (R323). -/
def execKcGetlat (s : State) : Host.Outcome State Fault Refusal := finish s (kcGetlat s)

end Sys2Proof.Machine
end

