-- ==== Sys2Proof/Machine/Ring.lean ====
section
/-! DEFINITION. The internal rings of PC and HC (40_ringbuffer.md R159): `Put`, `Peek`, `Get` and `Clear` by the pseudocode
of R149, R150, R151 and R148, on sample slots. `none` is a failed check. Their accesses to the arena's bytes are checked
against MEM by `touchRings`, once for a command (log 23). -/
namespace Sys2Proof.Machine

/-- SlotWrite (R142): the write to slot `s`, mirrored into the shadow region when `s < mrs`. -/
def ringSlotWrite {α : Type} (q : SampleRing α) (s : Nat) (v : α) : SampleRing α :=
  let slots := q.slots.set s v
  { q with slots := if s < q.mrs then slots.set (q.size + s) v else slots }

/-- The slot writes of a Put whose first sample goes to slot `s mod B` (R149). -/
def ringFill {α : Type} (q : SampleRing α) (s : Nat) : List α → SampleRing α
  | [] => q
  | v :: vs => ringFill (ringSlotWrite q (s % q.size) v) (s + 1) vs

/-- `Put(ring, v)` (R149). -/
def ringPut {α : Type} (q : SampleRing α) (vs : List α) : Option (SampleRing α) :=
  if q.free < vs.length then none
  else some { ringFill q q.w vs with w := (q.w + vs.length) % q.size }

/-- `Peek(ring, n)` (R150): the `n` samples of the view. -/
def ringPeek {α : Type} (q : SampleRing α) (n : Nat) : Option (List α) :=
  if q.mrs < n then none
  else if q.remaining < n then none
  else some ((q.slots.drop q.r).take n)

/-- `Get(ring, n)` (R151): the view, and the ring with the read cursor advanced. -/
def ringGet {α : Type} (q : SampleRing α) (n : Nat) : Option (List α × SampleRing α) :=
  match ringPeek q n with
  | none => none
  | some vs => some (vs, { q with r := (q.r + n) % q.size })

/-- `Clear(ring)` (R148): every slot holds `zero`, and the cursors are 0. -/
def ringClear {α : Type} (zero : α) (q : SampleRing α) : SampleRing α :=
  { q with r := 0, w := 0, slots := List.replicate (q.size + q.mrs) zero }

/-- A ring with `N = n` and `max_required_size = mrs`, cleared. -/
def ringNew {α : Type} (zero : α) (n mrs : Nat) : SampleRing α :=
  { n := n, mrs := mrs, r := 0, w := 0, slots := List.replicate (n + 1 + mrs) zero }

/-- A cleared ring that holds `count` zero samples: how RESET seeds the rings (R255, R366). -/
def ringSeed {α : Type} (zero : α) (q : SampleRing α) (count : Nat) : Option (SampleRing α) :=
  ringPut (ringClear zero q) (List.replicate count zero)

end Sys2Proof.Machine
end

