-- ==== Sys2Proof/Machine/Partitioned.lean ====
section
/-! DEFINITION. The partitioned convolver unit (42_partitioned.md): the state's operations, written over any arithmetic and
transform, and the commands. `none` is a failed check of an internal ring (R159); `touchRings` is the rings' part of R71. -/
namespace Sys2Proof.Machine

/-- What the datapath stands on: the arithmetic, the packed real transform `fft F flag`, the factor `scale F = 2/F`
(R257), and what becomes of the accumulator's NaNs at the inverse transform of the command's block `j` (log 6). -/
structure PcEnv (α : Type) where
  arith  : Arith α
  fft    : Nat → Int → List α → List α
  scale  : Nat → α
  settle : Nat → List α → List α

/-- The machine's datapath in state `s`: binary32, `fftImpl`, and draws for the bits of the accumulator's NaNs. -/
def pcEnv (s : State) : PcEnv F32 :=
  { arith := f32Arith, fft := fftImpl s.plat .real, scale := f32TwoOver,
    settle := fun j acc => settleNaNs (Config.freeAccNan s.draws j) acc }

/-- Partition `p`: a `P`-sample segment of the coefficients, zero-padded to `F` (R251). -/
def segment {α : Type} (zero : α) (f : Nat) (h : List α) (p : Nat) : List α :=
  padTo zero f ((h.drop (p * (f / 2))).take (f / 2))

/-- TransformPartitions (R257): the scaled spectra of partitions `0 .. np−1`, and zeros up to `NPmax`. -/
def transformPartitions {α : Type} (env : PcEnv α) (f np npMax : Nat) (h : List α) : List (List α) :=
  (List.range np).map (fun p => (env.fft f (-1) (segment env.arith.zero f h p)).map (env.arith.mul (env.scale f)))
    ++ List.replicate (npMax - np) (List.replicate f env.arith.zero)

/-- Reset() of R255. -/
def pcReset {α : Type} (env : PcEnv α) (st : PcState α) : Option (PcState α) := do
  let inRing ← ringSeed env.arith.zero st.inRing st.p
  let outRing ← ringSeed env.arith.zero st.outRing st.p
  return { st with
    inRing := inRing, outRing := outRing,
    fb := List.replicate st.npMax (List.replicate st.f env.arith.zero), head := 0,
    acc := List.replicate st.f env.arith.zero, inCount := 0, cursor := 0 }

/-- The state PC.CREATE builds before its Reset: a single zero tap (R253). -/
def pcBlank {α : Type} (env : PcEnv α) (maxc maxin f : Nat) : PcState α :=
  let zeros := List.replicate (pcNpMax maxc f) (List.replicate f env.arith.zero)
  { maxc := maxc, maxin := maxin, f := f, nc := 1, np := 1, h := zeros, fb := zeros, head := 0,
    acc := List.replicate f env.arith.zero, inCount := 0, cursor := 0,
    inRing := ringNew env.arith.zero (2 * (f / 2) + maxin) f,
    outRing := ringNew env.arith.zero (f / 2 + maxin) maxin }

/-- The body of PC.SETCOEF (R256). -/
def pcSetCoefficients {α : Type} (env : PcEnv α) (st : PcState α) (c : List α) : Option (PcState α) :=
  let np := ceilDiv c.length st.p
  pcReset env { st with nc := c.length, np := np, h := transformPartitions env st.f np st.npMax c }

/-- `for p in lo .. hi: PackedMAC(acc, FB[(head − p) mod np], H[p])` (R261, R264). -/
def macPartitions {α : Type} (env : PcEnv α) (st : PcState α) (lo hi : Nat) (acc : List α) : List α :=
  (List.range' lo (hi + 1 - lo)).foldl
    (fun acc p => packedMac env.arith acc (st.fb.getD (subMod st.head p st.np) []) (st.h.getD p [])) acc

/-- ProcessBlock() (R261); `j` numbers the blocks of one command. -/
def processBlock {α : Type} (env : PcEnv α) (j : Nat) (st : PcState α) : Option (PcState α) := do
  let acc1 := macPartitions env st (st.cursor + 1) (st.np - 1) st.acc
  let u ← ringPeek st.inRing st.f
  let spectrum := env.fft st.f (-1) u
  let acc2 := packedMac env.arith acc1 spectrum (st.h.getD 0 [])
  let yb := env.fft st.f 1 (env.settle j acc2)
  let outRing ← ringPut st.outRing (yb.drop st.p)
  let (_, inRing) ← ringGet st.inRing st.p
  return { st with
    fb := st.fb.set st.head spectrum, head := (st.head + 1) % st.np,
    acc := List.replicate st.f env.arith.zero, cursor := 0, inRing := inRing, outRing := outRing }

/-- `while InRing.remaining >= F: ProcessBlock()` (R259); every block takes `P ≥ 1` samples, so `fuel` at least the
samples buffered is enough. -/
def processBlocks {α : Type} (env : PcEnv α) : Nat → Nat → PcState α → Option (PcState α)
  | 0, _, st => some st
  | fuel + 1, j, st =>
    if st.inRing.remaining < st.f then some st
    else
      match processBlock env j st with
      | none => none
      | some st1 => processBlocks env fuel (j + 1) st1

/-- Amortise() (R264). -/
def amortise {α : Type} (env : PcEnv α) (st : PcState α) : PcState α :=
  let target := (st.np - 1) * st.inCount / st.p
  { st with acc := macPartitions env st (st.cursor + 1) target st.acc, cursor := max st.cursor target }

/-- The body of PC.CONVOLVE, `PConv` (R259): the state afterwards and the output. -/
def pcConvolve {α : Type} (env : PcEnv α) (st : PcState α) (xs : List α) : Option (PcState α × List α) := do
  let inRing ← ringPut st.inRing xs
  let st1 ← processBlocks env inRing.remaining 0 { st with inRing := inRing }
  let st2 := amortise env { st1 with inCount := st1.inRing.remaining - st1.p }
  let (ys, outRing) ← ringGet st2.outRing xs.length
  return ({ st2 with outRing := outRing }, ys)

/-- PC.WORKSIZE (R252): `maxc`, `maxin`, `F` in A0 to A2. -/
def pcWorksize (s : State) : Cmd State := do
  require (validPc s.plat.fftMaxN (s.arg 0) (s.arg 1) (s.arg 2) = true) .invalidArgument
  return s.complete (wsPc (s.arg 0) (s.arg 1) (s.arg 2))

/-- PC.CREATE (R253): `maxc`, `maxin`, `F` in A0 to A2, `buf`, `bsz` in A4, A5. -/
def pcCreate (s : State) : Cmd State := do
  let maxc := s.arg 0
  let maxin := s.arg 1
  let f := s.arg 2
  let blank := pcBlank (pcEnv s) maxc maxin f
  let (hdl, s1) ← createInstance s (s.arg 4) (s.arg 5) (validPc s.plat.fftMaxN maxc maxin f) (wsPc maxc maxin f)
    (fun _ => .pc blank)
  touchRings s (pcRingSpans hdl maxin f)
  let st ← orInternal (pcReset (pcEnv s) blank)
  return (s1.setInstance hdl { buf := s.arg 4, ws := wsPc maxc maxin f, unit := .pc st }).complete hdl

/-- PC.DESTROY (R254). -/
def pcDestroy (s : State) : Cmd State := do
  let (i, _) ← checkHandle UnitState.asPc s (s.arg 0)
  destroyInstance s (s.arg 0) i

/-- PC.RESET (R255). -/
def pcResetCommand (s : State) : Cmd State := do
  let (i, st) ← checkHandle UnitState.asPc s (s.arg 0)
  touchRings s (internalRings (s.arg 0) i.unit)
  let st1 ← orInternal (pcReset (pcEnv s) st)
  return (s.setInstance (s.arg 0) { i with unit := .pc st1 }).complete 0

/-- PC.SETCOEF (R256). -/
def pcSetcoef (s : State) : Cmd State := do
  let (i, st) ← checkHandle UnitState.asPc s (s.arg 0)
  let c ← readCoefficients s st.maxc
  touchRings s (internalRings (s.arg 0) i.unit)
  let st1 ← orInternal (pcSetCoefficients (pcEnv s) st c)
  return ((s.setInstance (s.arg 0) { i with unit := .pc st1 }).nextDraw).complete 0

/-- PC.CONVOLVE (R259). The output is moved from the output ring, not computed: its bits are the transform's. With `n = 0`
no slot of a ring is touched. -/
def pcConvolveCommand (s : State) : Cmd State := do
  let (i, st) ← checkHandle UnitState.asPc s (s.arg 0)
  checkBlock s st.maxin
  let xs ← readSamples s (s.arg 1) (s.arg 3)
  touchRings s (if s.arg 3 = 0 then [] else internalRings (s.arg 0) i.unit)
  let r ← orInternal (pcConvolve (pcEnv s) st xs)
  let s1 ← memWrite s (s.arg 2) (bytesOf r.2)
  return ((s1.setInstance (s.arg 0) { i with unit := .pc r.1 }).nextDraw).complete 0

/-- PC.GETLAT (R260). -/
def pcGetlat (s : State) : Cmd State := do
  let (_, st) ← checkHandle UnitState.asPc s (s.arg 0)
  return s.complete st.p

/-- PC.WORKSIZE (R252). -/
def execPcWorksize (s : State) : Host.Outcome State Fault Refusal := finish s (pcWorksize s)
/-- PC.CREATE (R253). -/
def execPcCreate (s : State) : Host.Outcome State Fault Refusal := finish s (pcCreate s)
/-- PC.DESTROY (R254). -/
def execPcDestroy (s : State) : Host.Outcome State Fault Refusal := finish s (pcDestroy s)
/-- PC.RESET (R255). -/
def execPcReset (s : State) : Host.Outcome State Fault Refusal := finish s (pcResetCommand s)
/-- PC.SETCOEF (R256). -/
def execPcSetcoef (s : State) : Host.Outcome State Fault Refusal := finish s (pcSetcoef s)
/-- PC.CONVOLVE (R259). -/
def execPcConvolve (s : State) : Host.Outcome State Fault Refusal := finish s (pcConvolveCommand s)
/-- PC.GETLAT (R260). -/
def execPcGetlat (s : State) : Host.Outcome State Fault Refusal := finish s (pcGetlat s)

end Sys2Proof.Machine
end

