-- ==== Sys2Proof/Machine/Hybrid.lean ====
section
/-! DEFINITION. The hybrid convolver dispatcher unit (44_hybrid.md): the state's operations, written over any arithmetic and
transform, and the commands. -/
namespace Sys2Proof.Machine

/-- HReset() of R366: both sub-states reset, the delay ring seeded with `T − L` zeros. -/
def hcReset {α : Type} (env : PcEnv α) (st : HcState α) : Option (HcState α) := do
  let q ← pcReset env st.q
  let dly ← ringSeed env.arith.zero st.dly (st.t - st.l)
  return { st with k := kcReset env.arith st.k, q := q, dly := dly }

/-- The state HC.CREATE builds before its HReset: both sub-states with a single zero tap, TimeOnly (R361, R363). -/
def hcBlank {α : Type} (env : PcEnv α) (maxc maxin f t : Nat) : HcState α :=
  { maxc := maxc, maxin := maxin, f := f, t := t, mode := .timeOnly,
    k := kcFresh env.arith (min maxc t) maxin,
    q := pcBlank env (max 1 (maxc - t)) maxin f,
    dly := ringNew env.arith.zero ((t - f / 2) + maxin) maxin }

/-- The body of HC.SETCOEF (R365). -/
def hcSetCoefficients {α : Type} (env : PcEnv α) (st : HcState α) (c : List α) : Option (HcState α) := do
  if c.length ≤ st.t then
    let q ← pcSetCoefficients env st.q [env.arith.zero]
    hcReset env { st with mode := .timeOnly, k := kcSetCoefficients env.arith st.k c, q := q }
  else
    let q ← pcSetCoefficients env st.q (c.drop st.t)
    hcReset env { st with mode := .hybrid, k := kcSetCoefficients env.arith st.k (c.take st.t), q := q }

/-- The body of HC.CONVOLVE on `n ≥ 1` samples (R368): the state afterwards and the output. -/
def hcConvolve {α : Type} (env : PcEnv α) (st : HcState α) (xs : List α) : Option (HcState α × List α) :=
  match st.mode with
  | .timeOnly =>
    let r := kcConvolve env.arith st.k xs
    some ({ st with k := r.1 }, r.2)
  | .hybrid => do
    let dly1 ← ringPut st.dly xs
    let (xd, dly2) ← ringGet dly1 xs.length
    let rk := kcConvolve env.arith st.k xs
    let (q, yp) ← pcConvolve env st.q xd
    return ({ st with k := rk.1, q := q, dly := dly2 }, List.zipWith env.arith.add rk.2 yp)

/-- HC.WORKSIZE (R362): `maxc`, `maxin`, `F`, `Targ` in A0 to A3. -/
def hcWorksize (s : State) : Cmd State := do
  let t := thresholdOf (s.arg 3)
  require (validHc s.plat.fftMaxN (s.arg 0) (s.arg 1) (s.arg 2) t = true) .invalidArgument
  return s.complete (wsHc (s.arg 0) (s.arg 1) (s.arg 2) t)

/-- HC.CREATE (R363): `maxc`, `maxin`, `F`, `Targ` in A0 to A3, `buf`, `bsz` in A4, A5. -/
def hcCreate (s : State) : Cmd State := do
  let maxc := s.arg 0
  let maxin := s.arg 1
  let f := s.arg 2
  let t := thresholdOf (s.arg 3)
  let blank := hcBlank (pcEnv s) maxc maxin f t
  let (hdl, s1) ← createInstance s (s.arg 4) (s.arg 5) (validHc s.plat.fftMaxN maxc maxin f t) (wsHc maxc maxin f t)
    (fun _ => .hc blank)
  touchRings s (hcRingSpans hdl maxc maxin f t)
  let st ← orInternal (hcReset (pcEnv s) blank)
  return (s1.setInstance hdl { buf := s.arg 4, ws := wsHc maxc maxin f t, unit := .hc st }).complete hdl

/-- HC.DESTROY (R364). -/
def hcDestroy (s : State) : Cmd State := do
  let (i, _) ← checkHandle UnitState.asHc s (s.arg 0)
  destroyInstance s (s.arg 0) i

/-- HC.RESET (R366). -/
def hcResetCommand (s : State) : Cmd State := do
  let (i, st) ← checkHandle UnitState.asHc s (s.arg 0)
  touchRings s (internalRings (s.arg 0) i.unit)
  let st1 ← orInternal (hcReset (pcEnv s) st)
  return (s.setInstance (s.arg 0) { i with unit := .hc st1 }).complete 0

/-- HC.SETCOEF (R365). -/
def hcSetcoef (s : State) : Cmd State := do
  let (i, st) ← checkHandle UnitState.asHc s (s.arg 0)
  let c ← readCoefficients s st.maxc
  touchRings s (internalRings (s.arg 0) i.unit)
  let st1 ← orInternal (hcSetCoefficients (pcEnv s) st c)
  return ((s.setInstance (s.arg 0) { i with unit := .hc st1 }).nextDraw).complete 0

/-- HC.CONVOLVE (R368). In TimeOnly mode no ring is touched. -/
def hcConvolveCommand (s : State) : Cmd State := do
  let (i, st) ← checkHandle UnitState.asHc s (s.arg 0)
  checkBlock s st.maxin
  if s.arg 3 = 0 then return s.complete 0
  else
    let xs ← readSamples s (s.arg 1) (s.arg 3)
    touchRings s (if st.mode = .timeOnly then [] else internalRings (s.arg 0) i.unit)
    let r ← orInternal (hcConvolve (pcEnv s) st xs)
    let s1 ← memWrite s (s.arg 2) (bytesOf (outputSamples s r.2))
    return ((s1.setInstance (s.arg 0) { i with unit := .hc r.1 }).nextDraw).complete 0

/-- HC.GETLAT (R367): 0 in both modes. -/
def hcGetlat (s : State) : Cmd State := do
  let _ ← checkHandle UnitState.asHc s (s.arg 0)
  return s.complete 0

/-- HC.WORKSIZE (R362). -/
def execHcWorksize (s : State) : Host.Outcome State Fault Refusal := finish s (hcWorksize s)
/-- HC.CREATE (R363). -/
def execHcCreate (s : State) : Host.Outcome State Fault Refusal := finish s (hcCreate s)
/-- HC.DESTROY (R364). -/
def execHcDestroy (s : State) : Host.Outcome State Fault Refusal := finish s (hcDestroy s)
/-- HC.RESET (R366). -/
def execHcReset (s : State) : Host.Outcome State Fault Refusal := finish s (hcResetCommand s)
/-- HC.SETCOEF (R365). -/
def execHcSetcoef (s : State) : Host.Outcome State Fault Refusal := finish s (hcSetcoef s)
/-- HC.CONVOLVE (R368). -/
def execHcConvolve (s : State) : Host.Outcome State Fault Refusal := finish s (hcConvolveCommand s)
/-- HC.GETLAT (R367). -/
def execHcGetlat (s : State) : Host.Outcome State Fault Refusal := finish s (hcGetlat s)

end Sys2Proof.Machine
end

