-- ==== Sys2Proof/Machine/RingBuffer.lean ====
section
/-! DEFINITION. The ring buffer unit's commands (40_ringbuffer.md). -/
namespace Sys2Proof.Machine

/-- SlotWrite (R142): the record goes to slot `slot`, and to the shadow region when `slot < mrs`. -/
def slotWrite (st : RbState) (slot : Nat) (rec : List Byte) (s : State) : Cmd State := do
  let s1 ← memWrite s (st.slotAddr slot) rec
  if slot < st.mrs then memWrite s1 (st.slotAddr (st.size + slot)) rec else return s1

/-- The slot writes of a PUT: `count` records of `rs` bytes, the first to slot `slot mod B` (R149). -/
def putRecords (st : RbState) : Nat → Nat → List Byte → State → Cmd State
  | 0, _, _, s => return s
  | count + 1, slot, bs, s => do
    let s1 ← slotWrite st (slot % st.size) (bs.take st.rs) s
    putRecords st count (slot + 1) (bs.drop st.rs) s1

/-- RB.WORKSIZE (R145): `N`, `rs`, `mrs` in A0, A1, A2. -/
def rbWorksize (s : State) : Cmd State := do
  require (validRb (s.arg 0) (s.arg 1) (s.arg 2) = true) .invalidArgument
  return s.complete (wsRb (s.arg 0) (s.arg 1) (s.arg 2))

/-- The state of a fresh ring at handle `hdl` (R146, R152). -/
def rbFresh (n rs mrs hdl : Nat) : RbState := { n := n, rs := rs, mrs := mrs, r := 0, w := 0, d := hdl + hdrSize }

/-- RB.CREATE (R146): `N`, `rs`, `mrs`, `buf`, `bsz` in A0 to A4. -/
def rbCreate (s : State) : Cmd State := do
  let n := s.arg 0
  let rs := s.arg 1
  let mrs := s.arg 2
  let (hdl, s1) ← createInstance s (s.arg 3) (s.arg 4) (validRb n rs mrs) (wsRb n rs mrs)
    (fun hdl => .rb (rbFresh n rs mrs hdl))
  let s2 ← memZero s1 (hdl + hdrSize) ((n + 1 + mrs) * rs)
  return s2.complete hdl

/-- RB.DESTROY (R147). -/
def rbDestroy (s : State) : Cmd State := do
  let (i, _) ← checkHandle UnitState.asRb s (s.arg 0)
  destroyInstance s (s.arg 0) i

/-- RB.CLEAR (R148). -/
def rbClear (s : State) : Cmd State := do
  let (i, st) ← checkHandle UnitState.asRb s (s.arg 0)
  let s1 ← memZero s st.d st.dataLen
  return (s1.setInstance (s.arg 0) { i with unit := .rb { st with r := 0, w := 0 } }).complete 0

/-- RB.PUT (R149): `src` in A1, `n` in A2. The source is read in full before any slot is written. -/
def rbPut (s : State) : Cmd State := do
  let (i, st) ← checkHandle UnitState.asRb s (s.arg 0)
  let src := s.arg 1
  let n := s.arg 2
  require (src ≠ 0) .invalidArgument
  require (src + n * st.rs ≤ addrLimit) .invalidArgument
  require (n ≤ st.free) .exceedsCapacity
  let recs ← memRead s src (n * st.rs)
  let s1 ← putRecords st n st.w recs s
  let st1 := { st with w := (st.w + n) % st.size }
  return ((s1.setInstance (s.arg 0) { i with unit := .rb st1 }).nextDraw).complete 0

/-- The checks of PEEK and GET after the handle (R150, R151). -/
def checkView (st : RbState) (n : Nat) : Cmd Unit := do
  require (n ≤ st.mrs) .exceedsMaxRequiredSize
  require (n ≤ st.remaining) .exceedsRemainingData

/-- RB.PEEK (R150): `n` in A1. -/
def rbPeek (s : State) : Cmd State := do
  let (_, st) ← checkHandle UnitState.asRb s (s.arg 0)
  checkView st (s.arg 1)
  return s.complete (st.slotAddr st.r)

/-- RB.GET (R151): `n` in A1. -/
def rbGet (s : State) : Cmd State := do
  let (i, st) ← checkHandle UnitState.asRb s (s.arg 0)
  checkView st (s.arg 1)
  let st1 := { st with r := (st.r + s.arg 1) % st.size }
  return (s.setInstance (s.arg 0) { i with unit := .rb st1 }).complete (st.slotAddr st.r)

/-- RB.DPEEK (R153): `n` in A1, `delay` in A2. -/
def rbDpeek (s : State) : Cmd State := do
  let (_, st) ← checkHandle UnitState.asRb s (s.arg 0)
  let n := s.arg 1
  let delay := s.arg 2
  require (delay ≤ st.n) .invalidArgument
  require (n ≤ st.mrs) .exceedsMaxRequiredSize
  require (n ≤ st.remaining + delay) .exceedsRemainingData
  return s.complete (st.slotAddr (subMod st.r delay st.size))

/-- RB.REMAIN (R154). -/
def rbRemain (s : State) : Cmd State := do
  let (_, st) ← checkHandle UnitState.asRb s (s.arg 0)
  return s.complete st.remaining

/-- RB.FREE (R155). -/
def rbFree (s : State) : Cmd State := do
  let (_, st) ← checkHandle UnitState.asRb s (s.arg 0)
  return s.complete st.free

/-- RB.WORKSIZE (R145). -/
def execRbWorksize (s : State) : Host.Outcome State Fault Refusal := finish s (rbWorksize s)
/-- RB.CREATE (R146). -/
def execRbCreate (s : State) : Host.Outcome State Fault Refusal := finish s (rbCreate s)
/-- RB.DESTROY (R147). -/
def execRbDestroy (s : State) : Host.Outcome State Fault Refusal := finish s (rbDestroy s)
/-- RB.CLEAR (R148). -/
def execRbClear (s : State) : Host.Outcome State Fault Refusal := finish s (rbClear s)
/-- RB.PUT (R149). -/
def execRbPut (s : State) : Host.Outcome State Fault Refusal := finish s (rbPut s)
/-- RB.PEEK (R150). -/
def execRbPeek (s : State) : Host.Outcome State Fault Refusal := finish s (rbPeek s)
/-- RB.GET (R151). -/
def execRbGet (s : State) : Host.Outcome State Fault Refusal := finish s (rbGet s)
/-- RB.DPEEK (R153). -/
def execRbDpeek (s : State) : Host.Outcome State Fault Refusal := finish s (rbDpeek s)
/-- RB.REMAIN (R154). -/
def execRbRemain (s : State) : Host.Outcome State Fault Refusal := finish s (rbRemain s)
/-- RB.FREE (R155). -/
def execRbFree (s : State) : Host.Outcome State Fault Refusal := finish s (rbFree s)

end Sys2Proof.Machine
end

