-- ==== Sys2Proof/Machine/Dispatch.lean ====
section
/-! DEFINITION. The meaning of each command: one arm per constructor of Instr. -/
namespace Sys2Proof.Machine

def exec (i : Instr) (s : State) : Host.Outcome State Fault Refusal :=
  match i with
  | .rbWorksize => Sys2Proof.Machine.execRbWorksize s
  | .rbCreate => Sys2Proof.Machine.execRbCreate s
  | .rbDestroy => Sys2Proof.Machine.execRbDestroy s
  | .rbClear => Sys2Proof.Machine.execRbClear s
  | .rbPut => Sys2Proof.Machine.execRbPut s
  | .rbPeek => Sys2Proof.Machine.execRbPeek s
  | .rbGet => Sys2Proof.Machine.execRbGet s
  | .rbDpeek => Sys2Proof.Machine.execRbDpeek s
  | .rbRemain => Sys2Proof.Machine.execRbRemain s
  | .rbFree => Sys2Proof.Machine.execRbFree s
  | .fftCplx => Sys2Proof.Machine.execFftCplx s
  | .fftReal => Sys2Proof.Machine.execFftReal s
  | .kcWorksize => Sys2Proof.Machine.execKcWorksize s
  | .kcCreate => Sys2Proof.Machine.execKcCreate s
  | .kcDestroy => Sys2Proof.Machine.execKcDestroy s
  | .kcReset => Sys2Proof.Machine.execKcReset s
  | .kcSetcoef => Sys2Proof.Machine.execKcSetcoef s
  | .kcConvolve => Sys2Proof.Machine.execKcConvolve s
  | .kcGetlat => Sys2Proof.Machine.execKcGetlat s
  | .pcWorksize => Sys2Proof.Machine.execPcWorksize s
  | .pcCreate => Sys2Proof.Machine.execPcCreate s
  | .pcDestroy => Sys2Proof.Machine.execPcDestroy s
  | .pcReset => Sys2Proof.Machine.execPcReset s
  | .pcSetcoef => Sys2Proof.Machine.execPcSetcoef s
  | .pcConvolve => Sys2Proof.Machine.execPcConvolve s
  | .pcGetlat => Sys2Proof.Machine.execPcGetlat s
  | .hcWorksize => Sys2Proof.Machine.execHcWorksize s
  | .hcCreate => Sys2Proof.Machine.execHcCreate s
  | .hcDestroy => Sys2Proof.Machine.execHcDestroy s
  | .hcReset => Sys2Proof.Machine.execHcReset s
  | .hcSetcoef => Sys2Proof.Machine.execHcSetcoef s
  | .hcConvolve => Sys2Proof.Machine.execHcConvolve s
  | .hcGetlat => Sys2Proof.Machine.execHcGetlat s

end Sys2Proof.Machine
end

