-- ==== Sys2Proof/Machine/HostBus.lean ====
section
/-! DEFINITION. The host's actions: register accesses (10_state.md R31, R34 to R36), the issue of a command (30_encoding.md
R105), host memory accesses (20_memory.md R70, R78, R87), several agents (60_exceptions.md R413) and block reset
(70_reset_and_hazards.md R440). -/
namespace Sys2Proof.Machine

/-- What a host access to the register block selects (R31, R34). A half is `false` for bits 31:0, `true` for bits 63:32. -/
inductive RegPort where
  | cmd
  | status
  | res
  | resHalf (high : Bool)
  | arg (i : Nat)
  | argHalf (i : Nat) (high : Bool)
  | reserved
  deriving DecidableEq, Repr

/-- The naturally aligned accesses of R34, by offset and width in bytes; every other access selects nothing. At the
reserved offsets an aligned 32-bit or 64-bit access is taken (log 10). -/
def regPort (off width : Nat) : Option RegPort :=
  if width = 4 ∧ off % 4 = 0 then
    if off = 0x00 then some .cmd
    else if off = 0x04 then some .status
    else if off < 0x10 then some (.resHalf (decide (off = 0x0C)))
    else if off < 0x50 then some (.argHalf ((off - 0x10) / 8) (decide (off % 8 = 4)))
    else if off < 0x100 then some .reserved
    else none
  else if width = 8 ∧ off % 8 = 0 then
    if off = 0x00 then none
    else if off = 0x08 then some .res
    else if off < 0x50 then some (.arg ((off - 0x10) / 8))
    else if off < 0x100 then some .reserved
    else none
  else none

/-- A half of a 64-bit register. -/
def halfOf (v : Word64) (high : Bool) : Word32 := if high then v.extractLsb' 32 32 else v.extractLsb' 0 32

/-- A 64-bit register with one half replaced, the other unchanged (R34). -/
def withHalf (v : Word64) (high : Bool) (h : Word32) : Word64 :=
  if high then h ++ v.extractLsb' 0 32 else (v.extractLsb' 32 32 : BitVec 32) ++ h

/-- The bytes a read of the register block returns (R31): CMD reads as last written, reserved offsets read 0. -/
def regRead (s : State) (width : Nat) : RegPort → List Byte
  | .cmd => bytesOfWord32 s.cmd
  | .status => bytesOfWord32 s.status
  | .res => bytesOfWord64 s.res
  | .resHalf high => bytesOfWord32 (halfOf s.res high)
  | .arg i => bytesOfWord64 (s.args.get i)
  | .argHalf i high => bytesOfWord32 (halfOf (s.args.get i) high)
  | .reserved => List.replicate width 0

/-- A little-endian number (R72). -/
def natOfBytes : List Byte → Nat
  | [] => 0
  | b :: bs => b.toNat + 256 * natOfBytes bs

/-- A host write of the word `w` to CMD (R36, R105): the word is stored and the command it encodes runs to completion;
a word that encodes none completes with ILLEGAL_COMMAND. -/
def issueCommand (w : Word32) (s : State) : Host.Outcome State Fault Refusal :=
  let s1 := { s with cmd := w, owner := none }
  match decode (bytesOfWord32 w) with
  | .ok i => exec i s1
  | .error _ => .next (s1.raise .illegalCommand)

/-- Another agent than `agent` has operand writes that its CMD write has not closed (R413). -/
def State.ownedByOther (s : State) (agent : Nat) : Bool :=
  match s.owner with
  | some g => decide (g ≠ agent)
  | none => false

/-- A host write to the register block by `agent`. Only CMD and the argument registers take it; STATUS, RES and the
reserved offsets ignore it (R31). -/
def regWrite (agent : Nat) (data : List Byte) (s : State) (port : RegPort) : Host.Outcome State Fault Refusal :=
  match port with
  | .cmd =>
    if s.ownedByOther agent then .fault .hostProtocol else issueCommand (BitVec.ofNat 32 (natOfBytes data)) s
  | .arg i =>
    if s.ownedByOther agent then .fault .hostProtocol
    else .next { s with args := s.args.set i (BitVec.ofNat 64 (natOfBytes data)), owner := some agent }
  | .argHalf i high =>
    if s.ownedByOther agent then .fault .hostProtocol
    else .next { s with
      args := s.args.set i (withHalf (s.args.get i) high (BitVec.ofNat 32 (natOfBytes data))), owner := some agent }
  | .status => .next s
  | .res => .next s
  | .resHalf _ => .next s
  | .reserved => .next s

/-- The access touches the register block `[REG_BASE, REG_BASE + 0x100)` (R31), whether or not host memory has bytes at
those addresses too (log 22). -/
def State.touchesRegs (s : State) (addr len : Nat) : Bool := rangesMeet addr len s.plat.regBase 0x100

/-- The port a host access to the register block selects; none when it begins below the block. -/
def State.portAt (s : State) (addr len : Nat) : Option RegPort :=
  if s.plat.regBase ≤ addr then regPort (addr - s.plat.regBase) len else none

/-- A host read (R31, R34, R78, R82): the bytes go to the host. Where MEM or a live arena covers addresses of the register
block, a read there is a register access alone: the model's choice, log 22. -/
def hostRead (addr len : Nat) (s : State) : Host.Outcome State Fault Refusal :=
  if s.touchesRegs addr len then
    match s.portAt addr len with
    | some port => .next { s with readOut := regRead s len port }
    | none => .refused .registerAccess
  else if backedRange s.plat addr len then
    .next { s with readOut := s.readBytes addr len, draws := s.draws + 1 }
  else .refused .hostUnbacked

/-- A host write (R31, R34, R78, R87). Where MEM or a live arena covers addresses of the register block, a write that
touches the block is a register access alone (or is refused) and takes no fault of R87: the spec leaves the overlap open,
and this is the model's choice, log 22. -/
def hostWrite (agent addr : Nat) (data : List Byte) (s : State) : Host.Outcome State Fault Refusal :=
  if s.touchesRegs addr data.length then
    match s.portAt addr data.length with
    | some port => regWrite agent data s port
    | none => .refused .registerAccess
  else if s.meetsArena addr data.length then .fault .hostProtocol
  else if backedRange s.plat addr data.length then .next { s with mem := s.mem.write addr data }
  else .refused .hostUnbacked

/-- Block reset (R440): the registers 0 and the instance set empty; host memory is not touched. -/
def blockReset (s : State) : State :=
  { s with cmd := 0, status := 0, res := 0, args := Args.zero, insts := [], owner := none }

/-- One action of the host. -/
def hostStep (act : HostAction) (s : State) : Host.Outcome State Fault Refusal :=
  match act with
  | .read addr width => hostRead addr width s
  | .write agent addr data => hostWrite agent addr data s
  | .reset => .next (blockReset s)

/-- The oldest pending action is performed; with none pending the engine is idle and keeps all state (R412, R441). -/
def stepHost (s : State) : Host.Outcome State Fault Refusal :=
  match s.inputs with
  | [] => .next s
  | act :: rest => hostStep act { s with inputs := rest }

/-- `s` with the write of a command word to CMD as the host's next action, by the agent that may make it. -/
def State.withCommand (s : State) (w : Word32) : State :=
  { s with inputs := .write (s.owner.getD 0) s.plat.regBase (bytesOfWord32 w) :: s.inputs }

end Sys2Proof.Machine
end

