-- ==== Sys2Proof/Machine/Step.lean ====
section
/-! DEFINITION. One step of the machine. -/
namespace Sys2Proof.Machine

/-- One step: the host's oldest pending action (R30, R74); a write to CMD runs a whole command. -/
def step (s : State) : Host.Outcome State Fault Refusal := stepHost s

/-- `s` with the command of a table word as the host's next action: a write of its 32 bits to CMD (log 2). -/
def State.withFetchWord (s : State) (nbits w : Nat) : State := s.withCommand (BitVec.ofNat 32 (w % 2 ^ nbits))

end Sys2Proof.Machine
end

