-- ==== Sys2Proof/Machine/Asm.lean ====
section
/-! DEFINITION. The assembly text of 30_encoding.md R108: one line of characters to an assembly line. What a line does is
its expansion (R109, `AsmLine.expand`); the text itself has no effect of its own (D8). -/
namespace Sys2Proof.Machine

/-- The mnemonics of R102. -/
def mnemonic : Instr → String
  | .rbWorksize => "RB.WORKSIZE"
  | .rbCreate => "RB.CREATE"
  | .rbDestroy => "RB.DESTROY"
  | .rbClear => "RB.CLEAR"
  | .rbPut => "RB.PUT"
  | .rbPeek => "RB.PEEK"
  | .rbGet => "RB.GET"
  | .rbDpeek => "RB.DPEEK"
  | .rbRemain => "RB.REMAIN"
  | .rbFree => "RB.FREE"
  | .fftCplx => "FFT.CPLX"
  | .fftReal => "FFT.REAL"
  | .kcWorksize => "KC.WORKSIZE"
  | .kcCreate => "KC.CREATE"
  | .kcDestroy => "KC.DESTROY"
  | .kcReset => "KC.RESET"
  | .kcSetcoef => "KC.SETCOEF"
  | .kcConvolve => "KC.CONVOLVE"
  | .kcGetlat => "KC.GETLAT"
  | .pcWorksize => "PC.WORKSIZE"
  | .pcCreate => "PC.CREATE"
  | .pcDestroy => "PC.DESTROY"
  | .pcReset => "PC.RESET"
  | .pcSetcoef => "PC.SETCOEF"
  | .pcConvolve => "PC.CONVOLVE"
  | .pcGetlat => "PC.GETLAT"
  | .hcWorksize => "HC.WORKSIZE"
  | .hcCreate => "HC.CREATE"
  | .hcDestroy => "HC.DESTROY"
  | .hcReset => "HC.RESET"
  | .hcSetcoef => "HC.SETCOEF"
  | .hcConvolve => "HC.CONVOLVE"
  | .hcGetlat => "HC.GETLAT"

/-- The command a mnemonic names. -/
def instrOfMnemonic (cs : List Char) : Option Instr := Instr.all.find? fun i => decide ((mnemonic i).toList = cs)

/-- Blanks between the parts of a line. -/
def isBlank (c : Char) : Bool := c = ' ' || c = '\t'

/-- Without the blanks at both ends. -/
def trimBlanks (cs : List Char) : List Char := ((cs.dropWhile isBlank).reverse.dropWhile isBlank).reverse

/-- The part of a line before a comment (R108). -/
def dropComment (cs : List Char) : List Char := cs.takeWhile (· ≠ ';')

/-- The value of a digit, decimal or hexadecimal in either case: its place in the list of digits. -/
def digitOf (c : Char) : Option Nat :=
  ("0123456789abcdefABCDEF".toList.idxOf? c).map fun place => if place < 16 then place else place - 6

/-- The number a run of digits of a base writes, the most significant first. -/
def numberIn (base : Nat) (cs : List Char) : Option Nat :=
  cs.foldlM (fun v c => ((digitOf c).filter (· < base)).map (v * base + ·)) 0

/-- A number, decimal or `0x` hexadecimal (R108). -/
def parseNumber : List Char → Option Nat
  | [] => none
  | '0' :: 'x' :: c :: cs => numberIn 16 (c :: cs)
  | c :: cs => numberIn 10 (c :: cs)

/-- An operand: `_`, `-1`, or a number of 64 bits (R108). -/
def parseOperand (cs : List Char) : Option (Option Word64) :=
  match trimBlanks cs with
  | ['_'] => some none
  | ['-', '1'] => some (some (BitVec.allOnes 64))
  | t =>
    match parseNumber t with
    | some v => if v < 2 ^ 64 then some (some (BitVec.ofNat 64 v)) else none
    | none => none

/-- The fields of a line: the operands of a command or the samples of a list, which commas separate (R108). Each character
goes to the front of the field it stands in, from the last one back. -/
def fieldsOf (cs : List Char) : List (List Char) :=
  cs.foldr (fun c fields => if c = ',' then [] :: fields else (c :: fields.headD []) :: fields.tail) [[]]

/-- A decimal fraction `d.d`, rounded to the nearest binary32 (log 17). -/
def parseSample (cs : List Char) : Option F32 :=
  let t := trimBlanks cs
  let neg := decide (t.head? = some '-')
  let body := if neg then t.drop 1 else t
  let whole := body.takeWhile (· ≠ '.')
  let frac := (body.dropWhile (· ≠ '.')).drop 1
  match numberIn 10 whole, numberIn 10 (whole ++ frac) with
  | some _, some v =>
    if whole = [] then none
    else
      let num := v * 2 ^ 349
      let den := 10 ^ frac.length
      some (f32Pack neg (roundMag (2 * (num / den) + (if num % den = 0 then 0 else 1)) 201))
  | _, _ => none

/-- The bracketed list of a MEM line. -/
def parseList {β : Type} (item : List Char → Option β) (cs : List Char) : Option (List β) :=
  match trimBlanks cs with
  | '[' :: rest =>
    match rest.reverse with
    | ']' :: body => (fieldsOf body.reverse).mapM item
    | _ => none
  | _ => none

/-- One line of assembly text (R108). -/
def parseLine (text : List Char) : Option AsmLine :=
  let line := trimBlanks (dropComment text)
  let word := line.takeWhile (fun c => !isBlank c)
  let rest := trimBlanks (line.drop word.length)
  if word = "RD".toList then
    if rest = "RES".toList then some .readRes else if rest = "STATUS".toList then some .readStatus else none
  else if word = "MEM".toList then
    let addr := rest.takeWhile (fun c => !isBlank c)
    let more := trimBlanks (rest.drop addr.length)
    match parseNumber addr with
    | some a =>
      if more.take 3 = "f32".toList then (parseList parseSample (more.drop 3)).map (AsmLine.memF32 a) else none
    | none => none
  else
    match instrOfMnemonic word, (fieldsOf rest).mapM parseOperand with
    | some i, some ops =>
      let l : CommandLine := { instr := i, ops := ops }
      if l.wellFormed then some (.command l) else none
    | _, _ => none

end Sys2Proof.Machine
end

