-- ==== Sys2Proof/Safety.lean ====
section
/-! DEFINITION. The terms of the claims: what a well-kept state is (R35, R38, R40 to R44, R143, R262), where a command
writes, the queue a ring holds (R156), correct rounding (R9), and runs of a convolver over a stream (R11). -/
namespace Sys2Proof.Safety
open Sys2Proof.Machine

/-! ### Registers -/

/-- STATUS holds a code of R400 in bits 7:0 and 0 in bits 31:8 (R35). -/
abbrev StatusOk (s : State) : Prop := s.status.extractLsb' 8 24 = 0 ∧ s.code.toNat ≤ 5

/-! ### The instance set -/

/-- `WORKSIZE(cfg)` (R38, R80). -/
def workSize : UnitState → Nat
  | .rb st => wsRb st.n st.rs st.mrs
  | .kc st => wsKc st.maxc st.maxin
  | .pc st => wsPc st.maxc st.maxin st.f
  | .hc st => wsHc st.maxc st.maxin st.f st.t

/-- The configuration is valid (R144, R250, R313, R361). -/
def validUnit (fftMaxN : Nat) : UnitState → Bool
  | .rb st => validRb st.n st.rs st.mrs
  | .kc st => validKc st.maxc st.maxin
  | .pc st => validPc fftMaxN st.maxc st.maxin st.f
  | .hc st => validHc fftMaxN st.maxc st.maxin st.f st.t

/-- A ring instance's cursors are slot indexes, its data region stands at `handle + HDR_SIZE`, and the platform backs it; of
a PC or HC instance the platform backs the data regions of the internal rings (R40, R71, R159). -/
def cursorsOk (p : Platform) (hdl : Nat) : UnitState → Prop
  | .rb st => st.r < st.size ∧ st.w < st.size ∧ st.d = hdl + hdrSize ∧ backedRange p st.d st.dataLen = true
  | .kc _ => True
  | .pc st => allBacked p (internalRings hdl (.pc st)) = true
  | .hc st => allBacked p (internalRings hdl (.hc st)) = true

/-- A live instance stands at the handle its CREATE returned, in an arena of its work size inside the address space, with
a valid configuration (R38, R80, R90). -/
structure InstanceOk (p : Platform) (hdl : Nat) (i : Instance) : Prop where
  buf_ne    : i.buf ≠ 0
  handle    : hdl = align16 i.buf
  ws_eq     : i.ws = workSize i.unit
  valid     : validUnit p.fftMaxN i.unit = true
  fits      : i.buf + i.ws ≤ addrLimit
  cursors   : cursorsOk p hdl i.unit

/-- The instance set: rising handles, sound instances, and no two live arenas with a byte in common (R38, R89). -/
structure InstancesOk (s : State) : Prop where
  rising   : assocRising s.insts
  each     : ∀ p ∈ s.insts, InstanceOk s.plat p.1 p.2
  disjoint : s.insts.Pairwise fun p q => rangesMeet p.2.buf p.2.ws q.2.buf q.2.ws = false

/-! ### Ring buffers -/

/-- The bytes of slot `k` (R141). -/
def slotBytes (m : Memory) (st : RbState) (k : Nat) : List Byte :=
  (List.range st.rs).map fun b => m.read (st.slotAddr k + b)

/-- The unread records, oldest first: the slots `r, r+1, …` modulo `B` (R140). -/
def unread (m : Memory) (st : RbState) : List (List Byte) :=
  (List.range st.remaining).map fun i => slotBytes m st ((st.r + i) % st.size)

/-- `count` consecutive records of `rs` bytes at an address of memory: what a view shows (R12, R143). -/
def recordsAt (m : Memory) (addr rs count : Nat) : List (List Byte) :=
  (List.range count).map fun i => (List.range rs).map fun b => m.read (addr + i * rs + b)

/-- The records of a PUT's source bytes (R149). -/
def recordsOf (rs : Nat) : Nat → List Byte → List (List Byte)
  | 0, _ => []
  | count + 1, bs => bs.take rs :: recordsOf rs count (bs.drop rs)

/-- The shadow invariant of every live ring (R143): `Slot(B + j) = Slot(j)` for `j < mrs`. -/
abbrev ShadowOk (s : State) : Prop :=
  ∀ p ∈ s.insts, ∀ st, p.2.unit = .rb st → ∀ j, j < st.mrs → slotBytes s.mem st (st.size + j) = slotBytes s.mem st j

/-! ### Convolvers -/

/-- An internal ring: cursors are slot indexes, every slot has a value, and the shadow slots mirror the first ones
(R40, R143). -/
structure RingOk {α : Type} (q : SampleRing α) : Prop where
  r_lt   : q.r < q.size
  w_lt   : q.w < q.size
  mrs_le : q.mrs ≤ q.n
  slots  : q.slots.length = q.size + q.mrs
  shadow : ∀ j, j < q.mrs → q.slots[q.size + j]? = q.slots[j]?

/-- A KC state (R42). -/
structure KcOk (st : KcState F32) : Prop where
  maxc_pos  : 1 ≤ st.maxc
  maxin_pos : 1 ≤ st.maxin
  nc_pos    : 1 ≤ st.nc
  nc_le     : st.nc ≤ st.maxc
  coef_len  : st.coef.length = st.bmax
  coef_pad  : ∀ k, st.nc ≤ k → k < st.bmax → st.coef[k]? = some f32Zero
  ovl_len   : st.ovl.length = 2 * st.bmax

/-- A PC state between commands (R43, R262). -/
structure PcOk (fftMaxN : Nat) (st : PcState F32) : Prop where
  maxc_pos  : 1 ≤ st.maxc
  maxin_pos : 1 ≤ st.maxin
  size      : validFftSize fftMaxN st.f = true
  nc_pos    : 1 ≤ st.nc
  nc_le     : st.nc ≤ st.maxc
  np_eq     : st.np = ceilDiv st.nc st.p
  h_len     : st.h.length = st.npMax
  h_rows    : ∀ row ∈ st.h, row.length = st.f
  fb_len    : st.fb.length = st.npMax
  fb_rows   : ∀ row ∈ st.fb, row.length = st.f
  acc_len   : st.acc.length = st.f
  head_lt   : st.head < st.np
  inRing    : RingOk st.inRing
  inSize    : st.inRing.n = 2 * st.p + st.maxin ∧ st.inRing.mrs = st.f
  outRing   : RingOk st.outRing
  outSize   : st.outRing.n = st.p + st.maxin ∧ st.outRing.mrs = st.maxin
  count_lt  : st.inCount < st.p
  buffered  : st.inRing.remaining = st.p + st.inCount
  produced  : st.outRing.remaining = st.p - st.inCount
  schedule  : st.cursor = (st.np - 1) * st.inCount / st.p

/-- An HC state between commands (R44, R371). -/
structure HcOk (fftMaxN : Nat) (st : HcState F32) : Prop where
  maxc_pos  : 1 ≤ st.maxc
  maxin_pos : 1 ≤ st.maxin
  lat_le    : st.l ≤ st.t
  k_ok      : KcOk st.k
  k_cfg     : st.k.maxc = min st.maxc st.t ∧ st.k.maxin = st.maxin
  q_ok      : PcOk fftMaxN st.q
  q_cfg     : st.q.maxc = max 1 (st.maxc - st.t) ∧ st.q.maxin = st.maxin ∧ st.q.f = st.f
  dly       : RingOk st.dly
  dlySize   : st.dly.n = (st.t - st.l) + st.maxin ∧ st.dly.mrs = st.maxin
  delayed   : st.dly.remaining = st.t - st.l

/-- The state of a convolver instance is well kept; nothing is asked of a ring. -/
def convolverOk (fftMaxN : Nat) : UnitState → Prop
  | .rb _ => True
  | .kc st => KcOk st
  | .pc st => PcOk fftMaxN st
  | .hc st => HcOk fftMaxN st

/-- Every live convolver's state is well kept (R42 to R44, R262, R371). -/
abbrev ConvolversOk (s : State) : Prop := ∀ p ∈ s.insts, convolverOk s.plat.fftMaxN p.2.unit

/-- The unread samples of an internal ring, oldest first (R140). -/
def ringUnread {α : Type} (q : SampleRing α) : List (Option α) :=
  (List.range q.remaining).map fun i => q.slots[(q.r + i) % q.size]?

/-- The reset values of a PC instance (R258); `nc`, `np` and `H` are not among them. -/
structure PcAtReset (st : PcState F32) : Prop where
  inRing  : ringUnread st.inRing = List.replicate st.p (some f32Zero)
  outRing : ringUnread st.outRing = List.replicate st.p (some f32Zero)
  fb      : st.fb = List.replicate st.npMax (List.replicate st.f f32Zero)
  head    : st.head = 0
  acc     : st.acc = List.replicate st.f f32Zero
  inCount : st.inCount = 0
  cursor  : st.cursor = 0

/-- The reset values of an HC instance (R369); the mode and the coefficients are not among them. -/
structure HcAtReset (st : HcState F32) : Prop where
  k   : st.k.ovl = List.replicate (2 * st.k.bmax) f32Zero
  q   : PcAtReset st.q
  dly : ringUnread st.dly = List.replicate (st.t - st.l) (some f32Zero)

/-- The registers after the operand writes of an assembly line from register `i` on (R109). -/
def writeOperands (a : Args) (i : Nat) : List (Option Word64) → Args
  | [] => a
  | none :: ops => writeOperands a (i + 1) ops
  | some v :: ops => writeOperands (a.set i v) (i + 1) ops

/-- `count` bytes of a word from bit `lo` on, least significant first (R34, R72). -/
def bytesFrom {w : Nat} (v : BitVec w) (lo count : Nat) : List Byte :=
  (List.range count).map fun k => v.extractLsb' (lo + 8 * k) 8

/-- The register accesses R34 lists, as an address and a width, with the aligned accesses at the reserved offsets
(log 10). -/
def listedAccess (regBase addr width : Nat) : Prop :=
  ∃ off, addr = regBase + off ∧ off < 0x100 ∧
    ((width = 4 ∧ off % 4 = 0) ∨ (width = 8 ∧ off % 8 = 0 ∧ 8 ≤ off))

/-- The samples `xs` stand at `addr` of memory, little-endian (R72). -/
def SamplesAre (m : Memory) (addr : Nat) (xs : List F32) : Prop :=
  ∀ i, i < xs.length → ∀ b, b < 4 → m.read (addr + 4 * i + b) = (xs.getD i f32Zero).extractLsb' (8 * b) 8

/-- What the host may read at `out` for the computed samples `ys`: each sample, or some NaN where the sample is a NaN
(D11, log 6). -/
def WrittenAs (m : Memory) (out : Nat) (ys : List F32) : Prop :=
  ∀ i, i < ys.length → ∃ x : F32,
    (∀ b, b < 4 → m.read (out + 4 * i + b) = x.extractLsb' (8 * b) 8) ∧
      (if f32IsNaN (ys.getD i f32Zero) then f32IsNaN x = true else x = ys.getD i f32Zero)

/-! ### Where a command writes -/

/-- The arena of the instance at a handle; none when the handle is dead. -/
def arenaAt (s : State) (hdl : Nat) : List Span :=
  match assocGet hdl s.insts with
  | some i => [{ base := i.buf, len := i.ws }]
  | none => []

/-- The spans a CLEAR or a PUT of a ring may write: the whole data region for CLEAR; for PUT the slots that receive the
`n` records and the shadow slots that mirror them (R142, R148, R149). -/
def ringSpans (s : State) (put : Bool) : List Span :=
  match assocGet (s.arg 0) s.insts with
  | some i =>
    match i.unit with
    | .rb st =>
      if put then
        (List.range (s.arg 2)).flatMap fun k =>
          let slot := (st.w + k) % st.size
          { base := st.slotAddr slot, len := st.rs } ::
            (if slot < st.mrs then [{ base := st.slotAddr (st.size + slot), len := st.rs }] else [])
      else [{ base := st.d, len := st.dataLen }]
    | _ => []
  | none => []

/-- The bytes of host memory a command may change when it runs in `s`, computed from its operands: its arena for a CREATE
or a DESTROY, slots for CLEAR and PUT, `x` and `scratch` for an FFT, `out` for a CONVOLVE; no byte for any other. -/
def destinations (i : Instr) (s : State) : List Span :=
  match i with
  | .rbCreate => [{ base := s.arg 3, len := wsRb (s.arg 0) (s.arg 1) (s.arg 2) }]
  | .kcCreate => [{ base := s.arg 4, len := wsKc (s.arg 0) (s.arg 1) }]
  | .pcCreate => [{ base := s.arg 4, len := wsPc (s.arg 0) (s.arg 1) (s.arg 2) }]
  | .hcCreate => [{ base := s.arg 4, len := wsHc (s.arg 0) (s.arg 1) (s.arg 2) (thresholdOf (s.arg 3)) }]
  | .rbDestroy => arenaAt s (s.arg 0)
  | .kcDestroy => arenaAt s (s.arg 0)
  | .pcDestroy => arenaAt s (s.arg 0)
  | .hcDestroy => arenaAt s (s.arg 0)
  | .rbClear => ringSpans s false
  | .rbPut => ringSpans s true
  | .fftCplx => [{ base := s.arg 2, len := 8 * s.arg 0 }, { base := s.arg 3, len := 8 * s.arg 0 }]
  | .fftReal => [{ base := s.arg 2, len := 4 * s.arg 0 }, { base := s.arg 3, len := 4 * s.arg 0 }]
  | .kcConvolve => [{ base := s.arg 2, len := 4 * s.arg 3 }]
  | .pcConvolve => [{ base := s.arg 2, len := 4 * s.arg 3 }]
  | .hcConvolve => [{ base := s.arg 2, len := 4 * s.arg 3 }]
  | .rbWorksize => []
  | .rbPeek => []
  | .rbGet => []
  | .rbDpeek => []
  | .rbRemain => []
  | .rbFree => []
  | .kcWorksize => []
  | .kcReset => []
  | .kcSetcoef => []
  | .kcGetlat => []
  | .pcWorksize => []
  | .pcReset => []
  | .pcSetcoef => []
  | .pcGetlat => []
  | .hcWorksize => []
  | .hcReset => []
  | .hcSetcoef => []
  | .hcGetlat => []

/-- The handle whose instance a command may add, change or remove: the new handle for a CREATE, A0 for a command that
takes a handle and changes its instance; none for any other. -/
def ownHandle (i : Instr) (s : State) : Option Nat :=
  match i with
  | .rbCreate => some (align16 (s.arg 3))
  | .kcCreate => some (align16 (s.arg 4))
  | .pcCreate => some (align16 (s.arg 4))
  | .hcCreate => some (align16 (s.arg 4))
  | .rbDestroy => some (s.arg 0)
  | .rbClear => some (s.arg 0)
  | .rbPut => some (s.arg 0)
  | .rbGet => some (s.arg 0)
  | .kcDestroy => some (s.arg 0)
  | .kcReset => some (s.arg 0)
  | .kcSetcoef => some (s.arg 0)
  | .kcConvolve => some (s.arg 0)
  | .pcDestroy => some (s.arg 0)
  | .pcReset => some (s.arg 0)
  | .pcSetcoef => some (s.arg 0)
  | .pcConvolve => some (s.arg 0)
  | .hcDestroy => some (s.arg 0)
  | .hcReset => some (s.arg 0)
  | .hcSetcoef => some (s.arg 0)
  | .hcConvolve => some (s.arg 0)
  | .rbWorksize => none
  | .rbPeek => none
  | .rbDpeek => none
  | .rbRemain => none
  | .rbFree => none
  | .fftCplx => none
  | .fftReal => none
  | .kcWorksize => none
  | .kcGetlat => none
  | .pcWorksize => none
  | .pcGetlat => none
  | .hcWorksize => none
  | .hcGetlat => none

/-- The codes other than OK and INVALID_ARGUMENT a command can write (R414). -/
def otherCodes (i : Instr) : List StatusCode :=
  match i with
  | .rbPut => [.exceedsCapacity]
  | .rbPeek => [.exceedsMaxRequiredSize, .exceedsRemainingData]
  | .rbGet => [.exceedsMaxRequiredSize, .exceedsRemainingData]
  | .rbDpeek => [.exceedsMaxRequiredSize, .exceedsRemainingData]
  | _ => []

/-- The unit tag of an instance (R38). -/
inductive UnitTag where
  | rb
  | kc
  | pc
  | hc
  deriving DecidableEq, Repr

/-- The tag of a unit state. -/
def unitTag : UnitState → UnitTag
  | .rb _ => .rb
  | .kc _ => .kc
  | .pc _ => .pc
  | .hc _ => .hc

/-- The unit a command that takes a handle in A0 checks it for (R103, R403); none for a command without one. -/
def handleUnit (i : Instr) : Option UnitTag :=
  match i with
  | .rbDestroy => some .rb
  | .rbClear => some .rb
  | .rbPut => some .rb
  | .rbPeek => some .rb
  | .rbGet => some .rb
  | .rbDpeek => some .rb
  | .rbRemain => some .rb
  | .rbFree => some .rb
  | .kcDestroy => some .kc
  | .kcReset => some .kc
  | .kcSetcoef => some .kc
  | .kcConvolve => some .kc
  | .kcGetlat => some .kc
  | .pcDestroy => some .pc
  | .pcReset => some .pc
  | .pcSetcoef => some .pc
  | .pcConvolve => some .pc
  | .pcGetlat => some .pc
  | .hcDestroy => some .hc
  | .hcReset => some .hc
  | .hcSetcoef => some .hc
  | .hcConvolve => some .hc
  | .hcGetlat => some .hc
  | .rbWorksize => none
  | .rbCreate => none
  | .fftCplx => none
  | .fftReal => none
  | .kcWorksize => none
  | .kcCreate => none
  | .pcWorksize => none
  | .pcCreate => none
  | .hcWorksize => none
  | .hcCreate => none

/-- The argument registers a command uses (R103). -/
def usedArgs (i : Instr) : List Nat :=
  match i with
  | .rbWorksize => [0, 1, 2]
  | .rbCreate => [0, 1, 2, 3, 4]
  | .rbPut => [0, 1, 2]
  | .rbPeek => [0, 1]
  | .rbGet => [0, 1]
  | .rbDpeek => [0, 1, 2]
  | .fftCplx => [0, 1, 2, 3]
  | .fftReal => [0, 1, 2, 3]
  | .kcWorksize => [0, 1]
  | .pcWorksize => [0, 1, 2]
  | .hcWorksize => [0, 1, 2, 3]
  | .kcCreate => [0, 1, 4, 5]
  | .pcCreate => [0, 1, 2, 4, 5]
  | .hcCreate => [0, 1, 2, 3, 4, 5]
  | .kcSetcoef => [0, 1, 2]
  | .pcSetcoef => [0, 1, 2]
  | .hcSetcoef => [0, 1, 2]
  | .kcConvolve => [0, 1, 2, 3]
  | .pcConvolve => [0, 1, 2, 3]
  | .hcConvolve => [0, 1, 2, 3]
  | _ => [0]

/-- The work size a WORKSIZE or a CREATE computes from its operands (R83 to R86); none for any other command. -/
def operandWorkSize (i : Instr) (s : State) : Option Nat :=
  match i with
  | .rbWorksize => some (wsRb (s.arg 0) (s.arg 1) (s.arg 2))
  | .rbCreate => some (wsRb (s.arg 0) (s.arg 1) (s.arg 2))
  | .kcWorksize => some (wsKc (s.arg 0) (s.arg 1))
  | .kcCreate => some (wsKc (s.arg 0) (s.arg 1))
  | .pcWorksize => some (wsPc (s.arg 0) (s.arg 1) (s.arg 2))
  | .pcCreate => some (wsPc (s.arg 0) (s.arg 1) (s.arg 2))
  | .hcWorksize => some (wsHc (s.arg 0) (s.arg 1) (s.arg 2) (thresholdOf (s.arg 3)))
  | .hcCreate => some (wsHc (s.arg 0) (s.arg 1) (s.arg 2) (thresholdOf (s.arg 3)))
  | _ => none

/-- The record size of the ring at the handle in A0; 0 when there is none. -/
def heldRecordSize (s : State) : Nat :=
  match assocGet (s.arg 0) s.insts with
  | some i =>
    match i.unit with
    | .rb st => st.rs
    | _ => 0
  | none => 0

/-- The region a command reads its source operand from (R149, R210, R256, R259 and the like). -/
def sources (i : Instr) (s : State) : List Span :=
  match i with
  | .rbPut => [{ base := s.arg 1, len := s.arg 2 * heldRecordSize s }]
  | .fftCplx => [{ base := s.arg 2, len := 8 * s.arg 0 }]
  | .fftReal => [{ base := s.arg 2, len := 4 * s.arg 0 }]
  | .kcSetcoef => [{ base := s.arg 1, len := 4 * s.arg 2 }]
  | .pcSetcoef => [{ base := s.arg 1, len := 4 * s.arg 2 }]
  | .hcSetcoef => [{ base := s.arg 1, len := 4 * s.arg 2 }]
  | .kcConvolve => [{ base := s.arg 1, len := 4 * s.arg 3 }]
  | .pcConvolve => [{ base := s.arg 1, len := 4 * s.arg 3 }]
  | .hcConvolve => [{ base := s.arg 1, len := 4 * s.arg 3 }]
  | _ => []

/-- The regions a command's pointer operands name (R90): its source, and the destinations that are operands. -/
def operandRegions (i : Instr) (s : State) : List Span :=
  match i with
  | .rbCreate => destinations i s
  | .kcCreate => destinations i s
  | .pcCreate => destinations i s
  | .hcCreate => destinations i s
  | .fftCplx => destinations i s
  | .fftReal => destinations i s
  | .kcConvolve => sources i s ++ destinations i s
  | .pcConvolve => sources i s ++ destinations i s
  | .hcConvolve => sources i s ++ destinations i s
  | _ => sources i s

/-- The commands with a destination operand (R88): CONVOLVE, FFT and CREATE. -/
def hasDestination (i : Instr) : Bool :=
  match i with
  | .rbCreate => true
  | .kcCreate => true
  | .pcCreate => true
  | .hcCreate => true
  | .fftCplx => true
  | .fftReal => true
  | .kcConvolve => true
  | .pcConvolve => true
  | .hcConvolve => true
  | _ => false

/-- The internal rings of the instance at the handle in A0; none when there is none. -/
def heldRings (s : State) : List Span :=
  match assocGet (s.arg 0) s.insts with
  | some i => internalRings (s.arg 0) i.unit
  | none => []

/-- The hybrid convolver at the handle in A0 is in Hybrid mode. -/
def heldHybrid (s : State) : Bool :=
  match assocGet (s.arg 0) s.insts with
  | some i =>
    match i.unit with
    | .hc st => decide (st.mode = .hybrid)
    | _ => false
  | none => false

/-- The data regions of the internal rings a command operates on (R159, log 23): those of the new instance for a CREATE,
those of the instance at A0 for a RESET, a SETCOEF and a CONVOLVE of at least one sample, in HC's only in Hybrid mode. -/
def usedRings (i : Instr) (s : State) : List Span :=
  match i with
  | .pcCreate => pcRingSpans (align16 (s.arg 4)) (s.arg 1) (s.arg 2)
  | .hcCreate => hcRingSpans (align16 (s.arg 4)) (s.arg 0) (s.arg 1) (s.arg 2) (thresholdOf (s.arg 3))
  | .pcReset => heldRings s
  | .hcReset => heldRings s
  | .pcSetcoef => heldRings s
  | .hcSetcoef => heldRings s
  | .pcConvolve => if s.arg 3 = 0 then [] else heldRings s
  | .hcConvolve => if s.arg 3 ≠ 0 ∧ heldHybrid s = true then heldRings s else []
  | _ => []

/-- The regions whose every byte a successful command reads or writes through MemRead and MemWrite (R71): sources,
destinations and internal rings, but of the arena of a CREATE only the data region of an RB and the internal rings of a
convolver (log 8, log 23). -/
def touched (i : Instr) (s : State) : List Span :=
  match i with
  | .rbCreate => [{ base := align16 (s.arg 3) + hdrSize, len := (s.arg 0 + 1 + s.arg 2) * s.arg 1 }]
  | .kcCreate => []
  | .pcCreate => usedRings .pcCreate s
  | .hcCreate => usedRings .hcCreate s
  | _ => sources i s ++ destinations i s ++ usedRings i s

/-- The configuration CREATE fixes (R38, R45). -/
def configOf : UnitState → UnitTag × List Nat
  | .rb st => (.rb, [st.n, st.rs, st.mrs, st.d])
  | .kc st => (.kc, [st.maxc, st.maxin])
  | .pc st => (.pc, [st.maxc, st.maxin, st.f])
  | .hc st => (.hc, [st.maxc, st.maxin, st.f, st.t])

/-- A KC state holds the coefficients `c`, zero-padded (R42, R316). -/
structure KcCoef (st : KcState F32) (c : List F32) : Prop where
  nc   : st.nc = c.length
  coef : st.coef = c ++ List.replicate (st.bmax - c.length) f32Zero

/-- Partition `p` of the coefficients `c` (R251). -/
def partitionOf (f : Nat) (c : List F32) (p : Nat) : List F32 :=
  (List.range f).map fun m =>
    if m < f / 2 ∧ p * (f / 2) + m < c.length then c.getD (p * (f / 2) + m) f32Zero else f32Zero

/-- A PC state holds the coefficients `c`: the scaled spectra of their partitions, and zeros in the other slots
(R251, R256, R257). -/
structure PcCoef (p : Platform) (st : PcState F32) (c : List F32) : Prop where
  nc    : st.nc = c.length
  np    : st.np = (c.length + st.f / 2 - 1) / (st.f / 2)
  rows  : st.h.length = st.npMax
  used  : ∀ k, k < st.np →
    st.h[k]? = some ((fftImpl p .real st.f (-1) (partitionOf st.f c k)).map (f32Mul (f32TwoOver st.f)))
  spare : ∀ k, st.np ≤ k → k < st.npMax → st.h[k]? = some (List.replicate st.f f32Zero)

/-- A successful CREATE's conditions, apart from the platform backing the arena (R146, R253, R318, R363): a pointer, a
valid configuration, a buffer that is large enough and inside the address space, and no live arena in its way. -/
structure CanCreate (s : State) (buf bsz : Nat) (valid : Bool) (ws : Nat) : Prop where
  buf_ne : buf ≠ 0
  valid  : valid = true
  room   : ws ≤ bsz
  fits   : buf + ws ≤ addrLimit
  clear  : s.meetsArena buf ws = false

/-- The conditions under which a CONVOLVE passes its checks and its accesses are backed (R71, R88, R259, R322, R368). -/
structure BlockReady (s : State) (maxin : Nat) : Prop where
  in_ne   : s.arg 1 ≠ 0
  out_ne  : s.arg 2 ≠ 0
  n_le    : s.arg 3 ≤ maxin
  in_fits : s.arg 1 + 4 * s.arg 3 ≤ addrLimit
  outFits : s.arg 2 + 4 * s.arg 3 ≤ addrLimit
  clear   : s.meetsArena (s.arg 2) (4 * s.arg 3) = false
  source  : backedRange s.plat (s.arg 1) (4 * s.arg 3) = true
  dest    : backedRange s.plat (s.arg 2) (4 * s.arg 3) = true

/-- The conditions under which a SETCOEF passes its checks and its read is backed (R71, R256, R316, R365). -/
structure CoefReady (s : State) (maxc : Nat) : Prop where
  coef_ne : s.arg 1 ≠ 0
  pos     : 1 ≤ s.arg 2
  le      : s.arg 2 ≤ maxc
  fits    : s.arg 1 + 4 * s.arg 2 ≤ addrLimit
  source  : backedRange s.plat (s.arg 1) (4 * s.arg 2) = true

/-- The samples an access in `s` reads. -/
def samplesAt (s : State) (a n : Nat) : List F32 := samplesOf (s.readBytes a (4 * n))

/-! ### Rounding -/

/-- The least magnitude, in units of `2^-149`, that rounds to an infinity: half a unit past the greatest finite value. -/
def overflowUnits : Nat := (2 ^ 25 - 1) * 2 ^ 252

/-- `r` is the exact value `num · 2^(-149-k)` rounded to nearest, ties to even (R9): finite exactly below the overflow
bound, an infinity of the value's sign from it on; a finite result is at least as near as every finite value, and where
another finite value is equally near, `r`'s last bit is 0. -/
structure RoundsTo (num : Int) (k : Nat) (r : F32) : Prop where
  finite_iff : f32IsFinite r = true ↔ num.natAbs < overflowUnits * 2 ^ k
  overflow   : f32IsFinite r = false → r = f32Inf (decide (num < 0))
  nearest    : f32IsFinite r = true → ∀ z : F32, f32IsFinite z = true →
    (f32Units r * 2 ^ k - num).natAbs ≤ (f32Units z * 2 ^ k - num).natAbs
  even       : f32IsFinite r = true → ∀ z : F32, f32IsFinite z = true → f32Units z ≠ f32Units r →
    (f32Units r * 2 ^ k - num).natAbs = (f32Units z * 2 ^ k - num).natAbs → r.getLsbD 0 = false

/-! ### Streams -/

/-- A KC state run over the blocks of successive calls; a call with `n = 0` changes nothing (R322). The outputs are joined. -/
def kcRun {α : Type} (ar : Arith α) : KcState α → List (List α) → KcState α × List α
  | st, [] => (st, [])
  | st, xs :: rest =>
    if xs.length = 0 then kcRun ar st rest
    else
      let r := kcConvolve ar st xs
      let t := kcRun ar r.1 rest
      (t.1, r.2 ++ t.2)

/-- A PC state run over the blocks of successive calls, the outputs joined; none when an internal check fails. -/
def pcRun {α : Type} (env : PcEnv α) : PcState α → List (List α) → Option (PcState α × List α)
  | st, [] => some (st, [])
  | st, xs :: rest => do
    let r ← pcConvolve env st xs
    let t ← pcRun env r.1 rest
    return (t.1, r.2 ++ t.2)

/-- An HC state run over the blocks of successive calls (R368); a call with `n = 0` changes nothing. -/
def hcRun {α : Type} (env : PcEnv α) : HcState α → List (List α) → Option (HcState α × List α)
  | st, [] => some (st, [])
  | st, xs :: rest =>
    if xs.length = 0 then hcRun env st rest
    else do
      let r ← hcConvolve env st xs
      let t ← hcRun env r.1 rest
      return (t.1, r.2 ++ t.2)

end Sys2Proof.Safety
end

