-- ==== Sys2Proof/Safety/Ideal.lean ====
section
/-! DEFINITION. The ideal transforms and laws (41_fft.md R202 to R208, 43_karatsuba.md R324, 42_partitioned.md R265) in exact
real and complex arithmetic (R11). Nothing here is part of a step: these are the terms in which the ideal laws and the
accuracy property are stated. -/
namespace Sys2Proof.Ideal
open Sys2Proof.Machine

/-- The real number a finite binary32 value is. -/
noncomputable def toReal (x : F32) : ℝ := (f32Units x : ℝ) / 2 ^ 149

/-- `exp(flag · 2πi · j·k / n)`. -/
noncomputable def rot (flag : ℤ) (n j k : ℕ) : ℂ :=
  Complex.exp ((flag : ℂ) * (2 * Real.pi * Complex.I) * (j * k : ℕ) / n)

/-- `DFT(n, flag, v)[k]` (R202). -/
noncomputable def dft (n : ℕ) (flag : ℤ) (v : ℕ → ℂ) (k : ℕ) : ℂ := ∑ j ∈ Finset.range n, v j * rot flag n j k

/-- `X[k]` of a real vector (R204). -/
noncomputable def bin (n : ℕ) (v : List ℝ) (k : ℕ) : ℂ := dft n (-1) (fun j => (v.getD j 0 : ℂ)) k

/-- The packed real forward transform (R204). -/
noncomputable def realForward (n : ℕ) (v : List ℝ) : List ℝ :=
  (List.range n).map fun i =>
    if i = 0 then (bin n v 0).re
    else if i = 1 then (bin n v (n / 2)).re
    else if i % 2 = 0 then (bin n v (i / 2)).re
    else (bin n v (i / 2)).im

/-- The packed real inverse transform (R205, the second form). -/
noncomputable def realInverse (n : ℕ) (p : List ℝ) : List ℝ :=
  (List.range n).map fun j =>
    (p.getD 0 0 + (-1) ^ j * p.getD 1 0) / 2 +
      ∑ k ∈ Finset.Ico 1 (n / 2),
        (p.getD (2 * k) 0 * Real.cos (2 * Real.pi * j * k / n) - p.getD (2 * k + 1) 0 * Real.sin (2 * Real.pi * j * k / n))

/-- Interleaved floats as a complex vector (R72). -/
def asComplex (v : List ℝ) (j : ℕ) : ℂ := ⟨v.getD (2 * j) 0, v.getD (2 * j + 1) 0⟩

/-- The ideal output floats of an FFT command (R202, R204, R205). -/
noncomputable def transform (kind : FftKind) (n : ℕ) (flag : ℤ) (v : List ℝ) : List ℝ :=
  match kind with
  | .cplx => (List.range n).flatMap fun k => [(dft n flag (asComplex v) k).re, (dft n flag (asComplex v) k).im]
  | .real => if flag = -1 then realForward n v else realInverse n v

/-- `FftAccurate(ε)` (R208): for every valid operand and finite input, every output float is finite and within
`ε · ‖v‖₁` of the ideal one. -/
def FftAccurate (p : Platform) (ε : ℝ) : Prop :=
  ∀ kind n flag v, validFft p.fftMaxN kind n flag = true → v.length = fftFloats kind n → v.all f32IsFinite = true →
    ∀ i, i < fftFloats kind n →
      f32IsFinite ((fftImpl p kind n flag v).getD i f32Zero) = true ∧
      |toReal ((fftImpl p kind n flag v).getD i f32Zero) - (transform kind n flag (v.map toReal)).getD i 0|
        ≤ ε * (v.map fun x => |toReal x|).sum

/-- `EPS_FFT` (R7): the source's accuracy figure for FFT results, the `ε` it accepts in `FftAccurate` (R208). -/
noncomputable def epsFft : ℝ := 1 / 10 ^ 4

/-- `EPS_HYB` (R7): the source's accuracy figure for Hybrid mode against a full FFT convolution (R372). -/
noncomputable def epsHyb : ℝ := 1 / 10 ^ 3

/-- Exact real arithmetic (R11). -/
noncomputable def exact : Arith ℝ := { zero := 0, add := (· + ·), sub := (· - ·), mul := (· * ·) }

/-- The ideal datapath of PC and HC: the ideal transforms and exact arithmetic (R265, R370). -/
noncomputable def env : PcEnv ℝ :=
  { arith := exact, fft := fun n flag v => if flag = -1 then realForward n v else realInverse n v,
    scale := fun f => 2 / f, settle := fun _ acc => acc }

/-- `Σ_k h[k] · x[t − delay − k]` with `x[s] = 0` for `s < 0` (R265, R324, R370). -/
noncomputable def convolveAt (h x : List ℝ) (delay t : ℕ) : ℝ :=
  ∑ k ∈ Finset.range h.length, if delay + k ≤ t then h.getD k 0 * x.getD (t - delay - k) 0 else 0

/-- The output stream of the ideal law: one sample per input sample. -/
noncomputable def convolved (h x : List ℝ) (delay : ℕ) : List ℝ := (List.range x.length).map (convolveAt h x delay)

end Sys2Proof.Ideal
end

