-- ==== Sys2Proof/Certificates/Slice0/Obligations.lean ====
section
/-! DEFINITION. The statements for the provers. A docstring names the rules of spec/ a statement formalises and, where it
rests on a choice of the model's, the log entry. -/
open Sys2Proof Sys2Proof.Machine Sys2Proof.Safety

/-! ### Encoding and the host's side -/

/-- R102: one word of each unit, written as the opcode map writes it, decodes to the command it stands for. -/
def Obligations.CommandWordsDecode : Prop :=
  decodeTableWord 32 0x10 = some .rbWorksize ∧ decodeTableWord 32 0x17 = some .rbDpeek ∧
  decodeTableWord 32 0x20 = some .fftCplx ∧ decodeTableWord 32 0x35 = some .kcConvolve ∧
  decodeTableWord 32 0x44 = some .pcSetcoef ∧ decodeTableWord 32 0x56 = some .hcGetlat ∧
  decodeTableWord 32 0x1A = none ∧ decodeTableWord 32 0x60 = none ∧ decodeTableWord 32 0x110 = none

/-- R100, R102, R110: the bytes that decode to a command are exactly the four bytes of its word, so no bit of a word is
dropped and no word means two commands. -/
def Obligations.DecodeIsInverseOfEncode : Prop :=
  (∀ (bs : List Byte) (i : Instr), decode bs = .ok i ↔ bs = bytesOfWord32 (encode i)) ∧
  (∀ (w : Nat) (i : Instr), decodeTableWord 32 w = some i ↔ w % 2 ^ 32 = opcode i)

/-- R106: a word with a reserved bit set, a reserved unit number or an unassigned operation fails with ILLEGAL_COMMAND and
changes nothing but STATUS and RES (CMD holds the word, R31); every other word is one of the 33 commands. -/
def Obligations.IllegalWordsFail : Prop :=
  ∀ (w : Word32) (s : State),
    let rsv := w.toNat / 256
    let unit := w.toNat / 16 % 16
    let op := w.toNat % 16
    if rsv ≠ 0 ∨ unit = 0 ∨ 6 ≤ unit ∨ (unit = 1 ∧ 10 ≤ op) ∨ (unit = 2 ∧ 2 ≤ op) ∨ (3 ≤ unit ∧ 7 ≤ op) then
      ∃ t, issueCommand w s = .next t ∧ t.status = 5 ∧ t.res = 0 ∧ t.cmd = w ∧ t.args = s.args ∧ t.insts = s.insts ∧
        t.mem = s.mem
    else ∃ i, decode (bytesOfWord32 w) = .ok i

/-- R36, R105: a step performs the host's oldest action (log 2: actions stand in a queue; none pending, the engine is
idle); a write of a word to CMD issues it, and the word of a command runs that command in the state with CMD set. The
model's choices: log 4 (the agent that may write CMD, and the owner that the write clears), log 13 (the write is taken
whatever `REG_BASE` is: alignment is judged on the offset) and log 22 (it issues its command also where a live arena covers
the register block; R87's words would give a HOST_PROTOCOL fault there). -/
def Obligations.StepRunsDecodedCommand : Prop :=
  (∀ s : State, s.inputs = [] → step s = .next s) ∧
  (∀ (s : State) (act : HostAction) (rest : List HostAction), s.inputs = act :: rest →
    step s = hostStep act { s with inputs := rest }) ∧
  (∀ (s : State) (agent : Nat) (w : Word32), s.owner = none ∨ s.owner = some agent →
    hostStep (.write agent s.plat.regBase (bytesOfWord32 w)) s = issueCommand w s) ∧
  (∀ (s : State) (w : Word32) (i : Instr), decode (bytesOfWord32 w) = .ok i →
    issueCommand w s = exec i { s with cmd := w, owner := none }) ∧
  (∀ (s : State) (i : Instr), step (s.withFetchWord 32 (opcode i)) = exec i { s with cmd := encode i, owner := none })

/-- R108, R109: the host actions of an assembly command line, run one after the other, are the operand writes and then the
command, with an operand `_` leaving its register as it is. The model's choices: log 2 (the actions stand in a queue), log 4
(the agent, and the owner that the CMD write clears), log 13 (the writes are taken whatever `REG_BASE` is: R34's alignment is
judged on the offset) and log 22 (they go on also where a live arena covers the register block; R87's words would give a
HOST_PROTOCOL fault there). -/
def Obligations.CommandLineExpansionRuns : Prop :=
  ∀ (s : State) (agent : Nat) (l : CommandLine) (rest : List HostAction),
    l.wellFormed = true → s.owner = none ∨ s.owner = some agent →
    s.inputs = l.expand s.plat.regBase agent ++ rest →
    core.run (l.expand s.plat.regBase agent).length s =
      exec l.instr { s with
        cmd := encode l.instr, args := writeOperands s.args 0 l.ops, inputs := rest, owner := none }

/-- R31, R34: what a host read of each register returns: CMD as last written, STATUS, RES and A0..A7 whole or by halves,
0 at the reserved offsets. The model's choices: log 3 (the bytes go to `readOut`), log 10 (the widths at reserved offsets),
log 13 (alignment is judged on the offset, whatever `REG_BASE` is) and log 22 (a read there is a register read also where
MEM or a live arena covers the block; R78, R81 and R82 do not say so). -/
def Obligations.RegisterReads : Prop :=
  ∀ s : State,
    let base := s.plat.regBase
    hostStep (.read base 4) s = .next { s with readOut := bytesFrom s.cmd 0 4 } ∧
    hostStep (.read (base + 0x04) 4) s = .next { s with readOut := bytesFrom s.status 0 4 } ∧
    hostStep (.read (base + 0x08) 8) s = .next { s with readOut := bytesFrom s.res 0 8 } ∧
    hostStep (.read (base + 0x08) 4) s = .next { s with readOut := bytesFrom s.res 0 4 } ∧
    hostStep (.read (base + 0x0C) 4) s = .next { s with readOut := bytesFrom s.res 32 4 } ∧
    (∀ i, i < 8 →
      hostStep (.read (base + 0x10 + 8 * i) 8) s = .next { s with readOut := bytesFrom (s.args.get i) 0 8 } ∧
      hostStep (.read (base + 0x10 + 8 * i) 4) s = .next { s with readOut := bytesFrom (s.args.get i) 0 4 } ∧
      hostStep (.read (base + 0x10 + 8 * i + 4) 4) s = .next { s with readOut := bytesFrom (s.args.get i) 32 4 }) ∧
    (∀ off width, 0x50 ≤ off → off < 0x100 → (width = 4 ∨ width = 8) → off % width = 0 →
      hostStep (.read (base + off) width) s = .next { s with readOut := List.replicate width 0 })

/-- R31, R32, R34: a host write sets an argument register or one half of it and leaves every other register; writes to
STATUS, RES and the reserved offsets are ignored. The model's choices: log 4 (the write marks its agent as the owner of the
operands), log 10 (the widths the reserved offsets take), log 13 (alignment is judged on the offset, whatever `REG_BASE` is)
and log 22 (a write is a register write also where a live arena covers the block; R87's words would give a HOST_PROTOCOL
fault there). -/
def Obligations.RegisterWrites : Prop :=
  ∀ (s : State) (agent : Nat),
    let base := s.plat.regBase
    (s.owner = none ∨ s.owner = some agent →
      (∀ (i : Nat) (v : Word64), i < 8 → ∃ a : Args,
        hostStep (.write agent (base + 0x10 + 8 * i) (bytesFrom v 0 8)) s =
          .next { s with args := a, owner := some agent } ∧
        ∀ k, k < 8 → a.get k = if k = i then v else s.args.get k) ∧
      (∀ (i : Nat) (h : Word32), i < 8 → ∃ a : Args,
        hostStep (.write agent (base + 0x10 + 8 * i) (bytesFrom h 0 4)) s =
          .next { s with args := a, owner := some agent } ∧
        ∀ k, k < 8 → a.get k =
          if k = i then ((s.args.get i).extractLsb' 32 32 : BitVec 32) ++ h else s.args.get k) ∧
      (∀ (i : Nat) (h : Word32), i < 8 → ∃ a : Args,
        hostStep (.write agent (base + 0x10 + 8 * i + 4) (bytesFrom h 0 4)) s =
          .next { s with args := a, owner := some agent } ∧
        ∀ k, k < 8 → a.get k =
          if k = i then h ++ ((s.args.get i).extractLsb' 0 32 : BitVec 32) else s.args.get k)) ∧
    (∀ data : List Byte, data.length = 4 →
      hostStep (.write agent (base + 0x04) data) s = .next s ∧
      hostStep (.write agent (base + 0x08) data) s = .next s ∧
      hostStep (.write agent (base + 0x0C) data) s = .next s) ∧
    (∀ data : List Byte, data.length = 8 → hostStep (.write agent (base + 0x08) data) s = .next s) ∧
    (∀ (off : Nat) (data : List Byte), 0x50 ≤ off → off < 0x100 → (data.length = 4 ∨ data.length = 8) →
      off % data.length = 0 → hostStep (.write agent (base + off) data) s = .next s)

/-- An access that touches the register block and is none of the listed ones is refused, a read and a write alike. R34 says
so of an access in the block; that one which lies in it only in part is refused as a whole, also where its other bytes lie
in a live arena, is the model's choice, log 19 and log 22; log 10: which accesses to reserved offsets are listed; log 13:
alignment is judged on the offset. -/
def Obligations.OtherRegisterAccessesRefused : Prop :=
  ∀ (s : State) (addr : Nat) (data : List Byte) (agent : Nat),
    1 ≤ data.length → addr < s.plat.regBase + 0x100 → s.plat.regBase < addr + data.length →
    ¬ listedAccess s.plat.regBase addr data.length →
    hostStep (.read addr data.length) s = .refused .registerAccess ∧
    hostStep (.write agent addr data) s = .refused .registerAccess

/-- R413: while an agent's operand writes are open, the write of an argument register, whole or half, or of CMD by another
agent is a HOST_PROTOCOL fault (log 4: how agents appear; log 13: alignment is judged on the offset). -/
def Obligations.SecondAgentFaults : Prop :=
  ∀ (s : State) (g h : Nat), s.owner = some g → h ≠ g →
    (∀ data : List Byte, data.length = 4 →
      hostStep (.write h s.plat.regBase data) s = .fault .hostProtocol) ∧
    (∀ (i : Nat) (data : List Byte), i < 8 → (data.length = 4 ∨ data.length = 8) →
      hostStep (.write h (s.plat.regBase + 0x10 + 8 * i) data) s = .fault .hostProtocol) ∧
    (∀ (i : Nat) (data : List Byte), i < 8 → data.length = 4 →
      hostStep (.write h (s.plat.regBase + 0x10 + 8 * i + 4) data) s = .fault .hostProtocol)

/-- A host write with any byte in a live arena is a HOST_PROTOCOL fault unless it touches the register block. R87 makes no
such exception: that a write which touches the block, wholly or in part, is none into the arena is the model's choice,
log 19 and log 22. -/
def Obligations.HostWriteIntoLiveArenaFaults : Prop :=
  ∀ (s : State) (agent addr : Nat) (data : List Byte) (hdl : Nat) (i : Instance) (k : Nat),
    (hdl, i) ∈ s.insts → k < data.length → i.buf ≤ addr + k → addr + k < i.buf + i.ws →
    addr + data.length ≤ s.plat.regBase ∨ s.plat.regBase + 0x100 ≤ addr →
    hostStep (.write agent addr data) s = .fault .hostProtocol

/-- R78: outside the register block (log 22) and the live arenas, a host write to backed memory sets exactly its bytes and
nothing else of the state, and a host read then returns them (log 19: a run of bytes of any length is one access; log 3:
the bytes read go to `readOut`). -/
def Obligations.HostReadSeesLastWrite : Prop :=
  ∀ (s : State) (agent addr : Nat) (data : List Byte),
    s.touchesRegs addr data.length = false → s.meetsArena addr data.length = false →
    backedRange s.plat addr data.length = true →
    ∃ t, hostStep (.write agent addr data) s = .next t ∧ t = { s with mem := t.mem } ∧
      (∀ a, t.mem.read a = if addr ≤ a ∧ a < addr + data.length then data.getD (a - addr) 0 else s.mem.read a) ∧
      ∃ u, hostStep (.read addr data.length) t = .next u ∧ u.readOut = data ∧ u.mem = t.mem

/-- R81, R82: a host read of a live arena's byte returns the slot contents inside the data region of a ring, and an
unconstrained value anywhere else, a fresh one each time: the value is that of the draw the counter stands at, and the read
advances the counter and changes nothing else (log 5: the draws and their counter are the model's; log 22: an arena's byte
in the register block is not read so). -/
def Obligations.LiveArenaReads : Prop :=
  ∀ (s : State) (hdl : Nat) (i : Instance) (a : Nat),
    InstancesOk s → (hdl, i) ∈ s.insts → i.buf ≤ a → a < i.buf + i.ws →
    s.touchesRegs a 1 = false → s.plat.backed a = true →
    (∀ st, i.unit = .rb st → st.d ≤ a → a < st.d + (st.n + 1 + st.mrs) * st.rs →
      hostStep (.read a 1) s = .next { s with readOut := [s.mem.read a], draws := s.draws + 1 }) ∧
    ((∀ st, i.unit = .rb st → a < st.d ∨ st.d + (st.n + 1 + st.mrs) * st.rs ≤ a) →
      hostStep (.read a 1) s = .next { s with readOut := [Config.freeByte s.draws a], draws := s.draws + 1 })

/-- R440: block reset sets CMD, STATUS, RES and A0..A7 to 0 and empties the instance set; host memory is not touched, and
a byte of a former arena is the host's again. It does not leave the fault: a run that has faulted stays so. -/
def Obligations.BlockReset : Prop :=
  (∀ s : State, ∃ t, hostStep .reset s = .next t ∧ t.cmd = 0 ∧ t.status = 0 ∧ t.res = 0 ∧
    (∀ k, k < 8 → t.args.get k = 0) ∧ t.insts = [] ∧ t.mem = s.mem ∧ t.plat = s.plat ∧
    (∀ hdl, assocGet hdl t.insts = none) ∧ ∀ a n, t.meetsArena a n = false) ∧
  ∀ (k m : Nat) (s : State) (f : Fault), core.run k s = .fault f → core.run (k + m) s = .fault f

/-- R31, R441, R442: after block reset the registers are 0, no instance is live and nothing is pending, and the reset state
meets every invariant stated below. Memory with nothing listed, the platform and the queue of actions are the
model's choice (log 1, log 2, log 7). -/
def Obligations.ResetStateIsSound : Prop :=
  State.reset.cmd = 0 ∧ State.reset.status = 0 ∧ State.reset.res = 0 ∧ (∀ k, k < 8 → State.reset.args.get k = 0) ∧
  State.reset.insts = [] ∧ State.reset.inputs = [] ∧ Memory.wf State.reset.mem ∧ StatusOk State.reset ∧
  InstancesOk State.reset ∧ ShadowOk State.reset ∧ ConvolversOk State.reset

/-! ### Every command -/

/-- R37: a command that completes with a failing code has changed nothing but CODE and RES. -/
def Obligations.FailingCommandChangesNothingElse : Prop :=
  ∀ (i : Instr) (s t : State), exec i s = .next t → t.code ≠ 0 → t = { s with status := t.status, res := 0 }

/-- R400, R414: the codes each command can write: OK, INVALID_ARGUMENT, and the ring's own codes for the ring's data
commands; RES is 0 with every failing code. -/
def Obligations.CommandStatusCodes : Prop :=
  ∀ (i : Instr) (s t : State), exec i s = .next t →
    t.status = 0 ∨ (t.res = 0 ∧ (t.status = 1 ∨
      (i = .rbPut ∧ t.status = 2) ∨
      ((i = .rbPeek ∨ i = .rbGet ∨ i = .rbDpeek) ∧ (t.status = 3 ∨ t.status = 4))))

/-- R32, R45: no command writes CMD or A0..A7, changes the host's pending actions or the platform; no command is refused. -/
def Obligations.CommandsKeepTheHostSide : Prop :=
  ∀ (i : Instr) (s : State),
    (∀ t, exec i s = .next t → t.cmd = s.cmd ∧ t.args = s.args ∧ t.inputs = s.inputs ∧ t.readOut = s.readOut ∧
      t.owner = s.owner ∧ t.plat = s.plat) ∧
    ∀ r, exec i s ≠ .refused r

/-- R32, R103: an argument register a command does not use is ignored, whatever its value. -/
def Obligations.UnusedRegistersAreIgnored : Prop :=
  ∀ (i : Instr) (s : State) (a : Args), (∀ k ∈ usedArgs i, a.get k = s.args.get k) →
    match exec i s with
    | .next t => exec i { s with args := a } = .next { t with args := a }
    | .fault f => exec i { s with args := a } = .fault f
    | .refused r => exec i { s with args := a } = .refused r

/-- R38, R45, R413: a command changes no instance but the one at the handle it creates or is given; of that one, no command
but a CREATE changes the unit, the configuration or the arena. -/
def Obligations.CommandsLeaveOtherInstances : Prop :=
  ∀ (i : Instr) (s t : State), exec i s = .next t →
    (∀ hdl, ownHandle i s ≠ some hdl → assocGet hdl t.insts = assocGet hdl s.insts) ∧
    (i ≠ .rbCreate → i ≠ .kcCreate → i ≠ .pcCreate → i ≠ .hcCreate →
      ∀ (hdl : Nat) (x y : Instance), assocGet hdl s.insts = some x → assocGet hdl t.insts = some y →
        y.buf = x.buf ∧ y.ws = x.ws ∧ configOf y.unit = configOf x.unit)

/-- The memory frame of every command (R142, R148, R149, R210, R259, R322, R368, R146, R147): a byte outside the
destinations computed from its operands reads as before; a command without destinations changes no byte. It speaks of the
byte the memory holds (`mem.read`). Of a live arena's bytes outside an RB data region, those of the internal rings of PC and
HC above all, that a command leaves them is the model's choice: log 5 (the draw of a CREATE stays until something writes the
byte; what an access reads there is a fresh draw all the same) and log 14 (the rings' samples stand in the unit state). R74
has a command write its arena bytes, R142 with R159 its rings' slots, and R82 lets them take any value at any time. -/
def Obligations.CommandsWriteOnlyTheirDestinations : Prop :=
  ∀ (i : Instr) (s t : State), exec i s = .next t →
    ∀ a, (∀ sp ∈ destinations i s, a < sp.base ∨ sp.base + sp.len ≤ a) → t.mem.read a = s.mem.read a

/-- R403: a command whose A0 is no live handle of its unit fails with INVALID_ARGUMENT. -/
def Obligations.BadHandleIsInvalidArgument : Prop :=
  ∀ (i : Instr) (u : UnitTag) (s : State), handleUnit i = some u →
    (∀ x, assocGet (s.arg 0) s.insts = some x → unitTag x.unit ≠ u) →
    exec i s = .next { s with status := 1, res := 0 }

/-- R90: a null pointer operand, a region that passes the end of the address space, or a work size that is not below `2^64`
makes a command fail with INVALID_ARGUMENT, whatever its other operands are and also when its count is 0. -/
def Obligations.PointersAndRegionsAreChecked : Prop :=
  ∀ (i : Instr) (s : State),
    (∃ sp ∈ operandRegions i s, sp.base = 0 ∨ 2 ^ 64 < sp.base + sp.len) ∨
      (∃ ws, operandWorkSize i s = some ws ∧ 2 ^ 64 ≤ ws) →
    exec i s = .next { s with status := 1, res := 0 }

/-- R88, R89, R401: a command whose other checks pass and whose destination overlaps a live arena takes
`fault(HOST_PROTOCOL)`: the arena of a CREATE, the buffers of an FFT, the output of a CONVOLVE. -/
def Obligations.OverlappedDestinationFaults : Prop :=
  (∀ s : State,
    let ws := wsRb (s.arg 0) (s.arg 1) (s.arg 2)
    s.arg 3 ≠ 0 → validRb (s.arg 0) (s.arg 1) (s.arg 2) = true → ws ≤ s.arg 4 → s.arg 3 + ws ≤ 2 ^ 64 →
    s.meetsArena (s.arg 3) ws = true → exec .rbCreate s = .fault .hostProtocol) ∧
  (∀ s : State,
    let ws := wsKc (s.arg 0) (s.arg 1)
    s.arg 4 ≠ 0 → validKc (s.arg 0) (s.arg 1) = true → ws ≤ s.arg 5 → s.arg 4 + ws ≤ 2 ^ 64 →
    s.meetsArena (s.arg 4) ws = true → exec .kcCreate s = .fault .hostProtocol) ∧
  (∀ s : State,
    let ws := wsPc (s.arg 0) (s.arg 1) (s.arg 2)
    s.arg 4 ≠ 0 → validPc s.plat.fftMaxN (s.arg 0) (s.arg 1) (s.arg 2) = true → ws ≤ s.arg 5 →
    s.arg 4 + ws ≤ 2 ^ 64 → s.meetsArena (s.arg 4) ws = true → exec .pcCreate s = .fault .hostProtocol) ∧
  (∀ s : State,
    let t := thresholdOf (s.arg 3)
    let ws := wsHc (s.arg 0) (s.arg 1) (s.arg 2) t
    s.arg 4 ≠ 0 → validHc s.plat.fftMaxN (s.arg 0) (s.arg 1) (s.arg 2) t = true → ws ≤ s.arg 5 →
    s.arg 4 + ws ≤ 2 ^ 64 → s.meetsArena (s.arg 4) ws = true → exec .hcCreate s = .fault .hostProtocol) ∧
  (∀ (s : State) (i : Instr) (kind : FftKind), (i = .fftCplx ∧ kind = .cplx) ∨ (i = .fftReal ∧ kind = .real) →
    let len := 4 * fftFloats kind (s.arg 0)
    s.arg 2 ≠ 0 → s.arg 3 ≠ 0 → validFft s.plat.fftMaxN kind (s.arg 0) (s.sarg 1) = true →
    s.arg 2 + len ≤ 2 ^ 64 → s.arg 3 + len ≤ 2 ^ 64 → rangesMeet (s.arg 2) len (s.arg 3) len = false →
    (s.meetsArena (s.arg 2) len = true ∨ s.meetsArena (s.arg 3) len = true) → exec i s = .fault .hostProtocol) ∧
  (∀ (s : State) (i : Instr) (x : Instance) (maxin : Nat), assocGet (s.arg 0) s.insts = some x →
    ((i = .kcConvolve ∧ ∃ st, x.unit = .kc st ∧ st.maxin = maxin) ∨
      (i = .pcConvolve ∧ ∃ st, x.unit = .pc st ∧ st.maxin = maxin) ∨
      (i = .hcConvolve ∧ ∃ st, x.unit = .hc st ∧ st.maxin = maxin)) →
    s.arg 1 ≠ 0 → s.arg 2 ≠ 0 → s.arg 3 ≤ maxin → s.arg 1 + 4 * s.arg 3 ≤ 2 ^ 64 → s.arg 2 + 4 * s.arg 3 ≤ 2 ^ 64 →
    s.meetsArena (s.arg 2) (4 * s.arg 3) = true → exec i s = .fault .hostProtocol)

/-- R71, R401: a command that reads a source operand takes `fault(BUS)` when its checks pass and a byte of the source is
outside MEM. -/
def Obligations.SourceOutsideMemoryFaults : Prop :=
  (∀ (s : State) (x : Instance) (st : RbState), assocGet (s.arg 0) s.insts = some x → x.unit = .rb st →
    s.arg 1 ≠ 0 → s.arg 1 + s.arg 2 * st.rs ≤ 2 ^ 64 → s.arg 2 ≤ st.free →
    (∃ a, s.arg 1 ≤ a ∧ a < s.arg 1 + s.arg 2 * st.rs ∧ s.plat.backed a = false) → exec .rbPut s = .fault .bus) ∧
  (∀ (s : State) (i : Instr) (kind : FftKind), (i = .fftCplx ∧ kind = .cplx) ∨ (i = .fftReal ∧ kind = .real) →
    let len := 4 * fftFloats kind (s.arg 0)
    s.arg 2 ≠ 0 → s.arg 3 ≠ 0 → validFft s.plat.fftMaxN kind (s.arg 0) (s.sarg 1) = true →
    s.arg 2 + len ≤ 2 ^ 64 → s.arg 3 + len ≤ 2 ^ 64 → rangesMeet (s.arg 2) len (s.arg 3) len = false →
    s.meetsArena (s.arg 2) len = false → s.meetsArena (s.arg 3) len = false →
    (∃ a, s.arg 2 ≤ a ∧ a < s.arg 2 + len ∧ s.plat.backed a = false) → exec i s = .fault .bus) ∧
  (∀ (s : State) (i : Instr) (x : Instance) (maxc : Nat), assocGet (s.arg 0) s.insts = some x →
    ((i = .kcSetcoef ∧ ∃ st, x.unit = .kc st ∧ st.maxc = maxc) ∨
      (i = .pcSetcoef ∧ ∃ st, x.unit = .pc st ∧ st.maxc = maxc) ∨
      (i = .hcSetcoef ∧ ∃ st, x.unit = .hc st ∧ st.maxc = maxc)) →
    s.arg 1 ≠ 0 → 1 ≤ s.arg 2 → s.arg 2 ≤ maxc → s.arg 1 + 4 * s.arg 2 ≤ 2 ^ 64 →
    (∃ a, s.arg 1 ≤ a ∧ a < s.arg 1 + 4 * s.arg 2 ∧ s.plat.backed a = false) → exec i s = .fault .bus) ∧
  (∀ (s : State) (i : Instr) (x : Instance) (maxin : Nat), assocGet (s.arg 0) s.insts = some x →
    ((i = .kcConvolve ∧ ∃ st, x.unit = .kc st ∧ st.maxin = maxin) ∨
      (i = .pcConvolve ∧ ∃ st, x.unit = .pc st ∧ st.maxin = maxin) ∨
      (i = .hcConvolve ∧ ∃ st, x.unit = .hc st ∧ st.maxin = maxin)) →
    s.arg 1 ≠ 0 → s.arg 2 ≠ 0 → s.arg 3 ≤ maxin → s.arg 1 + 4 * s.arg 3 ≤ 2 ^ 64 → s.arg 2 + 4 * s.arg 3 ≤ 2 ^ 64 →
    s.meetsArena (s.arg 2) (4 * s.arg 3) = false →
    (∃ a, s.arg 1 ≤ a ∧ a < s.arg 1 + 4 * s.arg 3 ∧ s.plat.backed a = false) → exec i s = .fault .bus)

/-- R71, R159: no command that touches a byte outside MEM succeeds: it faults, or a check of its own fails first; and
`fault(BUS)` it is, where the other checks pass, for the ring operations of CREATE and RESET on a data region of a ring
that has a byte outside MEM. Which bytes of an arena a command touches is the model's reading: log 8 (no header and no
array but the rings'), log 23 (where the internal rings stand, and that each is touched whole). -/
def Obligations.BytesOutsideMemoryStopACommand : Prop :=
  (∀ (i : Instr) (s : State) (sp : Span) (a : Nat), ConvolversOk s → sp ∈ touched i s → sp.has a = true →
    s.plat.backed a = false →
    exec i s = .fault .bus ∨ exec i s = .fault .hostProtocol ∨
      ∃ c : StatusCode, c ≠ .ok ∧ exec i s = .next (s.raise c)) ∧
  (∀ (s : State) (sp : Span) (a : Nat), sp.has a = true → s.plat.backed a = false →
    (CanCreate s (s.arg 3) (s.arg 4) (validRb (s.arg 0) (s.arg 1) (s.arg 2)) (wsRb (s.arg 0) (s.arg 1) (s.arg 2)) →
      sp ∈ touched .rbCreate s → exec .rbCreate s = .fault .bus) ∧
    (CanCreate s (s.arg 4) (s.arg 5) (validPc s.plat.fftMaxN (s.arg 0) (s.arg 1) (s.arg 2))
        (wsPc (s.arg 0) (s.arg 1) (s.arg 2)) →
      sp ∈ touched .pcCreate s → exec .pcCreate s = .fault .bus) ∧
    (CanCreate s (s.arg 4) (s.arg 5)
        (validHc s.plat.fftMaxN (s.arg 0) (s.arg 1) (s.arg 2) (thresholdOf (s.arg 3)))
        (wsHc (s.arg 0) (s.arg 1) (s.arg 2) (thresholdOf (s.arg 3))) →
      sp ∈ touched .hcCreate s → exec .hcCreate s = .fault .bus) ∧
    ∀ x, assocGet (s.arg 0) s.insts = some x → sp ∈ internalRings (s.arg 0) x.unit →
      ((∃ st, x.unit = .pc st) → exec .pcReset s = .fault .bus) ∧
      ((∃ st, x.unit = .hc st) → exec .hcReset s = .fault .bus))

/-- R405: the causes of a command's fault: BUS only when a byte of its source, its destination or an internal ring it operates
on is outside MEM, HOST_PROTOCOL only when a destination operand overlaps a live arena. R405's words for BUS are any engine
access outside MEM; which accesses those are is the model's reading: log 8 (none to KC's arrays or to PC's `H`, `FB` and
`acc` in a RESET, a SETCOEF or a CONVOLVE), log 23 (those to the internal rings), log 15 (an empty region has no byte outside
MEM, and an empty destination overlaps no arena). -/
def Obligations.FaultCausesAreComplete : Prop :=
  ∀ (i : Instr) (s : State),
    (exec i s = .fault .bus → ∃ sp ∈ sources i s ++ destinations i s ++ usedRings i s,
      ∃ a, sp.has a = true ∧ s.plat.backed a = false) ∧
    (exec i s = .fault .hostProtocol →
      hasDestination i = true ∧ ∃ sp ∈ destinations i s, s.meetsArena sp.base sp.len = true)

/-! ### Commands of every unit: sizes, creation, destruction, reset, coefficients, latency -/

/-- R145, R252, R317, R362 (with R83 to R86, R144, R250, R313, R360, R361): a WORKSIZE writes the work size of a valid
configuration and fails with INVALID_ARGUMENT on any other; it has no other effect. The first two clauses say what the
functions of R8 in these sizes are. -/
def Obligations.WorksizeCommandsComplete : Prop :=
  (∀ v : Nat, (∃ k, nextpow2 v = 2 ^ k) ∧ v ≤ nextpow2 v ∧ ∀ k, v ≤ 2 ^ k → nextpow2 v ≤ 2 ^ k) ∧
  (∀ v : Nat, ispow2 v = true ↔ ∃ k, v = 2 ^ k) ∧
  ∀ s : State,
    let a := s.arg 0
    let b := s.arg 1
    let c := s.arg 2
    let t := if s.arg 3 = 0 then 1024 else s.arg 3
    let up := fun v : Nat => (v + 15) / 16 * 16
    let rb := fun n rs mrs : Nat => 16 + 64 + up ((n + 1 + mrs) * rs)
    let kc := fun maxc maxin : Nat =>
      let bm := nextpow2 (max maxc maxin)
      16 + 64 + up (4 * bm) + up (4 * bm) + up (8 * bm) + up (8 * bm) + up (24 * bm)
    let pc := fun maxc maxin f : Nat =>
      16 + 64 + rb (2 * (f / 2) + maxin) 4 f + rb (f / 2 + maxin) 4 maxin
        + 2 * up (4 * ((maxc + f / 2 - 1) / (f / 2)) * f) + 3 * up (4 * f)
    let hc := fun maxc maxin f t : Nat =>
      16 + 64 + kc (min maxc t) maxin + pc (max 1 (maxc - t)) maxin f + rb ((t - f / 2) + maxin) 4 maxin
        + up (4 * maxin)
    let answer := fun (valid : Prop) [Decidable valid] (ws : Nat) =>
      (Host.Outcome.next (if valid then { s with status := 0, res := BitVec.ofNat 64 ws }
        else { s with status := 1, res := 0 }) : Host.Outcome State Fault Refusal)
    let fftSize := ispow2 c = true ∧ 2 ≤ c ∧ c ≤ s.plat.fftMaxN
    exec .rbWorksize s = answer (1 ≤ a ∧ 1 ≤ b ∧ 1 ≤ c ∧ c ≤ a ∧ rb a b c < 2 ^ 64) (rb a b c) ∧
    exec .kcWorksize s = answer (1 ≤ a ∧ 1 ≤ b ∧ kc a b < 2 ^ 64) (kc a b) ∧
    exec .pcWorksize s = answer (1 ≤ a ∧ 1 ≤ b ∧ fftSize ∧ pc a b c < 2 ^ 64) (pc a b c) ∧
    exec .hcWorksize s = answer (1 ≤ a ∧ 1 ≤ b ∧ fftSize ∧ c / 2 ≤ t ∧ hc a b c t < 2 ^ 64) (hc a b c t)

/-- R80, R146, R152, R253, R258, R318, R321, R363, R369: a CREATE on good operands returns the handle `align16(buf)` and
adds the instance: a ring with cursors 0 whose data region (in backed memory) reads 0, or a convolver at its reset values
with a single zero tap, a hybrid one in TimeOnly mode. That of the arena MEM need have the data region of an RB and the
internal rings of a PC or HC alone, and nothing for a KC, is the model's reading: log 8, log 23. -/
def Obligations.CreateCommandsComplete : Prop :=
  ∀ s : State,
    let maxc := s.arg 0
    let maxin := s.arg 1
    let f := s.arg 2
    let t0 := thresholdOf (s.arg 3)
    let buf := s.arg 4
    let hdl := (buf + 15) / 16 * 16
    let ring := (s.arg 3 + 15) / 16 * 16
    (∀ n rs mrs, s.arg 0 = n → s.arg 1 = rs → s.arg 2 = mrs →
      CanCreate s (s.arg 3) (s.arg 4) (validRb n rs mrs) (wsRb n rs mrs) →
      backedRange s.plat (ring + 64) ((n + 1 + mrs) * rs) = true →
      ∃ t, exec .rbCreate s = .next t ∧ t.status = 0 ∧ t.res.toNat = ring ∧
        assocGet ring t.insts =
          some { buf := s.arg 3, ws := wsRb n rs mrs, unit := .rb (RbState.mk n rs mrs 0 0 (ring + 64)) } ∧
        ∀ a, ring + 64 ≤ a → a < ring + 64 + (n + 1 + mrs) * rs → t.mem.read a = 0) ∧
    (CanCreate s buf (s.arg 5) (validKc maxc maxin) (wsKc maxc maxin) →
      ∃ t, exec .kcCreate s = .next t ∧ t.status = 0 ∧ t.res.toNat = hdl ∧
        assocGet hdl t.insts = some { buf := buf, ws := wsKc maxc maxin, unit := .kc (KcState.mk maxc maxin 1
          (List.replicate (nextpow2 (max maxc maxin)) f32Zero)
          (List.replicate (2 * nextpow2 (max maxc maxin)) f32Zero)) }) ∧
    (CanCreate s buf (s.arg 5) (validPc s.plat.fftMaxN maxc maxin f) (wsPc maxc maxin f) →
      allBacked s.plat (pcRingSpans hdl maxin f) = true →
      ∃ t st, exec .pcCreate s = .next t ∧ t.status = 0 ∧ t.res.toNat = hdl ∧
        assocGet hdl t.insts = some { buf := buf, ws := wsPc maxc maxin f, unit := .pc st } ∧
        st.maxc = maxc ∧ st.maxin = maxin ∧ st.f = f ∧ st.nc = 1 ∧ st.np = 1 ∧
        st.h = List.replicate st.npMax (List.replicate f f32Zero) ∧ PcAtReset st ∧ PcOk s.plat.fftMaxN st) ∧
    (CanCreate s buf (s.arg 5) (validHc s.plat.fftMaxN maxc maxin f t0) (wsHc maxc maxin f t0) →
      allBacked s.plat (hcRingSpans hdl maxc maxin f t0) = true →
      ∃ t st, exec .hcCreate s = .next t ∧ t.status = 0 ∧ t.res.toNat = hdl ∧
        assocGet hdl t.insts = some { buf := buf, ws := wsHc maxc maxin f t0, unit := .hc st } ∧
        st.maxc = maxc ∧ st.maxin = maxin ∧ st.f = f ∧ st.t = t0 ∧ st.mode = .timeOnly ∧
        st.k.nc = 1 ∧ st.k.coef = List.replicate st.k.bmax f32Zero ∧ st.q.nc = 1 ∧ st.q.np = 1 ∧
        st.q.h = List.replicate st.q.npMax (List.replicate f f32Zero) ∧ HcAtReset st ∧ HcOk s.plat.fftMaxN st)

/-- R147, R254, R319, R364: DESTROY of a live handle whose arena is backed zeroes every byte of the arena and removes the
instance. -/
def Obligations.DestroyCommandsComplete : Prop :=
  ∀ (s : State) (i : Instr) (x : Instance), i ∈ [Instr.rbDestroy, .kcDestroy, .pcDestroy, .hcDestroy] →
    assocGet (s.arg 0) s.insts = some x → handleUnit i = some (unitTag x.unit) →
    backedRange s.plat x.buf x.ws = true →
    ∃ t, exec i s = .next t ∧ t.status = 0 ∧ t.res = 0 ∧ assocGet (s.arg 0) t.insts = none ∧
      ∀ a, x.buf ≤ a → a < x.buf + x.ws → t.mem.read a = 0

/-- R255, R258, R320, R321, R366, R369: RESET of a live, well-kept convolver brings it to its reset values and keeps its
coefficients, its mode and its configuration; MEM has its internal rings (R71, log 23), as InstanceSetStaysSound keeps. That
RESET completes though the other arrays (KC's `ovl`, PC's `FB` and `acc`) lie outside MEM is the model's reading, log 8. -/
def Obligations.ResetCommandsComplete : Prop :=
  ∀ (s : State) (x : Instance), assocGet (s.arg 0) s.insts = some x →
    (∀ st, x.unit = .kc st →
      ∃ t, exec .kcReset s = .next t ∧ t.status = 0 ∧ t.res = 0 ∧
        assocGet (s.arg 0) t.insts = some { x with unit := .kc (KcState.mk st.maxc st.maxin st.nc st.coef
          (List.replicate (2 * nextpow2 (max st.maxc st.maxin)) f32Zero)) }) ∧
    (∀ st, x.unit = .pc st → PcOk s.plat.fftMaxN st → allBacked s.plat (internalRings (s.arg 0) x.unit) = true →
      ∃ t st', exec .pcReset s = .next t ∧ t.status = 0 ∧ t.res = 0 ∧
        assocGet (s.arg 0) t.insts = some { x with unit := .pc st' } ∧
        configOf (.pc st') = configOf (.pc st) ∧ st'.nc = st.nc ∧ st'.np = st.np ∧ st'.h = st.h ∧ PcAtReset st') ∧
    (∀ st, x.unit = .hc st → HcOk s.plat.fftMaxN st → allBacked s.plat (internalRings (s.arg 0) x.unit) = true →
      ∃ t st', exec .hcReset s = .next t ∧ t.status = 0 ∧ t.res = 0 ∧
        assocGet (s.arg 0) t.insts = some { x with unit := .hc st' } ∧
        configOf (.hc st') = configOf (.hc st) ∧ st'.mode = st.mode ∧ st'.k.nc = st.k.nc ∧ st'.k.coef = st.k.coef ∧
        st'.q.nc = st.q.nc ∧ st'.q.np = st.q.np ∧ st'.q.h = st.q.h ∧ HcAtReset st')

/-- R92, R256, R257, R316, R365: SETCOEF copies the coefficients it reads, as a zero-padded vector (KC), as the scaled
spectra of the partitions (PC), or split at the threshold (HC, which derives its mode), and resets the history; MEM has the
internal rings (R71, log 23). That SETCOEF completes though the other arrays (KC's `coef` and `ovl`, PC's `H`, `FB` and
`acc`) lie outside MEM is the model's reading, log 8. -/
def Obligations.SetcoefCommandsComplete : Prop :=
  ∀ (s : State) (x : Instance), assocGet (s.arg 0) s.insts = some x →
    let c := samplesAt s (s.arg 1) (s.arg 2)
    (∀ st, x.unit = .kc st → CoefReady s st.maxc →
      ∃ t st', exec .kcSetcoef s = .next t ∧ t.status = 0 ∧ t.res = 0 ∧
        assocGet (s.arg 0) t.insts = some { x with unit := .kc st' } ∧ configOf (.kc st') = configOf (.kc st) ∧
        KcCoef st' c ∧ st'.ovl = List.replicate (2 * st'.bmax) f32Zero) ∧
    (∀ st, x.unit = .pc st → PcOk s.plat.fftMaxN st → CoefReady s st.maxc →
      allBacked s.plat (internalRings (s.arg 0) x.unit) = true →
      ∃ t st', exec .pcSetcoef s = .next t ∧ t.status = 0 ∧ t.res = 0 ∧
        assocGet (s.arg 0) t.insts = some { x with unit := .pc st' } ∧ configOf (.pc st') = configOf (.pc st) ∧
        PcCoef s.plat st' c ∧ PcAtReset st') ∧
    (∀ st, x.unit = .hc st → HcOk s.plat.fftMaxN st → CoefReady s st.maxc →
      allBacked s.plat (internalRings (s.arg 0) x.unit) = true →
      ∃ t st', exec .hcSetcoef s = .next t ∧ t.status = 0 ∧ t.res = 0 ∧
        assocGet (s.arg 0) t.insts = some { x with unit := .hc st' } ∧ configOf (.hc st') = configOf (.hc st) ∧
        HcAtReset st' ∧
        (if s.arg 2 ≤ st.t then st'.mode = .timeOnly ∧ KcCoef st'.k c ∧ PcCoef s.plat st'.q [f32Zero]
          else st'.mode = .hybrid ∧ KcCoef st'.k (c.take st.t) ∧ PcCoef s.plat st'.q (c.drop st.t)))

/-- R260, R323, R367: GETLAT answers `P = F/2` for PC and 0 for KC and HC, and changes nothing else. -/
def Obligations.GetlatCommandsComplete : Prop :=
  ∀ (s : State) (x : Instance), assocGet (s.arg 0) s.insts = some x →
    (∀ st, x.unit = .kc st → exec .kcGetlat s = .next { s with status := 0, res := 0 }) ∧
    (∀ st, x.unit = .pc st → exec .pcGetlat s = .next { s with status := 0, res := BitVec.ofNat 64 (st.f / 2) }) ∧
    (∀ st, x.unit = .hc st → exec .hcGetlat s = .next { s with status := 0, res := 0 })

/-! ### Ring buffers -/

/-- R148, R152: RB.CLEAR of a live ring in a sound instance set zeroes its data region and both cursors. -/
def Obligations.RbClearCompletes : Prop :=
  ∀ (s : State) (x : Instance) (st : RbState), InstancesOk s → assocGet (s.arg 0) s.insts = some x → x.unit = .rb st →
    ∃ t, exec .rbClear s = .next t ∧ t.status = 0 ∧ t.res = 0 ∧
      assocGet (s.arg 0) t.insts = some { x with unit := .rb { st with r := 0, w := 0 } } ∧
      ∀ a, st.d ≤ a → a < st.d + (st.n + 1 + st.mrs) * st.rs → t.mem.read a = 0

/-- R149, R156: RB.PUT of `n` records with room for them appends them, in order, behind the unread records of the ring,
none of which changes, and advances the write cursor by `n` modulo `B`; with `n = 0` also where `src` lies outside MEM
(log 15). -/
def Obligations.RbPutAppendsRecords : Prop :=
  ∀ (s : State) (x : Instance) (st : RbState), InstancesOk s → assocGet (s.arg 0) s.insts = some x → x.unit = .rb st →
    s.arg 1 ≠ 0 → s.arg 1 + s.arg 2 * st.rs ≤ 2 ^ 64 → s.arg 2 ≤ st.free →
    backedRange s.plat (s.arg 1) (s.arg 2 * st.rs) = true →
    ∃ t, exec .rbPut s = .next t ∧ t.status = 0 ∧ t.res = 0 ∧
      let st' := { st with w := (st.w + s.arg 2) % (st.n + 1) }
      assocGet (s.arg 0) t.insts = some { x with unit := .rb st' } ∧
      unread t.mem st' = unread s.mem st ++ recordsOf st.rs (s.arg 2) (s.readBytes (s.arg 1) (s.arg 2 * st.rs))

/-- R143, R150, R151, R156, R157: the view RB.PEEK and RB.GET return shows the next `n` unread records, oldest first, also
across the wrap; PEEK changes nothing, GET takes exactly those records off the ring. -/
def Obligations.RbGetReturnsOldestRecords : Prop :=
  ∀ (s : State) (x : Instance) (st : RbState), InstancesOk s → ShadowOk s →
    assocGet (s.arg 0) s.insts = some x → x.unit = .rb st → s.arg 1 ≤ st.mrs → s.arg 1 ≤ st.remaining →
    let view := st.d + st.r * st.rs
    let st' := { st with r := (st.r + s.arg 1) % (st.n + 1) }
    recordsAt s.mem view st.rs (s.arg 1) = (unread s.mem st).take (s.arg 1) ∧
    (∃ t, exec .rbPeek s = .next t ∧ t = { s with status := 0, res := t.res } ∧ t.res.toNat = view) ∧
    (∃ t, exec .rbGet s = .next t ∧ t.status = 0 ∧ t.res.toNat = view ∧ t.mem = s.mem ∧
      assocGet (s.arg 0) t.insts = some { x with unit := .rb st' } ∧
      unread t.mem st' = (unread s.mem st).drop (s.arg 1))

/-- R153, R158: the view of RB.DPEEK begins `delay` slots behind the read cursor, modulo `B`; its record `i` is the
contents of slot `(r − delay + i) mod B`; nothing changes but STATUS and RES. -/
def Obligations.RbDelayedPeekView : Prop :=
  ∀ (s : State) (x : Instance) (st : RbState), InstancesOk s → ShadowOk s →
    assocGet (s.arg 0) s.insts = some x → x.unit = .rb st →
    s.arg 2 ≤ st.n → s.arg 1 ≤ st.mrs → s.arg 1 ≤ st.remaining + s.arg 2 →
    let first := (st.r + (st.n + 1) - s.arg 2) % (st.n + 1)
    ∃ t, exec .rbDpeek s = .next t ∧ t = { s with status := 0, res := t.res } ∧ t.res.toNat = st.d + first * st.rs ∧
      recordsAt t.mem t.res.toNat st.rs (s.arg 1) =
        (List.range (s.arg 1)).map fun k => slotBytes t.mem st ((first + k) % (st.n + 1))

/-- R154, R155: RB.REMAIN answers `(w − r) mod B`, RB.FREE the rest of the capacity, and the two add up to `N`; nothing else
changes. -/
def Obligations.RbCountsSumToCapacity : Prop :=
  ∀ (s : State) (x : Instance) (st : RbState), InstancesOk s → assocGet (s.arg 0) s.insts = some x → x.unit = .rb st →
    let remain := if st.r ≤ st.w then st.w - st.r else st.w + (st.n + 1) - st.r
    ∃ t u, exec .rbRemain s = .next t ∧ t = { s with status := 0, res := t.res } ∧ t.res.toNat = remain ∧
      exec .rbFree s = .next u ∧ u = { s with status := 0, res := u.res } ∧ t.res.toNat + u.res.toNat = st.n

/-- R149 to R153, R401: the order of the ring's own checks. EXCEEDS_CAPACITY comes before any access to memory;
EXCEEDS_MAX_REQUIRED_SIZE comes before EXCEEDS_REMAINING_DATA; the delay check of DPEEK comes first. -/
def Obligations.RingErrorPriority : Prop :=
  ∀ (s : State) (x : Instance) (st : RbState), assocGet (s.arg 0) s.insts = some x → x.unit = .rb st →
    (s.arg 1 ≠ 0 → s.arg 1 + s.arg 2 * st.rs ≤ 2 ^ 64 → st.free < s.arg 2 →
      exec .rbPut s = .next { s with status := 2, res := 0 }) ∧
    (∀ i : Instr, i = .rbPeek ∨ i = .rbGet →
      (st.mrs < s.arg 1 → exec i s = .next { s with status := 4, res := 0 }) ∧
      (s.arg 1 ≤ st.mrs → st.remaining < s.arg 1 → exec i s = .next { s with status := 3, res := 0 })) ∧
    (st.n < s.arg 2 → exec .rbDpeek s = .next { s with status := 1, res := 0 }) ∧
    (s.arg 2 ≤ st.n → st.mrs < s.arg 1 → exec .rbDpeek s = .next { s with status := 4, res := 0 }) ∧
    (s.arg 2 ≤ st.n → s.arg 1 ≤ st.mrs → st.remaining + s.arg 2 < s.arg 1 →
      exec .rbDpeek s = .next { s with status := 3, res := 0 })

/-! ### The FFT unit -/

/-- R210, R211, R216: an FFT command on good operands writes `fftImpl` of the samples at `x` back to `x`, leaves draws in
`scratch` (log 5) and changes no instance. -/
def Obligations.FftCommandsComplete : Prop :=
  ∀ (s : State) (i : Instr) (kind : FftKind), (i = .fftCplx ∧ kind = .cplx) ∨ (i = .fftReal ∧ kind = .real) →
    let n := s.arg 0
    let flag := s.sarg 1
    let x := s.arg 2
    let scratch := s.arg 3
    let floats := match kind with | .cplx => 2 * n | .real => n
    let len := 4 * floats
    x ≠ 0 → scratch ≠ 0 → (∃ k, n = 2 ^ k) → (kind = .real → 2 ≤ n) → n ≤ s.plat.fftMaxN → flag = -1 ∨ flag = 1 →
    x + len ≤ 2 ^ 64 → scratch + len ≤ 2 ^ 64 → x + len ≤ scratch ∨ scratch + len ≤ x →
    s.meetsArena x len = false → s.meetsArena scratch len = false →
    backedRange s.plat x len = true → backedRange s.plat scratch len = true →
    ∃ t, exec i s = .next t ∧ t.status = 0 ∧ t.res = 0 ∧ t.insts = s.insts ∧
      (fftImpl s.plat kind n flag (samplesAt s x floats)).length = floats ∧
      SamplesAre t.mem x (fftImpl s.plat kind n flag (samplesAt s x floats)) ∧
      ∀ a, scratch ≤ a → a < scratch + len → ∃ draw, t.mem.read a = Config.freeByte draw a

/-- R201, R210, R211: an FFT command fails with INVALID_ARGUMENT on a null pointer, a length that is no power of two or out
of range, a flag that is neither −1 nor +1, an address overflow or overlapping buffers. -/
def Obligations.FftOperandsAreChecked : Prop :=
  ∀ (s : State) (i : Instr) (kind : FftKind), (i = .fftCplx ∧ kind = .cplx) ∨ (i = .fftReal ∧ kind = .real) →
    let n := s.arg 0
    let len := match kind with | .cplx => 8 * n | .real => 4 * n
    (s.arg 2 = 0 ∨ s.arg 3 = 0 ∨ (¬ ∃ k, n = 2 ^ k) ∨ (kind = .real ∧ n = 1) ∨ s.plat.fftMaxN < n ∨
      (s.sarg 1 ≠ -1 ∧ s.sarg 1 ≠ 1) ∨ 2 ^ 64 < s.arg 2 + len ∨ 2 ^ 64 < s.arg 3 + len ∨
      ∃ a, s.arg 2 ≤ a ∧ a < s.arg 2 + len ∧ s.arg 3 ≤ a ∧ a < s.arg 3 + len) →
    exec i s = .next { s with status := 1, res := 0 }

/-- R218, R219: in exact arithmetic the packed product of a spectrum with a scaled spectrum transforms back to the circular
convolution. -/
def Obligations.PackedProductIsCircularConvolution : Prop :=
  ∀ (k : ℕ) (u g : List ℝ), 1 ≤ k → u.length = 2 ^ k → g.length = 2 ^ k →
    let f := 2 ^ k
    let acc := packedMac Ideal.exact (List.replicate f 0) (Ideal.realForward f u)
      ((Ideal.realForward f g).map fun y => 2 / (f : ℝ) * y)
    ∀ j, j < f → (Ideal.realInverse f acc).getD j 0 =
      ∑ l ∈ Finset.range f, g.getD l 0 * u.getD ((j + f - l) % f) 0

/-! ### The convolvers -/

/-- R314, R315, R322: KC.CONVOLVE on good operands writes `z[i] ⊕ ovl[i]` and shifts the carry, with `z` the product of the
zero-padded input and the coefficients over the block size; with `n = 0` it changes nothing. Log 6: a NaN's bits. The
model's readings: log 8 (it completes though the KC arrays lie outside MEM) and log 15 (with `n = 0` also where `out` lies
in a live arena or a pointer outside MEM). -/
def Obligations.KcConvolveCompletes : Prop :=
  ∀ (s : State) (x : Instance) (st : KcState F32), assocGet (s.arg 0) s.insts = some x → x.unit = .kc st → KcOk st →
    BlockReady s st.maxin →
    let n := s.arg 3
    let b := nextpow2 (max n st.nc)
    let xs := samplesAt s (s.arg 1) n
    let z := kmul f32Arith b.log2 (xs ++ List.replicate (b - n) f32Zero) (st.coef.take b)
    (n = 0 → exec .kcConvolve s = .next { s with status := 0, res := 0 }) ∧
    (1 ≤ n → ∃ t st', exec .kcConvolve s = .next t ∧ t.status = 0 ∧ t.res = 0 ∧
      assocGet (s.arg 0) t.insts = some { x with unit := .kc st' } ∧
      st' = { st with ovl := st'.ovl } ∧ st'.ovl.length = 2 * st.bmax ∧
      (∀ j, j < 2 * st.bmax → st'.ovl[j]? = some (f32Add
        (if j + n < 2 * st.bmax then st.ovl.getD (j + n) f32Zero else f32Zero)
        (if n + j < 2 * b then z.getD (n + j) f32Zero else f32Zero))) ∧
      WrittenAs t.mem (s.arg 2) ((List.range n).map fun k => f32Add (z.getD k f32Zero) (st.ovl.getD k f32Zero)))

/-- R259, R262, R263: PC.CONVOLVE on good operands takes in its samples and writes `n` samples of the output stream, first
those the output ring held; its schedule and its ring levels are as R262 says; with `n = 0` the instance is unchanged, and
otherwise MEM has the internal rings (R71, log 23). The model's readings: log 8 (it completes though `H`, `FB` and `acc` lie
outside MEM) and log 15 (with `n = 0` also where `out` lies in a live arena or a pointer outside MEM). -/
def Obligations.PcConvolveCompletes : Prop :=
  ∀ (s : State) (x : Instance) (st : PcState F32), assocGet (s.arg 0) s.insts = some x → x.unit = .pc st →
    PcOk s.plat.fftMaxN st → BlockReady s st.maxin →
    s.arg 3 = 0 ∨ allBacked s.plat (internalRings (s.arg 0) x.unit) = true →
    ∃ t st' ys, exec .pcConvolve s = .next t ∧ t.status = 0 ∧ t.res = 0 ∧
      pcConvolve (pcEnv s) st (samplesAt s (s.arg 1) (s.arg 3)) = some (st', ys) ∧
      assocGet (s.arg 0) t.insts = some { x with unit := .pc st' } ∧
      ys.length = s.arg 3 ∧ SamplesAre t.mem (s.arg 2) ys ∧
      PcOk s.plat.fftMaxN st' ∧ configOf (.pc st') = configOf (.pc st) ∧
      st'.nc = st.nc ∧ st'.np = st.np ∧ st'.h = st.h ∧ st'.inCount = (st.inCount + s.arg 3) % st.p ∧
      (∀ k, k < s.arg 3 → k < st.outRing.remaining → (ringUnread st.outRing)[k]? = some ys[k]?) ∧
      (s.arg 3 = 0 → st' = st)

/-- R368, R371, R372: HC.CONVOLVE on good operands writes the Karatsuba path's output in TimeOnly mode; in Hybrid mode it
adds the partitioned path's output on the input delayed by `T − L`, where MEM has the internal rings (R71, log 23); with
`n = 0` it changes nothing. Log 6: a NaN's bits. The model's readings: log 8 (it completes though the arrays other than the
rings lie outside MEM, in TimeOnly mode though the whole arena does) and log 15 (with `n = 0` also where `out` lies in a
live arena or a pointer outside MEM). -/
def Obligations.HcConvolveCompletes : Prop :=
  ∀ (s : State) (x : Instance) (st : HcState F32), assocGet (s.arg 0) s.insts = some x → x.unit = .hc st →
    HcOk s.plat.fftMaxN st → BlockReady s st.maxin →
    let n := s.arg 3
    let xs := samplesAt s (s.arg 1) n
    let rk := kcConvolve f32Arith st.k xs
    (n = 0 → exec .hcConvolve s = .next { s with status := 0, res := 0 }) ∧
    (1 ≤ n → st.mode = .timeOnly → ∃ t, exec .hcConvolve s = .next t ∧ t.status = 0 ∧ t.res = 0 ∧
      assocGet (s.arg 0) t.insts = some { x with unit := .hc { st with k := rk.1 } } ∧
      rk.2.length = n ∧ WrittenAs t.mem (s.arg 2) rk.2) ∧
    (1 ≤ n → st.mode = .hybrid → allBacked s.plat (internalRings (s.arg 0) x.unit) = true →
      ∃ t xd dly q yp, exec .hcConvolve s = .next t ∧ t.status = 0 ∧ t.res = 0 ∧
      xd.map some = (ringUnread st.dly ++ xs.map some).take n ∧
      ringUnread dly = (ringUnread st.dly ++ xs.map some).drop n ∧
      pcConvolve (pcEnv s) st.q xd = some (q, yp) ∧ yp.length = n ∧
      assocGet (s.arg 0) t.insts = some { x with unit := .hc { st with k := rk.1, q := q, dly := dly } } ∧
      rk.2.length = n ∧ WrittenAs t.mem (s.arg 2) (List.zipWith f32Add rk.2 yp))

/-- R311: in exact arithmetic the recursive product is the product of polynomials, and its last element is 0. -/
def Obligations.KMulExactLaw : Prop :=
  ∀ (e : ℕ) (a b : List ℝ), a.length = 2 ^ e → b.length = 2 ^ e →
    (kmul Ideal.exact e a b).length = 2 ^ (e + 1) ∧
    ∀ k, k < 2 ^ (e + 1) → (kmul Ideal.exact e a b).getD k 0 =
      ∑ i ∈ Finset.range (2 ^ e), if i ≤ k ∧ k - i < 2 ^ e then a.getD i 0 * b.getD (k - i) 0 else 0

/-- R311: in binary32 the last element of the recursive product is exactly `+0.0`, whatever the operands are. -/
def Obligations.KMulLastElementIsZero : Prop :=
  ∀ (e : Nat) (a b : List F32), (kmul f32Arith e a b).length = 2 ^ (e + 1) ∧
    (kmul f32Arith e a b)[2 ^ (e + 1) - 1]? = some f32Zero

/-- R324: in exact arithmetic a Karatsuba convolver's output stream is the linear convolution of the input stream with its
coefficients, for every split of the stream into calls. -/
def Obligations.KcStreamLaw : Prop :=
  ∀ (st0 : KcState ℝ) (h : List ℝ) (blocks : List (List ℝ)),
    1 ≤ h.length → h.length ≤ st0.maxc → (∀ xs ∈ blocks, xs.length ≤ st0.maxin) →
    (kcRun Ideal.exact (kcSetCoefficients Ideal.exact st0 h) blocks).2 = Ideal.convolved h blocks.flatten 0

/-- R265: with ideal transforms and exact arithmetic a partitioned convolver's output stream is the linear convolution
delayed by the latency `P`, for every split of the stream into calls. -/
def Obligations.PcStreamLaw : Prop :=
  ∀ (k : ℕ) (st0 : PcState ℝ) (h : List ℝ) (blocks : List (List ℝ)),
    1 ≤ k → st0.f = 2 ^ k →
    st0.inRing.n = 2 * st0.p + st0.maxin → st0.inRing.mrs = st0.f →
    st0.outRing.n = st0.p + st0.maxin → st0.outRing.mrs = st0.maxin →
    1 ≤ h.length → h.length ≤ st0.maxc → (∀ xs ∈ blocks, xs.length ≤ st0.maxin) →
    ∃ st st', pcSetCoefficients Ideal.env st0 h = some st ∧
      pcRun Ideal.env st blocks = some (st', Ideal.convolved h blocks.flatten st0.p)

/-- R370: with ideal transforms and exact arithmetic a hybrid convolver's output stream is the linear convolution with zero
latency, in both modes, for every split of the stream into calls. -/
def Obligations.HcStreamLaw : Prop :=
  ∀ (k : ℕ) (st0 : HcState ℝ) (h : List ℝ) (blocks : List (List ℝ)),
    1 ≤ k → st0.f = 2 ^ k → st0.l ≤ st0.t →
    st0.k.maxc = min st0.maxc st0.t → st0.k.maxin = st0.maxin →
    st0.q.maxc = max 1 (st0.maxc - st0.t) → st0.q.maxin = st0.maxin → st0.q.f = st0.f →
    st0.q.inRing.n = 2 * st0.q.p + st0.maxin → st0.q.inRing.mrs = st0.f →
    st0.q.outRing.n = st0.q.p + st0.maxin → st0.q.outRing.mrs = st0.maxin →
    st0.dly.n = (st0.t - st0.l) + st0.maxin → st0.dly.mrs = st0.maxin →
    1 ≤ h.length → h.length ≤ st0.maxc → (∀ xs ∈ blocks, xs.length ≤ st0.maxin) →
    ∃ st st', hcSetCoefficients Ideal.env st0 h = some st ∧
      (st.mode = .timeOnly ↔ h.length ≤ st0.t) ∧
      hcRun Ideal.env st blocks = some (st', Ideal.convolved h blocks.flatten 0)

/-- R266: whatever the transform is, the first `P` output samples after a reset are exactly `+0.0`. -/
def Obligations.PcFirstOutputsAreZero : Prop :=
  ∀ (fftMaxN : Nat) (env : PcEnv F32) (st st' : PcState F32) (blocks : List (List F32)) (ys : List F32),
    PcOk fftMaxN st → PcAtReset st → pcRun env st blocks = some (st', ys) →
    ys.length = blocks.flatten.length ∧ ∀ k, k < st.p → k < ys.length → ys[k]? = some f32Zero

/-- R266: whatever the transform and the arithmetic are, the output stream does not depend on how the input stream is split
into calls, as long as the accumulator's NaNs do not either (log 6). -/
def Obligations.PcOutputIsIndependentOfTheSplit : Prop :=
  ∀ (fftMaxN : Nat) (env : PcEnv F32) (st st1 st2 : PcState F32) (blocks1 blocks2 : List (List F32))
    (ys1 ys2 : List F32),
    PcOk fftMaxN st → (∀ j, env.settle j = env.settle 0) → blocks1.flatten = blocks2.flatten →
    pcRun env st blocks1 = some (st1, ys1) → pcRun env st blocks2 = some (st2, ys2) → ys1 = ys2

/-- R372: in TimeOnly mode the output is exactly that of a Karatsuba convolver with the same coefficients and the same
calls, and the frequency path is not touched. -/
def Obligations.HcTimeOnlyEqualsKc : Prop :=
  ∀ (env : PcEnv F32) (st : HcState F32) (blocks : List (List F32)), st.mode = .timeOnly →
    hcRun env st blocks =
      some ({ st with k := (kcRun env.arith st.k blocks).1 }, (kcRun env.arith st.k blocks).2)

/-! ### Binary32 arithmetic -/

/-- R9: on finite operands `⊕`, `⊖` and `⊗` give the exact sum, difference and product, rounded to nearest, ties to even. -/
def Obligations.ArithmeticRoundsToNearestEven : Prop :=
  ∀ a b : F32, f32IsFinite a = true → f32IsFinite b = true →
    RoundsTo (f32Units a + f32Units b) 0 (f32Add a b) ∧ RoundsTo (f32Units a - f32Units b) 0 (f32Sub a b) ∧
    RoundsTo (f32Units a * f32Units b) 149 (f32Mul a b)

/-- R9, R402: the cases of `⊕`, `⊖` and `⊗` that rounding does not settle: NaN and infinity operands of each, the sign of an
exact zero sum, the sign of an exact zero difference and the sign of a product. -/
def Obligations.SpecialValuesPropagate : Prop :=
  (∀ a b : F32, f32IsNaN a = true ∨ f32IsNaN b = true →
    f32IsNaN (f32Add a b) = true ∧ f32IsNaN (f32Sub a b) = true ∧ f32IsNaN (f32Mul a b) = true) ∧
  (∀ a b : F32, f32IsInf a = true → f32IsInf b = true →
    if f32Neg a = f32Neg b then f32Add a b = a else f32IsNaN (f32Add a b) = true) ∧
  (∀ a b : F32, f32IsInf a = true → f32IsInf b = true →
    if f32Neg a = f32Neg b then f32IsNaN (f32Sub a b) = true else f32Sub a b = a) ∧
  (∀ a b : F32, f32IsInf a = true → f32IsFinite b = true → f32Add a b = a ∧ f32Add b a = a) ∧
  (∀ a b : F32, f32IsInf a = true → f32IsFinite b = true →
    f32Sub a b = a ∧ f32Sub b a = f32Inf (!f32Neg a)) ∧
  (∀ a b : F32, f32IsInf a = true → f32IsNaN b = false →
    if f32IsFinite b = true ∧ f32Units b = 0 then f32IsNaN (f32Mul a b) = true ∧ f32IsNaN (f32Mul b a) = true
    else f32Mul a b = f32Inf (f32Neg a != f32Neg b) ∧ f32Mul b a = f32Inf (f32Neg a != f32Neg b)) ∧
  (∀ a b : F32, f32IsFinite a = true → f32IsFinite b = true → f32Units a + f32Units b = 0 →
    f32Add a b = if f32Neg a = true ∧ f32Neg b = true then 0x80000000#32 else 0x00000000#32) ∧
  (∀ a b : F32, f32IsFinite a = true → f32IsFinite b = true → f32Units a - f32Units b = 0 →
    f32Sub a b = if f32Neg a = true ∧ f32Neg b = false then 0x80000000#32 else 0x00000000#32) ∧
  (∀ a b : F32, f32IsFinite a = true → f32IsFinite b = true → f32Neg (f32Mul a b) = (f32Neg a != f32Neg b))

/-! ### Invariants that every step keeps -/

/-- The memory keeps its canonical form (R70, R78; log 7): every step from every state whose memory has it. -/
def Obligations.MemoryStaysCanonical : Prop :=
  ∀ s s' : State, Memory.wf s.mem → step s = .next s' → Memory.wf s'.mem

/-- R35, R45: bits 31:8 of STATUS stay 0 and CODE stays a code of R400; no step changes the platform's parameters. -/
def Obligations.StatusStaysLegal : Prop :=
  ∀ s s' : State, step s = .next s' → (StatusOk s → StatusOk s') ∧ s'.plat = s.plat

/-- R38, R80, R89: the instances stay at the handles their CREATE returned, in arenas of their work size that share no byte,
with valid configurations, cursors in range, and rings, internal ones too, whose data regions MEM has (R71, log 23). -/
def Obligations.InstanceSetStaysSound : Prop :=
  ∀ s s' : State, InstancesOk s → step s = .next s' → InstancesOk s'

/-- R143: after every step the shadow slots of every live ring mirror its first slots; so the `k ≤ mrs` physical slots from
any slot of the circular store hold the circular slots' contents. -/
def Obligations.ShadowStaysMirrored : Prop :=
  (∀ s s' : State, InstancesOk s → ShadowOk s → step s = .next s' → ShadowOk s') ∧
  ∀ (s : State) (hdl : Nat) (x : Instance) (st : RbState), InstancesOk s → ShadowOk s → (hdl, x) ∈ s.insts →
    x.unit = .rb st → ∀ slot j, slot < st.n + 1 → j < st.mrs →
      slotBytes s.mem st (slot + j) = slotBytes s.mem st ((slot + j) % (st.n + 1))

/-- The convolvers' states stay well kept: array lengths and counts (R42 to R44), the ring levels and the schedule of a
partitioned convolver (of R262, what it says of `in_count`, the rings and the cursor, not of the spectra in `FB`), the
level of the delay ring (R371). -/
def Obligations.ConvolverStatesStaySound : Prop :=
  ∀ s s' : State, ConvolversOk s → step s = .next s' → ConvolversOk s'

/-- R159, R263, R371: no check of an internal ring operation fails, so no step from well-kept convolver states takes
`fault(INTERNAL)`. -/
def Obligations.NoInternalFault : Prop :=
  ∀ s : State, ConvolversOk s → step s ≠ .fault .internal
end

