-- ==== Sys2Proof/Laws/Memory.lean ====
section
/-! SUPPORT. Laws of the maps and of host memory: reads after writes, and that every memory operation keeps the canonical
form. -/
namespace Sys2Proof.Machine

/-! ### Maps -/

theorem assocGet_set_same {β : Type} (k : Nat) (v : β) (l : List (Nat × β)) : assocGet k (assocSet k v l) = some v := by
  induction l with
  | nil => simp [assocSet, assocGet]
  | cons p t ih =>
    obtain ⟨j, u⟩ := p
    unfold assocSet
    split
    · simp [assocGet]
    · split
      · simp [assocGet]
      · rename_i h1 h2
        simp [assocGet, Ne.symm h2, ih]

theorem assocGet_set_other {β : Type} {k a : Nat} (h : a ≠ k) (v : β) (l : List (Nat × β)) :
    assocGet a (assocSet k v l) = assocGet a l := by
  induction l with
  | nil => simp [assocSet, assocGet, Ne.symm h]
  | cons p t ih =>
    obtain ⟨j, u⟩ := p
    unfold assocSet
    split
    · simp [assocGet, Ne.symm h]
    · split
      · rename_i h2
        subst h2
        simp [assocGet, Ne.symm h]
      · simp [assocGet, ih]

theorem assocGet_filter {β : Type} (keep : Nat → Bool) (a : Nat) (l : List (Nat × β)) :
    assocGet a (l.filter fun p => keep p.1) = if keep a then assocGet a l else none := by
  induction l with
  | nil => simp [assocGet]
  | cons p t ih =>
    obtain ⟨j, u⟩ := p
    by_cases hj : j = a
    · subst hj
      by_cases hk : keep j <;> simp [assocGet, hk, ih]
    · by_cases hk : keep j <;> simp [assocGet, hk, hj, ih]

theorem assocGet_drop {β : Type} (lo len a : Nat) (l : List (Nat × β)) :
    assocGet a (assocDrop lo len l) = if lo ≤ a ∧ a < lo + len then none else assocGet a l := by
  unfold assocDrop
  rw [assocGet_filter (fun j => decide (j < lo) || decide (lo + len ≤ j))]
  by_cases h : lo ≤ a ∧ a < lo + len
  · have : ¬ a < lo := by omega
    have : ¬ lo + len ≤ a := by omega
    simp [*]
  · rw [if_neg h, if_pos]
    simp only [Bool.or_eq_true, decide_eq_true_eq]
    omega

theorem assocGet_append {β : Type} (a : Nat) (l r : List (Nat × β)) :
    assocGet a (l ++ r) = (assocGet a l).orElse fun _ => assocGet a r := by
  induction l with
  | nil => simp [assocGet]
  | cons p t ih =>
    obtain ⟨j, u⟩ := p
    by_cases hj : j = a <;> simp [assocGet, hj, ih]

theorem mem_of_assocGet {β : Type} {a : Nat} {v : β} {l : List (Nat × β)} (h : assocGet a l = some v) : (a, v) ∈ l := by
  induction l with
  | nil => simp [assocGet] at h
  | cons p t ih =>
    obtain ⟨j, u⟩ := p
    by_cases hj : j = a
    · simp_all [assocGet]
    · simp only [assocGet, hj, if_false] at h
      exact List.mem_cons_of_mem _ (ih h)

theorem assocGet_none {β : Type} {a : Nat} {l : List (Nat × β)} : assocGet a l = none ↔ ∀ p ∈ l, p.1 ≠ a := by
  induction l with
  | nil => simp [assocGet]
  | cons p t ih =>
    obtain ⟨j, u⟩ := p
    by_cases hj : j = a <;> simp [assocGet, hj, ih]

/-- In a map with rising keys, membership is lookup. -/
theorem assocGet_of_mem {β : Type} {l : List (Nat × β)} (hr : assocRising l) {a : Nat} {v : β} (h : (a, v) ∈ l) :
    assocGet a l = some v := by
  induction l with
  | nil => simp at h
  | cons p t ih =>
    obtain ⟨j, u⟩ := p
    simp only [assocRising, List.map_cons, List.pairwise_cons] at hr
    rcases List.mem_cons.mp h with h | h
    · obtain ⟨rfl, rfl⟩ := Prod.mk.injEq .. ▸ h
      simp [assocGet]
    · have hlt := hr.1 a (List.mem_map_of_mem (f := Prod.fst) h)
      simp only [assocGet, Nat.ne_of_lt hlt, if_false]
      exact ih hr.2 h

theorem mem_assocSet {β : Type} {k : Nat} {v : β} {l : List (Nat × β)} {p : Nat × β} (h : p ∈ assocSet k v l) :
    p = (k, v) ∨ p ∈ l := by
  induction l with
  | nil => simp_all [assocSet]
  | cons q t ih =>
    obtain ⟨j, u⟩ := q
    unfold assocSet at h
    split at h
    · simpa using h
    · split at h
      · rcases List.mem_cons.mp h with h | h
        · exact .inl h
        · exact .inr (List.mem_cons_of_mem _ h)
      · rcases List.mem_cons.mp h with h | h
        · exact .inr (h ▸ List.mem_cons_self)
        · exact (ih h).imp id (List.mem_cons_of_mem _)

theorem assocRising_filter {β : Type} (keep : Nat × β → Bool) {l : List (Nat × β)} (h : assocRising l) :
    assocRising (l.filter keep) := by
  unfold assocRising at *
  exact List.Pairwise.sublist (List.Sublist.map _ List.filter_sublist) h

theorem assocRising_drop {β : Type} (lo len : Nat) {l : List (Nat × β)} (h : assocRising l) :
    assocRising (assocDrop lo len l) := assocRising_filter _ h

theorem assocRising_set {β : Type} (k : Nat) (v : β) {l : List (Nat × β)} (h : assocRising l) :
    assocRising (assocSet k v l) := by
  induction l with
  | nil => simp [assocSet, assocRising]
  | cons p t ih =>
    obtain ⟨j, u⟩ := p
    have hc := h
    simp only [assocRising, List.map_cons, List.pairwise_cons] at hc
    unfold assocSet
    split
    · rename_i hkj
      simp only [assocRising, List.map_cons, List.pairwise_cons]
      refine ⟨?_, hc⟩
      intro a ha
      rcases List.mem_cons.mp ha with rfl | ha
      · exact hkj
      · exact Nat.lt_trans hkj (hc.1 a ha)
    · split
      · rename_i h2
        subst h2
        simpa [assocRising] using hc
      · simp only [assocRising, List.map_cons, List.pairwise_cons]
        refine ⟨?_, ih hc.2⟩
        intro a ha
        obtain ⟨q, hq, rfl⟩ := List.mem_map.mp ha
        rcases mem_assocSet hq with rfl | hq
        · show j < k
          omega
        · exact hc.1 _ (List.mem_map_of_mem hq)

/-! ### Reads -/

@[simp] theorem Memory.read_set_same (m : Memory) (a : Nat) (b : Byte) : (m.set a b).read a = b := by
  unfold Memory.read Memory.set
  rw [assocGet_drop, if_pos (by omega)]
  by_cases h : b = Memory.unlisted
  · simp [h, assocGet_drop]
  · simp [h, assocGet_set_same]

theorem Memory.read_set_other (m : Memory) {a c : Nat} (h : c ≠ a) (b : Byte) : (m.set a b).read c = m.read c := by
  unfold Memory.read Memory.set
  rw [assocGet_drop, if_neg (by omega)]
  by_cases hb : b = Memory.unlisted
  · rw [if_pos hb, assocGet_drop, if_neg (by omega)]
  · rw [if_neg hb, assocGet_set_other h]

/-- A write leaves every other place alone. -/
theorem Memory.read_write_outside (m : Memory) (a : Nat) (bs : List Byte) {c : Nat} (h : c < a ∨ a + bs.length ≤ c) :
    (m.write a bs).read c = m.read c := by
  induction bs generalizing m a with
  | nil => rfl
  | cons b bs ih =>
    simp only [List.length_cons] at h
    rw [Memory.write, ih _ _ (by omega), Memory.read_set_other _ (by omega)]

/-- A read after a write to the same place gives the byte written. -/
theorem Memory.read_write_inside (m : Memory) (a : Nat) (bs : List Byte) {i : Nat} (h : i < bs.length) :
    (m.write a bs).read (a + i) = bs[i] := by
  induction bs generalizing m a i with
  | nil => simp at h
  | cons b bs ih =>
    rw [Memory.write]
    cases i with
    | zero => rw [Memory.read_write_outside _ _ _ (by omega)]; simp
    | succ i =>
      have := ih (m.set a b) (a + 1) (i := i) (by simpa using h)
      simpa [Nat.add_assoc, Nat.add_comm 1 i] using this

theorem Memory.read_zeroFill (m : Memory) (a len c : Nat) :
    (m.zeroFill a len).read c = if a ≤ c ∧ c < a + len then 0 else m.read c := by
  unfold Memory.read Memory.zeroFill
  simp only [assocGet_drop]
  by_cases h : a ≤ c ∧ c < a + len <;> simp [h, Memory.unlisted]

theorem Memory.read_havoc_outside (m : Memory) (d a len : Nat) {c : Nat} (h : c < a ∨ a + len ≤ c) :
    (m.havoc d a len).read c = m.read c := by
  have hr : assocGet c ((List.range len).map fun i => (a + i, d)) = none := by
    rw [assocGet_none]
    simp only [List.mem_map, List.mem_range, forall_exists_index, and_imp]
    rintro p i hi rfl
    show a + i ≠ c
    omega
  unfold Memory.read Memory.havoc
  simp only [assocGet_append, hr, assocGet_filter (fun j => decide (j < a)),
    assocGet_filter (fun j => decide (a + len ≤ j)), assocGet_drop]
  rw [if_neg (show ¬ (a ≤ c ∧ c < a + len) by omega)]
  rcases h with h | h
  · have : ¬ a + len ≤ c := by omega
    cases hg : assocGet c m.drawn <;> simp [h, this]
  · have : ¬ c < a := by omega
    cases hg : assocGet c m.drawn <;> simp [h, this]

/-- A byte that a draw gave reads as the draw's value. -/
theorem Memory.read_havoc_inside (m : Memory) (d a len : Nat) {i : Nat} (h : i < len) :
    (m.havoc d a len).read (a + i) = Config.freeByte d (a + i) := by
  have hl : assocGet (a + i) (m.drawn.filter fun p => decide (p.1 < a)) = none := by
    rw [assocGet_filter (fun j => decide (j < a))]
    simp
  have hr : assocGet (a + i) ((List.range len).map fun i => (a + i, d)) = some d := by
    apply assocGet_of_mem
    · unfold assocRising
      simp only [List.map_map]
      refine List.pairwise_map.mpr (List.Pairwise.imp ?_ List.pairwise_lt_range)
      intro x y hxy
      show a + x < a + y
      omega
    · exact List.mem_map.mpr ⟨i, List.mem_range.mpr h, rfl⟩
  unfold Memory.read Memory.havoc
  simp only [assocGet_append, hl, hr]
  rfl

/-! ### The canonical form -/

theorem Memory.set_wf {m : Memory} (h : m.wf) (a : Nat) (b : Byte) : (m.set a b).wf := by
  obtain ⟨hc, hd, hz, hx⟩ := h
  unfold Memory.set
  by_cases hb : b = Memory.unlisted
  · simp only [hb, if_true]
    refine ⟨assocRising_drop _ _ hc, assocRising_drop _ _ hd, ?_, ?_⟩
    · intro c hcm
      exact hz c (List.mem_filter.mp hcm).1
    · intro c hcm
      rw [assocGet_drop]
      split
      · rfl
      · exact hx c (List.mem_filter.mp hcm).1
  · simp only [hb, if_false]
    refine ⟨assocRising_set _ _ hc, assocRising_drop _ _ hd, ?_, ?_⟩
    · intro c hcm
      rcases mem_assocSet hcm with rfl | hcm
      · exact hb
      · exact hz c hcm
    · intro c hcm
      rw [assocGet_drop]
      split
      · rfl
      · rcases mem_assocSet hcm with rfl | hcm
        · rename_i hr
          exact absurd ⟨Nat.le_refl _, Nat.lt_succ_self _⟩ hr
        · exact hx c hcm

theorem Memory.write_wf {m : Memory} (h : m.wf) (a : Nat) (bs : List Byte) : (m.write a bs).wf := by
  induction bs generalizing m a with
  | nil => exact h
  | cons b bs ih => exact ih (Memory.set_wf h a b) (a + 1)

theorem Memory.zeroFill_wf {m : Memory} (h : m.wf) (a len : Nat) : (m.zeroFill a len).wf := by
  obtain ⟨hc, hd, hz, hx⟩ := h
  refine ⟨assocRising_drop _ _ hc, assocRising_drop _ _ hd, ?_, ?_⟩
  · intro c hcm
    exact hz c (List.mem_filter.mp hcm).1
  · intro c hcm
    show assocGet c.1 (assocDrop a len m.drawn) = none
    rw [assocGet_drop]
    split
    · rfl
    · exact hx c (List.mem_filter.mp hcm).1

theorem Memory.havoc_wf {m : Memory} (h : m.wf) (d a len : Nat) : (m.havoc d a len).wf := by
  obtain ⟨hc, hd, hz, hx⟩ := h
  refine ⟨assocRising_drop _ _ hc, ?_, ?_, ?_⟩
  · unfold Memory.havoc assocRising
    simp only [List.map_append, List.map_map]
    refine List.pairwise_append.mpr ⟨List.pairwise_append.mpr ⟨assocRising_filter _ hd, ?_, ?_⟩, assocRising_filter _ hd, ?_⟩
    · refine List.pairwise_map.mpr (List.Pairwise.imp ?_ List.pairwise_lt_range)
      intro x y hxy
      show a + x < a + y
      omega
    · intro x hxm y hym
      obtain ⟨p, hp, rfl⟩ := List.mem_map.mp hxm
      obtain ⟨i, -, rfl⟩ := List.mem_map.mp hym
      have := (List.mem_filter.mp hp).2
      simp only [decide_eq_true_eq] at this
      show p.1 < a + i
      omega
    · intro x hxm y hym
      obtain ⟨q, hq, rfl⟩ := List.mem_map.mp hym
      have hq := (List.mem_filter.mp hq).2
      simp only [decide_eq_true_eq] at hq
      rcases List.mem_append.mp hxm with hxm | hxm
      · obtain ⟨p, hp, rfl⟩ := List.mem_map.mp hxm
        have := (List.mem_filter.mp hp).2
        simp only [decide_eq_true_eq] at this
        omega
      · obtain ⟨i, hi, rfl⟩ := List.mem_map.mp hxm
        have := List.mem_range.mp hi
        show a + i < q.1
        omega
  · intro c hcm
    exact hz c (List.mem_filter.mp hcm).1
  · intro c hcm
    have hcm2 := List.mem_filter.mp hcm
    have hout : c.1 < a ∨ a + len ≤ c.1 := by simpa [Bool.or_eq_true, decide_eq_true_eq] using hcm2.2
    have hr : assocGet c.1 ((List.range len).map fun i => (a + i, d)) = none := by
      rw [assocGet_none]
      simp only [List.mem_map, List.mem_range, forall_exists_index, and_imp]
      rintro p i hi rfl
      show a + i ≠ c.1
      omega
    have := hx c hcm2.1
    simp only [Memory.havoc, assocGet_append, hr, assocGet_filter (fun j => decide (j < a)),
      assocGet_filter (fun j => decide (a + len ≤ j)), this]
    split <;> split <;> rfl

/-- The memory of the state after reset has the canonical form. -/
theorem State.reset_mem_wf : State.reset.mem.wf := by
  refine ⟨?_, ?_, ?_, ?_⟩ <;> simp [State.reset, assocRising]

/-- Zero-filling is storing `len` bytes 0, as a read sees it. -/
theorem Memory.zeroFill_reads_as_write (m : Memory) (a len c : Nat) :
    (m.zeroFill a len).read c = (m.write a (List.replicate len 0)).read c := by
  rw [Memory.read_zeroFill]
  by_cases h : a ≤ c ∧ c < a + len
  · rw [if_pos h]
    obtain ⟨i, rfl⟩ := Nat.exists_eq_add_of_le h.1
    rw [Memory.read_write_inside _ _ _ (by simp; omega)]
    simp
  · rw [if_neg h, Memory.read_write_outside _ _ _ (by simp; omega)]

end Sys2Proof.Machine
end

