-- ==== Sys2Proof/Laws/Ops.lean ====
section
/-! SUPPORT. Laws of the shared operations: what a command's end can be, what each check and each engine access says when
it goes on, and that the range check of MEM is the byte check; and the fields of a negated sample. -/
namespace Sys2Proof.Machine

/-! ### The end of a command -/

@[simp] theorem finish_ok (s t : State) : finish s (.ok t) = .next t := rfl
@[simp] theorem finish_status (s : State) (c : StatusCode) : finish s (.error (.status c)) = .next (s.raise c) := rfl
@[simp] theorem finish_fault (s : State) (f : Fault) : finish s (.error (.fault f)) = .fault f := rfl

/-- A command that ends in a next state either computed it, or failed and changed STATUS and RES alone (R37). -/
theorem finish_next {s t : State} {c : Cmd State} (h : finish s c = .next t) :
    c = .ok t ∨ ∃ k, c = .error (.status k) ∧ t = s.raise k := by
  match c, h with
  | .ok u, h => simp only [finish_ok, Host.Outcome.next.injEq] at h; exact .inl (h ▸ rfl)
  | .error (.status k), h => simp only [finish_status, Host.Outcome.next.injEq] at h; exact .inr ⟨k, rfl, h.symm⟩
  | .error (.fault f), h => simp at h

theorem finish_faults {s : State} {c : Cmd State} {f : Fault} (h : finish s c = .fault f) : c = .error (.fault f) := by
  match c, h with
  | .ok u, h => simp at h
  | .error (.status k), h => simp at h
  | .error (.fault g), h => simp only [finish_fault, Host.Outcome.fault.injEq] at h; exact h ▸ rfl

/-- No command is refused. -/
theorem finish_not_refused (s : State) (c : Cmd State) (r : Refusal) : finish s c ≠ .refused r := by
  match c with
  | .ok u => simp
  | .error (.status k) => simp
  | .error (.fault f) => simp

/-! ### The parts of a command -/

theorem bind_ok {α β : Type} {x : Cmd α} {f : α → Cmd β} {b : β} (h : (x >>= f) = .ok b) :
    ∃ a, x = .ok a ∧ f a = .ok b := by
  match x, h with
  | .ok a, h => exact ⟨a, rfl, h⟩
  | .error e, h => cases h

theorem bind_error {α β : Type} {x : Cmd α} {f : α → Cmd β} {e : Stop} (h : (x >>= f) = .error e) :
    x = .error e ∨ ∃ a, x = .ok a ∧ f a = .error e := by
  match x, h with
  | .ok a, h => exact .inr ⟨a, rfl, h⟩
  | .error g, h => cases h; exact .inl rfl

@[simp] theorem ok_bind {α β : Type} (a : α) (f : α → Cmd β) : ((Except.ok a : Cmd α) >>= f) = f a := rfl
@[simp] theorem error_bind {α β : Type} (e : Stop) (f : α → Cmd β) : ((Except.error e : Cmd α) >>= f) = .error e := rfl

theorem require_true {p : Prop} [Decidable p] (h : p) (c : StatusCode) : require p c = .ok () := if_pos h
theorem require_false {p : Prop} [Decidable p] (h : ¬p) (c : StatusCode) : require p c = .error (.status c) := if_neg h
theorem require_ok {p : Prop} [Decidable p] {c : StatusCode} {u : Unit} (h : require p c = .ok u) : p := by
  by_contra hp
  rw [require_false hp] at h
  cases h

theorem faultIf_false {p : Prop} [Decidable p] (h : ¬p) (f : Fault) : faultIf p f = .ok () := if_neg h
theorem faultIf_true {p : Prop} [Decidable p] (h : p) (f : Fault) : faultIf p f = .error (.fault f) := if_pos h
theorem faultIf_ok {p : Prop} [Decidable p] {f : Fault} {u : Unit} (h : faultIf p f = .ok u) : ¬p := by
  intro hp
  rw [faultIf_true hp] at h
  cases h

@[simp] theorem orInternal_some {α : Type} (v : α) : orInternal (some v) = .ok v := rfl
@[simp] theorem orInternal_none {α : Type} : orInternal (none : Option α) = .error (.fault .internal) := rfl
theorem orInternal_ok {α : Type} {x : Option α} {v : α} (h : orInternal x = .ok v) : x = some v := by
  cases x <;> simp_all [orInternal]

theorem memRead_ok {s : State} {a n : Nat} {bs : List Byte} (h : memRead s a n = .ok bs) :
    backedRange s.plat a n = true ∧ bs = s.readBytes a n := by
  unfold memRead at h
  split at h
  · exact ⟨by assumption, by cases h; rfl⟩
  · cases h

theorem memWrite_ok {s t : State} {a : Nat} {bs : List Byte} (h : memWrite s a bs = .ok t) :
    backedRange s.plat a bs.length = true ∧ t = { s with mem := s.mem.write a bs } := by
  unfold memWrite at h
  split at h
  · exact ⟨by assumption, by cases h; rfl⟩
  · cases h

theorem memZero_ok {s t : State} {a n : Nat} (h : memZero s a n = .ok t) :
    backedRange s.plat a n = true ∧ t = { s with mem := s.mem.zeroFill a n } := by
  unfold memZero at h
  split at h
  · exact ⟨by assumption, by cases h; rfl⟩
  · cases h

theorem memHavoc_ok {s t : State} {a n : Nat} (h : memHavoc s a n = .ok t) :
    backedRange s.plat a n = true ∧ t = { s with mem := s.mem.havoc s.draws a n } := by
  unfold memHavoc at h
  split at h
  · exact ⟨by assumption, by cases h; rfl⟩
  · cases h

/-- The ring operations of a command go on exactly where MEM has the rings. -/
theorem touchRings_ok {s : State} {spans : List Span} {u : Unit} :
    touchRings s spans = .ok u ↔ allBacked s.plat spans = true := by
  cases h : allBacked s.plat spans <;> simp [touchRings, faultIf, h]

/-- They stop with the bus fault alone. -/
theorem touchRings_error {s : State} {spans : List Span} {e : Stop} (h : touchRings s spans = .error e) :
    allBacked s.plat spans = false ∧ e = .fault .bus := by
  unfold touchRings faultIf at h
  split at h
  · exact ⟨by assumption, by cases h; rfl⟩
  · cases h

@[simp] theorem length_readBytes (s : State) (a n : Nat) : (s.readBytes a n).length = n := by
  simp [State.readBytes]

theorem samplesOf_length {bs : List Byte} {n : Nat} (h : bs.length = 4 * n) : (samplesOf bs).length = n := by
  induction n generalizing bs with
  | zero => simp_all [samplesOf]
  | succ n ih =>
    match bs, h with
    | b0 :: b1 :: b2 :: b3 :: bs, h =>
      simp only [samplesOf, List.length_cons]
      rw [ih]
      simp only [List.length_cons] at h
      omega

@[simp] theorem bytesOf_length (xs : List F32) : (bytesOf xs).length = 4 * xs.length := by
  induction xs with
  | nil => rfl
  | cons x xs ih => simp only [bytesOf, bytesOfWord32, List.flatMap_cons, List.length_append] at *; simp_all; omega

theorem readSamples_ok {s : State} {a n : Nat} {xs : List F32} (h : readSamples s a n = .ok xs) :
    backedRange s.plat a (4 * n) = true ∧ xs = samplesOf (s.readBytes a (4 * n)) ∧ xs.length = n := by
  obtain ⟨bs, h1, h2⟩ := bind_ok h
  obtain ⟨hb, rfl⟩ := memRead_ok h1
  cases h2
  exact ⟨hb, rfl, samplesOf_length (by simp)⟩

/-- The handle check goes on exactly with a live instance of the unit (R403). -/
theorem checkHandle_ok {σ : Type} {proj : UnitState → Option σ} {s : State} {hdl : Nat} {i : Instance} {st : σ} :
    checkHandle proj s hdl = .ok (i, st) ↔ assocGet hdl s.insts = some i ∧ proj i.unit = some st := by
  unfold checkHandle
  cases hg : assocGet hdl s.insts with
  | none => simp
  | some j =>
    cases hp : proj j.unit with
    | none =>
      simp only [hp]
      constructor
      · intro h
        cases h
      · rintro ⟨h, h2⟩
        cases h
        rw [hp] at h2
        cases h2
    | some st' =>
      simp only [hp]
      constructor
      · intro h
        cases h
        exact ⟨rfl, hp⟩
      · rintro ⟨h, h2⟩
        cases h
        rw [hp] at h2
        cases h2
        rfl

/-- The handle check fails otherwise, with INVALID_ARGUMENT and nothing else. -/
theorem checkHandle_error {σ : Type} {proj : UnitState → Option σ} {s : State} {hdl : Nat} {e : Stop}
    (h : checkHandle proj s hdl = .error e) : e = .status .invalidArgument := by
  unfold checkHandle at h
  split at h
  · cases h; rfl
  · split at h <;> cases h; rfl

@[simp] theorem asRb_eq_some {u : UnitState} {st : RbState} : UnitState.asRb u = some st ↔ u = .rb st := by
  cases u <;> simp [UnitState.asRb]
@[simp] theorem asKc_eq_some {u : UnitState} {st : KcState F32} : UnitState.asKc u = some st ↔ u = .kc st := by
  cases u <;> simp [UnitState.asKc]
@[simp] theorem asPc_eq_some {u : UnitState} {st : PcState F32} : UnitState.asPc u = some st ↔ u = .pc st := by
  cases u <;> simp [UnitState.asPc]
@[simp] theorem asHc_eq_some {u : UnitState} {st : HcState F32} : UnitState.asHc u = some st ↔ u = .hc st := by
  cases u <;> simp [UnitState.asHc]

/-- What a CREATE's shared part has established and done when it goes on. -/
theorem createInstance_ok {s t : State} {buf bsz ws hdl : Nat} {valid : Bool} {mk : Nat → UnitState}
    (h : createInstance s buf bsz valid ws mk = .ok (hdl, t)) :
    buf ≠ 0 ∧ valid = true ∧ ws ≤ bsz ∧ buf + ws ≤ addrLimit ∧ s.meetsArena buf ws = false ∧ hdl = align16 buf ∧
      t = { s with
            mem := s.mem.havoc s.draws buf ws, draws := s.draws + 1,
            insts := assocSet (align16 buf) { buf := buf, ws := ws, unit := mk (align16 buf) } s.insts } := by
  unfold createInstance at h
  obtain ⟨_, h1, h⟩ := bind_ok h
  obtain ⟨_, h2, h⟩ := bind_ok h
  obtain ⟨_, h3, h⟩ := bind_ok h
  obtain ⟨_, h4, h⟩ := bind_ok h
  obtain ⟨_, h5, h⟩ := bind_ok h
  cases h
  exact ⟨require_ok h1, require_ok h2, require_ok h3, require_ok h4, by simpa using faultIf_ok h5, rfl, rfl⟩

/-- A DESTROY's shared part: the arena reads zero and the handle is dead. -/
theorem destroyInstance_ok {s t : State} {hdl : Nat} {i : Instance} (h : destroyInstance s hdl i = .ok t) :
    backedRange s.plat i.buf i.ws = true ∧
      t = ({ s with mem := s.mem.zeroFill i.buf i.ws, insts := assocDrop hdl 1 s.insts } : State).complete 0 := by
  unfold destroyInstance at h
  obtain ⟨s1, h1, h⟩ := bind_ok h
  obtain ⟨hb, rfl⟩ := memZero_ok h1
  cases h
  exact ⟨hb, rfl⟩

/-! ### MEM -/

theorem Span.has_iff (p : Span) (a : Nat) : p.has a = true ↔ p.base ≤ a ∧ a < p.base + p.len := by
  simp [Span.has]

/-- The range check answers yes only where every address lies in a span. -/
theorem coverFrom_sound {spans : List Span} {fuel lo hi : Nat} (h : coverFrom spans fuel lo hi = true) {a : Nat}
    (ha : lo ≤ a ∧ a < hi) : spans.any (Span.has · a) = true := by
  induction fuel generalizing lo with
  | zero => simp [coverFrom] at h; omega
  | succ fuel ih =>
    unfold coverFrom at h
    split at h
    · omega
    · split at h
      · rename_i sp hsp
        have hhas := (Span.has_iff sp lo).mp (by simpa using List.find?_some (p := fun x => Span.has x lo) hsp)
        by_cases hlt : a < sp.base + sp.len
        · exact List.any_eq_true.mpr ⟨sp, List.mem_of_find?_eq_some hsp, (Span.has_iff sp a).mpr ⟨by omega, hlt⟩⟩
        · exact ih h ⟨by omega, ha.2⟩
      · cases h

/-- And it answers yes wherever they do, given a step for each span that ends above `lo`. -/
theorem coverFrom_complete {spans : List Span} {fuel lo hi : Nat}
    (hf : (spans.filter fun sp => decide (lo < sp.base + sp.len)).length ≤ fuel)
    (h : ∀ a, lo ≤ a → a < hi → spans.any (Span.has · a) = true) : coverFrom spans fuel lo hi = true := by
  induction fuel generalizing lo with
  | zero =>
    simp only [coverFrom, decide_eq_true_eq]
    by_contra hlt
    obtain ⟨sp, hsp, hhas⟩ := List.any_eq_true.mp (h lo (Nat.le_refl _) (by omega))
    have : sp ∈ spans.filter fun sp => decide (lo < sp.base + sp.len) :=
      List.mem_filter.mpr ⟨hsp, by simpa using ((Span.has_iff sp lo).mp hhas).2⟩
    rw [List.length_eq_zero_iff.mp (Nat.le_zero.mp hf)] at this
    simp at this
  | succ fuel ih =>
    unfold coverFrom
    split
    · rfl
    · rename_i hlt
      obtain ⟨sp0, hsp0, hhas0⟩ := List.any_eq_true.mp (h lo (Nat.le_refl _) (by omega))
      split
      · rename_i sp hsp
        have hhas := (Span.has_iff sp lo).mp (by simpa using List.find?_some (p := fun x => Span.has x lo) hsp)
        apply ih
        · have hmem : sp ∈ spans := List.mem_of_find?_eq_some hsp
          have hsub : (spans.filter fun q => decide (sp.base + sp.len < q.base + q.len)).Sublist
              (spans.filter fun q => decide (lo < q.base + q.len)) := by
            apply List.monotone_filter_right
            intro q hq
            simp only [decide_eq_true_eq] at *
            omega
          have hne : (spans.filter fun q => decide (sp.base + sp.len < q.base + q.len)).length
              ≠ (spans.filter fun q => decide (lo < q.base + q.len)).length := by
            intro heq
            have := hsub.eq_of_length heq
            have hin : sp ∈ spans.filter fun q => decide (lo < q.base + q.len) :=
              List.mem_filter.mpr ⟨hmem, by simpa using hhas.2⟩
            rw [← this] at hin
            simpa using (List.mem_filter.mp hin).2
          have := hsub.length_le
          omega
        · intro a ha1 ha2
          exact h a (by omega) ha2
      · rename_i hnone
        have := List.find?_eq_none.mp hnone sp0 hsp0
        exact absurd hhas0 this

/-- A range passes exactly when each of its bytes is in MEM (R71). -/
theorem backedRange_iff (p : Platform) (a len : Nat) :
    backedRange p a len = true ↔ ∀ i, i < len → p.backed (a + i) = true := by
  unfold backedRange Platform.backed
  simp only [Bool.or_eq_true, Bool.and_eq_true, decide_eq_true_eq]
  constructor
  · rintro (rfl | ⟨hfit, hcov⟩) i hi
    · omega
    · exact ⟨by omega, coverFrom_sound hcov ⟨by omega, by omega⟩⟩
  · intro h
    by_cases h0 : len = 0
    · exact .inl h0
    · refine .inr ⟨?_, ?_⟩
      · have := (h (len - 1) (by omega)).1
        omega
      · apply coverFrom_complete (List.length_filter_le _ _)
        intro x hx1 hx2
        have := (h (x - a) (by omega)).2
        rwa [Nat.add_sub_cancel' hx1] at this

/-- Spans are backed exactly when each of their bytes is. -/
theorem allBacked_iff (p : Platform) (spans : List Span) :
    allBacked p spans = true ↔ ∀ sp ∈ spans, ∀ a, sp.has a = true → p.backed a = true := by
  simp only [allBacked, List.all_eq_true, backedRange_iff, Span.has_iff]
  refine forall₂_congr fun sp _ => ⟨fun h a ha => ?_, fun h i hi => h _ ⟨by omega, by omega⟩⟩
  have := h (a - sp.base) (by omega)
  rwa [Nat.add_sub_cancel' ha.1] at this

/-! ### Arenas -/

theorem rangesMeet_iff (a n b m : Nat) : rangesMeet a n b m = true ↔ ∃ x, (a ≤ x ∧ x < a + n) ∧ (b ≤ x ∧ x < b + m) := by
  simp only [rangesMeet, Bool.and_eq_true, decide_eq_true_eq]
  constructor
  · rintro ⟨⟨⟨h1, h2⟩, h3⟩, h4⟩
    exact ⟨max a b, by omega, by omega⟩
  · rintro ⟨x, h1, h2⟩
    omega

/-- A region meets no live arena exactly when none of its bytes is in one. -/
theorem meetsArena_false_iff (s : State) (a n : Nat) :
    s.meetsArena a n = false ↔ ∀ p ∈ s.insts, ∀ x, a ≤ x → x < a + n → p.2.arenaHas x = false := by
  simp only [State.meetsArena, List.any_eq_false, Bool.not_eq_true, Instance.arenaHas]
  constructor
  · intro h p hp x h1 h2
    have := h p hp
    by_contra hc
    simp only [Bool.not_eq_false, Bool.and_eq_true, decide_eq_true_eq] at hc
    rw [(rangesMeet_iff ..).mpr ⟨x, ⟨h1, h2⟩, hc⟩] at this
    cases this
  · intro h p hp
    by_contra hc
    simp only [Bool.not_eq_false] at hc
    obtain ⟨x, h1, h2⟩ := (rangesMeet_iff ..).mp hc
    have := h p hp x h1.1 h1.2
    simp_all

/-! ### The exact negation of `⊖` (R10) -/

theorem f32Neg_negate (x : F32) : f32Neg (f32Negate x) = !f32Neg x := by simp [f32Neg, f32Negate]

theorem f32Exp_negate (x : F32) : f32Exp (f32Negate x) = f32Exp x := by
  unfold f32Exp f32Negate
  congr 1
  ext k hk
  interval_cases k <;> simp

theorem f32Frac_negate (x : F32) : f32Frac (f32Negate x) = f32Frac x := by
  unfold f32Frac f32Negate
  congr 1
  ext k hk
  interval_cases k <;> simp

theorem f32Units_negate (x : F32) : f32Units (f32Negate x) = -f32Units x := by
  simp only [f32Units, f32Mag, f32Neg_negate, f32Exp_negate, f32Frac_negate]
  cases f32Neg x <;> simp

end Sys2Proof.Machine
end

