-- ==== Sys2Proof/Laws/PerInstr.lean ====
section
/-! SUPPORT. The family EncodedWord, one lemma per command: the word of a command is a legal command word whose unit and
operation numbers are those the opcode table's row fixes (30_encoding.md R100 to R102, R106, R110). -/
namespace Sys2Proof.Laws

/-- The word of `i` has reserved bits 0, an assigned operation, and its opcode in bits 7:0. -/
def EncodedWord.Statement (i : Instr) : Prop :=
  (CmdWord.ofWord (encode i)).wellFormed = true ∧ (encode i).toNat = opcode i ∧
    opcode i = (CmdWord.ofWord (encode i)).unit.toNat * 16 + (CmdWord.ofWord (encode i)).op.toNat ∧
    (CmdWord.ofWord (encode i)).toWord = encode i

theorem EncodedWord.rbWorksize : EncodedWord.Statement .rbWorksize := by unfold EncodedWord.Statement; decide
theorem EncodedWord.rbCreate : EncodedWord.Statement .rbCreate := by unfold EncodedWord.Statement; decide
theorem EncodedWord.rbDestroy : EncodedWord.Statement .rbDestroy := by unfold EncodedWord.Statement; decide
theorem EncodedWord.rbClear : EncodedWord.Statement .rbClear := by unfold EncodedWord.Statement; decide
theorem EncodedWord.rbPut : EncodedWord.Statement .rbPut := by unfold EncodedWord.Statement; decide
theorem EncodedWord.rbPeek : EncodedWord.Statement .rbPeek := by unfold EncodedWord.Statement; decide
theorem EncodedWord.rbGet : EncodedWord.Statement .rbGet := by unfold EncodedWord.Statement; decide
theorem EncodedWord.rbDpeek : EncodedWord.Statement .rbDpeek := by unfold EncodedWord.Statement; decide
theorem EncodedWord.rbRemain : EncodedWord.Statement .rbRemain := by unfold EncodedWord.Statement; decide
theorem EncodedWord.rbFree : EncodedWord.Statement .rbFree := by unfold EncodedWord.Statement; decide
theorem EncodedWord.fftCplx : EncodedWord.Statement .fftCplx := by unfold EncodedWord.Statement; decide
theorem EncodedWord.fftReal : EncodedWord.Statement .fftReal := by unfold EncodedWord.Statement; decide
theorem EncodedWord.kcWorksize : EncodedWord.Statement .kcWorksize := by unfold EncodedWord.Statement; decide
theorem EncodedWord.kcCreate : EncodedWord.Statement .kcCreate := by unfold EncodedWord.Statement; decide
theorem EncodedWord.kcDestroy : EncodedWord.Statement .kcDestroy := by unfold EncodedWord.Statement; decide
theorem EncodedWord.kcReset : EncodedWord.Statement .kcReset := by unfold EncodedWord.Statement; decide
theorem EncodedWord.kcSetcoef : EncodedWord.Statement .kcSetcoef := by unfold EncodedWord.Statement; decide
theorem EncodedWord.kcConvolve : EncodedWord.Statement .kcConvolve := by unfold EncodedWord.Statement; decide
theorem EncodedWord.kcGetlat : EncodedWord.Statement .kcGetlat := by unfold EncodedWord.Statement; decide
theorem EncodedWord.pcWorksize : EncodedWord.Statement .pcWorksize := by unfold EncodedWord.Statement; decide
theorem EncodedWord.pcCreate : EncodedWord.Statement .pcCreate := by unfold EncodedWord.Statement; decide
theorem EncodedWord.pcDestroy : EncodedWord.Statement .pcDestroy := by unfold EncodedWord.Statement; decide
theorem EncodedWord.pcReset : EncodedWord.Statement .pcReset := by unfold EncodedWord.Statement; decide
theorem EncodedWord.pcSetcoef : EncodedWord.Statement .pcSetcoef := by unfold EncodedWord.Statement; decide
theorem EncodedWord.pcConvolve : EncodedWord.Statement .pcConvolve := by unfold EncodedWord.Statement; decide
theorem EncodedWord.pcGetlat : EncodedWord.Statement .pcGetlat := by unfold EncodedWord.Statement; decide
theorem EncodedWord.hcWorksize : EncodedWord.Statement .hcWorksize := by unfold EncodedWord.Statement; decide
theorem EncodedWord.hcCreate : EncodedWord.Statement .hcCreate := by unfold EncodedWord.Statement; decide
theorem EncodedWord.hcDestroy : EncodedWord.Statement .hcDestroy := by unfold EncodedWord.Statement; decide
theorem EncodedWord.hcReset : EncodedWord.Statement .hcReset := by unfold EncodedWord.Statement; decide
theorem EncodedWord.hcSetcoef : EncodedWord.Statement .hcSetcoef := by unfold EncodedWord.Statement; decide
theorem EncodedWord.hcConvolve : EncodedWord.Statement .hcConvolve := by unfold EncodedWord.Statement; decide
theorem EncodedWord.hcGetlat : EncodedWord.Statement .hcGetlat := by unfold EncodedWord.Statement; decide

end Sys2Proof.Laws
end

