-- ==== Sys2Proof/Laws/State.lean ====
section
/-! SUPPORT. One lemma per field per update of the state, each true by rfl, so that no proof unfolds a record update. -/
namespace Sys2Proof.Machine

@[simp] theorem State.raise_cmd (s : State) (c : StatusCode) : (s.raise c).cmd = s.cmd := rfl
@[simp] theorem State.raise_status (s : State) (c : StatusCode) : (s.raise c).status = statusWord c := rfl
@[simp] theorem State.raise_res (s : State) (c : StatusCode) : (s.raise c).res = 0 := rfl
@[simp] theorem State.raise_args (s : State) (c : StatusCode) : (s.raise c).args = s.args := rfl
@[simp] theorem State.raise_insts (s : State) (c : StatusCode) : (s.raise c).insts = s.insts := rfl
@[simp] theorem State.raise_mem (s : State) (c : StatusCode) : (s.raise c).mem = s.mem := rfl
@[simp] theorem State.raise_inputs (s : State) (c : StatusCode) : (s.raise c).inputs = s.inputs := rfl
@[simp] theorem State.raise_readOut (s : State) (c : StatusCode) : (s.raise c).readOut = s.readOut := rfl
@[simp] theorem State.raise_owner (s : State) (c : StatusCode) : (s.raise c).owner = s.owner := rfl
@[simp] theorem State.raise_draws (s : State) (c : StatusCode) : (s.raise c).draws = s.draws := rfl
@[simp] theorem State.raise_plat (s : State) (c : StatusCode) : (s.raise c).plat = s.plat := rfl

@[simp] theorem State.complete_cmd (s : State) (v : Nat) : (s.complete v).cmd = s.cmd := rfl
@[simp] theorem State.complete_status (s : State) (v : Nat) : (s.complete v).status = statusWord .ok := rfl
@[simp] theorem State.complete_res (s : State) (v : Nat) : (s.complete v).res = BitVec.ofNat 64 v := rfl
@[simp] theorem State.complete_args (s : State) (v : Nat) : (s.complete v).args = s.args := rfl
@[simp] theorem State.complete_insts (s : State) (v : Nat) : (s.complete v).insts = s.insts := rfl
@[simp] theorem State.complete_mem (s : State) (v : Nat) : (s.complete v).mem = s.mem := rfl
@[simp] theorem State.complete_inputs (s : State) (v : Nat) : (s.complete v).inputs = s.inputs := rfl
@[simp] theorem State.complete_readOut (s : State) (v : Nat) : (s.complete v).readOut = s.readOut := rfl
@[simp] theorem State.complete_owner (s : State) (v : Nat) : (s.complete v).owner = s.owner := rfl
@[simp] theorem State.complete_draws (s : State) (v : Nat) : (s.complete v).draws = s.draws := rfl
@[simp] theorem State.complete_plat (s : State) (v : Nat) : (s.complete v).plat = s.plat := rfl

@[simp] theorem State.setInstance_cmd (s : State) (hdl : Nat) (i : Instance) : (s.setInstance hdl i).cmd = s.cmd := rfl
@[simp] theorem State.setInstance_status (s : State) (hdl : Nat) (i : Instance) : (s.setInstance hdl i).status = s.status := rfl
@[simp] theorem State.setInstance_res (s : State) (hdl : Nat) (i : Instance) : (s.setInstance hdl i).res = s.res := rfl
@[simp] theorem State.setInstance_args (s : State) (hdl : Nat) (i : Instance) : (s.setInstance hdl i).args = s.args := rfl
@[simp] theorem State.setInstance_insts (s : State) (hdl : Nat) (i : Instance) : (s.setInstance hdl i).insts = assocSet hdl i s.insts := rfl
@[simp] theorem State.setInstance_mem (s : State) (hdl : Nat) (i : Instance) : (s.setInstance hdl i).mem = s.mem := rfl
@[simp] theorem State.setInstance_inputs (s : State) (hdl : Nat) (i : Instance) : (s.setInstance hdl i).inputs = s.inputs := rfl
@[simp] theorem State.setInstance_readOut (s : State) (hdl : Nat) (i : Instance) : (s.setInstance hdl i).readOut = s.readOut := rfl
@[simp] theorem State.setInstance_owner (s : State) (hdl : Nat) (i : Instance) : (s.setInstance hdl i).owner = s.owner := rfl
@[simp] theorem State.setInstance_draws (s : State) (hdl : Nat) (i : Instance) : (s.setInstance hdl i).draws = s.draws := rfl
@[simp] theorem State.setInstance_plat (s : State) (hdl : Nat) (i : Instance) : (s.setInstance hdl i).plat = s.plat := rfl

@[simp] theorem State.removeInstance_cmd (s : State) (hdl : Nat) : (s.removeInstance hdl).cmd = s.cmd := rfl
@[simp] theorem State.removeInstance_status (s : State) (hdl : Nat) : (s.removeInstance hdl).status = s.status := rfl
@[simp] theorem State.removeInstance_res (s : State) (hdl : Nat) : (s.removeInstance hdl).res = s.res := rfl
@[simp] theorem State.removeInstance_args (s : State) (hdl : Nat) : (s.removeInstance hdl).args = s.args := rfl
@[simp] theorem State.removeInstance_insts (s : State) (hdl : Nat) : (s.removeInstance hdl).insts = assocDrop hdl 1 s.insts := rfl
@[simp] theorem State.removeInstance_mem (s : State) (hdl : Nat) : (s.removeInstance hdl).mem = s.mem := rfl
@[simp] theorem State.removeInstance_inputs (s : State) (hdl : Nat) : (s.removeInstance hdl).inputs = s.inputs := rfl
@[simp] theorem State.removeInstance_readOut (s : State) (hdl : Nat) : (s.removeInstance hdl).readOut = s.readOut := rfl
@[simp] theorem State.removeInstance_owner (s : State) (hdl : Nat) : (s.removeInstance hdl).owner = s.owner := rfl
@[simp] theorem State.removeInstance_draws (s : State) (hdl : Nat) : (s.removeInstance hdl).draws = s.draws := rfl
@[simp] theorem State.removeInstance_plat (s : State) (hdl : Nat) : (s.removeInstance hdl).plat = s.plat := rfl

@[simp] theorem State.nextDraw_cmd (s : State) : (s.nextDraw).cmd = s.cmd := rfl
@[simp] theorem State.nextDraw_status (s : State) : (s.nextDraw).status = s.status := rfl
@[simp] theorem State.nextDraw_res (s : State) : (s.nextDraw).res = s.res := rfl
@[simp] theorem State.nextDraw_args (s : State) : (s.nextDraw).args = s.args := rfl
@[simp] theorem State.nextDraw_insts (s : State) : (s.nextDraw).insts = s.insts := rfl
@[simp] theorem State.nextDraw_mem (s : State) : (s.nextDraw).mem = s.mem := rfl
@[simp] theorem State.nextDraw_inputs (s : State) : (s.nextDraw).inputs = s.inputs := rfl
@[simp] theorem State.nextDraw_readOut (s : State) : (s.nextDraw).readOut = s.readOut := rfl
@[simp] theorem State.nextDraw_owner (s : State) : (s.nextDraw).owner = s.owner := rfl
@[simp] theorem State.nextDraw_draws (s : State) : (s.nextDraw).draws = s.draws + 1 := rfl
@[simp] theorem State.nextDraw_plat (s : State) : (s.nextDraw).plat = s.plat := rfl

@[simp] theorem State.withCommand_cmd (s : State) (w : Word32) : (s.withCommand w).cmd = s.cmd := rfl
@[simp] theorem State.withCommand_status (s : State) (w : Word32) : (s.withCommand w).status = s.status := rfl
@[simp] theorem State.withCommand_res (s : State) (w : Word32) : (s.withCommand w).res = s.res := rfl
@[simp] theorem State.withCommand_args (s : State) (w : Word32) : (s.withCommand w).args = s.args := rfl
@[simp] theorem State.withCommand_insts (s : State) (w : Word32) : (s.withCommand w).insts = s.insts := rfl
@[simp] theorem State.withCommand_mem (s : State) (w : Word32) : (s.withCommand w).mem = s.mem := rfl
@[simp] theorem State.withCommand_inputs (s : State) (w : Word32) : (s.withCommand w).inputs = .write (s.owner.getD 0) s.plat.regBase (bytesOfWord32 w) :: s.inputs := rfl
@[simp] theorem State.withCommand_readOut (s : State) (w : Word32) : (s.withCommand w).readOut = s.readOut := rfl
@[simp] theorem State.withCommand_owner (s : State) (w : Word32) : (s.withCommand w).owner = s.owner := rfl
@[simp] theorem State.withCommand_draws (s : State) (w : Word32) : (s.withCommand w).draws = s.draws := rfl
@[simp] theorem State.withCommand_plat (s : State) (w : Word32) : (s.withCommand w).plat = s.plat := rfl

@[simp] theorem blockReset_cmd (s : State) : (blockReset s).cmd = 0 := rfl
@[simp] theorem blockReset_status (s : State) : (blockReset s).status = 0 := rfl
@[simp] theorem blockReset_res (s : State) : (blockReset s).res = 0 := rfl
@[simp] theorem blockReset_args (s : State) : (blockReset s).args = Args.zero := rfl
@[simp] theorem blockReset_insts (s : State) : (blockReset s).insts = [] := rfl
@[simp] theorem blockReset_mem (s : State) : (blockReset s).mem = s.mem := rfl
@[simp] theorem blockReset_inputs (s : State) : (blockReset s).inputs = s.inputs := rfl
@[simp] theorem blockReset_readOut (s : State) : (blockReset s).readOut = s.readOut := rfl
@[simp] theorem blockReset_owner (s : State) : (blockReset s).owner = none := rfl
@[simp] theorem blockReset_draws (s : State) : (blockReset s).draws = s.draws := rfl
@[simp] theorem blockReset_plat (s : State) : (blockReset s).plat = s.plat := rfl

/-! The registers an operand write selects. -/

theorem Args.get_set_same (a : Args) {i : Nat} (h : i < 8) (v : Word64) : (a.set i v).get i = v := by
  interval_cases i <;> rfl

theorem Args.get_set_other (a : Args) {i j : Nat} (h : i ≠ j) (v : Word64) : (a.set i v).get j = a.get j := by
  by_cases hi : i < 8
  · by_cases hj : j < 8
    · interval_cases i <;> interval_cases j <;> first | rfl | exact absurd rfl h
    · have hget : ∀ b : Args, b.get j = 0 := by
        intro b
        unfold Args.get
        split <;> first | omega | rfl
      rw [hget, hget]
  · have hset : a.set i v = a := by
      unfold Args.set
      split <;> first | omega | rfl
    rw [hset]

/-! The size functions at the boundaries of R8. -/

theorem subMod_lt (a b : Nat) {m : Nat} (h : 0 < m) : subMod a b m < m := Nat.mod_lt _ h

theorem subMod_of_le {a b m : Nat} (h : b ≤ a) (ha : a < m) : subMod a b m = a - b := by
  unfold subMod
  rw [Nat.mod_eq_of_lt (by omega : b < m), show a + (m - b) = (a - b) + m by omega, Nat.add_mod_right,
    Nat.mod_eq_of_lt (by omega)]

theorem subMod_of_lt {a b m : Nat} (h : a < b) (hb : b < m) : subMod a b m = a + m - b := by
  unfold subMod
  rw [Nat.mod_eq_of_lt hb, show a + (m - b) = a + m - b by omega, Nat.mod_eq_of_lt (by omega)]

end Sys2Proof.Machine
end

