-- ==== Sys2Proof/Tests/Slice0.lean ====
section
/-! SUPPORT. The model's own tests. Expected values come from spec/95_test_vectors.md (the vector is named) or are worked
out by hand from the rule named. Then, for every obligation with hypotheses, a named state that meets them. -/
namespace Sys2Proof.Tests
open Sys2Proof Sys2Proof.Machine Sys2Proof.Safety

-- One theorem after the other: each kernel evaluation waits for the ones before it.
set_option Elab.async false

/-! ### Small states -/

def plat : Platform :=
  { regBase := 0xF0000000, mem := [{ base := 0x1000, len := 0xF000 }], fftMaxN := 64, fft := .reference }

def argsOf (v : List Nat) : Args :=
  { a0 := BitVec.ofNat 64 (v.getD 0 0), a1 := BitVec.ofNat 64 (v.getD 1 0), a2 := BitVec.ofNat 64 (v.getD 2 0),
    a3 := BitVec.ofNat 64 (v.getD 3 0), a4 := BitVec.ofNat 64 (v.getD 4 0), a5 := BitVec.ofNat 64 (v.getD 5 0),
    a6 := BitVec.ofNat 64 (v.getD 6 0), a7 := BitVec.ofNat 64 (v.getD 7 0) }

/-- The ring RB0 of 40_ringbuffer.md at `0x1000` with its cursors. -/
def rb0 (r w : Nat) : RbState := { n := 4, rs := 1, mrs := 3, r := r, w := w, d := 0x1040 }

def zeros (n : Nat) : List F32 := List.replicate n 0#32

/-- KC0 of 43_karatsuba.md with the coefficients `[1, 1]`. -/
def kc0 : KcState F32 :=
  { maxc := 2, maxin := 4, nc := 2, coef := [0x3F800000#32, 0x3F800000#32, 0#32, 0#32], ovl := zeros 8 }

/-- PC0 of 42_partitioned.md after SETCOEF with `[1, 2, 3]`: half of the packed spectra of `[1,2,0,0]` and `[3,0,0,0]`. -/
def pc0 : PcState F32 :=
  { maxc := 3, maxin := 4, f := 4, nc := 3, np := 2,
    h := [[0x3FC00000#32, 0xBF000000#32, 0x3F000000#32, 0xBF800000#32],
      [0x3FC00000#32, 0x3FC00000#32, 0x3FC00000#32, 0#32]],
    fb := [zeros 4, zeros 4], head := 0, acc := zeros 4, inCount := 0, cursor := 0,
    inRing := { n := 8, mrs := 4, r := 0, w := 2, slots := zeros 13 },
    outRing := { n := 6, mrs := 4, r := 0, w := 2, slots := zeros 11 } }

/-- HC0 of 44_hybrid.md in Hybrid mode with `[1, 2, 3, 4, 5, 6]`. -/
def hc0 : HcState F32 :=
  { maxc := 6, maxin := 4, f := 4, t := 4, mode := .hybrid,
    k :=
      { maxc := 4, maxin := 4, nc := 4, coef := [0x3F800000#32, 0x40000000#32, 0x40400000#32, 0x40800000#32],
        ovl := zeros 8 },
    q :=
      { maxc := 2, maxin := 4, f := 4, nc := 2, np := 1,
        h := [[0x40B00000#32, 0xBF000000#32, 0x40200000#32, 0xC0400000#32]],
        fb := [zeros 4], head := 0, acc := zeros 4, inCount := 0, cursor := 0,
        inRing := { n := 8, mrs := 4, r := 0, w := 2, slots := zeros 13 },
        outRing := { n := 6, mrs := 4, r := 0, w := 2, slots := zeros 11 } },
    dly := { n := 6, mrs := 4, r := 0, w := 2, slots := zeros 11 } }

/-- The slots of the ring after V-RB-4, the letters `a` to `f` at `0x2000`, and the samples `1, 2, 3, 4` at `0x3000`. -/
def mem0 : Memory :=
  ((({ cells := [], drawn := [] } : Memory).write 0x1040 [0x66, 0x62, 0x63, 0x64, 0x65, 0x66, 0x62, 0x63]).write 0x2000
    [0x61, 0x62, 0x63, 0x64, 0x65, 0x66]).write 0x3000
      [0, 0, 0x80, 0x3F, 0, 0, 0, 0x40, 0, 0, 0x40, 0x40, 0, 0, 0x80, 0x40]

/-- An instance of every unit: the ring at `0x1000`, KC0 at `0x4000`, PC0 at `0x8000`, HC0 at `0xA000`. -/
def instsOf (r w : Nat) (hc : HcState F32) : List (Nat × Instance) :=
  [(0x1000, { buf := 0x1000, ws := 96, unit := .rb (rb0 r w) }),
   (0x4000, { buf := 0x4000, ws := 272, unit := .kc kc0 }),
   (0x8000, { buf := 0x8000, ws := 464, unit := .pc pc0 }),
   (0xA000, { buf := 0xA000, ws := 928, unit := .hc hc })]

/-- The machine with those instances live. -/
def world (r w : Nat) (hc : HcState F32) (args : List Nat) : State :=
  { State.reset with plat := plat, args := argsOf args, mem := mem0, insts := instsOf r w hc }

/-- The ring as V-RB-4 leaves it: `r = 2`, `w = 1`, the unread records `c d e f`. -/
def full (args : List Nat) : State := world 2 1 hc0 args

/-- The state of the machine with no instance. -/
def bare (args : List Nat) : State := { State.reset with plat := plat, args := argsOf args, mem := mem0 }

def nextIs (o : Host.Outcome State Fault Refusal) (p : State → Bool) : Bool :=
  match o with
  | .next t => p t
  | .fault _ => false
  | .refused _ => false

def isFault (o : Host.Outcome State Fault Refusal) (f : Fault) : Bool :=
  match o with
  | .next _ => false
  | .fault g => decide (g = f)
  | .refused _ => false

theorem next_of_nextIs {o : Host.Outcome State Fault Refusal} {p : State → Bool} (h : nextIs o p = true) :
    ∃ t, o = .next t ∧ p t = true := by
  cases o with
  | next t => exact ⟨t, rfl, h⟩
  | fault f => cases h
  | refused r => cases h

/-- The command ends with this code and this result. -/
def ends (i : Instr) (s : State) (code res : Nat) : Bool :=
  nextIs (exec i s) fun t => decide (t.status = BitVec.ofNat 32 code) && decide (t.res = BitVec.ofNat 64 res)

/-- The command succeeds and leaves these samples at an address. -/
def leaves (i : Instr) (s : State) (a : Nat) (xs : List F32) : Bool :=
  nextIs (exec i s) fun t => decide (t.status = 0) && decide (samplesAt t a xs.length = xs)

/-! ### Well-formed syntax: an ill-formed term for each check -/

theorem test_ill_formed_reserved_bits : CmdWord.wellFormed { rsv := 1, unit := 1, op := 0 } = false := by decide
theorem test_ill_formed_operation : CmdWord.wellFormed { rsv := 0, unit := 1, op := 10 } = false := by decide
theorem test_ill_formed_unit : CmdWord.wellFormed { rsv := 0, unit := 6, op := 0 } = false := by decide
theorem test_well_formed_word : CmdWord.wellFormed { rsv := 0, unit := 5, op := 6 } = true := by decide
theorem test_ill_formed_no_operand : CommandLine.wellFormed { instr := .rbClear, ops := [] } = false := by decide
theorem test_ill_formed_seven_operands :
    CommandLine.wellFormed { instr := .rbClear, ops := List.replicate 7 none } = false := by decide
theorem test_ill_formed_line : AsmLine.wellFormed (.command { instr := .rbClear, ops := [] }) = false := by decide
theorem test_ill_formed_samples : AsmLine.wellFormed (.memF32 (2 ^ 64 - 4) [0, 0]) = false := by decide
theorem test_ill_formed_bytes : AsmLine.wellFormed (.memBytes (2 ^ 64 - 1) [0, 0]) = false := by decide
theorem test_ill_formed_read : HostAction.wellFormed (.read 0 0) = false := by decide
theorem test_ill_formed_read_end : HostAction.wellFormed (.read (2 ^ 64 - 3) 4) = false := by decide
theorem test_ill_formed_write : HostAction.wellFormed (.write 0 0 []) = false := by decide
theorem test_ill_formed_write_end : HostAction.wellFormed (.write 0 (2 ^ 64) [1]) = false := by decide
theorem test_ill_formed_regbase : Platform.wellFormed { plat with regBase := 0xF0000004 } = false := by decide
theorem test_ill_formed_regbase_end : Platform.wellFormed { plat with regBase := 2 ^ 64 - 8 } = false := by decide
theorem test_ill_formed_mem : Platform.wellFormed { plat with mem := [{ base := 1, len := 2 ^ 64 }] } = false := by decide
theorem test_ill_formed_fft_small : Platform.wellFormed { plat with fftMaxN := 1 } = false := by decide +kernel
theorem test_ill_formed_fft_power : Platform.wellFormed { plat with fftMaxN := 12 } = false := by decide +kernel
theorem test_well_formed_platforms : plat.wellFormed = true ∧ Platform.default.wellFormed = true := by decide +kernel

/-! ### Decoding: the word of every command, from R100 and R102, bit by bit -/

theorem test_decode_ring :
    decodeWord 0b00000000000000000000000000010000#32 = .ok .rbWorksize ∧
    decodeWord 0b00000000000000000000000000010001#32 = .ok .rbCreate ∧
    decodeWord 0b00000000000000000000000000010010#32 = .ok .rbDestroy ∧
    decodeWord 0b00000000000000000000000000010011#32 = .ok .rbClear ∧
    decodeWord 0b00000000000000000000000000010100#32 = .ok .rbPut ∧
    decodeWord 0b00000000000000000000000000010101#32 = .ok .rbPeek ∧
    decodeWord 0b00000000000000000000000000010110#32 = .ok .rbGet ∧
    decodeWord 0b00000000000000000000000000010111#32 = .ok .rbDpeek ∧
    decodeWord 0b00000000000000000000000000011000#32 = .ok .rbRemain ∧
    decodeWord 0b00000000000000000000000000011001#32 = .ok .rbFree := by decide

theorem test_decode_fft :
    decodeWord 0b00000000000000000000000000100000#32 = .ok .fftCplx ∧
    decodeWord 0b00000000000000000000000000100001#32 = .ok .fftReal := by decide

theorem test_decode_karatsuba :
    decodeWord 0b00000000000000000000000000110000#32 = .ok .kcWorksize ∧
    decodeWord 0b00000000000000000000000000110001#32 = .ok .kcCreate ∧
    decodeWord 0b00000000000000000000000000110010#32 = .ok .kcDestroy ∧
    decodeWord 0b00000000000000000000000000110011#32 = .ok .kcReset ∧
    decodeWord 0b00000000000000000000000000110100#32 = .ok .kcSetcoef ∧
    decodeWord 0b00000000000000000000000000110101#32 = .ok .kcConvolve ∧
    decodeWord 0b00000000000000000000000000110110#32 = .ok .kcGetlat := by decide

theorem test_decode_partitioned :
    decodeWord 0b00000000000000000000000001000000#32 = .ok .pcWorksize ∧
    decodeWord 0b00000000000000000000000001000001#32 = .ok .pcCreate ∧
    decodeWord 0b00000000000000000000000001000010#32 = .ok .pcDestroy ∧
    decodeWord 0b00000000000000000000000001000011#32 = .ok .pcReset ∧
    decodeWord 0b00000000000000000000000001000100#32 = .ok .pcSetcoef ∧
    decodeWord 0b00000000000000000000000001000101#32 = .ok .pcConvolve ∧
    decodeWord 0b00000000000000000000000001000110#32 = .ok .pcGetlat := by decide

theorem test_decode_hybrid :
    decodeWord 0b00000000000000000000000001010000#32 = .ok .hcWorksize ∧
    decodeWord 0b00000000000000000000000001010001#32 = .ok .hcCreate ∧
    decodeWord 0b00000000000000000000000001010010#32 = .ok .hcDestroy ∧
    decodeWord 0b00000000000000000000000001010011#32 = .ok .hcReset ∧
    decodeWord 0b00000000000000000000000001010100#32 = .ok .hcSetcoef ∧
    decodeWord 0b00000000000000000000000001010101#32 = .ok .hcConvolve ∧
    decodeWord 0b00000000000000000000000001010110#32 = .ok .hcGetlat := by decide

/-- V-ENC-1 to V-ENC-6, by the reason of the rejection. -/
theorem test_decode_rejects :
    decodeWord 0x1A#32 = .error .unassigned ∧ decodeWord 0x110#32 = .error .reservedBits ∧
    decodeWord 0x00#32 = .error .unassigned ∧ decodeWord 0x22#32 = .error .unassigned ∧
    decodeWord 0x37#32 = .error .unassigned ∧ decodeWord 0x47#32 = .error .unassigned ∧
    decodeWord 0x57#32 = .error .unassigned ∧ decodeWord 0x60#32 = .error .unassigned ∧
    decode [0x14, 0, 0] = .error .notAWord := by decide

/-- R109's example line and its list of writes. -/
theorem test_expand_line :
    CommandLine.expand 0 7 { instr := .rbPut, ops := [some 0x1000, some 0x2000, some 3] } =
      [.write 7 0x10 [0x00, 0x10, 0, 0, 0, 0, 0, 0], .write 7 0x18 [0x00, 0x20, 0, 0, 0, 0, 0, 0],
       .write 7 0x20 [3, 0, 0, 0, 0, 0, 0, 0], .write 7 0 [0x14, 0, 0, 0]] := by decide

/-- R108: `_` leaves its register, `-1` is all ones, `;` begins a comment. -/
theorem test_parse_line :
    parseLine "KC.CREATE 2, 0x4, _, -1 ; note".toList =
      some (.command { instr := .kcCreate, ops := [some 2, some 4, none, some 0xFFFFFFFFFFFFFFFF] }) := by
  decide +kernel

/-- R108: the samples of a list, and a hexadecimal address with digits of both cases. -/
theorem test_parse_samples :
    parseLine "MEM 0xAf f32 [1.0, -2.5]".toList = some (.memF32 0xAF [0x3F800000#32, 0xC0200000#32]) := by
  decide +kernel

/-! ### The host's accesses -/

/-- Every word of the opcode table is fetched and run by the first step after reset: with all operands 0 it is a null
pointer, an invalid configuration or a dead handle (R90, R144, R250, R313, R361, R403). -/
theorem test_first_step_runs_table_words :
    Instr.all.all (fun i => decide (decodeTableWord 32 (opcode i) = some i) &&
      nextIs (step (State.reset.withFetchWord 32 (opcode i))) fun t =>
        decide (t.cmd = encode i) && decide (t.status = 1)) = true := by decide +kernel

/-- V-ENC-10: two 32-bit writes compose one operand. -/
theorem test_half_writes :
    nextIs (core.run 3 { full [0x7777777700000000] with
        inputs := [.write 0 0xF0000010 [0, 0x10, 0, 0], .write 0 0xF0000014 [0, 0, 0, 0],
          .write 0 0xF0000000 [0x18, 0, 0, 0]] })
      (fun t => decide (t.args.a0 = 0x1000) && decide (t.status = 0) && decide (t.res = 4)) = true := by decide +kernel

/-- V-ENC-7 and V-ENC-8. -/
theorem test_read_only_registers :
    nextIs (core.run 3 { bare [] with
        status := 5, inputs := [.write 0 0xF0000004 [7, 0, 0, 0], .read 0xF0000004 4, .read 0xF0000080 4] })
      (fun t => decide (t.status = 5) && decide (t.readOut = [0, 0, 0, 0])) = true := by decide +kernel

/-- R87: the last byte of the ring's arena is the engine's, the next one is the host's. -/
theorem test_host_write_at_arena_end :
    isFault (hostStep (.write 0 0x105F [1]) (full [])) .hostProtocol = true ∧
    nextIs (hostStep (.write 0 0x1060 [1]) (full [])) (fun t => decide (t.mem.read 0x1060 = 1)) = true := by
  decide +kernel

/-! ### Ring buffer (V-RB) -/

theorem test_rb_worksize : ends .rbWorksize (bare [4, 1, 3]) 0 96 = true := by decide +kernel
theorem test_rb_worksize_bad_mrs : ends .rbWorksize (bare [4, 1, 5]) 1 0 = true := by decide +kernel
theorem test_rb_create_aligns :
    ends .rbCreate (bare [4, 1, 3, 0x1001, 0x100]) 0 0x1010 = true ∧
    nextIs (exec .rbCreate (bare [4, 1, 3, 0x1001, 0x100])) (fun t =>
      decide (t.insts = [(0x1010, { buf := 0x1001, ws := 96, unit := .rb { rb0 0 0 with d := 0x1050 } })]) &&
        decide ((List.range 8).map (fun k => t.mem.read (0x1050 + k)) = List.replicate 8 0)) = true := by decide +kernel
theorem test_rb_create_small_buffer : ends .rbCreate (bare [4, 1, 3, 0x1000, 95]) 1 0 = true := by decide +kernel
/-- V-RB-4, on the slots `a b c 0 0 | a b c`. -/
theorem test_rb_put_wraps :
    nextIs (exec .rbPut { world 2 3 hc0 [0x1000, 0x2003, 3] with
        mem := mem0.write 0x1040 [0x61, 0x62, 0x63, 0, 0, 0x61, 0x62, 0x63] })
      (fun t => decide (t.status = 0) &&
        decide ((List.range 8).map (fun k => t.mem.read (0x1040 + k)) =
          [0x66, 0x62, 0x63, 0x64, 0x65, 0x66, 0x62, 0x63]) &&
        decide (assocGet 0x1000 t.insts = some { buf := 0x1000, ws := 96, unit := .rb (rb0 2 1) })) = true := by
  decide +kernel
/-- V-RB-3's fifth record; V-RB-16. -/
theorem test_rb_put_errors :
    ends .rbPut (full [0x1000, 0x2000, 1]) 2 0 = true ∧ ends .rbPut (full [0x1000, 0, 0]) 1 0 = true := by decide +kernel
/-- V-RB-5, V-RB-6. -/
theorem test_rb_peek :
    ends .rbPeek (full [0x1000, 3]) 0 0x1042 = true ∧ ends .rbPeek (full [0x1000, 4]) 4 0 = true := by decide +kernel
/-- V-RB-7, V-RB-7b: one unread record. -/
theorem test_rb_peek_errors :
    ends .rbPeek (world 0 1 hc0 [0x1000, 2]) 3 0 = true ∧ ends .rbPeek (world 0 1 hc0 [0x1000, 4]) 4 0 = true := by
  decide +kernel
theorem test_rb_get :
    nextIs (exec .rbGet (full [0x1000, 3])) (fun t => decide (t.res = 0x1042) &&
      decide (assocGet 0x1000 t.insts = some { buf := 0x1000, ws := 96, unit := .rb (rb0 0 1) })) = true := by
  decide +kernel
/-- V-RB-8, V-RB-9. -/
theorem test_rb_dpeek :
    ends .rbDpeek (full [0x1000, 3, 2]) 0 0x1040 = true ∧
    ends .rbDpeek (world 0 1 hc0 [0x1000, 3, 2]) 0 0x1043 = true := by decide +kernel
/-- V-RB-10, V-RB-11. -/
theorem test_rb_dpeek_errors :
    ends .rbDpeek (world 0 1 hc0 [0x1000, 1, 5]) 1 0 = true ∧
    ends .rbDpeek (world 0 1 hc0 [0x1000, 3, 1]) 3 0 = true := by decide +kernel
theorem test_rb_clear :
    nextIs (exec .rbClear (full [0x1000])) (fun t =>
      decide ((List.range 8).map (fun k => t.mem.read (0x1040 + k)) = List.replicate 8 0) &&
        decide (assocGet 0x1000 t.insts = some { buf := 0x1000, ws := 96, unit := .rb (rb0 0 0) })) = true := by
  decide +kernel
theorem test_rb_remain : ends .rbRemain (full [0x1000]) 0 4 = true ∧ ends .rbRemain (full [0x1234]) 1 0 = true := by
  decide +kernel
theorem test_rb_free : ends .rbFree (full [0x1000]) 0 0 = true ∧ ends .rbFree (world 0 3 hc0 [0x1000]) 0 1 = true := by
  decide +kernel
/-- V-RB-15. -/
theorem test_rb_destroy :
    nextIs (exec .rbDestroy (full [0x1000])) (fun t => decide (assocGet 0x1000 t.insts = none) &&
      (List.range 96).all (fun k => decide (t.mem.read (0x1000 + k) = 0))) = true := by decide +kernel

/-! ### FFT (V-FFT), on the reference datapath -/

/-- V-FFT-3: `[(1,0),(2,0),(3,0),(4,0)]` gives `[(10,0),(−2,2),(−2,0),(−2,−2)]`. -/
theorem test_fft_cplx_4 :
    fftImpl plat .cplx 4 (-1) [0x3F800000#32, 0#32, 0x40000000#32, 0#32, 0x40400000#32, 0#32, 0x40800000#32, 0#32] =
      [0x41200000#32, 0#32, 0xC0000000#32, 0x40000000#32, 0xC0000000#32, 0#32, 0xC0000000#32, 0xC0000000#32] := by
  decide +kernel
/-- V-FFT-13, forward. -/
theorem test_fft_real_8 :
    fftImpl plat .real 8 (-1) [0x3F800000#32, 0x40000000#32, 0x40400000#32, 0x40800000#32, 0x40A00000#32, 0x40C00000#32,
        0x40E00000#32, 0x41000000#32] =
      [0x42100000#32, 0xC0800000#32, 0xC0800000#32, 0x411A827A#32, 0xC0800000#32, 0x40800000#32, 0xC0800000#32,
        0x3FD413CC#32] := by decide +kernel
/-- P5: the samples `1, 2, 3, 4` give `10, −2, −2, 2`. -/
theorem test_fft_real_command :
    leaves .fftReal (bare [4, 2 ^ 64 - 1, 0x3000, 0x3100]) 0x3000
      [0x41200000#32, 0xC0000000#32, 0xC0000000#32, 0x40000000#32] = true := by decide +kernel
/-- V-FFT-5 on `[(1,2),(3,4)]`, and V-FFT-E5. -/
theorem test_fft_cplx_command :
    leaves .fftCplx (bare [2, 2 ^ 64 - 1, 0x3000, 0x3100]) 0x3000
      [0x40800000#32, 0x40C00000#32, 0xC0000000#32, 0xC0000000#32] = true ∧
    ends .fftCplx (bare [4, 2 ^ 64 - 1, 0x3000, 0x3010]) 1 0 = true := by decide +kernel

/-! ### Karatsuba (V-KM, V-KC) -/

/-- V-KM-1. -/
theorem test_kmul_2 :
    kmul f32Arith 1 [0x3F800000#32, 0x40000000#32] [0x40400000#32, 0x40800000#32] =
      [0x40400000#32, 0x41200000#32, 0x41000000#32, 0#32] := by decide +kernel
/-- V-KM-2: elements 0, 15, 16 and 31 of the product of two runs of sixteen ones. -/
theorem test_kmul_16 :
    let z := kmul f32Arith 4 (List.replicate 16 0x3F800000#32) (List.replicate 16 0x3F800000#32)
    z.length = 32 ∧ z[0]? = some 0x3F800000#32 ∧ z[15]? = some 0x41800000#32 ∧ z[16]? = some 0x41700000#32 ∧
      z[31]? = some 0#32 := by decide +kernel
theorem test_kc_worksize : ends .kcWorksize (bare [2, 4]) 0 272 = true := by decide +kernel
theorem test_kc_create :
    ends .kcCreate (bare [2, 4, 0, 0, 0x4000, 272]) 0 0x4000 = true ∧
    ends .kcCreate (bare [2, 4, 0, 0, 0x4000, 271]) 1 0 = true := by decide +kernel
theorem test_kc_destroy :
    nextIs (exec .kcDestroy (full [0x4000])) (fun t => decide (assocGet 0x4000 t.insts = none) &&
      decide (t.mem.read 0x410F = 0)) = true := by decide +kernel
theorem test_kc_reset :
    ends .kcReset (full [0x4000]) 0 0 = true ∧ ends .kcReset (full [0x8000]) 1 0 = true := by decide +kernel
/-- R316: the coefficients `1, 2`; V-KC-9. -/
theorem test_kc_setcoef :
    nextIs (exec .kcSetcoef (full [0x4000, 0x3000, 2])) (fun t => decide (assocGet 0x4000 t.insts =
      some { buf := 0x4000, ws := 272, unit := .kc { kc0 with
        coef := [0x3F800000#32, 0x40000000#32, 0#32, 0#32] } })) = true ∧
    ends .kcSetcoef (full [0x4000, 0x3000, 3]) 1 0 = true := by decide +kernel
/-- V-KC-4's first call: `[1, 2, 3]` gives `[1, 3, 5]` and the carry 3; V-KC-11. -/
theorem test_kc_convolve :
    leaves .kcConvolve (full [0x4000, 0x3000, 0x3100, 3]) 0x3100 [0x3F800000#32, 0x40400000#32, 0x40A00000#32] = true ∧
    nextIs (exec .kcConvolve (full [0x4000, 0x3000, 0x3100, 3])) (fun t => decide (assocGet 0x4000 t.insts =
      some { buf := 0x4000, ws := 272, unit := .kc { kc0 with ovl := 0x40400000#32 :: zeros 7 } })) = true ∧
    ends .kcConvolve (full [0x4000, 0x3000, 0x3100, 5]) 1 0 = true := by decide +kernel
/-- V-KC-13: in place. -/
theorem test_kc_convolve_in_place :
    leaves .kcConvolve (full [0x4000, 0x3000, 0x3000, 3]) 0x3000 [0x3F800000#32, 0x40400000#32, 0x40A00000#32] = true := by
  decide +kernel
theorem test_kc_getlat : ends .kcGetlat (full [0x4000]) 0 0 = true := by decide +kernel

/-! ### Partitioned convolver (V-PC) -/

/-- V-PC-5, V-PC-8. -/
theorem test_pc_worksize :
    ends .pcWorksize (bare [3, 4, 4]) 0 464 = true ∧ ends .pcWorksize (bare [3, 4, 6]) 1 0 = true := by decide +kernel
theorem test_pc_create : ends .pcCreate (bare [3, 4, 4, 0, 0x8000, 464]) 0 0x8000 = true := by decide +kernel
theorem test_pc_destroy : ends .pcDestroy (full [0x8000]) 0 0 = true := by decide +kernel
theorem test_pc_reset :
    nextIs (exec .pcReset (full [0x8000])) (fun t => decide (assocGet 0x8000 t.insts =
      some { buf := 0x8000, ws := 464, unit := .pc pc0 })) = true := by decide +kernel
/-- R256's example: the coefficients `[1, 2, 3]` give PC0's spectra. -/
theorem test_pc_setcoef :
    nextIs (exec .pcSetcoef (full [0x8000, 0x3000, 3])) (fun t => decide (assocGet 0x8000 t.insts =
      some { buf := 0x8000, ws := 464, unit := .pc pc0 })) = true := by decide +kernel
/-- V-PC-1 with the input `[1, 2, 3, 4]`: two zeros, then `1·1 = 1` and `1·2 + 2·1 = 4`. -/
theorem test_pc_convolve :
    leaves .pcConvolve (full [0x8000, 0x3000, 0x3100, 4]) 0x3100 [0#32, 0#32, 0x3F800000#32, 0x40800000#32] = true := by
  decide +kernel
/-- R262 after three samples: `in_count = 1`, one sample left in the output ring, one partition done. -/
theorem test_pc_convolve_schedule :
    nextIs (exec .pcConvolve (full [0x8000, 0x3000, 0x3100, 3])) (fun t =>
      match assocGet 0x8000 t.insts with
      | some { buf := _, ws := _, unit := .pc st } => decide (st.inCount = 1) && decide (st.outRing.remaining = 1) &&
          decide (st.inRing.remaining = 3) && decide (st.cursor = 0) && decide (st.head = 1)
      | _ => false) = true := by decide +kernel
theorem test_pc_getlat : ends .pcGetlat (full [0x8000]) 0 2 = true := by decide +kernel

/-! ### Hybrid convolver (V-HC) -/

/-- R362's example; V-HC-6. -/
theorem test_hc_worksize :
    ends .hcWorksize (bare [6, 4, 4, 4]) 0 928 = true ∧ ends .hcWorksize (bare [6, 4, 16, 4]) 1 0 = true := by
  decide +kernel
/-- R43, R85, R86 and log 23, by hand: `HDR_SIZE` to the first array, the ring's header, `16 + 64 + 64` bytes of `InRing`; in
HC behind `WS_KC(4, 4) = 272`, `Dly` behind `WS_PC(2, 4, 4) = 432`. -/
theorem test_ring_places :
    pcRingSpans 0x8000 4 4 = [⟨0x8080, 52⟩, ⟨0x8110, 44⟩] ∧
    hcRingSpans 0xA000 6 4 4 4 = [⟨0xA1D0, 52⟩, ⟨0xA260, 44⟩, ⟨0xA340, 44⟩] := by decide +kernel
/-- R71, R159: MEM ends at `0xFFFF`; the output ring of the first ends at `0xFFFB`, that of the second past MEM. -/
theorem test_pc_create_at_end_of_memory :
    ends .pcCreate (bare [3, 4, 4, 0, 0xFEC0, 464]) 0 0xFEC0 = true ∧
    isFault (exec .pcCreate (bare [3, 4, 4, 0, 0xFED0, 464])) .bus = true := by decide +kernel
theorem test_hc_create : ends .hcCreate (bare [6, 4, 4, 4, 0xA000, 928]) 0 0xA000 = true := by decide +kernel
theorem test_hc_destroy : ends .hcDestroy (full [0xA000]) 0 0 = true := by decide +kernel
theorem test_hc_reset :
    nextIs (exec .hcReset (full [0xA000])) (fun t => decide (assocGet 0xA000 t.insts =
      some { buf := 0xA000, ws := 928, unit := .hc hc0 })) = true := by decide +kernel
/-- V-HC-8; and four coefficients, `4 ≤ T`, select TimeOnly (R365). -/
theorem test_hc_setcoef :
    ends .hcSetcoef (full [0xA000, 0x3000, 7]) 1 0 = true ∧
    nextIs (exec .hcSetcoef (full [0xA000, 0x3000, 4])) (fun t =>
      match assocGet 0xA000 t.insts with
      | some { buf := _, ws := _, unit := .hc st } => decide (st.mode = .timeOnly) && decide (st.k = hc0.k) &&
          decide (st.q.h = [zeros 4])
      | _ => false) = true := by decide +kernel
/-- V-HC-2 with the input `[1, 2, 3, 4]`: `1`, `2+2`, `3+4+3`, `4+6+6+4`, all from the time path. -/
theorem test_hc_convolve :
    leaves .hcConvolve (full [0xA000, 0x3000, 0x3100, 4]) 0x3100
      [0x3F800000#32, 0x40800000#32, 0x41200000#32, 0x41A00000#32] = true := by decide +kernel
/-- The same taps in TimeOnly mode give the same samples (R372). -/
theorem test_hc_convolve_time_only :
    leaves .hcConvolve (world 2 1 { hc0 with mode := .timeOnly } [0xA000, 0x3000, 0x3100, 4]) 0x3100
      [0x3F800000#32, 0x40800000#32, 0x41200000#32, 0x41A00000#32] = true := by decide +kernel
theorem test_hc_getlat : ends .hcGetlat (full [0xA000]) 0 0 = true := by decide +kernel

/-! ### Binary32 (IEEE 754, D11) -/

/-- `2^24 ⊕ 1` is a tie and goes to the even `2^24`; the greatest finite value plus itself overflows. -/
theorem test_f32_add :
    f32Add 0x4B800000#32 0x3F800000#32 = 0x4B800000#32 ∧ f32Add 0x7F7FFFFF#32 0x7F7FFFFF#32 = 0x7F800000#32 := by
  decide +kernel
/-- `x ⊖ x = +0`, and the least normal minus the least subnormal is the greatest subnormal. -/
theorem test_f32_sub :
    f32Sub 0x3F800000#32 0x3F800000#32 = 0#32 ∧ f32Sub 0x00800000#32 0x00000001#32 = 0x007FFFFF#32 := by decide +kernel
/-- The least subnormal times a half is a tie and goes to zero; `−1 ⊗ 0 = −0`. -/
theorem test_f32_mul :
    f32Mul 0x00000001#32 0x3F000000#32 = 0#32 ∧ f32Mul 0xBF800000#32 0#32 = 0x80000000#32 := by decide +kernel

/-! ### Witnesses: states and operands that meet the hypotheses of the obligations -/

theorem full_instancesOk (args : List Nat) : InstancesOk (full args) where
  rising := by show assocRising (instsOf 2 1 hc0); decide +kernel
  each := by
    show ∀ p ∈ instsOf 2 1 hc0, InstanceOk plat p.1 p.2
    intro p hp
    simp only [instsOf, List.mem_cons, List.not_mem_nil, or_false] at hp
    rcases hp with rfl | rfl | rfl | rfl
    · constructor
      case cursors => exact show _ ∧ _ ∧ _ ∧ _ by decide +kernel
      all_goals decide +kernel
    all_goals
      constructor
      case cursors => trivial
      all_goals decide +kernel
  disjoint := by
    show (instsOf 2 1 hc0).Pairwise fun p q => rangesMeet p.2.buf p.2.ws q.2.buf q.2.ws = false
    decide +kernel

theorem full_shadowOk (args : List Nat) : ShadowOk (full args) := by
  show ∀ p ∈ instsOf 2 1 hc0, ∀ st, p.2.unit = .rb st → ∀ j, j < st.mrs →
    slotBytes mem0 st (st.size + j) = slotBytes mem0 st j
  intro p hp st h
  simp only [instsOf, List.mem_cons, List.not_mem_nil, or_false] at hp
  rcases hp with rfl | rfl | rfl | rfl
  · cases h
    show ∀ j, j < 3 → slotBytes mem0 (rb0 2 1) (5 + j) = slotBytes mem0 (rb0 2 1) j
    decide +kernel
  all_goals cases h

theorem zeros_ringOk (n mrs len r w : Nat) (h1 : r < n + 1) (h2 : w < n + 1) (h3 : mrs ≤ n) (h4 : len = n + 1 + mrs) :
    RingOk { n := n, mrs := mrs, r := r, w := w, slots := zeros len } where
  r_lt := h1
  w_lt := h2
  mrs_le := h3
  slots := by simp [zeros, h4, SampleRing.size]
  shadow := by
    intro j hj
    change j < mrs at hj
    show (zeros len)[n + 1 + j]? = (zeros len)[j]?
    simp only [zeros, List.getElem?_replicate]
    rw [if_pos (by omega), if_pos (by omega)]

theorem kcOk_of (st : KcState F32) (b : Nat) (hb : st.bmax = b) (h1 : 1 ≤ st.maxc ∧ 1 ≤ st.maxin)
    (h2 : 1 ≤ st.nc ∧ st.nc ≤ st.maxc) (h3 : st.coef.length = b ∧ st.ovl.length = 2 * b)
    (h4 : ∀ k, k < b → st.nc ≤ k → st.coef[k]? = some f32Zero) : KcOk st :=
  ⟨h1.1, h1.2, h2.1, h2.2, by rw [hb]; exact h3.1, fun k a c => h4 k (hb ▸ c) a, by rw [hb]; exact h3.2⟩

theorem kc0_ok : KcOk kc0 :=
  kcOk_of kc0 4 (by decide +kernel) (by decide) (by decide) (by decide) (by decide)

/-- The input ring of PC0, which HC0's partitioned convolver has too. -/
theorem in0_ringOk : RingOk pc0.inRing := zeros_ringOk 8 4 13 0 2 (by decide) (by decide) (by decide) (by decide)

/-- Their output ring, which HC0's delay ring equals as well. -/
theorem out0_ringOk : RingOk pc0.outRing := zeros_ringOk 6 4 11 0 2 (by decide) (by decide) (by decide) (by decide)

theorem pc0_ok : PcOk 64 pc0 := by
  constructor
  case inRing => exact in0_ringOk
  case outRing => exact out0_ringOk
  all_goals decide +kernel

theorem hc0_ok : HcOk 64 hc0 where
  maxc_pos := by decide
  maxin_pos := by decide
  lat_le := by decide
  k_ok := kcOk_of hc0.k 4 (by decide +kernel) (by decide) (by decide) (by decide) (by decide)
  k_cfg := by decide
  q_ok := by
    constructor
    case inRing => exact in0_ringOk
    case outRing => exact out0_ringOk
    all_goals decide +kernel
  q_cfg := by decide
  dly := out0_ringOk
  dlySize := by decide
  delayed := by decide

theorem timeOnly_ok : HcOk 64 { hc0 with mode := .timeOnly } :=
  ⟨hc0_ok.maxc_pos, hc0_ok.maxin_pos, hc0_ok.lat_le, hc0_ok.k_ok, hc0_ok.k_cfg, hc0_ok.q_ok, hc0_ok.q_cfg,
    hc0_ok.dly, hc0_ok.dlySize, hc0_ok.delayed⟩

theorem full_convolversOk (args : List Nat) : ConvolversOk (full args) := by
  show ∀ p ∈ instsOf 2 1 hc0, convolverOk 64 p.2.unit
  intro p hp
  simp only [instsOf, List.mem_cons, List.not_mem_nil, or_false] at hp
  rcases hp with rfl | rfl | rfl | rfl
  · trivial
  · exact kc0_ok
  · exact pc0_ok
  · exact hc0_ok

theorem pc0_atReset : PcAtReset pc0 := by constructor <;> decide

/-- StepRunsDecodedCommand, CommandLineExpansionRuns: a pending read; the owner of the operands writes CMD; R109's line. -/
theorem witness_host_actions :
    ({ full [] with inputs := [.read 0x1040 1] } : State).inputs = .read 0x1040 1 :: [] ∧
    ({ full [] with owner := some 3 } : State).owner = some 3 ∧ decode (bytesOfWord32 0x56#32) = .ok .hcGetlat ∧
    CommandLine.wellFormed { instr := .rbPut, ops := [some 0x1000, none, some 3, none, none, none] } = true := by
  decide

/-- RegisterWrites, SecondAgentFaults: owners and data lengths at the ends of the ranges. -/
theorem witness_register_writes :
    (full []).owner = none ∧ ({ full [] with owner := some 1 } : State).owner = some 1 ∧ (2 : Nat) ≠ 1 ∧
    ([0, 0, 0, 0] : List Byte).length = 4 ∧ (List.replicate 8 0 : List Byte).length = 8 ∧
    0x50 % 8 = 0 ∧ 0xF8 % 8 = 0 ∧ 0xFC % 4 = 0 := by decide

/-- OtherRegisterAccessesRefused: an access that begins below the block, the 64-bit access at CMD and STATUS, and a
misaligned one at the block's end. -/
theorem witness_other_register_accesses :
    (0xEFFFFFFF < 0xF0000000 + 0x100 ∧ 0xF0000000 < 0xEFFFFFFF + 4 ∧ ¬ listedAccess 0xF0000000 0xEFFFFFFF 4) ∧
    (0xF0000000 < 0xF0000000 + 8 ∧ ¬ listedAccess 0xF0000000 0xF0000000 8) ∧
    (0xF00000FE < 0xF0000000 + 0x100 ∧ ¬ listedAccess 0xF0000000 0xF00000FE 4) := by
  refine ⟨⟨by decide, by decide, ?_⟩, ⟨by decide, ?_⟩, ⟨by decide, ?_⟩⟩ <;>
    · rintro ⟨off, h1, h2, h3⟩
      omega

/-- HostWriteIntoLiveArenaFaults: the last byte of the ring's arena, as the second byte written. -/
theorem witness_host_write_into_arena :
    (0x1000, ({ buf := 0x1000, ws := 96, unit := .rb (rb0 2 1) } : Instance)) ∈ (full []).insts ∧
    1 < ([7, 7] : List Byte).length ∧ 0x1000 ≤ 0x105E + 1 ∧ 0x105E + 1 < 0x1000 + 96 ∧
    0x105E + 2 ≤ (full []).plat.regBase := by decide +kernel

/-- HostReadSeesLastWrite: the bytes right behind the ring's arena. -/
theorem witness_host_write :
    (full []).touchesRegs 0x1060 2 = false ∧ (full []).meetsArena 0x1060 2 = false ∧
    backedRange (full []).plat 0x1060 2 = true := by decide +kernel

/-- LiveArenaReads: the first and the last byte of the data region, the header and padding bytes beside it, and a byte of
a convolver's arena; `full_instancesOk` gives the first hypothesis. -/
theorem witness_live_arena_reads :
    InstancesOk (full []) ∧
    (∀ a ∈ [0x103F, 0x1040, 0x1047, 0x1048], 0x1000 ≤ a ∧ a < 0x1000 + 96 ∧ (full []).touchesRegs a 1 = false ∧
      (full []).plat.backed a = true) ∧
    (rb0 2 1).d = 0x1040 ∧ (rb0 2 1).d + ((rb0 2 1).n + 1 + (rb0 2 1).mrs) * (rb0 2 1).rs = 0x1048 ∧
    (full []).plat.backed 0x4000 = true :=
  ⟨full_instancesOk [], by decide +kernel⟩

/-- BlockReset: a run that faults at its first step. -/
theorem witness_faulted_run :
    core.run 1 { full [] with inputs := [.write 0 0x1000 [1]] } = .fault .hostProtocol := rfl

/-- The statements about every command that completes: one that fails and one that succeeds with destinations. -/
theorem witness_commands_complete :
    (∃ t, exec .rbPeek (full [0x1000, 4]) = .next t ∧ t.code ≠ 0) ∧
    (∃ t, exec .kcConvolve (full [0x4000, 0x3000, 0x3100, 3]) = .next t ∧ t.code = 0 ∧
      (∀ sp ∈ destinations .kcConvolve (full [0x4000, 0x3000, 0x3100, 3]), 0x310C < sp.base ∨ sp.base + sp.len ≤ 0x310C) ∧
      ownHandle .kcConvolve (full [0x4000, 0x3000, 0x3100, 3]) ≠ some 0x8000 ∧
      (assocGet 0x4000 (full []).insts).isSome = true ∧ (assocGet 0x4000 t.insts).isSome = true) := by
  constructor
  · obtain ⟨t, h, p⟩ := next_of_nextIs
      (o := exec .rbPeek (full [0x1000, 4])) (p := fun t => decide (t.code ≠ 0)) (by decide +kernel)
    exact ⟨t, h, of_decide_eq_true p⟩
  · obtain ⟨t, h, p⟩ := next_of_nextIs (o := exec .kcConvolve (full [0x4000, 0x3000, 0x3100, 3]))
      (p := fun t => decide (t.code = 0) && (assocGet 0x4000 t.insts).isSome) (by decide +kernel)
    simp only [Bool.and_eq_true, decide_eq_true_eq] at p
    exact ⟨t, h, p.1, by decide +kernel, by decide +kernel, by decide +kernel, p.2⟩

/-- UnusedRegistersAreIgnored: RB.REMAIN uses A0 alone. -/
theorem witness_unused_registers :
    ∀ k ∈ usedArgs .rbRemain, (argsOf [0x1000, 5, 6, 7]).get k = (full [0x1000]).args.get k := by decide +kernel

/-- BadHandleIsInvalidArgument: a dead handle, and the handle of another unit. -/
theorem witness_bad_handles :
    handleUnit .rbClear = some .rb ∧
    (∀ x, assocGet ((full [0x1001]).arg 0) (full [0x1001]).insts = some x → unitTag x.unit ≠ .rb) ∧
    (∀ x, assocGet ((full [0x4000]).arg 0) (full [0x4000]).insts = some x → unitTag x.unit ≠ .rb) := by
  refine ⟨rfl, fun x h => ?_, fun x h => ?_⟩
  · rw [show assocGet ((full [0x1001]).arg 0) (full [0x1001]).insts = none by decide +kernel] at h
    cases h
  · rw [show assocGet ((full [0x4000]).arg 0) (full [0x4000]).insts =
      some { buf := 0x4000, ws := 272, unit := .kc kc0 } by decide +kernel] at h
    cases h
    decide

/-- PointersAndRegionsAreChecked: a null pointer with count 0, a region that ends one byte past `2^64`, and a work size not
below `2^64`. -/
theorem witness_pointers_and_regions :
    (∃ sp ∈ operandRegions .rbPut (full [0x1000, 0, 0]), sp.base = 0) ∧
    (∃ sp ∈ operandRegions .kcSetcoef (full [0x4000, 2 ^ 64 - 3, 1]), sp.base + sp.len = 2 ^ 64 + 1) ∧
    (∃ ws, operandWorkSize .rbWorksize (full [2 ^ 63, 2, 1]) = some ws ∧ 2 ^ 64 ≤ ws) :=
  ⟨⟨{ base := 0, len := 0 }, by decide +kernel, rfl⟩, ⟨{ base := 2 ^ 64 - 3, len := 4 }, by decide +kernel, rfl⟩,
    ⟨_, rfl, by decide +kernel⟩⟩

/-- OverlappedDestinationFaults: an arena whose last byte is the ring's first; FFT and CONVOLVE buffers that end in the
ring's arena. -/
theorem witness_overlapped_destinations :
    isFault (exec .rbCreate (full [1, 1, 1, 0xFA1, 96])) .hostProtocol = true ∧
    isFault (exec .kcCreate (full [1, 1, 0, 0, 0x105F, 500])) .hostProtocol = true ∧
    isFault (exec .pcCreate (full [1, 1, 2, 0, 0x105F, 500])) .hostProtocol = true ∧
    isFault (exec .hcCreate (full [1, 1, 2, 1, 0x105F, 1000])) .hostProtocol = true ∧
    isFault (exec .fftCplx (full [1, 1, 0x105F, 0x3000])) .hostProtocol = true ∧
    isFault (exec .fftReal (full [2, 1, 0x3000, 0xFF9])) .hostProtocol = true ∧
    isFault (exec .kcConvolve (full [0x4000, 0x3000, 0x105F, 1])) .hostProtocol = true ∧
    isFault (exec .pcConvolve (full [0x8000, 0x3000, 0x105F, 1])) .hostProtocol = true ∧
    isFault (exec .hcConvolve (full [0xA000, 0x3000, 0x105F, 1])) .hostProtocol = true := by decide +kernel

/-- The parts of those hypotheses that are not the overlap, for the RB.CREATE, an FFT and a CONVOLVE. -/
theorem witness_overlap_hypotheses :
    (wsRb 1 1 1 ≤ 96 ∧ validRb 1 1 1 = true ∧ (full []).meetsArena 0xFA1 96 = true ∧ (full []).meetsArena 0xFA0 96 = false) ∧
    (validFft 64 .cplx 1 1 = true ∧ rangesMeet 0x105F 8 0x3000 8 = false ∧ (full []).meetsArena 0x105F 8 = true) ∧
    (assocGet 0x4000 (full []).insts = some { buf := 0x4000, ws := 272, unit := .kc kc0 } ∧
      (full []).meetsArena 0x105F 4 = true) := by decide +kernel

/-- SourceOutsideMemoryFaults, FaultCausesAreComplete: sources whose first or last byte is outside MEM. -/
theorem witness_source_outside_memory :
    isFault (exec .rbPut (world 0 1 hc0 [0x1000, 0xFFFF, 2])) .bus = true ∧
    isFault (exec .fftCplx (full [1, 1, 0xFFF9, 0x3000])) .bus = true ∧
    isFault (exec .fftReal (bare [2, 1, 0xFF9, 0x3000])) .bus = true ∧
    isFault (exec .kcSetcoef (full [0x4000, 0xFFFD, 1])) .bus = true ∧
    isFault (exec .pcSetcoef (full [0x8000, 0xFFFD, 1])) .bus = true ∧
    isFault (exec .hcSetcoef (full [0xA000, 0xFFFD, 1])) .bus = true ∧
    isFault (exec .kcConvolve (full [0x4000, 0xFFFD, 0x3000, 1])) .bus = true ∧
    isFault (exec .pcConvolve (full [0x8000, 0xFFFD, 0x3000, 1])) .bus = true ∧
    isFault (exec .hcConvolve (full [0xA000, 0xFFFD, 0x3000, 1])) .bus = true ∧
    plat.backed 0xFFFF = true ∧ plat.backed 0x10000 = false ∧ plat.backed 0xFFF = false := by decide +kernel

/-- BytesOutsideMemoryStopACommand: an output whose last byte is outside MEM. -/
theorem witness_destination_outside_memory :
    ConvolversOk (full [0x8000, 0x3000, 0xFFFD, 1]) ∧
    (⟨0xFFFD, 4⟩ : Span) ∈ touched .pcConvolve (full [0x8000, 0x3000, 0xFFFD, 1]) ∧
    Span.has ⟨0xFFFD, 4⟩ 0x10000 = true ∧ plat.backed 0x10000 = false :=
  ⟨full_convolversOk _, by decide +kernel⟩

/-- BytesOutsideMemoryStopACommand, the rings: arenas whose last ring's last bytes are outside MEM, and RESETs of instances
on a platform without memory. -/
theorem witness_rings_outside_memory :
    CanCreate (bare []) 0xFFC0 96 (validRb 4 1 3) (wsRb 4 1 3) ∧
    CanCreate (bare []) 0xFED0 464 (validPc 64 3 4 4) (wsPc 3 4 4) ∧
    CanCreate (bare []) 0xFCA0 928 (validHc 64 6 4 4 4) (wsHc 6 4 4 4) ∧
    (isFault (exec .rbCreate (bare [4, 1, 3, 0xFFC0, 96])) .bus = true ∧
      isFault (exec .pcCreate (bare [3, 4, 4, 0, 0xFED0, 464])) .bus = true ∧
      isFault (exec .hcCreate (bare [6, 4, 4, 4, 0xFCA0, 928])) .bus = true) ∧
    isFault (exec .pcReset { full [0x8000] with plat := { plat with mem := [] } }) .bus = true ∧
    isFault (exec .hcReset { full [0xA000] with plat := { plat with mem := [] } }) .bus = true := by
  refine ⟨?_, ?_, ?_, by decide +kernel⟩ <;> constructor <;> decide +kernel

/-- CreateCommandsComplete: the smallest buffers that are large enough, from an unaligned address. -/
theorem witness_creates :
    CanCreate (bare []) 0x1001 96 (validRb 4 1 3) (wsRb 4 1 3) ∧ backedRange plat 0x1050 8 = true ∧
    CanCreate (bare []) 0x4001 272 (validKc 2 4) (wsKc 2 4) ∧
    CanCreate (bare []) 0x8001 464 (validPc 64 3 4 4) (wsPc 3 4 4) ∧
    CanCreate (bare []) 0xA001 928 (validHc 64 6 4 4 4) (wsHc 6 4 4 4) ∧
    allBacked plat (pcRingSpans 0x8010 4 4) = true ∧ allBacked plat (hcRingSpans 0xA010 6 4 4 4) = true := by
  refine ⟨?_, by decide +kernel, ?_, ?_, ?_, by decide +kernel⟩ <;> constructor <;> decide +kernel

/-- DestroyCommandsComplete, GetlatCommandsComplete, and the handles of the statements below. -/
theorem witness_handles :
    assocGet 0x1000 (full []).insts = some { buf := 0x1000, ws := 96, unit := .rb (rb0 2 1) } ∧
    assocGet 0x4000 (full []).insts = some { buf := 0x4000, ws := 272, unit := .kc kc0 } ∧
    assocGet 0x8000 (full []).insts = some { buf := 0x8000, ws := 464, unit := .pc pc0 } ∧
    assocGet 0xA000 (full []).insts = some { buf := 0xA000, ws := 928, unit := .hc hc0 } ∧
    handleUnit .rbDestroy = some .rb ∧ handleUnit .kcDestroy = some .kc ∧ handleUnit .pcDestroy = some .pc ∧
    handleUnit .hcDestroy = some .hc ∧ backedRange plat 0x1000 96 = true ∧ backedRange plat 0x4000 272 = true ∧
    backedRange plat 0x8000 464 = true ∧ backedRange plat 0xA000 928 = true := by decide +kernel

/-- ResetCommandsComplete: the instances are well kept, and MEM has their internal rings; so for the SETCOEFs and the
CONVOLVEs below. -/
theorem witness_resets :
    KcOk kc0 ∧ PcOk plat.fftMaxN pc0 ∧ HcOk plat.fftMaxN hc0 ∧
    allBacked plat (internalRings 0x8000 (.pc pc0)) = true ∧ allBacked plat (internalRings 0xA000 (.hc hc0)) = true :=
  ⟨kc0_ok, pc0_ok, hc0_ok, by decide +kernel⟩

/-- SetcoefCommandsComplete: as many coefficients as the configuration allows; for HC the counts `T` and `T + 1`. -/
theorem witness_setcoefs :
    CoefReady (full [0x4000, 0x3000, 2]) kc0.maxc ∧ CoefReady (full [0x8000, 0x3000, 3]) pc0.maxc ∧
    CoefReady (full [0xA000, 0x3000, 4]) hc0.maxc ∧ CoefReady (full [0xA000, 0x3000, 5]) hc0.maxc := by
  refine ⟨?_, ?_, ?_, ?_⟩ <;> constructor <;> decide +kernel

/-- RbClearCompletes, RbPutAppendsRecords: a PUT that fills the ring, from a view of the ring itself. -/
theorem witness_ring_put :
    (world 2 3 hc0 [0x1000, 0x1042, 3]).arg 1 ≠ 0 ∧ 0x1042 + 3 * (rb0 2 3).rs ≤ 2 ^ 64 ∧ 3 = (rb0 2 3).free ∧
    backedRange plat 0x1042 (3 * (rb0 2 3).rs) = true ∧ 1 ≤ (rb0 2 3).remaining ∧
    InstancesOk (full [0x1000]) ∧ 0 ≤ (rb0 2 1).free ∧ backedRange plat 0x2000 0 = true :=
  ⟨by decide +kernel, by decide, by decide, by decide +kernel, by decide, full_instancesOk _, by decide, by decide⟩

/-- RbPutAppendsRecords: every hypothesis together, for the ring with room for three records. -/
theorem witness_ring_put_instances : InstancesOk (world 2 3 hc0 [0x1000, 0x1042, 3]) where
  rising := by show assocRising (instsOf 2 3 hc0); decide +kernel
  each := by
    show ∀ p ∈ instsOf 2 3 hc0, InstanceOk plat p.1 p.2
    intro p hp
    simp only [instsOf, List.mem_cons, List.not_mem_nil, or_false] at hp
    rcases hp with rfl | rfl | rfl | rfl
    · constructor
      case cursors => exact show _ ∧ _ ∧ _ ∧ _ by decide +kernel
      all_goals decide +kernel
    all_goals
      constructor
      case cursors => trivial
      all_goals decide +kernel
  disjoint := by
    show (instsOf 2 3 hc0).Pairwise fun p q => rangesMeet p.2.buf p.2.ws q.2.buf q.2.ws = false
    decide +kernel

/-- RbGetReturnsOldestRecords, RbDelayedPeekView, RbCountsSumToCapacity: `mrs` records of a view across the wrap, and the
greatest delay. -/
theorem witness_ring_views :
    InstancesOk (full [0x1000, 3, 4]) ∧ ShadowOk (full [0x1000, 3, 4]) ∧
    (full [0x1000, 3, 4]).arg 1 = (rb0 2 1).mrs ∧ 3 ≤ (rb0 2 1).remaining ∧ (full [0x1000, 3, 4]).arg 2 = (rb0 2 1).n :=
  ⟨full_instancesOk _, full_shadowOk _, by decide +kernel⟩

/-- RingErrorPriority: each check at the first value that fails it, the later ones failing too where they can. -/
theorem witness_ring_errors :
    ((rb0 2 1).free < 1 ∧ 0x2000 + 1 * (rb0 2 1).rs ≤ 2 ^ 64) ∧ ((rb0 0 1).mrs < 4 ∧ (rb0 0 1).remaining < 4) ∧
    (2 ≤ (rb0 0 1).mrs ∧ (rb0 0 1).remaining < 2) ∧ (rb0 0 1).n < 5 ∧
    (4 ≤ (rb0 0 1).n ∧ (rb0 0 1).mrs < 4) ∧ (1 ≤ (rb0 0 1).n ∧ 3 ≤ (rb0 0 1).mrs ∧ (rb0 0 1).remaining + 1 < 3) := by
  decide

/-- FftCommandsComplete: the shortest and the longest length of each kind, with adjacent buffers. -/
theorem witness_fft :
    ∀ c ∈ [(8, 1, 0x2FF8), (512, 64, 0x3200), (8, 2, 0x3008), (256, 64, 0x2F00)],
      c.2.1 ≤ (bare []).plat.fftMaxN ∧ (0x3000 + c.1 ≤ c.2.2 ∨ c.2.2 + c.1 ≤ 0x3000) ∧
      (bare []).meetsArena 0x3000 c.1 = false ∧ (bare []).meetsArena c.2.2 c.1 = false ∧
      backedRange (bare []).plat 0x3000 c.1 = true ∧ backedRange (bare []).plat c.2.2 c.1 = true := by decide +kernel

/-- FftOperandsAreChecked: operands of each kind of failure; the flags 0 and 2. -/
theorem witness_fft_errors :
    (bare [4, 1, 0, 0x3000]).arg 2 = 0 ∧ (¬ ∃ k, 0 = 2 ^ k) ∧ (bare [1, 1, 0x3000, 0x3100]).arg 0 = 1 ∧
    (bare []).plat.fftMaxN < 128 ∧ (bare [4, 0, 1, 1]).sarg 1 ≠ -1 ∧ (bare [4, 2, 1, 1]).sarg 1 ≠ 1 ∧
    2 ^ 64 < (bare [1, 1, 2 ^ 64 - 7, 0x3000]).arg 2 + 8 := by
  refine ⟨by decide +kernel, ?_, by decide +kernel⟩
  rintro ⟨k, hk⟩
  exact absurd hk.symm (by positivity)

/-- PackedProductIsCircularConvolution, KMulExactLaw: the shortest vectors. -/
theorem witness_vectors :
    1 ≤ 1 ∧ ([1, 2] : List ℝ).length = 2 ^ 1 ∧ ([3, 4] : List ℝ).length = 2 ^ 1 ∧ ([5] : List ℝ).length = 2 ^ 0 := by
  simp

/-- KcConvolveCompletes, PcConvolveCompletes, HcConvolveCompletes: the block sizes 0 and `maxin` of each, in both modes of HC;
with `n = 0` also an `out` in a live arena (log 15). -/
theorem witness_convolves :
    KcOk kc0 ∧ PcOk plat.fftMaxN pc0 ∧ HcOk plat.fftMaxN hc0 ∧ HcOk plat.fftMaxN { hc0 with mode := .timeOnly } ∧
    BlockReady (full [0x4000, 0x3000, 0x3000, 4]) kc0.maxin ∧ BlockReady (full [0x4000, 0x3000, 0x3000, 0]) kc0.maxin ∧
    BlockReady (full [0x8000, 0x3000, 0x3100, 4]) pc0.maxin ∧ BlockReady (full [0xA000, 0x3000, 0x3100, 4]) hc0.maxin ∧
    BlockReady (full [0x8000, 0x3000, 0x1000, 0]) pc0.maxin ∧ BlockReady (full [0xA000, 0x3000, 0x1000, 0]) hc0.maxin := by
  refine ⟨kc0_ok, pc0_ok, hc0_ok, timeOnly_ok, ?_⟩
  refine ⟨?_, ?_, ?_, ?_, ?_, ?_⟩ <;> constructor <;> decide +kernel

/-- KcStreamLaw: one block of `maxin` samples, as many taps as the configuration allows. -/
theorem witness_kc_stream :
    ∃ (st : KcState ℝ) (h : List ℝ) (blocks : List (List ℝ)),
      1 ≤ h.length ∧ h.length ≤ st.maxc ∧ (∀ xs ∈ blocks, xs.length ≤ st.maxin) ∧ blocks.flatten ≠ [] :=
  ⟨kcFresh Ideal.exact 2 2, [1, 2], [[3, 4]], by simp [kcFresh]⟩

/-- PcStreamLaw, likewise. -/
theorem witness_pc_stream :
    ∃ (st : PcState ℝ) (h : List ℝ) (blocks : List (List ℝ)),
      st.f = 2 ^ 1 ∧ st.inRing.n = 2 * st.p + st.maxin ∧ st.inRing.mrs = st.f ∧
      st.outRing.n = st.p + st.maxin ∧ st.outRing.mrs = st.maxin ∧
      1 ≤ h.length ∧ h.length ≤ st.maxc ∧ (∀ xs ∈ blocks, xs.length ≤ st.maxin) ∧ blocks.flatten ≠ [] :=
  ⟨pcBlank Ideal.env 2 2 2, [1, 2], [[3, 4]], by simp [pcBlank, ringNew, PcState.p]⟩

/-- HcStreamLaw, likewise, with more taps than the threshold. -/
theorem witness_hc_stream :
    ∃ (st : HcState ℝ) (h : List ℝ) (blocks : List (List ℝ)),
      st.f = 2 ^ 1 ∧ st.l ≤ st.t ∧ st.k.maxc = min st.maxc st.t ∧ st.k.maxin = st.maxin ∧
      st.q.maxc = max 1 (st.maxc - st.t) ∧ st.q.maxin = st.maxin ∧ st.q.f = st.f ∧
      st.q.inRing.n = 2 * st.q.p + st.maxin ∧ st.q.inRing.mrs = st.f ∧
      st.q.outRing.n = st.q.p + st.maxin ∧ st.q.outRing.mrs = st.maxin ∧
      st.dly.n = (st.t - st.l) + st.maxin ∧ st.dly.mrs = st.maxin ∧
      st.t < h.length ∧ h.length ≤ st.maxc ∧ (∀ xs ∈ blocks, xs.length ≤ st.maxin) ∧ blocks.flatten ≠ [] :=
  ⟨hcBlank Ideal.env 2 2 2 1, [1, 2], [[3, 4]],
    by simp [hcBlank, kcFresh, pcBlank, ringNew, PcState.p, HcState.l]⟩

/-- PcFirstOutputsAreZero, PcOutputIsIndependentOfTheSplit: two runs of PC0 over the same stream, split in two ways; the
environment's `settle` ignores the block number. -/
theorem witness_pc_runs :
    let env : PcEnv F32 := { pcEnv (full []) with settle := fun _ acc => acc }
    PcOk 64 pc0 ∧ PcAtReset pc0 ∧ (∀ j, env.settle j = env.settle 0) ∧
    [[0x3F800000#32, 0x40000000#32, 0x40400000#32]].flatten = [[0x3F800000#32], [0x40000000#32, 0x40400000#32]].flatten ∧
    (pcRun env pc0 [[0x3F800000#32, 0x40000000#32, 0x40400000#32]]).isSome = true ∧
    (pcRun env pc0 [[0x3F800000#32], [0x40000000#32, 0x40400000#32]]).isSome = true :=
  ⟨pc0_ok, pc0_atReset, fun _ => rfl, by decide, by decide +kernel, by decide +kernel⟩

/-- HcTimeOnlyEqualsKc and the arithmetic statements. -/
theorem witness_values :
    ({ hc0 with mode := .timeOnly } : HcState F32).mode = .timeOnly ∧
    f32IsFinite 0x7F7FFFFF#32 = true ∧ f32IsFinite 0x00000001#32 = true ∧ f32IsNaN 0x7F800001#32 = true ∧
    f32IsInf 0xFF800000#32 = true ∧ f32IsInf 0x7F800000#32 = true ∧ f32IsFinite 0x80000000#32 = true ∧
    f32Units 0x80000000#32 = 0 ∧ f32Units 0x3F800000#32 + f32Units 0xBF800000#32 = 0 := by decide +kernel

/-- SpecialValuesPropagate, the subtraction: infinities of equal and of opposite sign, and the exact zero differences
`1 ⊖ 1`, `−0 ⊖ +0` and `−0 ⊖ −0`. -/
theorem witness_differences :
    f32Neg 0xFF800000#32 ≠ f32Neg 0x7F800000#32 ∧ f32Units 0x3F800000#32 - f32Units 0x3F800000#32 = 0 ∧
    f32Units 0x80000000#32 - f32Units 0x00000000#32 = 0 ∧ f32Units 0x80000000#32 - f32Units 0x80000000#32 = 0 ∧
    f32Neg 0x80000000#32 = true ∧ f32Neg 0x00000000#32 = false := by decide +kernel

/-- The invariants: a state that meets all of them and a step of it that runs RB.GET. -/
theorem witness_invariant_step :
    ∃ s s' : State, Memory.wf s.mem ∧ StatusOk s ∧ InstancesOk s ∧ ShadowOk s ∧ ConvolversOk s ∧ step s = .next s' ∧
      s'.res = 0x1042 := by
  obtain ⟨t, h, p⟩ := next_of_nextIs (o := step ((full [0x1000, 3]).withFetchWord 32 0x16))
    (p := fun t => decide (t.res = 0x1042)) (by decide +kernel)
  refine ⟨(full [0x1000, 3]).withFetchWord 32 0x16, t, ?_, ?_, ?_, ?_, ?_, h, of_decide_eq_true p⟩
  · show Memory.wf mem0
    decide +kernel
  · exact (by decide : StatusOk State.reset)
  · exact ⟨(full_instancesOk []).rising, (full_instancesOk []).each, (full_instancesOk []).disjoint⟩
  · exact full_shadowOk []
  · exact full_convolversOk []

end Sys2Proof.Tests
end

section
/-! SUPPORT. The layout of a binary32 value: its fields and its value as functions of the sign and of the 31 bits below it,
in whose order the magnitudes rise. -/
namespace Sys2Proof.Proofs
open Sys2Proof.Machine

/-- The 31 bits below the sign, as a number. -/
def f32Bits (x : F32) : Nat := x.toNat % 2 ^ 31

/-- The 31 bits of an infinity; smaller ones are a finite value's, greater ones a NaN's. -/
def infBits : Nat := 0x7F800000

/-- The magnitude, in units of `2^-149`, that 31 bits stand for when they are a finite value's. It is defined past those
too, so that the greatest finite magnitude has a successor. -/
def magOfBits (b : Nat) : Nat := if b / 2 ^ 23 = 0 then b % 2 ^ 23 else (2 ^ 23 + b % 2 ^ 23) * 2 ^ (b / 2 ^ 23 - 1)

/-! ### The fields -/

theorem f32Bits_lt (x : F32) : f32Bits x < 2 ^ 31 := Nat.mod_lt _ (by decide)

theorem f32Neg_eq (x : F32) : f32Neg x = decide (2 ^ 31 ≤ x.toNat) := x.msb_eq_decide

theorem f32Exp_eq (x : F32) : f32Exp x = f32Bits x / 2 ^ 23 := by
  simp only [f32Exp, f32Bits, BitVec.extractLsb'_toNat, Nat.shiftRight_eq_div_pow]
  omega

theorem f32Frac_eq (x : F32) : f32Frac x = f32Bits x % 2 ^ 23 := by
  simp only [f32Frac, f32Bits, BitVec.extractLsb'_toNat, Nat.shiftRight_eq_div_pow]
  omega

theorem f32Mag_eq (x : F32) : f32Mag x = magOfBits (f32Bits x) := by
  rw [f32Mag, magOfBits, f32Exp_eq, f32Frac_eq]

theorem natAbs_f32Units (x : F32) : (f32Units x).natAbs = f32Mag x := by
  unfold f32Units
  split <;> omega

theorem getLsbD_zero_eq (x : F32) : x.getLsbD 0 = decide (f32Bits x % 2 = 1) := by
  simp only [f32Bits, BitVec.getLsbD, Nat.testBit_zero]
  congr 1
  ext
  omega

/-! ### The three kinds of value -/

theorem f32IsFinite_iff (x : F32) : f32IsFinite x = true ↔ f32Bits x < infBits := by
  have := f32Bits_lt x
  simp only [f32IsFinite, f32Exp_eq, infBits, decide_eq_true_eq]
  omega

theorem f32IsInf_iff (x : F32) : f32IsInf x = true ↔ f32Bits x = infBits := by
  have := f32Bits_lt x
  simp only [f32IsInf, f32Exp_eq, f32Frac_eq, infBits, Bool.and_eq_true, decide_eq_true_eq]
  omega

theorem f32IsNaN_iff (x : F32) : f32IsNaN x = true ↔ infBits < f32Bits x := by
  have := f32Bits_lt x
  simp only [f32IsNaN, f32Exp_eq, f32Frac_eq, infBits, Bool.and_eq_true, decide_eq_true_eq]
  omega

theorem not_nan_of_finite {x : F32} (h : f32IsFinite x = true) : f32IsNaN x = false := by
  rw [f32IsFinite_iff] at h
  rw [Bool.eq_false_iff, Ne, f32IsNaN_iff]
  omega

theorem not_inf_of_finite {x : F32} (h : f32IsFinite x = true) : f32IsInf x = false := by
  rw [f32IsFinite_iff] at h
  rw [Bool.eq_false_iff, Ne, f32IsInf_iff]
  omega

theorem not_nan_of_inf {x : F32} (h : f32IsInf x = true) : f32IsNaN x = false := by
  rw [f32IsInf_iff] at h
  rw [Bool.eq_false_iff, Ne, f32IsNaN_iff]
  omega

theorem not_finite_of_inf {x : F32} (h : f32IsInf x = true) : f32IsFinite x = false := by
  rw [f32IsInf_iff] at h
  rw [Bool.eq_false_iff, Ne, f32IsFinite_iff]
  omega

theorem finite_or_inf {x : F32} (h : f32IsNaN x = false) : f32IsFinite x = true ∨ f32IsInf x = true := by
  rw [Bool.eq_false_iff, Ne, f32IsNaN_iff] at h
  rw [f32IsFinite_iff, f32IsInf_iff]
  omega

/-! ### Packing -/

theorem toNat_f32Pack (neg : Bool) {b : Nat} (h : b < 2 ^ 31) :
    (f32Pack neg b).toNat = (if neg then 2 ^ 31 else 0) + b := by
  rw [f32Pack, BitVec.toNat_ofNat]
  split <;> omega

theorem f32Bits_pack (neg : Bool) {b : Nat} (h : b < 2 ^ 31) : f32Bits (f32Pack neg b) = b := by
  rw [f32Bits, toNat_f32Pack neg h]
  split <;> omega

theorem f32Neg_pack (neg : Bool) {b : Nat} (h : b < 2 ^ 31) : f32Neg (f32Pack neg b) = neg := by
  rw [f32Neg_eq, toNat_f32Pack neg h]
  cases neg
  · simpa using h
  · simp

theorem f32Pack_eta (x : F32) : f32Pack (f32Neg x) (f32Bits x) = x := by
  have hx := x.isLt
  apply BitVec.eq_of_toNat_eq
  rw [toNat_f32Pack _ (f32Bits_lt x), f32Neg_eq, f32Bits]
  by_cases h : 2 ^ 31 ≤ x.toNat
  · simp only [h, decide_true, if_true]
    omega
  · simp only [h, decide_false, Bool.false_eq_true, if_false]
    omega

/-- An infinity is the infinity of its sign. -/
theorem eq_f32Inf {x : F32} (h : f32IsInf x = true) : x = f32Inf (f32Neg x) := by
  have h' : f32Bits x = infBits := (f32IsInf_iff x).mp h
  rw [f32Inf, show 0x7F800000 = f32Bits x from h'.symm, f32Pack_eta]

/-! ### The order of the magnitudes -/

/-- A significand `m` at the exponent field of `e`: a subnormal or the least normal exponent when `e` is 0. -/
theorem magOfBits_significand {e m : Nat} (hm : m < 2 ^ 24) (he : e = 0 ∨ 2 ^ 23 ≤ m) :
    magOfBits (e * 2 ^ 23 + m) = m * 2 ^ e ∧ (e * 2 ^ 23 + m) / 2 ^ 23 - 1 = e := by
  by_cases hs : m < 2 ^ 23
  · obtain rfl : e = 0 := by omega
    have hz : (0 * 2 ^ 23 + m) / 2 ^ 23 = 0 := by omega
    refine ⟨?_, by omega⟩
    rw [magOfBits, if_pos hz]
    omega
  · have hd : (e * 2 ^ 23 + m) / 2 ^ 23 = e + 1 := by omega
    have hr : 2 ^ 23 + (e * 2 ^ 23 + m) % 2 ^ 23 = m := by omega
    refine ⟨?_, by omega⟩
    rw [magOfBits, if_neg (by omega), hd, hr, Nat.add_sub_cancel]

/-- The distance to the next magnitude is the value of the last place. -/
theorem magOfBits_succ (b : Nat) : magOfBits (b + 1) = magOfBits b + 2 ^ (b / 2 ^ 23 - 1) := by
  obtain ⟨e, m, rfl, hm, he⟩ : ∃ e m, b = e * 2 ^ 23 + m ∧ m < 2 ^ 24 ∧ (e = 0 ∨ 2 ^ 23 ≤ m) := by
    by_cases h : b < 2 ^ 23
    · exact ⟨0, b, by omega, by omega, by omega⟩
    · exact ⟨b / 2 ^ 23 - 1, 2 ^ 23 + b % 2 ^ 23, by omega, by omega, by omega⟩
  obtain ⟨hv, hu⟩ := magOfBits_significand hm he
  rw [hv, hu]
  by_cases hc : m + 1 < 2 ^ 24
  · rw [Nat.add_assoc, (magOfBits_significand hc (by omega)).1]
    ring
  · obtain rfl : m = 2 ^ 24 - 1 := by omega
    have hcarry : e * 2 ^ 23 + (2 ^ 24 - 1) + 1 = (e + 1) * 2 ^ 23 + 2 ^ 23 := by omega
    rw [hcarry, (magOfBits_significand (by decide) (.inr le_rfl)).1]
    ring

theorem magOfBits_strictMono : StrictMono magOfBits :=
  strictMono_nat_of_lt_succ fun b => by
    rw [magOfBits_succ]
    exact Nat.lt_add_of_pos_right (by positivity)

theorem magOfBits_zero : magOfBits 0 = 0 := by decide

end Sys2Proof.Proofs
end

section
/-! SUPPORT. Rounding of a magnitude: the 31 bits that `roundMag` packs are the nearest ones, the even ones on a tie. -/
namespace Sys2Proof.Proofs
open Sys2Proof.Machine Sys2Proof.Safety

/-- Of the points `f 0 < f 1 < ...` the one at `r` is nearest to `n`, and `r` is even where another is as near: `n` is not
past the middle between it and any other point. -/
structure NearestEven (f : Nat → Nat) (n r : Nat) : Prop where
  below : ∀ b < r, f b + f r ≤ 2 * n
  above : ∀ b, r < b → 2 * n ≤ f r + f b
  tie   : ∀ b, b ≠ r → f b + f r = 2 * n → r % 2 = 0

/-- Between two neighbours the rule of round to nearest, ties to even, is the comparison with their middle. -/
theorem nearestEven_of_between {f : Nat → Nat} (hf : StrictMono f) {n u : Nat} (hlo : f u ≤ n) (hhi : n < f (u + 1)) :
    NearestEven f n
      (u + if f u + f (u + 1) < 2 * n ∨ (f u + f (u + 1) = 2 * n ∧ u % 2 = 1) then 1 else 0) := by
  split
  case isTrue hup =>
    refine ⟨fun b hb => ?_, fun b hb => ?_, fun b hne htie => ?_⟩
    · have := hf.monotone (show b ≤ u by omega)
      omega
    · have := hf hb
      omega
    · rcases Nat.lt_trichotomy b u with hlt | rfl | hgt
      · have := hf hlt
        omega
      · omega
      · have := hf (show u + 1 < b by omega)
        omega
  case isFalse hdown =>
    rw [Nat.add_zero]
    refine ⟨fun b hb => ?_, fun b hb => ?_, fun b hne htie => ?_⟩
    · have := hf hb
      omega
    · have := hf.monotone (show u + 1 ≤ b by omega)
      omega
    · rcases Nat.lt_or_gt_of_ne hne with hlt | hgt
      · have := hf hlt
        omega
      · have := hf.monotone (show u + 1 ≤ b by omega)
        omega

/-- The nearest point is at least as near as every other. -/
theorem NearestEven.natAbs_le {f : Nat → Nat} (hf : StrictMono f) {n r : Nat} (h : NearestEven f n r) (b : Nat) :
    ((f r : Int) - n).natAbs ≤ ((f b : Int) - n).natAbs := by
  rcases Nat.lt_trichotomy b r with hlt | rfl | hgt
  · have := h.below b hlt
    have := hf hlt
    omega
  · exact le_rfl
  · have := h.above b hgt
    have := hf hgt
    omega

/-- Two points as near as each other lie on both sides. -/
theorem NearestEven.even_of_natAbs_eq {f : Nat → Nat} (hf : StrictMono f) {n r : Nat} (h : NearestEven f n r) {b : Nat}
    (hne : b ≠ r) (heq : ((f r : Int) - n).natAbs = ((f b : Int) - n).natAbs) : r % 2 = 0 := by
  have : f b ≠ f r := hf.injective.ne hne
  exact h.tie b hne (by omega)

/-! ### The bits of `roundMag` -/

/-- The magnitude of 31 bits in units of `2^(-149 - k)`. -/
def scaledMag (k b : Nat) : Nat := magOfBits b * 2 ^ k

theorem scaledMag_strictMono (k : Nat) : StrictMono (scaledMag k) :=
  fun _ _ h => Nat.mul_lt_mul_of_pos_right (magOfBits_strictMono h) (by positivity)

theorem scaledMag_zero (k : Nat) : scaledMag k 0 = 0 := by simp [scaledMag, magOfBits_zero]

/-- The bits that `n · 2^(-149 - k)` rounds to when the exponent has no upper bound. -/
def nearestBits (n k : Nat) : Nat :=
  let q := max k (n.log2 - 23)
  let m := n / 2 ^ q
  let rem := n % 2 ^ q
  let up := if 2 ^ q < 2 * rem ∨ (2 * rem = 2 ^ q ∧ m % 2 = 1) then 1 else 0
  (q - k) * 2 ^ 23 + m + up

theorem roundMag_eq (n k : Nat) : roundMag n k = min (nearestBits n k) infBits := rfl

/-- The significand that `roundMag` keeps fits 24 bits, and has all of them unless the exponent is the least one. -/
theorem significand_bounds (n k : Nat) :
    n / 2 ^ max k (n.log2 - 23) < 2 ^ 24 ∧
      (max k (n.log2 - 23) - k = 0 ∨ 2 ^ 23 ≤ n / 2 ^ max k (n.log2 - 23)) := by
  constructor
  · rw [Nat.div_lt_iff_lt_mul (by positivity), ← pow_add]
    exact lt_of_lt_of_le Nat.lt_log2_self (Nat.pow_le_pow_right (by decide) (by omega))
  · by_cases hk : n.log2 - 23 ≤ k
    · exact .inl (by omega)
    · have hn : n ≠ 0 := by
        rintro rfl
        simp at hk
      refine .inr ?_
      rw [Nat.le_div_iff_mul_le (by positivity), ← pow_add]
      exact (Nat.pow_le_pow_right (by decide) (by omega)).trans (Nat.log2_self_le hn)

theorem nearestBits_nearestEven (n k : Nat) : NearestEven (scaledMag k) n (nearestBits n k) := by
  obtain ⟨hm, he⟩ := significand_bounds n k
  have hq : k ≤ max k (n.log2 - 23) := le_max_left ..
  unfold nearestBits
  generalize max k (n.log2 - 23) = q at hm he hq ⊢
  have hpow : 2 ^ (q - k) * 2 ^ k = 2 ^ q := by rw [← pow_add, Nat.sub_add_cancel hq]
  obtain ⟨hmag, hulp⟩ := magOfBits_significand hm he
  have hlo : scaledMag k ((q - k) * 2 ^ 23 + n / 2 ^ q) = 2 ^ q * (n / 2 ^ q) := by
    rw [scaledMag, hmag, Nat.mul_assoc, hpow, Nat.mul_comm]
  have hhi : scaledMag k ((q - k) * 2 ^ 23 + n / 2 ^ q + 1) = 2 ^ q * (n / 2 ^ q) + 2 ^ q := by
    rw [scaledMag, magOfBits_succ, hulp, Nat.add_mul, hpow, ← hlo, scaledMag]
  have hdiv : 2 ^ q * (n / 2 ^ q) + n % 2 ^ q = n := Nat.div_add_mod n (2 ^ q)
  have hrem : n % 2 ^ q < 2 ^ q := Nat.mod_lt _ (by positivity)
  have h := nearestEven_of_between (scaledMag_strictMono k) (n := n) (u := (q - k) * 2 ^ 23 + n / 2 ^ q)
    (by omega) (by omega)
  rw [hlo, hhi] at h
  convert h using 3
  omega

/-! ### Overflow -/

/-- The overflow bound is the middle between the greatest finite magnitude and the one after it. -/
theorem two_mul_overflowUnits : 2 * overflowUnits = magOfBits (infBits - 1) + magOfBits infBits := by decide +kernel

/-- The rounded bits are a finite value's exactly below the overflow bound: at the bound itself the tie goes to the even
neighbour, the infinity. -/
theorem nearestBits_lt_iff (n k : Nat) : nearestBits n k < infBits ↔ n < overflowUnits * 2 ^ k := by
  have h := nearestBits_nearestEven n k
  generalize nearestBits n k = r at h
  have hmid : 2 * (overflowUnits * 2 ^ k) = scaledMag k (infBits - 1) + scaledMag k infBits := by
    rw [← Nat.mul_assoc, two_mul_overflowUnits, Nat.add_mul, scaledMag, scaledMag]
  have hmono := (scaledMag_strictMono k).monotone
  have hodd : (infBits - 1) % 2 = 1 := by decide
  have hpos : 0 < infBits := by decide
  constructor
  · intro hr
    have hle := hmono (show r ≤ infBits - 1 by omega)
    have habove := h.above infBits hr
    by_contra hn
    have htie := h.tie infBits (by omega) (by omega)
    have hrlt : r < infBits - 1 := by omega
    have := scaledMag_strictMono k hrlt
    omega
  · intro hn
    by_contra hr
    have hbelow := h.below (infBits - 1) (by omega)
    have := hmono (show infBits ≤ r by omega)
    omega

/-! ### The packed result -/

theorem roundMag_lt (n k : Nat) : roundMag n k < 2 ^ 31 := by
  have : infBits < 2 ^ 31 := by decide
  rw [roundMag_eq]
  omega

theorem roundMag_zero (k : Nat) : roundMag 0 k = 0 := by
  have h := (nearestBits_nearestEven 0 k).below 0
  have := scaledMag_strictMono k (a := 0) (b := nearestBits 0 k)
  rw [roundMag_eq]
  omega

theorem f32Units_mul_two_pow (x : F32) (k : Nat) :
    f32Units x * 2 ^ k = if f32Neg x then -(scaledMag k (f32Bits x) : Int) else (scaledMag k (f32Bits x) : Int) := by
  rw [f32Units, f32Mag_eq, scaledMag]
  split <;> push_cast <;> ring

/-- Magnitudes are no farther apart than the values. -/
theorem natAbs_scaledMag_sub_le (z : F32) (num : Int) (k : Nat) :
    ((scaledMag k (f32Bits z) : Int) - num.natAbs).natAbs ≤ (f32Units z * 2 ^ k - num).natAbs := by
  rw [f32Units_mul_two_pow]
  split <;> omega

/-- Values of one sign are as far apart as their magnitudes. -/
theorem natAbs_scaledMag_sub_eq {z : F32} {num : Int} (k : Nat) (hneg : num ≠ 0 → f32Neg z = decide (num < 0)) :
    (f32Units z * 2 ^ k - num).natAbs = ((scaledMag k (f32Bits z) : Int) - num.natAbs).natAbs := by
  rw [f32Units_mul_two_pow]
  by_cases hz : num = 0
  · split <;> omega
  · simp only [hneg hz, decide_eq_true_eq]
    split <;> omega

/-- A finite value of the exact value's sign whose magnitude is nearest is nearest among all values, and even on a tie. -/
theorem nearest_of_nearestEven {num : Int} {k : Nat} {r : F32} (hneg : num ≠ 0 → f32Neg r = decide (num < 0))
    (hnear : NearestEven (scaledMag k) num.natAbs (f32Bits r)) (z : F32) :
    (f32Units r * 2 ^ k - num).natAbs ≤ (f32Units z * 2 ^ k - num).natAbs ∧
      (f32Units z ≠ f32Units r → (f32Units r * 2 ^ k - num).natAbs = (f32Units z * 2 ^ k - num).natAbs →
        r.getLsbD 0 = false) := by
  have hr := natAbs_scaledMag_sub_eq k hneg
  have hz := natAbs_scaledMag_sub_le z num k
  have hle := hnear.natAbs_le (scaledMag_strictMono k) (f32Bits z)
  refine ⟨by omega, fun hne heq => ?_⟩
  have hbits : f32Bits z ≠ f32Bits r := by
    intro hb
    have hle0 := hnear.natAbs_le (scaledMag_strictMono k) 0
    rw [scaledMag_zero] at hle0
    have hne' : f32Units z * 2 ^ k ≠ f32Units r * 2 ^ k := fun h => hne (mul_right_cancel₀ (by positivity) h)
    rw [f32Units_mul_two_pow, f32Units_mul_two_pow, hb] at heq hne'
    split_ifs at heq hne' <;> omega
  have heven := hnear.even_of_natAbs_eq (scaledMag_strictMono k) hbits (by omega)
  rw [getLsbD_zero_eq, heven]
  rfl

/-- A magnitude rounded by `roundMag`, with the sign of the exact value, is that value rounded. -/
theorem roundsTo_pack {num : Int} {k : Nat} {neg : Bool} (hneg : num ≠ 0 → neg = decide (num < 0)) :
    RoundsTo num k (f32Pack neg (roundMag num.natAbs k)) := by
  have hlt := roundMag_lt num.natAbs k
  have hbits := f32Bits_pack neg hlt
  have hsign : num ≠ 0 → f32Neg (f32Pack neg (roundMag num.natAbs k)) = decide (num < 0) := by rwa [f32Neg_pack neg hlt]
  have hfin : f32IsFinite (f32Pack neg (roundMag num.natAbs k)) = true ↔ nearestBits num.natAbs k < infBits := by
    rw [f32IsFinite_iff, hbits, roundMag_eq]
    omega
  have hnear (h : f32IsFinite (f32Pack neg (roundMag num.natAbs k)) = true) :
      NearestEven (scaledMag k) num.natAbs (f32Bits (f32Pack neg (roundMag num.natAbs k))) := by
    rw [hbits, roundMag_eq, min_eq_left (hfin.mp h).le]
    exact nearestBits_nearestEven ..
  refine ⟨by rw [hfin, nearestBits_lt_iff], fun h => ?_, fun h z _ => ?_, fun h z _ => ?_⟩
  · have hinf : ¬nearestBits num.natAbs k < infBits := by rw [← hfin, h]; decide
    have hnz : num ≠ 0 := by
      rintro rfl
      exact hinf ((nearestBits_lt_iff 0 k).mpr (Nat.mul_pos (by decide) (by positivity)))
    rw [roundMag_eq, min_eq_right (by omega), hneg hnz]
    rfl
  · exact (nearest_of_nearestEven hsign (hnear h) z).1
  · exact (nearest_of_nearestEven hsign (hnear h) z).2

end Sys2Proof.Proofs
end

section
/-! SUPPORT. The binary32 operations, one rule per kind of operand, and the statements about them (00_scope.md R9, R402). -/
namespace Sys2Proof.Proofs
open Sys2Proof.Machine Sys2Proof.Safety

/-! ### Negation keeps the kind of a value -/

@[simp] theorem f32IsNaN_negate (x : F32) : f32IsNaN (f32Negate x) = f32IsNaN x := by
  simp only [f32IsNaN, f32Exp_negate, f32Frac_negate]

@[simp] theorem f32IsInf_negate (x : F32) : f32IsInf (f32Negate x) = f32IsInf x := by
  simp only [f32IsInf, f32Exp_negate, f32Frac_negate]

@[simp] theorem f32IsFinite_negate (x : F32) : f32IsFinite (f32Negate x) = f32IsFinite x := by
  simp only [f32IsFinite, f32Exp_negate]

/-! ### The rules of `⊕` -/

theorem f32IsNaN_f32NaN : f32IsNaN f32NaN = true := by decide

theorem f32Add_nan {a b : F32} (h : f32IsNaN a = true ∨ f32IsNaN b = true) : f32Add a b = f32NaN := by
  rw [f32Add, if_pos (by simpa using h)]

theorem f32Add_inf_inf {a b : F32} (ha : f32IsInf a = true) (hb : f32IsInf b = true) :
    f32Add a b = if f32Neg a = f32Neg b then a else f32NaN := by
  simp only [f32Add, not_nan_of_inf ha, not_nan_of_inf hb, ha, hb]
  cases f32Neg a <;> cases f32Neg b <;> rfl

theorem f32Add_inf_finite {a b : F32} (ha : f32IsInf a = true) (hb : f32IsFinite b = true) : f32Add a b = a := by
  simp [f32Add, not_nan_of_inf ha, not_nan_of_finite hb, ha, not_inf_of_finite hb]

theorem f32Add_finite_inf {a b : F32} (ha : f32IsFinite a = true) (hb : f32IsInf b = true) : f32Add a b = b := by
  simp [f32Add, not_nan_of_finite ha, not_nan_of_inf hb, not_inf_of_finite ha, hb]

/-- The sign of a finite sum: an exact zero is negative when both operands are (R9). -/
def sumNeg (a b : F32) : Bool :=
  if f32Units a + f32Units b = 0 then f32Neg a && f32Neg b else decide (f32Units a + f32Units b < 0)

theorem f32Add_finite {a b : F32} (ha : f32IsFinite a = true) (hb : f32IsFinite b = true) :
    f32Add a b = f32Pack (sumNeg a b) (roundMag (f32Units a + f32Units b).natAbs 0) := by
  simp only [f32Add, sumNeg, not_nan_of_finite ha, not_nan_of_finite hb, not_inf_of_finite ha, not_inf_of_finite hb,
    Bool.or_self, Bool.false_eq_true, if_false]
  split
  case isTrue h => rw [h, Int.natAbs_zero, roundMag_zero]
  case isFalse => rfl

/-- Where the exact sum is 0 the result is a zero. -/
theorem f32Add_zero_sum {a b : F32} (ha : f32IsFinite a = true) (hb : f32IsFinite b = true)
    (h : f32Units a + f32Units b = 0) : f32Add a b = f32Pack (f32Neg a && f32Neg b) 0 := by
  rw [f32Add_finite ha hb, sumNeg, if_pos h, h, Int.natAbs_zero, roundMag_zero]

theorem roundsTo_f32Add {a b : F32} (ha : f32IsFinite a = true) (hb : f32IsFinite b = true) :
    RoundsTo (f32Units a + f32Units b) 0 (f32Add a b) := by
  rw [f32Add_finite ha hb]
  exact roundsTo_pack fun h => by rw [sumNeg, if_neg h]

/-! ### The rules of `⊗` -/

theorem f32Mul_nan {a b : F32} (h : f32IsNaN a = true ∨ f32IsNaN b = true) : f32Mul a b = f32NaN := by
  rw [f32Mul, if_pos (by simpa using h)]

theorem f32Mul_inf {a b : F32} (ha : f32IsInf a = true) (hb : f32IsNaN b = false) :
    f32Mul a b = if f32IsFinite b = true ∧ f32Units b = 0 then f32NaN else f32Inf (f32Neg a != f32Neg b) := by
  simp [f32Mul, not_nan_of_inf ha, ha, hb, ← natAbs_f32Units]

theorem f32Mul_inf_right {a b : F32} (hb : f32IsInf b = true) (ha : f32IsNaN a = false) :
    f32Mul a b = if f32IsFinite a = true ∧ f32Units a = 0 then f32NaN else f32Inf (f32Neg a != f32Neg b) := by
  rcases finite_or_inf ha with hfin | hinf
  · simp [f32Mul, ha, not_nan_of_inf hb, not_inf_of_finite hfin, hfin, hb, ← natAbs_f32Units]
  · rw [f32Mul_inf hinf (not_nan_of_inf hb), not_finite_of_inf hb, not_finite_of_inf hinf]
    simp

theorem f32Mul_finite {a b : F32} (ha : f32IsFinite a = true) (hb : f32IsFinite b = true) :
    f32Mul a b = f32Pack (f32Neg a != f32Neg b) (roundMag (f32Units a * f32Units b).natAbs 149) := by
  simp [f32Mul, not_nan_of_finite ha, not_nan_of_finite hb, not_inf_of_finite ha, not_inf_of_finite hb,
    Int.natAbs_mul, natAbs_f32Units]

theorem f32Neg_of_pos {x : F32} (h : 0 < f32Units x) : f32Neg x = false := by
  unfold f32Units at h
  split at h
  · omega
  · exact Bool.eq_false_of_not_eq_true ‹_›

theorem f32Neg_of_neg {x : F32} (h : f32Units x < 0) : f32Neg x = true := by
  unfold f32Units at h
  split at h
  · assumption
  · omega

/-- The sign of a product that is not 0 is that of the exact one. -/
theorem neg_bne_neg_eq {a b : F32} (h : f32Units a * f32Units b ≠ 0) :
    (f32Neg a != f32Neg b) = decide (f32Units a * f32Units b < 0) := by
  obtain ⟨ha, hb⟩ := mul_ne_zero_iff.mp h
  rcases lt_or_gt_of_ne ha with ha | ha <;> rcases lt_or_gt_of_ne hb with hb | hb
  · simp [f32Neg_of_neg ha, f32Neg_of_neg hb, (mul_pos_of_neg_of_neg ha hb).le]
  · simp [f32Neg_of_neg ha, f32Neg_of_pos hb, mul_neg_of_neg_of_pos ha hb]
  · simp [f32Neg_of_pos ha, f32Neg_of_neg hb, mul_neg_of_pos_of_neg ha hb]
  · simp [f32Neg_of_pos ha, f32Neg_of_pos hb, (mul_pos ha hb).le]

theorem roundsTo_f32Mul {a b : F32} (ha : f32IsFinite a = true) (hb : f32IsFinite b = true) :
    RoundsTo (f32Units a * f32Units b) 149 (f32Mul a b) := by
  rw [f32Mul_finite ha hb]
  exact roundsTo_pack neg_bne_neg_eq

/-! ### The statements -/

/-- Settles O53: the packed nearest bits of the exact sum and product, and `⊖` as `⊕` of the negated operand. -/
theorem arithmeticRoundsToNearestEven : Obligations.ArithmeticRoundsToNearestEven := by
  unfold Obligations.ArithmeticRoundsToNearestEven
  intro a b ha hb
  have hsub : RoundsTo (f32Units a + f32Units (f32Negate b)) 0 (f32Sub a b) := roundsTo_f32Add ha (by simpa using hb)
  rw [f32Units_negate, ← sub_eq_add_neg] at hsub
  exact ⟨roundsTo_f32Add ha hb, hsub, roundsTo_f32Mul ha hb⟩

/-- Settles O54: each clause is the rule of `⊕` or `⊗` for its kind of operand, `⊖` being `⊕` of the negated operand. -/
theorem specialValuesPropagate : Obligations.SpecialValuesPropagate := by
  unfold Obligations.SpecialValuesPropagate
  refine ⟨fun a b h => ?_, fun a b ha hb => ?_, fun a b ha hb => ?_, fun a b ha hb => ?_, fun a b ha hb => ?_,
    fun a b ha hb => ?_, fun a b ha hb h => ?_, fun a b ha hb h => ?_, fun a b ha hb => ?_⟩
  · rw [f32Sub, f32Add_nan h, f32Add_nan (by simpa using h), f32Mul_nan h]
    exact ⟨f32IsNaN_f32NaN, f32IsNaN_f32NaN, f32IsNaN_f32NaN⟩
  · rw [f32Add_inf_inf ha hb]
    split
    · rfl
    · exact f32IsNaN_f32NaN
  · rw [f32Sub, f32Add_inf_inf ha (by simpa using hb), f32Neg_negate]
    by_cases h : f32Neg a = f32Neg b
    · simp [h, f32IsNaN_f32NaN]
    · simp [Bool.eq_not.mpr h]
  · exact ⟨f32Add_inf_finite ha hb, f32Add_finite_inf hb ha⟩
  · have ha' : f32IsInf (f32Negate a) = true := by simpa using ha
    refine ⟨f32Add_inf_finite ha (by simpa using hb), ?_⟩
    rw [f32Sub, f32Add_finite_inf hb ha', eq_f32Inf ha', f32Neg_negate]
  · rw [f32Mul_inf ha hb, f32Mul_inf_right ha hb, bne_comm (a := f32Neg b)]
    split
    · exact ⟨f32IsNaN_f32NaN, f32IsNaN_f32NaN⟩
    · exact ⟨rfl, rfl⟩
  · rw [f32Add_zero_sum ha hb h]
    cases f32Neg a <;> cases f32Neg b <;> rfl
  · rw [f32Sub, f32Add_zero_sum ha (by simpa using hb) (by rw [f32Units_negate]; omega), f32Neg_negate]
    cases f32Neg a <;> cases f32Neg b <;> rfl
  · rw [f32Mul_finite ha hb, f32Neg_pack _ (roundMag_lt ..)]

end Sys2Proof.Proofs
end

section
/-! SUPPORT. The work sizes (00_scope.md R8, 20_memory.md R83 to R86) and the four WORKSIZE commands. -/
namespace Sys2Proof.Proofs
open Sys2Proof.Machine

/-! ### The integer functions of R8 -/

theorem nextpow2_eq_two_pow (v : Nat) : ∃ k, nextpow2 v = 2 ^ k := by
  unfold nextpow2
  split
  · exact ⟨0, rfl⟩
  · exact ⟨_, rfl⟩

theorem le_nextpow2 (v : Nat) : v ≤ nextpow2 v := by
  unfold nextpow2
  split
  · assumption
  · have := Nat.lt_log2_self (n := v - 1)
    omega

theorem nextpow2_le {v k : Nat} (h : v ≤ 2 ^ k) : nextpow2 v ≤ 2 ^ k := by
  unfold nextpow2
  split
  · exact Nat.one_le_two_pow
  · exact Nat.pow_le_pow_right (by decide) ((Nat.log2_lt (by omega)).mpr (by omega))

theorem ispow2_iff (v : Nat) : ispow2 v = true ↔ ∃ k, v = 2 ^ k := by
  simp only [ispow2, decide_eq_true_eq]
  constructor
  · exact fun h => ⟨_, h.symm⟩
  · rintro ⟨k, rfl⟩
    rw [Nat.log2_two_pow]

/-! ### The end of a WORKSIZE -/

/-- A WORKSIZE answers the work size or fails, as its configuration is valid or not. -/
theorem finish_worksize (s : State) (ws : Nat) {valid : Bool} {p : Prop} [Decidable p] (h : valid = true ↔ p) :
    finish s (do require (valid = true) .invalidArgument; return s.complete ws) =
      .next (if p then { s with status := 0, res := BitVec.ofNat 64 ws } else { s with status := 1, res := 0 }) := by
  by_cases hp : p
  · rw [require_true (h.mpr hp), if_pos hp]
    rfl
  · rw [require_false (fun hv => hp (h.mp hv)), if_neg hp]
    rfl

theorem validRb_iff (n rs mrs : Nat) :
    validRb n rs mrs = true ↔ 1 ≤ n ∧ 1 ≤ rs ∧ 1 ≤ mrs ∧ mrs ≤ n ∧ wsRb n rs mrs < addrLimit := by
  simp only [validRb, Bool.and_eq_true, decide_eq_true_eq, and_assoc]

theorem validKc_iff (maxc maxin : Nat) :
    validKc maxc maxin = true ↔ 1 ≤ maxc ∧ 1 ≤ maxin ∧ wsKc maxc maxin < addrLimit := by
  simp only [validKc, Bool.and_eq_true, decide_eq_true_eq, and_assoc]

theorem validFftSize_iff (fftMaxN f : Nat) :
    validFftSize fftMaxN f = true ↔ ispow2 f = true ∧ 2 ≤ f ∧ f ≤ fftMaxN := by
  simp only [validFftSize, Bool.and_eq_true, decide_eq_true_eq, and_assoc]

theorem validPc_iff (fftMaxN maxc maxin f : Nat) : validPc fftMaxN maxc maxin f = true ↔
    1 ≤ maxc ∧ 1 ≤ maxin ∧ (ispow2 f = true ∧ 2 ≤ f ∧ f ≤ fftMaxN) ∧ wsPc maxc maxin f < addrLimit := by
  simp only [validPc, Bool.and_eq_true, decide_eq_true_eq, validFftSize_iff, and_assoc]

theorem validHc_iff (fftMaxN maxc maxin f t : Nat) : validHc fftMaxN maxc maxin f t = true ↔
    1 ≤ maxc ∧ 1 ≤ maxin ∧ (ispow2 f = true ∧ 2 ≤ f ∧ f ≤ fftMaxN) ∧ f / 2 ≤ t ∧ wsHc maxc maxin f t < addrLimit := by
  simp only [validHc, Bool.and_eq_true, decide_eq_true_eq, validFftSize_iff, and_assoc]

/-- Settles O27: the sizes are the formulas of R83 to R86 by definition, and each command ends as `finish_worksize` says. -/
theorem worksizeCommandsComplete : Obligations.WorksizeCommandsComplete := by
  unfold Obligations.WorksizeCommandsComplete
  refine ⟨fun v => ⟨nextpow2_eq_two_pow v, le_nextpow2 v, fun k => nextpow2_le⟩, ispow2_iff, fun s => ?_⟩
  exact ⟨finish_worksize s _ (validRb_iff ..), finish_worksize s _ (validKc_iff ..), finish_worksize s _ (validPc_iff ..),
    finish_worksize s _ (validHc_iff ..)⟩

end Sys2Proof.Proofs
end

section
/-! SUPPORT. The length of a real transform's output (41_fft.md R207, R212 to R215) and of the packed product (R218). -/
namespace Sys2Proof.Proofs
open Sys2Proof.Machine

theorem length_butterfly4 (flag : Int) (m s p : Nat) (x : List (F32 × F32)) : (butterfly4 flag m s p x).length = 4 * s := by
  simp only [butterfly4, List.length_append, List.length_map, List.length_range]
  omega

theorem length_radix2 (s : Nat) (x : List (F32 × F32)) : (radix2 s x).length = 2 * s := by
  simp only [radix2, List.length_append, List.length_map, List.length_range]
  omega

/-- A stage on `2^e` groups of `s` elements keeps the number of elements. -/
theorem length_fftStage (flag : Int) (fuel e s : Nat) (x : List (F32 × F32)) (h : x.length = 2 ^ e * s) :
    (fftStage flag fuel (2 ^ e) s x).length = 2 ^ e * s := by
  induction fuel generalizing e s x with
  | zero => exact h
  | succ fuel ih =>
    match e with
    | 0 => simpa [fftStage] using h
    | 1 => simp [fftStage, length_radix2]
    | e + 2 =>
      have hpos := Nat.two_pow_pos e
      have hfour : 2 ^ (e + 2) = 2 ^ e * 4 := pow_add 2 e 2
      have hquarter : 2 ^ e * 4 / 4 = 2 ^ e := Nat.mul_div_cancel _ (by decide)
      rw [fftStage, hfour, if_neg (by omega), if_neg (by omega), hquarter, mul_assoc]
      refine ih e (4 * s) _ ?_
      simp [List.length_flatMap, length_butterfly4]

theorem length_cfftRef {e : Nat} (flag : Int) {x : List (F32 × F32)} (h : x.length = 2 ^ e) :
    (cfftRef (2 ^ e) flag x).length = 2 ^ e := by
  rw [cfftRef, length_fftStage _ _ _ _ _ (by omega), mul_one]

theorem length_ofComplex (x : List (F32 × F32)) : (ofComplex x).length = 2 * x.length := by
  simp [ofComplex, List.length_flatMap, mul_comm]

theorem length_realForwardRef (e : Nat) (v : List F32) : (realForwardRef (2 ^ (e + 1)) v).length = 2 ^ (e + 1) := by
  have := Nat.two_pow_pos e
  simp only [realForwardRef, List.length_append, List.length_cons, List.length_nil, length_ofComplex, List.length_map,
    List.length_range]
  omega

theorem length_realInverseRef (e : Nat) (v : List F32) : (realInverseRef (2 ^ (e + 1)) v).length = 2 ^ (e + 1) := by
  have hpos := Nat.two_pow_pos e
  have hhalf : 2 ^ (e + 1) / 2 = 2 ^ e := by omega
  simp only [realInverseRef, hhalf, length_ofComplex]
  rw [length_cfftRef 1 (by simp only [List.length_cons, List.length_map, List.length_range]; omega)]
  omega

@[simp] theorem length_settleNaNs (free : Nat → F32) (xs : List F32) : (settleNaNs free xs).length = xs.length := by
  simp [settleNaNs]

theorem two_pow_of_validFftSize {fftMaxN f : Nat} (h : validFftSize fftMaxN f = true) : ∃ e, f = 2 ^ (e + 1) := by
  obtain ⟨hpow, htwo, -⟩ := (validFftSize_iff ..).mp h
  obtain ⟨k, rfl⟩ := (ispow2_iff f).mp hpow
  cases k with
  | zero => omega
  | succ e => exact ⟨e, rfl⟩

/-- Every transform a convolver asks for answers as many floats as its length says, whichever function `fftImpl` is. -/
theorem length_fftImpl_real (p : Platform) {fftMaxN f : Nat} (h : validFftSize fftMaxN f = true) (flag : Int) (v : List F32) :
    (fftImpl p .real f flag v).length = f := by
  obtain ⟨e, rfl⟩ := two_pow_of_validFftSize h
  unfold fftImpl
  split
  · simp [fftFloats]
  · split
    · rw [length_settleNaNs, fftReference]
      split
      · exact length_realForwardRef e v
      · exact length_realInverseRef e v
    · simp [fftFloats]

theorem length_packedBins {α : Type} (ar : Arith α) (acc x h : List α) : (packedBins ar acc x h).length = acc.length := by
  fun_induction packedBins ar acc x h with
  | case1 a0 a1 acc x0 x1 x h0 h1 h _ _ ih => simp [ih]
  | case2 => rfl

theorem length_packedMac {α : Type} (ar : Arith α) (acc x h : List α) : (packedMac ar acc x h).length = acc.length := by
  unfold packedMac
  split
  · simp [length_packedBins]
  · rfl

end Sys2Proof.Proofs
end

section
/-! SUPPORT. The internal rings (40_ringbuffer.md R140 to R151, R159): every ring operation that succeeds keeps the ring's size
and its well-formedness, and moves its level by the samples put or taken. -/
namespace Sys2Proof.Proofs
open Sys2Proof.Machine Sys2Proof.Safety

/-! ### Levels modulo the ring's size -/

theorem subMod_add_left {w r m k : Nat} (h : subMod w r m + k < m) : subMod ((w + k) % m) r m = subMod w r m + k := by
  unfold subMod at *
  rw [Nat.mod_add_mod, Nat.add_right_comm, ← Nat.mod_add_mod, Nat.mod_eq_of_lt h]

theorem subMod_add_right {w r m k : Nat} (hw : w < m) (hr : r < m) (h : k ≤ subMod w r m) :
    subMod w ((r + k) % m) m = subMod w r m - k := by
  rcases Nat.lt_or_ge w r with hrw | hrw
  · rw [subMod_of_lt hrw hr] at h ⊢
    rcases Nat.lt_or_ge (r + k) m with hk | hk
    · rw [Nat.mod_eq_of_lt hk, subMod_of_lt (by omega) hk]
      omega
    · rw [Nat.mod_eq_sub_mod hk, Nat.mod_eq_of_lt (by omega), subMod_of_le (by omega) hw]
      omega
  · rw [subMod_of_le hrw hw] at h ⊢
    rw [Nat.mod_eq_of_lt (by omega), subMod_of_le (by omega) hw]
    omega

section
variable {α : Type}

theorem ring_size_pos (q : SampleRing α) : 0 < q.size := Nat.succ_pos _

theorem ring_remaining_lt (q : SampleRing α) : q.remaining < q.size := subMod_lt _ _ (ring_size_pos q)

/-! ### Put -/

theorem ringFill_eq (q : SampleRing α) (k : Nat) (vs : List α) :
    ringFill q k vs = { q with slots := (ringFill q k vs).slots } := by
  induction vs generalizing q k with
  | nil => rfl
  | cons v vs ih =>
    rw [ringFill, ih]
    rfl

/-- A slot write and its mirror keep the shadow slots equal to the first ones (R142, R143). -/
theorem ringOk_slotWrite {q : SampleRing α} (h : RingOk q) {k : Nat} (hk : k < q.size) (v : α) :
    RingOk (ringSlotWrite q k v) := by
  have hmrs := h.mrs_le
  have hslots := h.slots
  refine ⟨h.r_lt, h.w_lt, h.mrs_le, ?_, fun j hj => ?_⟩
  · show (if k < q.mrs then _ else _ : List α).length = q.size + q.mrs
    split <;> simpa using hslots
  · have hj : j < q.mrs := hj
    have hsize : q.size = q.n + 1 := rfl
    have hold := h.shadow j hj
    show (if k < q.mrs then (q.slots.set k v).set (q.size + k) v else q.slots.set k v)[q.size + j]? =
      (if k < q.mrs then (q.slots.set k v).set (q.size + k) v else q.slots.set k v)[j]?
    by_cases hm : k < q.mrs
    · rw [if_pos hm, List.getElem?_set, List.getElem?_set_ne (by omega : q.size + k ≠ j)]
      by_cases hkj : k = j
      · subst hkj
        rw [if_pos rfl, if_pos (by rw [List.length_set]; omega), List.getElem?_set_self (by omega)]
      · rw [if_neg (by omega), List.getElem?_set_ne (by omega), List.getElem?_set_ne hkj, hold]
    · rw [if_neg hm, List.getElem?_set_ne (by omega), List.getElem?_set_ne (by omega), hold]

theorem ringOk_fill {q : SampleRing α} (h : RingOk q) (k : Nat) (vs : List α) : RingOk (ringFill q k vs) := by
  induction vs generalizing q k with
  | nil => exact h
  | cons v vs ih => exact ih (ringOk_slotWrite h (Nat.mod_lt _ (ring_size_pos q)) v) (k + 1)

/-- A Put that succeeds (R149): there was room, and the ring holds the samples more. -/
theorem ringOk_put {q q' : SampleRing α} {vs : List α} (h : RingOk q) (hput : ringPut q vs = some q') :
    RingOk q' ∧ q'.n = q.n ∧ q'.mrs = q.mrs ∧ q'.remaining = q.remaining + vs.length := by
  unfold ringPut at hput
  split at hput
  · cases hput
  · rename_i hfree
    cases hput
    have hfill := ringOk_fill h q.w vs
    rw [ringFill_eq] at hfill ⊢
    refine ⟨⟨h.r_lt, Nat.mod_lt _ (ring_size_pos q), h.mrs_le, hfill.slots, hfill.shadow⟩, rfl, rfl, subMod_add_left ?_⟩
    have := ring_remaining_lt q
    unfold SampleRing.free at hfree
    show q.remaining + vs.length < q.size
    omega

/-! ### Peek and Get -/

theorem length_of_ringPeek {q : SampleRing α} {n : Nat} {vs : List α} (h : RingOk q) (hpeek : ringPeek q n = some vs) :
    vs.length = n ∧ n ≤ q.remaining := by
  unfold ringPeek at hpeek
  split at hpeek
  · cases hpeek
  · split at hpeek
    · cases hpeek
    · cases hpeek
      have := h.slots
      have := h.r_lt
      simp only [List.length_take, List.length_drop]
      omega

/-- A Get that succeeds (R151): it takes as many samples as it is asked for. -/
theorem ringOk_get {q q' : SampleRing α} {n : Nat} {vs : List α} (h : RingOk q) (hget : ringGet q n = some (vs, q')) :
    RingOk q' ∧ q'.n = q.n ∧ q'.mrs = q.mrs ∧ q'.remaining = q.remaining - n ∧ vs.length = n ∧ n ≤ q.remaining := by
  unfold ringGet at hget
  split at hget
  · cases hget
  · rename_i us hpeek
    cases hget
    obtain ⟨hlen, hle⟩ := length_of_ringPeek h hpeek
    exact ⟨⟨Nat.mod_lt _ (ring_size_pos q), h.w_lt, h.mrs_le, h.slots, h.shadow⟩, rfl, rfl,
      subMod_add_right h.w_lt h.r_lt hle, hlen, hle⟩

/-! ### Clear and seed -/

theorem ringOk_clear {q : SampleRing α} (zero : α) (h : q.mrs ≤ q.n) : RingOk (ringClear zero q) := by
  refine ⟨(ring_size_pos q), (ring_size_pos q), h, List.length_replicate, fun j hj => ?_⟩
  have hj : j < q.mrs := hj
  show (List.replicate (q.size + q.mrs) zero)[q.size + j]? = (List.replicate (q.size + q.mrs) zero)[j]?
  rw [List.getElem?_replicate_of_lt (by omega), List.getElem?_replicate_of_lt (by omega)]

/-- A ring that is cleared and seeded holds the seed (R255, R366). -/
theorem ringOk_seed {q q' : SampleRing α} {zero : α} {count : Nat} (h : q.mrs ≤ q.n)
    (hseed : ringSeed zero q count = some q') : RingOk q' ∧ q'.n = q.n ∧ q'.mrs = q.mrs ∧ q'.remaining = count := by
  obtain ⟨hok, hn, hmrs, hrem⟩ := ringOk_put (ringOk_clear zero h) hseed
  have hzero : (ringClear zero q).remaining = 0 := by simp [ringClear, SampleRing.remaining, subMod]
  exact ⟨hok, hn, hmrs, by rw [hrem, hzero, List.length_replicate, Nat.zero_add]⟩

end

end Sys2Proof.Proofs
end

section
/-! SUPPORT. The Karatsuba convolver's state (43_karatsuba.md, R42): each of its operations leaves it well kept. -/
namespace Sys2Proof.Proofs
open Sys2Proof.Machine Sys2Proof.Safety

theorem length_padTo {α : Type} (zero : α) (len : Nat) (xs : List α) : (padTo zero len xs).length = len := by
  simp [padTo]

theorem getElem?_padTo_of_ge {α : Type} (zero : α) {len k : Nat} {xs : List α} (h1 : xs.length ≤ k) (h2 : k < len) :
    (padTo zero len xs)[k]? = some zero := by
  rw [padTo, List.getElem?_take_of_lt h2, List.getElem?_append_right h1, List.getElem?_replicate_of_lt (by omega)]

theorem kcFresh_ok {maxc maxin : Nat} (h1 : 1 ≤ maxc) (h2 : 1 ≤ maxin) : KcOk (kcFresh f32Arith maxc maxin) where
  maxc_pos := h1
  maxin_pos := h2
  nc_pos := Nat.le_refl 1
  nc_le := h1
  coef_len := List.length_replicate
  coef_pad := fun _ _ hk => List.getElem?_replicate_of_lt hk
  ovl_len := List.length_replicate

theorem kcReset_ok {st : KcState F32} (h : KcOk st) : KcOk (kcReset f32Arith st) :=
  { h with ovl_len := List.length_replicate }

theorem kcSetCoefficients_ok {st : KcState F32} {c : List F32} (h : KcOk st) (pos : 1 ≤ c.length) (le : c.length ≤ st.maxc) :
    KcOk (kcSetCoefficients f32Arith st c) :=
  { h with
    nc_pos := pos
    nc_le := le
    coef_len := length_padTo ..
    coef_pad := fun _ hk hlt => getElem?_padTo_of_ge _ hk hlt
    ovl_len := List.length_replicate }

theorem kcConvolve_ok {st : KcState F32} (h : KcOk st) (xs : List F32) : KcOk (kcConvolve f32Arith st xs).1 :=
  { h with ovl_len := by simp only [kcConvolve, List.length_zipWith, length_padTo, Nat.min_self]; rfl }

end Sys2Proof.Proofs
end

section
/-! SUPPORT. The partitioned convolver's state (42_partitioned.md, R43, R262): each of its operations keeps the configuration,
and one that succeeds leaves the state well kept. -/
namespace Sys2Proof.Proofs
open Sys2Proof.Machine Sys2Proof.Safety

/-! ### What stays -/

/-- Two PC states of one configuration with the same coefficients. -/
structure SameFilter {α : Type} (st st' : PcState α) : Prop where
  maxc  : st'.maxc = st.maxc
  maxin : st'.maxin = st.maxin
  f     : st'.f = st.f
  nc    : st'.nc = st.nc
  np    : st'.np = st.np
  h     : st'.h = st.h

section
variable {α : Type} {env : PcEnv α} {st st' st'' : PcState α}

theorem SameFilter.refl (st : PcState α) : SameFilter st st := ⟨rfl, rfl, rfl, rfl, rfl, rfl⟩

theorem SameFilter.trans (h : SameFilter st st') (h' : SameFilter st' st'') : SameFilter st st'' :=
  ⟨h'.maxc.trans h.maxc, h'.maxin.trans h.maxin, h'.f.trans h.f, h'.nc.trans h.nc, h'.np.trans h.np, h'.h.trans h.h⟩

theorem pcReset_same (h : pcReset env st = some st') : SameFilter st st' := by
  obtain ⟨_, _, h⟩ := Option.bind_eq_some_iff.mp h
  obtain ⟨_, _, h⟩ := Option.bind_eq_some_iff.mp h
  cases h
  exact ⟨rfl, rfl, rfl, rfl, rfl, rfl⟩

theorem processBlock_same {j : Nat} (h : processBlock env j st = some st') : SameFilter st st' := by
  obtain ⟨_, _, h⟩ := Option.bind_eq_some_iff.mp h
  obtain ⟨_, _, h⟩ := Option.bind_eq_some_iff.mp h
  obtain ⟨_, _, h⟩ := Option.bind_eq_some_iff.mp h
  cases h
  exact ⟨rfl, rfl, rfl, rfl, rfl, rfl⟩

theorem processBlocks_same {fuel j : Nat} (h : processBlocks env fuel j st = some st') : SameFilter st st' := by
  induction fuel generalizing j st with
  | zero => cases h; exact .refl _
  | succ fuel ih =>
    unfold processBlocks at h
    split at h
    · cases h; exact .refl _
    · split at h
      · cases h
      · rename_i st1 h1
        exact (processBlock_same h1).trans (ih h)

theorem pcConvolve_same {xs ys : List α} (h : pcConvolve env st xs = some (st', ys)) : SameFilter st st' := by
  obtain ⟨inRing, _, h⟩ := Option.bind_eq_some_iff.mp h
  obtain ⟨st1, h1, h⟩ := Option.bind_eq_some_iff.mp h
  obtain ⟨_, _, h⟩ := Option.bind_eq_some_iff.mp h
  cases h
  have hput : SameFilter st { st with inRing := inRing } := ⟨rfl, rfl, rfl, rfl, rfl, rfl⟩
  obtain ⟨hmaxc, hmaxin, hf, hnc, hnp, hh⟩ := hput.trans (processBlocks_same h1)
  exact ⟨hmaxc, hmaxin, hf, hnc, hnp, hh⟩

end

/-! ### The state a RESET starts from -/

/-- The part of a well-kept PC state that its reset leaves alone: the configuration, the coefficients and the rings' sizes. -/
structure PcBase (fftMaxN : Nat) (st : PcState F32) : Prop where
  maxc_pos  : 1 ≤ st.maxc
  maxin_pos : 1 ≤ st.maxin
  size      : validFftSize fftMaxN st.f = true
  nc_pos    : 1 ≤ st.nc
  nc_le     : st.nc ≤ st.maxc
  np_eq     : st.np = ceilDiv st.nc st.p
  h_len     : st.h.length = st.npMax
  h_rows    : ∀ row ∈ st.h, row.length = st.f
  inSize    : st.inRing.n = 2 * st.p + st.maxin ∧ st.inRing.mrs = st.f
  outSize   : st.outRing.n = st.p + st.maxin ∧ st.outRing.mrs = st.maxin

theorem PcBase.of_pcOk {fftMaxN : Nat} {st : PcState F32} (h : PcOk fftMaxN st) : PcBase fftMaxN st :=
  { h with }

section
variable {fftMaxN : Nat} {st st' : PcState F32} {s : State}

/-- The coefficients and the configuration fix the base, with the rings' sizes. -/
theorem PcBase.of_same (h : PcBase fftMaxN st) (same : SameFilter st st')
    (inSize : st'.inRing.n = st.inRing.n ∧ st'.inRing.mrs = st.inRing.mrs)
    (outSize : st'.outRing.n = st.outRing.n ∧ st'.outRing.mrs = st.outRing.mrs) : PcBase fftMaxN st' := by
  obtain ⟨hmaxc, hmaxin, hf, hnc, hnp, hh⟩ := same
  have hp : st'.p = st.p := by rw [PcState.p, hf, PcState.p]
  have hmax : st'.npMax = st.npMax := by rw [PcState.npMax, hmaxc, hf, PcState.npMax]
  constructor
  · rw [hmaxc]; exact h.maxc_pos
  · rw [hmaxin]; exact h.maxin_pos
  · rw [hf]; exact h.size
  · rw [hnc]; exact h.nc_pos
  · rw [hnc, hmaxc]; exact h.nc_le
  · rw [hnp, hnc, hp]; exact h.np_eq
  · rw [hh, hmax]; exact h.h_len
  · rw [hh, hf]; exact h.h_rows
  · rw [inSize.1, inSize.2, hp, hmaxin, hf]; exact h.inSize
  · rw [outSize.1, outSize.2, hp, hmaxin]; exact h.outSize

/-- `F` is even and not 0 (R250). -/
theorem PcBase.f_eq (h : PcBase fftMaxN st) : st.f = 2 * st.p ∧ 1 ≤ st.p := by
  obtain ⟨e, he⟩ := two_pow_of_validFftSize h.size
  have := Nat.two_pow_pos e
  unfold PcState.p
  omega

theorem ceilDiv_pos {a b : Nat} (ha : 1 ≤ a) (hb : 1 ≤ b) : 1 ≤ ceilDiv a b := Nat.div_pos (by omega) hb

theorem ceilDiv_mono {a b : Nat} (c : Nat) (h : a ≤ b) : ceilDiv a c ≤ ceilDiv b c := Nat.div_le_div_right (by omega)

theorem PcBase.np_pos (h : PcBase fftMaxN st) : 1 ≤ st.np := by
  rw [h.np_eq]
  exact ceilDiv_pos h.nc_pos h.f_eq.2

/-- PC.RESET (R255) brings every such state to a well-kept one. -/
theorem pcReset_ok (h : PcBase fftMaxN st) (hreset : pcReset (pcEnv s) st = some st') : PcOk fftMaxN st' := by
  have same := pcReset_same hreset
  obtain ⟨inRing, hin, hreset⟩ := Option.bind_eq_some_iff.mp hreset
  obtain ⟨outRing, hout, hreset⟩ := Option.bind_eq_some_iff.mp hreset
  cases hreset
  obtain ⟨hf, hp⟩ := h.f_eq
  have hmaxin := h.maxin_pos
  obtain ⟨inOk, inN, inMrs, inLevel⟩ := ringOk_seed (by have := h.inSize; omega) hin
  obtain ⟨outOk, outN, outMrs, outLevel⟩ := ringOk_seed (by have := h.outSize; omega) hout
  exact
    { PcBase.of_same h same ⟨inN, inMrs⟩ ⟨outN, outMrs⟩ with
      fb_len := List.length_replicate
      fb_rows := fun row hrow => by rw [List.eq_of_mem_replicate hrow, List.length_replicate]
      acc_len := List.length_replicate
      head_lt := h.np_pos
      inRing := inOk
      outRing := outOk
      count_lt := hp
      buffered := inLevel
      produced := outLevel
      schedule := (Nat.zero_div _).symm }

theorem pcBlank_base {maxc maxin f : Nat} (h1 : 1 ≤ maxc) (h2 : 1 ≤ maxin) (hf : validFftSize fftMaxN f = true) :
    PcBase fftMaxN (pcBlank (pcEnv s) maxc maxin f) := by
  refine ⟨h1, h2, hf, Nat.le_refl 1, h1, ?_, List.length_replicate, fun row hrow => ?_, ⟨rfl, rfl⟩, ⟨rfl, rfl⟩⟩
  · obtain ⟨e, rfl⟩ := two_pow_of_validFftSize hf
    have := Nat.two_pow_pos e
    show 1 = (1 + 2 ^ (e + 1) / 2 - 1) / (2 ^ (e + 1) / 2)
    rw [Nat.add_sub_cancel_left, Nat.div_self (by omega)]
  · rw [List.eq_of_mem_replicate hrow]
    exact List.length_replicate

/-! ### PC.SETCOEF -/

theorem length_transformPartitions {α : Type} (env : PcEnv α) (f : Nat) {np npMax : Nat} (h : np ≤ npMax) (c : List α) :
    (transformPartitions env f np npMax c).length = npMax := by
  simp only [transformPartitions, List.length_append, List.length_map, List.length_range, List.length_replicate]
  omega

theorem length_of_mem_transformPartitions {f : Nat} (hf : validFftSize fftMaxN f = true) {np npMax : Nat} {c row : List F32}
    (h : row ∈ transformPartitions (pcEnv s) f np npMax c) : row.length = f := by
  rcases List.mem_append.mp h with h | h
  · obtain ⟨p, -, rfl⟩ := List.mem_map.mp h
    rw [List.length_map]
    exact length_fftImpl_real s.plat hf ..
  · rw [List.eq_of_mem_replicate h, List.length_replicate]

/-- The state PC.SETCOEF resets: new coefficients on the same configuration. -/
theorem PcBase.withCoefficients {c : List F32} (h : PcBase fftMaxN st) (pos : 1 ≤ c.length) (le : c.length ≤ st.maxc)
    (s : State) :
    PcBase fftMaxN { st with
      nc := c.length, np := ceilDiv c.length st.p,
      h := transformPartitions (pcEnv s) st.f (ceilDiv c.length st.p) st.npMax c } :=
  { h with
    nc_pos := pos
    nc_le := le
    np_eq := rfl
    h_len := length_transformPartitions _ _ (ceilDiv_mono _ le) _
    h_rows := fun _ hrow => length_of_mem_transformPartitions h.size hrow }

/-- PC.SETCOEF (R256) leaves a well-kept state of the same configuration. -/
theorem pcSetCoefficients_ok {c : List F32} (h : PcBase fftMaxN st) (pos : 1 ≤ c.length) (le : c.length ≤ st.maxc)
    (hset : pcSetCoefficients (pcEnv s) st c = some st') : PcOk fftMaxN st' :=
  pcReset_ok (h.withCoefficients pos le s) hset

theorem pcSetCoefficients_config {α : Type} {env : PcEnv α} {st st' : PcState α} {c : List α}
    (h : pcSetCoefficients env st c = some st') : st'.maxc = st.maxc ∧ st'.maxin = st.maxin ∧ st'.f = st.f :=
  have same := pcReset_same h
  ⟨same.maxc, same.maxin, same.f⟩

/-! ### PC.CONVOLVE -/

theorem length_macPartitions {α : Type} (env : PcEnv α) (st : PcState α) (lo hi : Nat) (acc : List α) :
    (macPartitions env st lo hi acc).length = acc.length := by
  unfold macPartitions
  induction List.range' lo (hi + 1 - lo) generalizing acc with
  | nil => rfl
  | cons p ps ih => rw [List.foldl_cons, ih, length_packedMac]

/-- A PC state inside PC.CONVOLVE, between two blocks: the rings hold `total` samples together, at least `P` of them
input, and the products made so far are no more than the schedule asks for at the input ring's level (R264). -/
structure PcMid (fftMaxN total : Nat) (st : PcState F32) : Prop where
  base      : PcBase fftMaxN st
  fb_len    : st.fb.length = st.npMax
  fb_rows   : ∀ row ∈ st.fb, row.length = st.f
  acc_len   : st.acc.length = st.f
  head_lt   : st.head < st.np
  inRing    : RingOk st.inRing
  outRing   : RingOk st.outRing
  low       : st.p ≤ st.inRing.remaining
  level     : st.inRing.remaining + st.outRing.remaining = total
  cursor_le : st.cursor ≤ (st.np - 1) * (st.inRing.remaining - st.p) / st.p

/-- The samples of a call stand in the input ring. -/
theorem PcMid.of_put {xs : List F32} {inRing : SampleRing F32} (h : PcOk fftMaxN st)
    (hput : ringPut st.inRing xs = some inRing) : PcMid fftMaxN (2 * st.p + xs.length) { st with inRing := inRing } := by
  obtain ⟨inOk, inN, inMrs, inLevel⟩ := ringOk_put h.inRing hput
  have hcount := h.count_lt
  have hin := h.buffered
  have hout := h.produced
  refine
    { base := PcBase.of_same (PcBase.of_pcOk h) ⟨rfl, rfl, rfl, rfl, rfl, rfl⟩ ⟨inN, inMrs⟩ ⟨rfl, rfl⟩
      fb_len := h.fb_len
      fb_rows := h.fb_rows
      acc_len := h.acc_len
      head_lt := h.head_lt
      inRing := inOk
      outRing := h.outRing
      low := ?_
      level := ?_
      cursor_le := ?_ }
  · show st.p ≤ inRing.remaining
    omega
  · show inRing.remaining + st.outRing.remaining = _
    omega
  · show st.cursor ≤ (st.np - 1) * (inRing.remaining - st.p) / st.p
    rw [h.schedule]
    exact Nat.div_le_div_right (Nat.mul_le_mul_left _ (by omega))

/-- A block (R261) takes `P` samples from the input ring and gives `P` to the output ring. -/
theorem processBlock_mid {total j : Nat} (h : PcMid fftMaxN total st) (hfull : st.f ≤ st.inRing.remaining)
    (hblock : processBlock (pcEnv s) j st = some st') :
    PcMid fftMaxN total st' ∧ st'.inRing.remaining = st.inRing.remaining - st.p := by
  have same := processBlock_same hblock
  obtain ⟨hf, hp⟩ := h.base.f_eq
  obtain ⟨u, _, hblock⟩ := Option.bind_eq_some_iff.mp hblock
  obtain ⟨outRing, hput, hblock⟩ := Option.bind_eq_some_iff.mp hblock
  obtain ⟨⟨_, inRing⟩, hget, hblock⟩ := Option.bind_eq_some_iff.mp hblock
  cases hblock
  obtain ⟨outOk, outN, outMrs, outLevel⟩ := ringOk_put h.outRing hput
  obtain ⟨inOk, inN, inMrs, inLevel, -, -⟩ := ringOk_get h.inRing hget
  have hblockLen (flag : Int) (v : List F32) : ((pcEnv s).fft st.f flag v).length = st.f :=
    length_fftImpl_real s.plat h.base.size flag v
  rw [List.length_drop, hblockLen] at outLevel
  have hlevel := h.level
  refine ⟨?_, inLevel⟩
  refine
    { base := PcBase.of_same h.base same ⟨inN, inMrs⟩ ⟨outN, outMrs⟩
      fb_len := by rw [List.length_set]; exact h.fb_len
      fb_rows := fun row hrow => ?_
      acc_len := List.length_replicate
      head_lt := Nat.mod_lt _ h.base.np_pos
      inRing := inOk
      outRing := outOk
      low := ?_
      level := ?_
      cursor_le := Nat.zero_le _ }
  · rcases List.mem_or_eq_of_mem_set hrow with hrow | rfl
    · exact h.fb_rows row hrow
    · exact hblockLen ..
  · show st.p ≤ inRing.remaining
    omega
  · show inRing.remaining + outRing.remaining = total
    omega

/-- The blocks of a call leave fewer than `F` input samples. -/
theorem processBlocks_mid {total fuel j : Nat} (h : PcMid fftMaxN total st) (hfuel : st.inRing.remaining ≤ fuel)
    (hblocks : processBlocks (pcEnv s) fuel j st = some st') :
    PcMid fftMaxN total st' ∧ st'.inRing.remaining < st'.f := by
  have ⟨hf, hp⟩ := h.base.f_eq
  induction fuel generalizing j st with
  | zero =>
    cases hblocks
    exact ⟨h, by omega⟩
  | succ fuel ih =>
    unfold processBlocks at hblocks
    split at hblocks
    · cases hblocks
      exact ⟨h, by assumption⟩
    · split at hblocks
      · cases hblocks
      · rename_i hfull _ st1 h1
        obtain ⟨hmid, hlevel⟩ := processBlock_mid h (Nat.le_of_not_lt hfull) h1
        have ⟨hf1, hp1⟩ := hmid.base.f_eq
        exact ih hmid (by omega) hblocks hf1 hp1

/-- PC.CONVOLVE (R259) leaves a well-kept state and answers as many samples as it is given. -/
theorem pcConvolve_ok {xs ys : List F32} (h : PcOk fftMaxN st) (hrun : pcConvolve (pcEnv s) st xs = some (st', ys)) :
    PcOk fftMaxN st' ∧ ys.length = xs.length := by
  have hpSame : st'.p = st.p := by rw [PcState.p, (pcConvolve_same hrun).f, PcState.p]
  obtain ⟨inRing, hput, hrun⟩ := Option.bind_eq_some_iff.mp hrun
  obtain ⟨st1, hblocks, hrun⟩ := Option.bind_eq_some_iff.mp hrun
  obtain ⟨⟨zs, outRing⟩, hget, hrun⟩ := Option.bind_eq_some_iff.mp hrun
  cases hrun
  obtain ⟨hmid, hbelow⟩ := processBlocks_mid (PcMid.of_put h hput) (Nat.le_refl _) hblocks
  obtain ⟨hf, hp⟩ := hmid.base.f_eq
  obtain ⟨outOk, outN, outMrs, outLevel, hlen, houtLe⟩ := ringOk_get hmid.outRing hget
  have hlow := hmid.low
  have hlevel := hmid.level
  have hpSame : st1.p = st.p := hpSame
  have outLevel : outRing.remaining = st1.outRing.remaining - xs.length := outLevel
  have houtLe : xs.length ≤ st1.outRing.remaining := houtLe
  have base : PcBase fftMaxN { amortise (pcEnv s) { st1 with inCount := st1.inRing.remaining - st1.p } with
      outRing := outRing } := PcBase.of_same hmid.base ⟨rfl, rfl, rfl, rfl, rfl, rfl⟩ ⟨rfl, rfl⟩ ⟨outN, outMrs⟩
  refine ⟨?_, hlen⟩
  exact
    { base with
      fb_len := hmid.fb_len
      fb_rows := hmid.fb_rows
      acc_len := (length_macPartitions ..).trans hmid.acc_len
      head_lt := hmid.head_lt
      inRing := hmid.inRing
      outRing := outOk
      count_lt := by show st1.inRing.remaining - st1.p < st1.p; omega
      buffered := by show st1.inRing.remaining = st1.p + (st1.inRing.remaining - st1.p); omega
      produced := by show outRing.remaining = st1.p - (st1.inRing.remaining - st1.p); omega
      schedule := Nat.max_eq_right hmid.cursor_le }

end

end Sys2Proof.Proofs
end

section
/-! SUPPORT. The hybrid convolver's state (44_hybrid.md, R44, R371): each of its operations keeps the configuration, and one
that succeeds leaves the state well kept. -/
namespace Sys2Proof.Proofs
open Sys2Proof.Machine Sys2Proof.Safety

/-! ### The configuration -/

section
variable {α : Type} {env : PcEnv α} {st st' : HcState α}

/-- Two HC states of one configuration. -/
structure SameHybrid (st st' : HcState α) : Prop where
  maxc  : st'.maxc = st.maxc
  maxin : st'.maxin = st.maxin
  f     : st'.f = st.f
  t     : st'.t = st.t

theorem hcReset_same (h : hcReset env st = some st') : SameHybrid st st' := by
  obtain ⟨_, _, h⟩ := Option.bind_eq_some_iff.mp h
  obtain ⟨_, _, h⟩ := Option.bind_eq_some_iff.mp h
  cases h
  exact ⟨rfl, rfl, rfl, rfl⟩

/-- HC.SETCOEF (R365): the coefficients go to the sub-states, in one of the two modes, and everything is reset. -/
theorem hcSetCoefficients_some {c : List α} (h : hcSetCoefficients env st c = some st') :
    (c.length ≤ st.t ∧ ∃ q, pcSetCoefficients env st.q [env.arith.zero] = some q ∧
      hcReset env { st with mode := .timeOnly, k := kcSetCoefficients env.arith st.k c, q := q } = some st') ∨
    (st.t < c.length ∧ ∃ q, pcSetCoefficients env st.q (c.drop st.t) = some q ∧
      hcReset env { st with mode := .hybrid, k := kcSetCoefficients env.arith st.k (c.take st.t), q := q } = some st') := by
  unfold hcSetCoefficients at h
  split at h
  · exact .inl ⟨by assumption, Option.bind_eq_some_iff.mp h⟩
  · exact .inr ⟨by omega, Option.bind_eq_some_iff.mp h⟩

theorem hcSetCoefficients_same {c : List α} (h : hcSetCoefficients env st c = some st') : SameHybrid st st' := by
  rcases hcSetCoefficients_some h with ⟨-, q, -, h⟩ | ⟨-, q, -, h⟩
  all_goals
    obtain ⟨hmaxc, hmaxin, hf, ht⟩ := hcReset_same h
    exact ⟨hmaxc, hmaxin, hf, ht⟩

/-- HC.CONVOLVE (R368): in TimeOnly mode the KC sub-state runs alone, in Hybrid mode both do, Q on the delayed samples. -/
theorem hcConvolve_some {xs ys : List α} (h : hcConvolve env st xs = some (st', ys)) :
    (st.mode = .timeOnly ∧ st' = { st with k := (kcConvolve env.arith st.k xs).1 }) ∨
    (st.mode = .hybrid ∧ ∃ dly1 dly2 xd q yp, ringPut st.dly xs = some dly1 ∧ ringGet dly1 xs.length = some (xd, dly2) ∧
      pcConvolve env st.q xd = some (q, yp) ∧
      st' = { st with k := (kcConvolve env.arith st.k xs).1, q := q, dly := dly2 }) := by
  unfold hcConvolve at h
  split at h
  · rename_i hmode
    cases h
    exact .inl ⟨hmode, rfl⟩
  · rename_i hmode
    obtain ⟨dly1, hput, h⟩ := Option.bind_eq_some_iff.mp h
    obtain ⟨⟨xd, dly2⟩, hget, h⟩ := Option.bind_eq_some_iff.mp h
    obtain ⟨⟨q, yp⟩, hq, h⟩ := Option.bind_eq_some_iff.mp h
    cases h
    exact .inr ⟨hmode, dly1, dly2, xd, q, yp, hput, hget, hq, rfl⟩

theorem hcConvolve_same {xs ys : List α} (h : hcConvolve env st xs = some (st', ys)) : SameHybrid st st' := by
  rcases hcConvolve_some h with ⟨-, rfl⟩ | ⟨-, _, _, _, _, _, -, -, -, rfl⟩
  all_goals exact ⟨rfl, rfl, rfl, rfl⟩

end

/-! ### Well-kept states -/

/-- The part of a well-kept HC state that its reset starts from. -/
structure HcBase (fftMaxN : Nat) (st : HcState F32) : Prop where
  maxc_pos  : 1 ≤ st.maxc
  maxin_pos : 1 ≤ st.maxin
  lat_le    : st.l ≤ st.t
  k_ok      : KcOk st.k
  k_cfg     : st.k.maxc = min st.maxc st.t ∧ st.k.maxin = st.maxin
  q_base    : PcBase fftMaxN st.q
  q_cfg     : st.q.maxc = max 1 (st.maxc - st.t) ∧ st.q.maxin = st.maxin ∧ st.q.f = st.f
  dlySize   : st.dly.n = (st.t - st.l) + st.maxin ∧ st.dly.mrs = st.maxin

section
variable {fftMaxN : Nat} {st st' : HcState F32} {s : State}

theorem HcBase.of_hcOk (h : HcOk fftMaxN st) : HcBase fftMaxN st := { h with q_base := .of_pcOk h.q_ok }

/-- HC.RESET (R366) brings every such state to a well-kept one. -/
theorem hcReset_ok (h : HcBase fftMaxN st) (hreset : hcReset (pcEnv s) st = some st') : HcOk fftMaxN st' := by
  obtain ⟨q, hq, hreset⟩ := Option.bind_eq_some_iff.mp hreset
  obtain ⟨dly, hdly, hreset⟩ := Option.bind_eq_some_iff.mp hreset
  cases hreset
  have qSame := pcReset_same hq
  obtain ⟨qMaxc, qMaxin, qF⟩ := h.q_cfg
  obtain ⟨dlyN, dlyMrs⟩ := h.dlySize
  obtain ⟨dlyOk, dlyN', dlyMrs', dlyLevel⟩ := ringOk_seed (by omega) hdly
  exact
    { h with
      k_ok := kcReset_ok h.k_ok
      q_ok := pcReset_ok h.q_base hq
      q_cfg := ⟨qSame.maxc.trans qMaxc, qSame.maxin.trans qMaxin, qSame.f.trans qF⟩
      dly := dlyOk
      dlySize := ⟨dlyN'.trans dlyN, dlyMrs'.trans dlyMrs⟩
      delayed := dlyLevel }

theorem hcBlank_base {maxc maxin f t : Nat} (h1 : 1 ≤ maxc) (h2 : 1 ≤ maxin) (hf : validFftSize fftMaxN f = true)
    (ht : f / 2 ≤ t) : HcBase fftMaxN (hcBlank (pcEnv s) maxc maxin f t) := by
  have htwo := ((validFftSize_iff ..).mp hf).2.1
  exact
    { maxc_pos := h1
      maxin_pos := h2
      lat_le := ht
      k_ok := kcFresh_ok (by omega) h2
      k_cfg := ⟨rfl, rfl⟩
      q_base := pcBlank_base (Nat.le_max_left ..) h2 hf
      q_cfg := ⟨rfl, rfl, rfl⟩
      dlySize := ⟨rfl, rfl⟩ }

/-- New coefficients in both sub-states keep the base. -/
theorem HcBase.setCoefficients {q : PcState F32} {ck cq : List F32} (h : HcBase fftMaxN st) (mode : HcMode)
    (kPos : 1 ≤ ck.length) (kLe : ck.length ≤ st.k.maxc) (qPos : 1 ≤ cq.length) (qLe : cq.length ≤ st.q.maxc)
    (hq : pcSetCoefficients (pcEnv s) st.q cq = some q) :
    HcBase fftMaxN { st with mode := mode, k := kcSetCoefficients f32Arith st.k ck, q := q } := by
  obtain ⟨qMaxc, qMaxin, qF⟩ := h.q_cfg
  obtain ⟨qMaxc', qMaxin', qF'⟩ := pcSetCoefficients_config hq
  exact
    { h with
      k_ok := kcSetCoefficients_ok h.k_ok kPos kLe
      q_base := .of_pcOk (pcSetCoefficients_ok h.q_base qPos qLe hq)
      q_cfg := ⟨qMaxc'.trans qMaxc, qMaxin'.trans qMaxin, qF'.trans qF⟩ }

/-- HC.SETCOEF (R365) leaves a well-kept state. -/
theorem hcSetCoefficients_ok {c : List F32} (h : HcOk fftMaxN st) (pos : 1 ≤ c.length) (le : c.length ≤ st.maxc)
    (hset : hcSetCoefficients (pcEnv s) st c = some st') : HcOk fftMaxN st' := by
  have base := HcBase.of_hcOk h
  have kMaxc := h.k_cfg.1
  have qMaxc := h.q_cfg.1
  rcases hcSetCoefficients_some hset with ⟨hc, q, hq, hreset⟩ | ⟨hc, q, hq, hreset⟩
  · exact hcReset_ok (base.setCoefficients .timeOnly pos (by omega) (cq := [f32Zero]) (Nat.le_refl 1) h.q_ok.maxc_pos hq) hreset
  · have htake : (c.take st.t).length = st.t := List.length_take_of_le (by omega)
    have hdrop : (c.drop st.t).length = c.length - st.t := List.length_drop
    have hkPos := h.k_ok.maxc_pos
    exact hcReset_ok (base.setCoefficients .hybrid (by omega) (by omega) (by omega) (by omega) hq) hreset

/-- HC.CONVOLVE (R368) leaves a well-kept state: the delay ring takes and gives the same number of samples. -/
theorem hcConvolve_ok {xs ys : List F32} (h : HcOk fftMaxN st) (hrun : hcConvolve (pcEnv s) st xs = some (st', ys)) :
    HcOk fftMaxN st' := by
  rcases hcConvolve_some hrun with ⟨-, rfl⟩ | ⟨-, dly1, dly2, xd, q, yp, hput, hget, hq, rfl⟩
  · exact { h with k_ok := kcConvolve_ok h.k_ok xs }
  · obtain ⟨ok1, n1, mrs1, level1⟩ := ringOk_put h.dly hput
    obtain ⟨ok2, n2, mrs2, level2, -, -⟩ := ringOk_get ok1 hget
    obtain ⟨dlyN, dlyMrs⟩ := h.dlySize
    obtain ⟨qMaxc, qMaxin, qF⟩ := h.q_cfg
    have qSame := pcConvolve_same hq
    exact
      { h with
        k_ok := kcConvolve_ok h.k_ok xs
        q_ok := (pcConvolve_ok h.q_ok hq).1
        q_cfg := ⟨qSame.maxc.trans qMaxc, qSame.maxin.trans qMaxin, qSame.f.trans qF⟩
        dly := ok2
        dlySize := ⟨n2.trans (n1.trans dlyN), mrs2.trans (mrs1.trans dlyMrs)⟩
        delayed := by rw [level2, level1, Nat.add_sub_cancel]; exact h.delayed }

end

end Sys2Proof.Proofs
end

section
/-! SUPPORT. What a command that succeeds has done (20_memory.md, 40_ringbuffer.md to 44_hybrid.md): the fields it may have
written, and the instance set it leaves, read off each command's body once. -/
namespace Sys2Proof.Proofs
open Sys2Proof.Machine Sys2Proof.Safety

/-- The body of a command: what `exec` hands to `finish`. -/
def command : Instr → State → Cmd State
  | .rbWorksize => rbWorksize
  | .rbCreate => rbCreate
  | .rbDestroy => rbDestroy
  | .rbClear => rbClear
  | .rbPut => rbPut
  | .rbPeek => rbPeek
  | .rbGet => rbGet
  | .rbDpeek => rbDpeek
  | .rbRemain => rbRemain
  | .rbFree => rbFree
  | .fftCplx => fftCommand .cplx
  | .fftReal => fftCommand .real
  | .kcWorksize => kcWorksize
  | .kcCreate => kcCreate
  | .kcDestroy => kcDestroy
  | .kcReset => kcResetCommand
  | .kcSetcoef => kcSetcoef
  | .kcConvolve => kcConvolveCommand
  | .kcGetlat => kcGetlat
  | .pcWorksize => pcWorksize
  | .pcCreate => pcCreate
  | .pcDestroy => pcDestroy
  | .pcReset => pcResetCommand
  | .pcSetcoef => pcSetcoef
  | .pcConvolve => pcConvolveCommand
  | .pcGetlat => pcGetlat
  | .hcWorksize => hcWorksize
  | .hcCreate => hcCreate
  | .hcDestroy => hcDestroy
  | .hcReset => hcResetCommand
  | .hcSetcoef => hcSetcoef
  | .hcConvolve => hcConvolveCommand
  | .hcGetlat => hcGetlat

theorem exec_eq_finish (i : Instr) (s : State) : exec i s = finish s (command i s) := by cases i <;> rfl

/-- The unit state a CREATE installs at a handle, and its work size (R146, R253, R318, R363): the configuration is valid,
MEM has the data regions of the rings (log 23), and the state is fresh, for PC and HC after their reset. -/
inductive FreshUnit (s : State) (hdl : Nat) : Nat → UnitState → Prop
  | rb {n rs mrs : Nat} (valid : validRb n rs mrs = true)
      (backed : backedRange s.plat (hdl + hdrSize) ((n + 1 + mrs) * rs) = true) :
      FreshUnit s hdl (wsRb n rs mrs) (.rb (rbFresh n rs mrs hdl))
  | kc {maxc maxin : Nat} (valid : validKc maxc maxin = true) :
      FreshUnit s hdl (wsKc maxc maxin) (.kc (kcFresh f32Arith maxc maxin))
  | pc {maxc maxin f : Nat} {st : PcState F32} (valid : validPc s.plat.fftMaxN maxc maxin f = true)
      (backed : allBacked s.plat (pcRingSpans hdl maxin f) = true)
      (reset : pcReset (pcEnv s) (pcBlank (pcEnv s) maxc maxin f) = some st) :
      FreshUnit s hdl (wsPc maxc maxin f) (.pc st)
  | hc {maxc maxin f t : Nat} {st : HcState F32} (valid : validHc s.plat.fftMaxN maxc maxin f t = true)
      (backed : allBacked s.plat (hcRingSpans hdl maxc maxin f t) = true)
      (reset : hcReset (pcEnv s) (hcBlank (pcEnv s) maxc maxin f t) = some st) :
      FreshUnit s hdl (wsHc maxc maxin f t) (.hc st)

/-- How a command changes the unit state of the instance at A0: one case for each command that does. -/
inductive UnitStep (s : State) : UnitState → UnitState → Prop
  | rbClear (st : RbState) : UnitStep s (.rb st) (.rb { st with r := 0, w := 0 })
  | rbPut (st : RbState) (n : Nat) : UnitStep s (.rb st) (.rb { st with w := (st.w + n) % st.size })
  | rbGet (st : RbState) (n : Nat) : UnitStep s (.rb st) (.rb { st with r := (st.r + n) % st.size })
  | kcReset (st : KcState F32) : UnitStep s (.kc st) (.kc (kcReset f32Arith st))
  | kcSetcoef {st : KcState F32} {c : List F32} (pos : 1 ≤ c.length) (le : c.length ≤ st.maxc) :
      UnitStep s (.kc st) (.kc (kcSetCoefficients f32Arith st c))
  | kcConvolve (st : KcState F32) (xs : List F32) : UnitStep s (.kc st) (.kc (kcConvolve f32Arith st xs).1)
  | pcReset {st st' : PcState F32} (run : pcReset (pcEnv s) st = some st') : UnitStep s (.pc st) (.pc st')
  | pcSetcoef {st st' : PcState F32} {c : List F32} (pos : 1 ≤ c.length) (le : c.length ≤ st.maxc)
      (run : pcSetCoefficients (pcEnv s) st c = some st') : UnitStep s (.pc st) (.pc st')
  | pcConvolve {st st' : PcState F32} {xs ys : List F32} (run : pcConvolve (pcEnv s) st xs = some (st', ys)) :
      UnitStep s (.pc st) (.pc st')
  | hcReset {st st' : HcState F32} (run : hcReset (pcEnv s) st = some st') : UnitStep s (.hc st) (.hc st')
  | hcSetcoef {st st' : HcState F32} {c : List F32} (pos : 1 ≤ c.length) (le : c.length ≤ st.maxc)
      (run : hcSetCoefficients (pcEnv s) st c = some st') : UnitStep s (.hc st) (.hc st')
  | hcConvolve {st st' : HcState F32} {xs ys : List F32} (run : hcConvolve (pcEnv s) st xs = some (st', ys)) :
      UnitStep s (.hc st) (.hc st')

/-- The instance set a successful command leaves (R38): the old one, with a new instance, without the one at A0, or with
the one at A0 in another unit state. -/
inductive SetEffect (i : Instr) (s : State) : List (Nat × Instance) → Prop
  | keep : SetEffect i s s.insts
  | create {buf ws : Nat} {u : UnitState} (op : i = .rbCreate ∨ i = .kcCreate ∨ i = .pcCreate ∨ i = .hcCreate)
      (own : ownHandle i s = some (align16 buf)) (buf_ne : buf ≠ 0) (fits : buf + ws ≤ addrLimit)
      (clear : s.meetsArena buf ws = false) (fresh : FreshUnit s (align16 buf) ws u) :
      SetEffect i s (assocSet (align16 buf) { buf := buf, ws := ws, unit := u } s.insts)
  | destroy {x : Instance} (own : ownHandle i s = some (s.arg 0)) (live : assocGet (s.arg 0) s.insts = some x) :
      SetEffect i s (assocDrop (s.arg 0) 1 s.insts)
  | update {x : Instance} {u : UnitState} (own : ownHandle i s = some (s.arg 0))
      (live : assocGet (s.arg 0) s.insts = some x) (step : UnitStep s x.unit u) :
      SetEffect i s (assocSet (s.arg 0) { x with unit := u } s.insts)

/-- What a successful command has done: STATUS is OK, and beside STATUS and RES it has written memory, the draw counter
and the instance set alone, the last as `SetEffect` says. -/
structure CommandEffect (i : Instr) (s t : State) : Prop where
  frame : t = { s with status := 0, res := t.res, mem := t.mem, draws := t.draws, insts := t.insts }
  insts : SetEffect i s t.insts

/-! ### The shapes of the commands -/

/-- A command that ends with a result alone. -/
theorem CommandEffect.answer (i : Instr) (s : State) (v : Nat) : CommandEffect i s (s.complete v) := ⟨rfl, .keep⟩

/-- A command that checks its operands and ends with a result alone. -/
theorem CommandEffect.of_require {i : Instr} {s t : State} {p : Prop} [Decidable p] {c : StatusCode} {v : Nat}
    (h : (do require p c; return s.complete v : Cmd State) = .ok t) : CommandEffect i s t := by
  obtain ⟨_, _, h⟩ := bind_ok h
  cases h
  exact .answer i s v

/-- A command that checks its handle and ends with a result alone. -/
theorem CommandEffect.of_query {σ : Type} {proj : UnitState → Option σ} {i : Instr} {s t : State} {v : Instance × σ → Nat}
    (h : (do let x ← checkHandle proj s (s.arg 0); return s.complete (v x) : Cmd State) = .ok t) : CommandEffect i s t := by
  obtain ⟨x, _, h⟩ := bind_ok h
  cases h
  exact .answer i s _

/-- A DESTROY. -/
theorem CommandEffect.of_destroy {σ : Type} {proj : UnitState → Option σ} {i : Instr} {s t : State}
    (own : ownHandle i s = some (s.arg 0))
    (h : (do let (x, _) ← checkHandle proj s (s.arg 0); destroyInstance s (s.arg 0) x : Cmd State) = .ok t) :
    CommandEffect i s t := by
  obtain ⟨⟨x, st⟩, hx, h⟩ := bind_ok h
  obtain ⟨-, rfl⟩ := destroyInstance_ok h
  exact ⟨rfl, .destroy own (checkHandle_ok.mp hx).1⟩

/-- A command that gives the instance at A0 another unit state, and may have written memory and taken a draw. -/
theorem CommandEffect.of_update {i : Instr} {s t : State} {x : Instance} {u : UnitState}
    (own : ownHandle i s = some (s.arg 0)) (live : assocGet (s.arg 0) s.insts = some x) (step : UnitStep s x.unit u)
    (frame : t = { s with status := 0, res := t.res, mem := t.mem, draws := t.draws,
                          insts := assocSet (s.arg 0) { x with unit := u } s.insts }) : CommandEffect i s t := by
  rw [frame]
  exact ⟨rfl, .update own live step⟩

theorem assocSet_assocSet {β : Type} (k : Nat) (u v : β) (l : List (Nat × β)) :
    assocSet k v (assocSet k u l) = assocSet k v l := by
  induction l with
  | nil => simp [assocSet]
  | cons p l ih =>
    obtain ⟨j, w⟩ := p
    rcases Nat.lt_trichotomy k j with h | rfl | h
    · simp [assocSet, h]
    · simp [assocSet]
    · simp [assocSet, ih, Nat.not_lt.mpr h.le, h.ne']

/-! ### The parts of the commands -/

theorem slotWrite_ok {st : RbState} {slot : Nat} {rec : List Byte} {s t : State} (h : slotWrite st slot rec s = .ok t) :
    t = { s with mem := t.mem } := by
  obtain ⟨s1, h1, h⟩ := bind_ok h
  obtain ⟨-, rfl⟩ := memWrite_ok h1
  split at h
  · obtain ⟨-, rfl⟩ := memWrite_ok h
    rfl
  · cases h
    rfl

theorem putRecords_ok {st : RbState} {count slot : Nat} {bs : List Byte} {s t : State}
    (h : putRecords st count slot bs s = .ok t) : t = { s with mem := t.mem } := by
  induction count generalizing slot bs s with
  | zero => cases h; rfl
  | succ count ih =>
    obtain ⟨s1, h1, h⟩ := bind_ok h
    have hs := ih h
    rw [slotWrite_ok h1] at hs
    exact hs

theorem readCoefficients_ok {s : State} {maxc : Nat} {c : List F32} (h : readCoefficients s maxc = .ok c) :
    1 ≤ c.length ∧ c.length ≤ maxc := by
  obtain ⟨_, _, h⟩ := bind_ok h
  obtain ⟨_, hn, h⟩ := bind_ok h
  obtain ⟨_, _, h⟩ := bind_ok h
  obtain ⟨-, -, hlen⟩ := readSamples_ok h
  have := require_ok hn
  omega

/-! ### The ring buffer unit -/

theorem rbCreate_ok {s t : State} (h : rbCreate s = .ok t) : CommandEffect .rbCreate s t := by
  obtain ⟨⟨hdl, s1⟩, h1, h⟩ := bind_ok h
  obtain ⟨hb, hv, -, hf, hc, rfl, rfl⟩ := createInstance_ok h1
  obtain ⟨s2, h2, h⟩ := bind_ok h
  obtain ⟨hd, rfl⟩ := memZero_ok h2
  cases h
  exact ⟨rfl, .create (.inl rfl) rfl hb hf hc (.rb hv hd)⟩

theorem rbClear_ok {s t : State} (h : rbClear s = .ok t) : CommandEffect .rbClear s t := by
  obtain ⟨⟨x, st⟩, hx, h⟩ := bind_ok h
  obtain ⟨s1, h1, h⟩ := bind_ok h
  obtain ⟨-, rfl⟩ := memZero_ok h1
  cases h
  obtain ⟨live, hu⟩ := checkHandle_ok.mp hx
  exact .of_update rfl live (asRb_eq_some.mp hu ▸ .rbClear st) rfl

theorem rbPut_ok {s t : State} (h : rbPut s = .ok t) : CommandEffect .rbPut s t := by
  obtain ⟨⟨x, st⟩, hx, h⟩ := bind_ok h
  obtain ⟨_, _, h⟩ := bind_ok h
  obtain ⟨_, _, h⟩ := bind_ok h
  obtain ⟨_, _, h⟩ := bind_ok h
  obtain ⟨recs, _, h⟩ := bind_ok h
  obtain ⟨s1, h1, h⟩ := bind_ok h
  rw [putRecords_ok h1] at h
  cases h
  obtain ⟨live, hu⟩ := checkHandle_ok.mp hx
  exact .of_update rfl live (asRb_eq_some.mp hu ▸ .rbPut st (s.arg 2)) rfl

theorem rbPeek_ok {s t : State} (h : rbPeek s = .ok t) : CommandEffect .rbPeek s t := by
  obtain ⟨_, _, h⟩ := bind_ok h
  obtain ⟨_, _, h⟩ := bind_ok h
  cases h
  exact .answer ..

theorem rbGet_ok {s t : State} (h : rbGet s = .ok t) : CommandEffect .rbGet s t := by
  obtain ⟨⟨x, st⟩, hx, h⟩ := bind_ok h
  obtain ⟨_, _, h⟩ := bind_ok h
  cases h
  obtain ⟨live, hu⟩ := checkHandle_ok.mp hx
  exact .of_update rfl live (asRb_eq_some.mp hu ▸ .rbGet st (s.arg 1)) rfl

theorem rbDpeek_ok {s t : State} (h : rbDpeek s = .ok t) : CommandEffect .rbDpeek s t := by
  obtain ⟨_, _, h⟩ := bind_ok h
  obtain ⟨_, _, h⟩ := bind_ok h
  obtain ⟨_, _, h⟩ := bind_ok h
  obtain ⟨_, _, h⟩ := bind_ok h
  cases h
  exact .answer ..

/-! ### The FFT unit -/

theorem fftCommand_ok {kind : FftKind} {i : Instr} {s t : State} (h : fftCommand kind s = .ok t) : CommandEffect i s t := by
  obtain ⟨_, _, h⟩ := bind_ok h
  obtain ⟨_, _, h⟩ := bind_ok h
  obtain ⟨_, _, h⟩ := bind_ok h
  obtain ⟨_, _, h⟩ := bind_ok h
  obtain ⟨_, _, h⟩ := bind_ok h
  obtain ⟨v, _, h⟩ := bind_ok h
  obtain ⟨s1, h1, h⟩ := bind_ok h
  obtain ⟨-, rfl⟩ := memWrite_ok h1
  obtain ⟨s2, h2, h⟩ := bind_ok h
  obtain ⟨-, rfl⟩ := memHavoc_ok h2
  cases h
  exact ⟨rfl, .keep⟩

/-! ### The Karatsuba convolver -/

theorem kcCreate_ok {s t : State} (h : kcCreate s = .ok t) : CommandEffect .kcCreate s t := by
  obtain ⟨⟨hdl, s1⟩, h1, h⟩ := bind_ok h
  obtain ⟨hb, hv, -, hf, hc, rfl, rfl⟩ := createInstance_ok h1
  cases h
  exact ⟨rfl, .create (.inr (.inl rfl)) rfl hb hf hc (.kc hv)⟩

theorem kcResetCommand_ok {s t : State} (h : kcResetCommand s = .ok t) : CommandEffect .kcReset s t := by
  obtain ⟨⟨x, st⟩, hx, h⟩ := bind_ok h
  cases h
  obtain ⟨live, hu⟩ := checkHandle_ok.mp hx
  exact .of_update rfl live (asKc_eq_some.mp hu ▸ .kcReset st) rfl

theorem kcSetcoef_ok {s t : State} (h : kcSetcoef s = .ok t) : CommandEffect .kcSetcoef s t := by
  obtain ⟨⟨x, st⟩, hx, h⟩ := bind_ok h
  obtain ⟨c, hc, h⟩ := bind_ok h
  cases h
  obtain ⟨live, hu⟩ := checkHandle_ok.mp hx
  obtain ⟨pos, le⟩ := readCoefficients_ok hc
  exact .of_update rfl live (asKc_eq_some.mp hu ▸ .kcSetcoef pos le) rfl

theorem kcConvolveCommand_ok {s t : State} (h : kcConvolveCommand s = .ok t) : CommandEffect .kcConvolve s t := by
  obtain ⟨⟨x, st⟩, hx, h⟩ := bind_ok h
  obtain ⟨_, _, h⟩ := bind_ok h
  split at h
  · cases h
    exact .answer ..
  · obtain ⟨xs, _, h⟩ := bind_ok h
    obtain ⟨s1, h1, h⟩ := bind_ok h
    obtain ⟨-, rfl⟩ := memWrite_ok h1
    cases h
    obtain ⟨live, hu⟩ := checkHandle_ok.mp hx
    exact .of_update rfl live (asKc_eq_some.mp hu ▸ .kcConvolve st xs) rfl

/-! ### The partitioned convolver -/

theorem pcCreate_ok {s t : State} (h : pcCreate s = .ok t) : CommandEffect .pcCreate s t := by
  obtain ⟨⟨hdl, s1⟩, h1, h⟩ := bind_ok h
  obtain ⟨hb, hv, -, hf, hc, rfl, rfl⟩ := createInstance_ok h1
  obtain ⟨_, h2, h⟩ := bind_ok h
  obtain ⟨st, h3, h⟩ := bind_ok h
  cases h
  refine ⟨rfl, ?_⟩
  simp only [State.complete_insts, State.setInstance_insts, assocSet_assocSet]
  exact .create (.inr (.inr (.inl rfl))) rfl hb hf hc (.pc hv (touchRings_ok.mp h2) (orInternal_ok h3))

theorem pcResetCommand_ok {s t : State} (h : pcResetCommand s = .ok t) : CommandEffect .pcReset s t := by
  obtain ⟨⟨x, st⟩, hx, h⟩ := bind_ok h
  obtain ⟨_, _, h⟩ := bind_ok h
  obtain ⟨st', h1, h⟩ := bind_ok h
  cases h
  obtain ⟨live, hu⟩ := checkHandle_ok.mp hx
  exact .of_update rfl live (asPc_eq_some.mp hu ▸ .pcReset (orInternal_ok h1)) rfl

theorem pcSetcoef_ok {s t : State} (h : pcSetcoef s = .ok t) : CommandEffect .pcSetcoef s t := by
  obtain ⟨⟨x, st⟩, hx, h⟩ := bind_ok h
  obtain ⟨c, hc, h⟩ := bind_ok h
  obtain ⟨_, _, h⟩ := bind_ok h
  obtain ⟨st', h1, h⟩ := bind_ok h
  cases h
  obtain ⟨live, hu⟩ := checkHandle_ok.mp hx
  obtain ⟨pos, le⟩ := readCoefficients_ok hc
  exact .of_update rfl live (asPc_eq_some.mp hu ▸ .pcSetcoef pos le (orInternal_ok h1)) rfl

theorem pcConvolveCommand_ok {s t : State} (h : pcConvolveCommand s = .ok t) : CommandEffect .pcConvolve s t := by
  obtain ⟨⟨x, st⟩, hx, h⟩ := bind_ok h
  obtain ⟨_, _, h⟩ := bind_ok h
  obtain ⟨xs, _, h⟩ := bind_ok h
  obtain ⟨_, _, h⟩ := bind_ok h
  obtain ⟨r, h1, h⟩ := bind_ok h
  obtain ⟨s1, h2, h⟩ := bind_ok h
  obtain ⟨-, rfl⟩ := memWrite_ok h2
  cases h
  obtain ⟨live, hu⟩ := checkHandle_ok.mp hx
  exact .of_update rfl live (asPc_eq_some.mp hu ▸ .pcConvolve (orInternal_ok h1)) rfl

/-! ### The hybrid convolver -/

theorem hcCreate_ok {s t : State} (h : hcCreate s = .ok t) : CommandEffect .hcCreate s t := by
  obtain ⟨⟨hdl, s1⟩, h1, h⟩ := bind_ok h
  obtain ⟨hb, hv, -, hf, hc, rfl, rfl⟩ := createInstance_ok h1
  obtain ⟨_, h2, h⟩ := bind_ok h
  obtain ⟨st, h3, h⟩ := bind_ok h
  cases h
  refine ⟨rfl, ?_⟩
  simp only [State.complete_insts, State.setInstance_insts, assocSet_assocSet]
  exact .create (.inr (.inr (.inr rfl))) rfl hb hf hc (.hc hv (touchRings_ok.mp h2) (orInternal_ok h3))

theorem hcResetCommand_ok {s t : State} (h : hcResetCommand s = .ok t) : CommandEffect .hcReset s t := by
  obtain ⟨⟨x, st⟩, hx, h⟩ := bind_ok h
  obtain ⟨_, _, h⟩ := bind_ok h
  obtain ⟨st', h1, h⟩ := bind_ok h
  cases h
  obtain ⟨live, hu⟩ := checkHandle_ok.mp hx
  exact .of_update rfl live (asHc_eq_some.mp hu ▸ .hcReset (orInternal_ok h1)) rfl

theorem hcSetcoef_ok {s t : State} (h : hcSetcoef s = .ok t) : CommandEffect .hcSetcoef s t := by
  obtain ⟨⟨x, st⟩, hx, h⟩ := bind_ok h
  obtain ⟨c, hc, h⟩ := bind_ok h
  obtain ⟨_, _, h⟩ := bind_ok h
  obtain ⟨st', h1, h⟩ := bind_ok h
  cases h
  obtain ⟨live, hu⟩ := checkHandle_ok.mp hx
  obtain ⟨pos, le⟩ := readCoefficients_ok hc
  exact .of_update rfl live (asHc_eq_some.mp hu ▸ .hcSetcoef pos le (orInternal_ok h1)) rfl

theorem hcConvolveCommand_ok {s t : State} (h : hcConvolveCommand s = .ok t) : CommandEffect .hcConvolve s t := by
  obtain ⟨⟨x, st⟩, hx, h⟩ := bind_ok h
  obtain ⟨_, _, h⟩ := bind_ok h
  split at h
  · cases h
    exact .answer ..
  · obtain ⟨xs, _, h⟩ := bind_ok h
    obtain ⟨_, _, h⟩ := bind_ok h
    obtain ⟨r, h1, h⟩ := bind_ok h
    obtain ⟨s1, h2, h⟩ := bind_ok h
    obtain ⟨-, rfl⟩ := memWrite_ok h2
    cases h
    obtain ⟨live, hu⟩ := checkHandle_ok.mp hx
    exact .of_update rfl live (asHc_eq_some.mp hu ▸ .hcConvolve (orInternal_ok h1)) rfl

/-! ### Every command -/

theorem command_ok {i : Instr} {s t : State} (h : command i s = .ok t) : CommandEffect i s t := by
  cases i with
  | rbWorksize => exact .of_require h
  | rbCreate => exact rbCreate_ok h
  | rbDestroy => exact .of_destroy rfl h
  | rbClear => exact rbClear_ok h
  | rbPut => exact rbPut_ok h
  | rbPeek => exact rbPeek_ok h
  | rbGet => exact rbGet_ok h
  | rbDpeek => exact rbDpeek_ok h
  | rbRemain => exact .of_query h
  | rbFree => exact .of_query h
  | fftCplx => exact fftCommand_ok h
  | fftReal => exact fftCommand_ok h
  | kcWorksize => exact .of_require h
  | kcCreate => exact kcCreate_ok h
  | kcDestroy => exact .of_destroy rfl h
  | kcReset => exact kcResetCommand_ok h
  | kcSetcoef => exact kcSetcoef_ok h
  | kcConvolve => exact kcConvolveCommand_ok h
  | kcGetlat => exact .of_query h
  | pcWorksize => exact .of_require h
  | pcCreate => exact pcCreate_ok h
  | pcDestroy => exact .of_destroy rfl h
  | pcReset => exact pcResetCommand_ok h
  | pcSetcoef => exact pcSetcoef_ok h
  | pcConvolve => exact pcConvolveCommand_ok h
  | pcGetlat => exact .of_query h
  | hcWorksize => exact .of_require h
  | hcCreate => exact hcCreate_ok h
  | hcDestroy => exact .of_destroy rfl h
  | hcReset => exact hcResetCommand_ok h
  | hcSetcoef => exact hcSetcoef_ok h
  | hcConvolve => exact hcConvolveCommand_ok h
  | hcGetlat => exact .of_query h

/-- A command that ends in a next state has had its effect, or has failed and written STATUS and RES alone (R37). -/
theorem exec_next {i : Instr} {s t : State} (h : exec i s = .next t) : CommandEffect i s t ∨ ∃ c, t = s.raise c := by
  rw [exec_eq_finish] at h
  rcases finish_next h with h | ⟨c, -, rfl⟩
  · exact .inl (command_ok h)
  · exact .inr ⟨c, rfl⟩

end Sys2Proof.Proofs
end

section
/-! SUPPORT. The statements about every command: the frame of a command and of its failure (10_state.md R32, R37, R38, R45). -/
namespace Sys2Proof.Proofs
open Sys2Proof.Machine Sys2Proof.Safety

/-- STATUS as each code leaves it is 0 in bits 31:8 and holds a code of R400. -/
theorem statusOk_of_statusWord {s : State} {c : StatusCode} (h : s.status = statusWord c) : StatusOk s := by
  simp only [StatusOk, State.code, h]
  cases c <;> decide

/-- The fields no command writes. -/
theorem exec_frame {i : Instr} {s t : State} (h : exec i s = .next t) :
    t = { s with status := t.status, res := t.res, mem := t.mem, draws := t.draws, insts := t.insts } := by
  rcases exec_next h with he | ⟨c, rfl⟩
  · rw [he.frame]
  · rfl

/-- Settles O15: a success has code 0, and a failure is `State.raise`. -/
theorem failingCommandChangesNothingElse : Obligations.FailingCommandChangesNothingElse := by
  unfold Obligations.FailingCommandChangesNothingElse
  intro i s t h hcode
  rcases exec_next h with he | ⟨c, rfl⟩
  · exact absurd (by rw [State.code, he.frame]; rfl) hcode
  · rfl

/-- Settles O17. -/
theorem commandsKeepTheHostSide : Obligations.CommandsKeepTheHostSide := by
  unfold Obligations.CommandsKeepTheHostSide
  refine fun i s => ⟨fun t h => ?_, fun r => ?_⟩
  · rw [exec_frame h]
    exact ⟨rfl, rfl, rfl, rfl, rfl, rfl⟩
  · rw [exec_eq_finish]
    exact finish_not_refused s _ r

/-- No command changes the configuration of an instance (R45). -/
theorem UnitStep.configOf_eq {s : State} {u v : UnitState} (h : UnitStep s u v) : configOf v = configOf u := by
  cases h with
  | rbClear => rfl
  | rbPut => rfl
  | rbGet => rfl
  | kcReset => rfl
  | kcSetcoef => rfl
  | kcConvolve => rfl
  | pcReset run =>
    have same := pcReset_same run
    simp only [configOf, same.maxc, same.maxin, same.f]
  | pcSetcoef _ _ run =>
    obtain ⟨hmaxc, hmaxin, hf⟩ := pcSetCoefficients_config run
    simp only [configOf, hmaxc, hmaxin, hf]
  | pcConvolve run =>
    have same := pcConvolve_same run
    simp only [configOf, same.maxc, same.maxin, same.f]
  | hcReset run =>
    have same := hcReset_same run
    simp only [configOf, same.maxc, same.maxin, same.f, same.t]
  | hcSetcoef _ _ run =>
    have same := hcSetCoefficients_same run
    simp only [configOf, same.maxc, same.maxin, same.f, same.t]
  | hcConvolve run =>
    have same := hcConvolve_same run
    simp only [configOf, same.maxc, same.maxin, same.f, same.t]

/-- Every command leaves the instances at other handles alone. -/
theorem SetEffect.other {i : Instr} {s : State} {l : List (Nat × Instance)} (h : SetEffect i s l) {hdl : Nat}
    (other : ownHandle i s ≠ some hdl) : assocGet hdl l = assocGet hdl s.insts := by
  cases h with
  | keep => rfl
  | create op own =>
    exact assocGet_set_other (fun e => other (own.trans (congrArg some e.symm))) ..
  | destroy own =>
    rw [assocGet_drop, if_neg]
    rintro ⟨h1, h2⟩
    exact other (own.trans (congrArg some (by omega)))
  | update own => exact assocGet_set_other (fun e => other (own.trans (congrArg some e.symm))) ..

/-- Of an instance that lives on, only a CREATE changes the arena, the unit or the configuration. -/
theorem SetEffect.config {i : Instr} {s : State} {l : List (Nat × Instance)} (h : SetEffect i s l)
    (op : ¬(i = .rbCreate ∨ i = .kcCreate ∨ i = .pcCreate ∨ i = .hcCreate)) {hdl : Nat} {x y : Instance}
    (hx : assocGet hdl s.insts = some x) (hy : assocGet hdl l = some y) :
    y.buf = x.buf ∧ y.ws = x.ws ∧ configOf y.unit = configOf x.unit := by
  by_cases other : ownHandle i s ≠ some hdl
  · rw [h.other other, hx] at hy
    cases hy
    exact ⟨rfl, rfl, rfl⟩
  · have own := not_not.mp other
    cases h with
    | keep =>
      rw [hx] at hy
      cases hy
      exact ⟨rfl, rfl, rfl⟩
    | create op' => exact absurd op' op
    | destroy own' =>
      cases own'.symm.trans own
      rw [assocGet_drop, if_pos (by omega)] at hy
      cases hy
    | update own' live step =>
      cases own'.symm.trans own
      rw [assocGet_set_same] at hy
      rw [hx] at live
      cases hy
      cases live
      exact ⟨rfl, rfl, step.configOf_eq⟩

/-- Settles O19. -/
theorem commandsLeaveOtherInstances : Obligations.CommandsLeaveOtherInstances := by
  unfold Obligations.CommandsLeaveOtherInstances
  intro i s t h
  have hset : SetEffect i s t.insts := by
    rcases exec_next h with he | ⟨c, rfl⟩
    · exact he.insts
    · exact .keep
  refine ⟨fun hdl other => hset.other other, fun h1 h2 h3 h4 hdl x y hx hy => hset.config ?_ hx hy⟩
  rintro (h | h | h | h)
  exacts [h1 h, h2 h, h3 h, h4 h]

end Sys2Proof.Proofs
end

section
/-! SUPPORT. The host's actions and the step: which port an access selects, what a step can do (10_state.md R31 to R36, R100
to R105, R440), and the statements about registers. -/
namespace Sys2Proof.Proofs
open Sys2Proof.Machine Sys2Proof.Safety

/-! ### What a step can do -/

/-- What one action of the host can do to STATUS, the instance set and the platform: it keeps all three, it resets the block
(R440), it writes an illegal word to CMD (R106), or it runs a command in a state that has the same three. -/
inductive ActionEffect (s : State) : State → Prop
  | keep {t : State} (status : t.status = s.status) (insts : t.insts = s.insts) (plat : t.plat = s.plat) :
      ActionEffect s t
  | reset : ActionEffect s (blockReset s)
  | illegal {w : Word32} : ActionEffect s (({ s with cmd := w, owner := none } : State).raise .illegalCommand)
  | command {w : Word32} {i : Instr} {t : State} (run : exec i { s with cmd := w, owner := none } = .next t) :
      ActionEffect s t

theorem issueCommand_next {w : Word32} {s t : State} (h : issueCommand w s = .next t) : ActionEffect s t := by
  unfold issueCommand at h
  split at h
  · exact .command h
  · cases h
    exact .illegal

theorem regWrite_next {agent : Nat} {data : List Byte} {s t : State} {port : RegPort}
    (h : regWrite agent data s port = .next t) : ActionEffect s t := by
  cases port with
  | cmd =>
    simp only [regWrite] at h
    split at h
    · cases h
    · exact issueCommand_next h
  | arg i =>
    simp only [regWrite] at h
    split at h
    · cases h
    · cases h
      exact .keep rfl rfl rfl
  | argHalf i high =>
    simp only [regWrite] at h
    split at h
    · cases h
    · cases h
      exact .keep rfl rfl rfl
  | status => cases h; exact .keep rfl rfl rfl
  | res => cases h; exact .keep rfl rfl rfl
  | resHalf high => cases h; exact .keep rfl rfl rfl
  | reserved => cases h; exact .keep rfl rfl rfl

theorem hostRead_next {addr len : Nat} {s t : State} (h : hostRead addr len s = .next t) : ActionEffect s t := by
  unfold hostRead at h
  split at h
  · split at h
    · cases h
      exact .keep rfl rfl rfl
    · cases h
  · split at h
    · cases h
      exact .keep rfl rfl rfl
    · cases h

theorem hostWrite_next {agent addr : Nat} {data : List Byte} {s t : State} (h : hostWrite agent addr data s = .next t) :
    ActionEffect s t := by
  unfold hostWrite at h
  split at h
  · split at h
    · exact regWrite_next h
    · cases h
  · split at h
    · cases h
    · split at h
      · cases h
        exact .keep rfl rfl rfl
      · cases h

theorem hostStep_next {act : HostAction} {s t : State} (h : hostStep act s = .next t) : ActionEffect s t := by
  cases act with
  | read addr width => exact hostRead_next h
  | write agent addr data => exact hostWrite_next h
  | reset => cases h; exact .reset

/-- A step that goes on: an action's effect on a state with this one's STATUS, instance set and platform. -/
theorem step_next {s t : State} (h : step s = .next t) :
    ∃ s1 : State, s1.status = s.status ∧ s1.insts = s.insts ∧ s1.plat = s.plat ∧ ActionEffect s1 t := by
  unfold step stepHost at h
  split at h
  · cases h
    exact ⟨s, rfl, rfl, rfl, .keep rfl rfl rfl⟩
  · rename_i rest _
    exact ⟨{ s with inputs := rest }, rfl, rfl, rfl, hostStep_next h⟩

theorem ActionEffect.plat_eq {s t : State} (h : ActionEffect s t) : t.plat = s.plat := by
  cases h with
  | keep _ _ plat => exact plat
  | reset => rfl
  | illegal => rfl
  | command run => rw [exec_frame run]

theorem ActionEffect.statusOk {s t : State} (h : ActionEffect s t) (hs : StatusOk s) : StatusOk t := by
  cases h with
  | keep status => rwa [StatusOk, State.code, status]
  | reset => exact statusOk_of_statusWord (c := .ok) rfl
  | illegal => exact statusOk_of_statusWord rfl
  | command run =>
    rcases exec_next run with he | ⟨c, rfl⟩
    · exact statusOk_of_statusWord (c := .ok) (by rw [he.frame]; rfl)
    · exact statusOk_of_statusWord rfl

/-- What a step can do to the instance set: nothing, empty it, or have a command's effect on it. -/
theorem step_insts {s t : State} (h : step s = .next t) :
    t.insts = s.insts ∨ t.insts = [] ∨
      ∃ (i : Instr) (s1 : State), s1.insts = s.insts ∧ s1.plat = s.plat ∧ SetEffect i s1 t.insts := by
  obtain ⟨s1, -, insts, plat, h1⟩ := step_next h
  cases h1 with
  | keep _ h2 => exact .inl (h2.trans insts)
  | reset => exact .inr (.inl rfl)
  | illegal => exact .inl insts
  | @command w i _ run =>
    rcases exec_next run with he | ⟨c, rfl⟩
    · exact .inr (.inr ⟨i, { s1 with cmd := w, owner := none }, insts, plat, he.insts⟩)
    · exact .inl insts

theorem step_plat {s t : State} (h : step s = .next t) : t.plat = s.plat := by
  obtain ⟨s1, -, -, plat, h1⟩ := step_next h
  exact h1.plat_eq.trans plat

/-- Settles O56. -/
theorem statusStaysLegal : Obligations.StatusStaysLegal := by
  unfold Obligations.StatusStaysLegal
  refine fun s t h => ⟨fun hs => ?_, step_plat h⟩
  obtain ⟨s1, status, -, -, h1⟩ := step_next h
  exact h1.statusOk (by rwa [StatusOk, State.code, status])

end Sys2Proof.Proofs
end

section
/-! SUPPORT. The invariants of the instance set and of the convolvers (10_state.md R38 to R44, R80, R89, R262, R371). -/
namespace Sys2Proof.Proofs
open Sys2Proof.Machine Sys2Proof.Safety

/-! ### One instance -/

/-- The work size, validity and the places of the rings are functions of the configuration, whose tag rules out two states of
different units. -/
theorem sizes_of_config {u v : UnitState} (h : configOf v = configOf u) :
    workSize v = workSize u ∧ (∀ fftMaxN, validUnit fftMaxN v = validUnit fftMaxN u) ∧
      ∀ hdl, internalRings hdl v = internalRings hdl u := by
  cases u <;> cases v <;> simp_all [configOf, workSize, validUnit, internalRings]

/-- No command moves a cursor out of its ring, or a ring out of MEM. -/
theorem UnitStep.cursorsOk {s : State} {u v : UnitState} (h : UnitStep s u v) {p : Platform} {hdl : Nat}
    (hc : cursorsOk p hdl u) : cursorsOk p hdl v := by
  have rings := (sizes_of_config h.configOf_eq).2.2 hdl
  cases h with
  | rbClear st =>
    obtain ⟨-, -, hd, hb⟩ := hc
    exact ⟨Nat.succ_pos _, Nat.succ_pos _, hd, hb⟩
  | rbPut st n =>
    obtain ⟨hr, -, hd, hb⟩ := hc
    exact ⟨hr, Nat.mod_lt _ (Nat.succ_pos _), hd, hb⟩
  | rbGet st n =>
    obtain ⟨-, hw, hd, hb⟩ := hc
    exact ⟨Nat.mod_lt _ (Nat.succ_pos _), hw, hd, hb⟩
  | kcReset => trivial
  | kcSetcoef => trivial
  | kcConvolve => trivial
  | pcReset => exact (congrArg (allBacked p) rings).trans hc
  | pcSetcoef => exact (congrArg (allBacked p) rings).trans hc
  | pcConvolve => exact (congrArg (allBacked p) rings).trans hc
  | hcReset => exact (congrArg (allBacked p) rings).trans hc
  | hcSetcoef => exact (congrArg (allBacked p) rings).trans hc
  | hcConvolve => exact (congrArg (allBacked p) rings).trans hc

theorem UnitStep.instanceOk {s : State} {x : Instance} {u : UnitState} (h : UnitStep s x.unit u) {p : Platform} {hdl : Nat}
    (hx : InstanceOk p hdl x) : InstanceOk p hdl { x with unit := u } := by
  obtain ⟨hws, hvalid, -⟩ := sizes_of_config h.configOf_eq
  exact
    { hx with
      ws_eq := hx.ws_eq.trans hws.symm
      valid := (hvalid _).trans hx.valid
      cursors := h.cursorsOk hx.cursors }

/-- What a CREATE installs has the work size it was given room for, and is sound. -/
theorem FreshUnit.sound {s : State} {hdl ws : Nat} {u : UnitState} (h : FreshUnit s hdl ws u) :
    ws = workSize u ∧ validUnit s.plat.fftMaxN u = true ∧ cursorsOk s.plat hdl u := by
  cases h with
  | rb valid backed => exact ⟨rfl, valid, Nat.succ_pos _, Nat.succ_pos _, rfl, backed⟩
  | kc valid => exact ⟨rfl, valid, trivial⟩
  | @pc maxc maxin f st valid backed reset =>
    obtain ⟨hws, hvalid, rings⟩ := sizes_of_config (UnitStep.pcReset reset).configOf_eq
    exact ⟨hws.symm, (hvalid _).trans valid, (congrArg (allBacked s.plat) (rings hdl)).trans backed⟩
  | @hc maxc maxin f t st valid backed reset =>
    obtain ⟨hws, hvalid, rings⟩ := sizes_of_config (UnitStep.hcReset reset).configOf_eq
    exact ⟨hws.symm, (hvalid _).trans valid, (congrArg (allBacked s.plat) (rings hdl)).trans backed⟩

theorem FreshUnit.instanceOk {s : State} {buf ws : Nat} {u : UnitState} (h : FreshUnit s (align16 buf) ws u)
    (buf_ne : buf ≠ 0) (fits : buf + ws ≤ addrLimit) :
    InstanceOk s.plat (align16 buf) { buf := buf, ws := ws, unit := u } := by
  obtain ⟨hws, hvalid, hcursors⟩ := h.sound
  exact ⟨buf_ne, rfl, hws, hvalid, fits, hcursors⟩

/-! ### The instance set -/

theorem rangesMeet_comm (a n b m : Nat) : rangesMeet a n b m = rangesMeet b m a n := by
  rw [Bool.eq_iff_iff, rangesMeet_iff, rangesMeet_iff]
  exact exists_congr fun x => and_comm

theorem rangesMeet_of_meetsArena {s : State} {a n : Nat} (h : s.meetsArena a n = false) {q : Nat × Instance}
    (hq : q ∈ s.insts) : rangesMeet a n q.2.buf q.2.ws = false := by
  simpa using List.any_eq_false.mp h q hq

/-- Setting a key keeps what holds of every two entries, if it holds of the new entry and those at other keys. -/
theorem pairwise_assocSet {β : Type} {R : Nat × β → Nat × β → Prop} {k : Nat} {v : β} {l : List (Nat × β)}
    (rising : assocRising l) (hl : l.Pairwise R) (hk : ∀ q ∈ l, q.1 ≠ k → R (k, v) q ∧ R q (k, v)) :
    (assocSet k v l).Pairwise R := by
  induction l with
  | nil => exact List.pairwise_singleton ..
  | cons p l ih =>
    obtain ⟨j, u⟩ := p
    obtain ⟨hhead, htail⟩ := List.pairwise_cons.mp hl
    obtain ⟨above, rising'⟩ := List.pairwise_cons.mp rising
    have above' (q) (hq : q ∈ l) : j < q.1 := above q.1 (List.mem_map_of_mem hq)
    unfold assocSet
    split
    · rename_i hkj
      refine List.pairwise_cons.mpr ⟨fun q hq => ?_, hl⟩
      refine (hk q hq ?_).1
      rcases List.mem_cons.mp hq with rfl | hq
      · exact hkj.ne'
      · exact (hkj.trans (above' q hq)).ne'
    · split
      · rename_i hkj
        subst hkj
        exact List.pairwise_cons.mpr
          ⟨fun q hq => (hk q (List.mem_cons_of_mem _ hq) (above' q hq).ne').1, htail⟩
      · rename_i hkj
        refine List.pairwise_cons.mpr ⟨fun q hq => ?_, ih rising' htail fun q hq => hk q (List.mem_cons_of_mem _ hq)⟩
        rcases mem_assocSet hq with rfl | hq
        · exact (hk (j, u) List.mem_cons_self (Ne.symm hkj)).2
        · exact hhead q hq

/-- Two entries of a sound instance set at different handles share no byte. -/
theorem disjoint_of_instancesOk {s : State} (h : InstancesOk s) {p q : Nat × Instance} (hp : p ∈ s.insts)
    (hq : q ∈ s.insts) (hne : p.1 ≠ q.1) : rangesMeet p.2.buf p.2.ws q.2.buf q.2.ws = false := by
  have : Std.Symm fun p q : Nat × Instance => rangesMeet p.2.buf p.2.ws q.2.buf q.2.ws = false :=
    ⟨fun _ _ h => (rangesMeet_comm ..).trans h⟩
  exact h.disjoint.forall hp hq (mt (congrArg Prod.fst) hne)

/-- An instance that is sound, and apart from every arena at another handle, may be set. -/
theorem instancesOk_assocSet {s : State} (h : InstancesOk s) {hdl : Nat} {x : Instance} (hx : InstanceOk s.plat hdl x)
    (apart : ∀ q ∈ s.insts, q.1 ≠ hdl → rangesMeet x.buf x.ws q.2.buf q.2.ws = false) :
    InstancesOk { s with insts := assocSet hdl x s.insts } where
  rising := assocRising_set _ _ h.rising
  each := by
    intro p hp
    rcases mem_assocSet hp with rfl | hp
    · exact hx
    · exact h.each p hp
  disjoint := pairwise_assocSet h.rising h.disjoint fun q hq hne =>
    ⟨apart q hq hne, (rangesMeet_comm ..).trans (apart q hq hne)⟩

theorem SetEffect.instancesOk {i : Instr} {s : State} {l : List (Nat × Instance)} (h : SetEffect i s l)
    (hs : InstancesOk s) : InstancesOk { s with insts := l } := by
  cases h with
  | keep => exact hs
  | create _ _ buf_ne fits clear fresh =>
    exact instancesOk_assocSet hs (fresh.instanceOk buf_ne fits) fun q hq _ => rangesMeet_of_meetsArena clear hq
  | destroy =>
    exact
      { rising := assocRising_drop _ _ hs.rising
        each := fun p hp => hs.each p (List.mem_filter.mp hp).1
        disjoint := hs.disjoint.filter _ }
  | update _ live step =>
    have mem := mem_of_assocGet live
    exact instancesOk_assocSet hs (step.instanceOk (hs.each _ mem)) fun q hq hne =>
      disjoint_of_instancesOk hs mem hq hne.symm

/-- Settles O57. -/
theorem instanceSetStaysSound : Obligations.InstanceSetStaysSound := by
  unfold Obligations.InstanceSetStaysSound
  intro s t hs h
  have plat := step_plat h
  suffices InstancesOk { s with insts := t.insts } from
    ⟨this.rising, fun p hp => plat ▸ this.each p hp, this.disjoint⟩
  rcases step_insts h with h | h | ⟨i, s1, insts, plat, h⟩
  · rw [h]
    exact hs
  · rw [h]
    exact ⟨.nil, fun _ hp => absurd hp List.not_mem_nil, .nil⟩
  · have hs1 : InstancesOk s1 := ⟨insts ▸ hs.rising, fun p hp => plat ▸ hs.each p (insts ▸ hp), insts ▸ hs.disjoint⟩
    obtain ⟨rising, each, disjoint⟩ := h.instancesOk hs1
    exact ⟨rising, fun p hp => plat ▸ each p hp, disjoint⟩

/-! ### The convolvers -/

theorem UnitStep.convolverOk {s : State} {u v : UnitState} (h : UnitStep s u v) {fftMaxN : Nat}
    (hu : convolverOk fftMaxN u) : convolverOk fftMaxN v := by
  cases h with
  | rbClear => trivial
  | rbPut => trivial
  | rbGet => trivial
  | kcReset => exact kcReset_ok hu
  | kcSetcoef pos le => exact kcSetCoefficients_ok hu pos le
  | kcConvolve st xs => exact kcConvolve_ok hu xs
  | pcReset run => exact pcReset_ok (.of_pcOk hu) run
  | pcSetcoef pos le run => exact pcSetCoefficients_ok (.of_pcOk hu) pos le run
  | pcConvolve run => exact (pcConvolve_ok hu run).1
  | hcReset run => exact hcReset_ok (.of_hcOk hu) run
  | hcSetcoef pos le run => exact hcSetCoefficients_ok hu pos le run
  | hcConvolve run => exact hcConvolve_ok hu run

theorem FreshUnit.convolverOk {s : State} {hdl ws : Nat} {u : UnitState} (h : FreshUnit s hdl ws u) :
    convolverOk s.plat.fftMaxN u := by
  cases h with
  | rb => trivial
  | kc valid =>
    obtain ⟨hmaxc, hmaxin, -⟩ := (validKc_iff ..).mp valid
    exact kcFresh_ok hmaxc hmaxin
  | pc valid _ reset =>
    obtain ⟨hmaxc, hmaxin, hf, -⟩ := (validPc_iff ..).mp valid
    exact pcReset_ok (pcBlank_base hmaxc hmaxin ((validFftSize_iff ..).mpr hf)) reset
  | hc valid _ reset =>
    obtain ⟨hmaxc, hmaxin, hf, ht, -⟩ := (validHc_iff ..).mp valid
    exact hcReset_ok (hcBlank_base hmaxc hmaxin ((validFftSize_iff ..).mpr hf) ht) reset

/-- A command leaves every convolver well kept. -/
theorem SetEffect.convolversOk {i : Instr} {s : State} {l : List (Nat × Instance)} (h : SetEffect i s l)
    (hs : ConvolversOk s) : ∀ p ∈ l, convolverOk s.plat.fftMaxN p.2.unit := by
  intro p hp
  cases h with
  | keep => exact hs p hp
  | create _ _ _ _ _ fresh =>
    rcases mem_assocSet hp with rfl | hp
    · exact fresh.convolverOk
    · exact hs p hp
  | destroy => exact hs p (List.mem_filter.mp hp).1
  | update _ live step =>
    rcases mem_assocSet hp with rfl | hp
    · exact step.convolverOk (hs _ (mem_of_assocGet live))
    · exact hs p hp

/-- Settles O59. -/
theorem convolverStatesStaySound : Obligations.ConvolverStatesStaySound := by
  unfold Obligations.ConvolverStatesStaySound
  intro s t hs h p hp
  rw [step_plat h]
  rcases step_insts h with h | h | ⟨i, s1, insts, plat, h⟩
  · exact hs p (h ▸ hp)
  · rw [h] at hp
    exact absurd hp List.not_mem_nil
  · have hs1 : ConvolversOk s1 := fun q hq => plat ▸ hs q (insts ▸ hq)
    exact plat ▸ h.convolversOk hs1 p hp

/-! ### The reset state -/

/-- Settles O14. -/
theorem resetStateIsSound : Obligations.ResetStateIsSound := by
  unfold Obligations.ResetStateIsSound
  refine ⟨rfl, rfl, rfl, fun k hk => ?_, rfl, rfl, State.reset_mem_wf, statusOk_of_statusWord (c := .ok) rfl, ?_, ?_, ?_⟩
  · interval_cases k <;> rfl
  · exact ⟨.nil, fun _ hp => absurd hp List.not_mem_nil, .nil⟩
  · exact fun _ hp => absurd hp List.not_mem_nil
  · exact fun _ hp => absurd hp List.not_mem_nil

end Sys2Proof.Proofs
end

section
/-! SUPPORT. Host accesses to the register block (10_state.md R31 to R36): the bytes of a register, the port an access selects,
and the statements about register accesses and the issue of a command. -/
namespace Sys2Proof.Proofs
open Sys2Proof.Machine Sys2Proof.Safety

/-! ### The bytes of a register (R34, R72) -/

theorem bytesOfWord32_eq (w : Word32) : bytesOfWord32 w = bytesFrom w 0 4 := rfl

theorem bytesFrom_extractLsb' {w : Nat} (v : BitVec w) (lo : Nat) :
    bytesFrom (v.extractLsb' lo 32) 0 4 = bytesFrom v lo 4 := by
  refine List.map_congr_left fun k hk => ?_
  refine BitVec.eq_of_getLsbD_eq fun j hj => ?_
  have hlt : 8 * k + j < 32 := by have := List.mem_range.mp hk; omega
  simp only [BitVec.getLsbD_extractLsb', hj, hlt, decide_true, Bool.true_and, Nat.zero_add, Nat.add_assoc]

theorem bytesFrom_append {w : Nat} (v : BitVec w) (lo m n : Nat) :
    bytesFrom v lo (m + n) = bytesFrom v lo m ++ bytesFrom v (lo + 8 * m) n := by
  simp only [bytesFrom, List.range_add, List.map_append, List.map_map, Function.comp_def, Nat.mul_add, Nat.add_assoc]

theorem bytesOfWord64_eq (v : Word64) : bytesOfWord64 v = bytesFrom v 0 8 := by
  rw [bytesOfWord64, bytesOfWord32_eq, bytesOfWord32_eq, bytesFrom_extractLsb', bytesFrom_extractLsb']
  exact (bytesFrom_append v 0 4 4).symm

@[simp] theorem length_bytesFrom {w : Nat} (v : BitVec w) (lo count : Nat) : (bytesFrom v lo count).length = count := by
  simp [bytesFrom]

theorem natOfBytes_bytesFrom {w : Nat} (v : BitVec w) (lo count : Nat) :
    natOfBytes (bytesFrom v lo count) = v.toNat / 2 ^ lo % 2 ^ (8 * count) := by
  induction count generalizing lo with
  | zero => simp [bytesFrom, natOfBytes, Nat.mod_one]
  | succ count ih =>
    rw [Nat.add_comm count 1, bytesFrom_append]
    show (v.extractLsb' lo 8).toNat + 256 * natOfBytes (bytesFrom v (lo + 8) count) = _
    rw [ih, BitVec.extractLsb'_toNat, Nat.shiftRight_eq_div_pow, Nat.mul_add, pow_add 2 (8 * 1), Nat.mod_mul, pow_add 2 lo,
      Nat.div_div_eq_div_mul]
    rfl

theorem ofNat_natOfBytes_32 (w : Word32) : BitVec.ofNat 32 (natOfBytes (bytesFrom w 0 4)) = w := by
  rw [natOfBytes_bytesFrom, pow_zero, Nat.div_one, Nat.mod_eq_of_lt w.isLt, BitVec.ofNat_toNat, BitVec.setWidth_eq]

theorem ofNat_natOfBytes_64 (v : Word64) : BitVec.ofNat 64 (natOfBytes (bytesFrom v 0 8)) = v := by
  rw [natOfBytes_bytesFrom, pow_zero, Nat.div_one, Nat.mod_eq_of_lt v.isLt, BitVec.ofNat_toNat, BitVec.setWidth_eq]

theorem bytesOf_halfOf (v : Word64) (high : Bool) :
    bytesOfWord32 (halfOf v high) = bytesFrom v (if high then 32 else 0) 4 := by
  rw [bytesOfWord32_eq]
  cases high <;> exact bytesFrom_extractLsb' ..

/-! ### The port an access selects (R31, R34) -/

theorem regPort_arg {i : Nat} (h : i < 8) : regPort (0x10 + 8 * i) 8 = some (.arg i) := by
  interval_cases i <;> rfl

theorem regPort_argLow {i : Nat} (h : i < 8) : regPort (0x10 + 8 * i) 4 = some (.argHalf i false) := by
  interval_cases i <;> rfl

theorem regPort_argHigh {i : Nat} (h : i < 8) : regPort (0x10 + 8 * i + 4) 4 = some (.argHalf i true) := by
  interval_cases i <;> rfl

theorem regPort_reserved {off width : Nat} (h1 : 0x50 ≤ off) (h2 : off < 0x100) (hw : width = 4 ∨ width = 8)
    (halign : off % width = 0) : regPort off width = some .reserved := by
  unfold regPort
  rcases hw with rfl | rfl
  · rw [if_pos ⟨rfl, halign⟩, if_neg (by omega), if_neg (by omega), if_neg (by omega), if_neg (by omega), if_pos h2]
  · rw [if_neg (by omega), if_pos ⟨rfl, halign⟩, if_neg (by omega), if_neg (by omega), if_neg (by omega), if_pos h2]

/-- Only the listed accesses select a port. -/
theorem regPort_listed {off width : Nat} {port : RegPort} (h : regPort off width = some port) :
    off < 0x100 ∧ ((width = 4 ∧ off % 4 = 0) ∨ (width = 8 ∧ off % 8 = 0 ∧ 8 ≤ off)) := by
  unfold regPort at h
  split at h
  · rename_i h4
    refine ⟨?_, .inl h4⟩
    by_contra hoff
    rw [if_neg (by omega), if_neg (by omega), if_neg (by omega), if_neg (by omega), if_neg hoff] at h
    cases h
  · split at h
    · rename_i h8
      have hne : off ≠ 0 := by
        rintro rfl
        cases h
      refine ⟨?_, .inr ⟨h8.1, h8.2, by omega⟩⟩
      by_contra hoff
      rw [if_neg (by omega), if_neg (by omega), if_neg (by omega), if_neg hoff] at h
      cases h
    · cases h

theorem touchesRegs_iff (s : State) (addr len : Nat) : s.touchesRegs addr len = true ↔
    0 < len ∧ addr < s.plat.regBase + 0x100 ∧ s.plat.regBase < addr + len := by
  simp [State.touchesRegs, rangesMeet, and_assoc]

section
variable {s : State} {off : Nat} {port : RegPort}

/-- A read at an offset of the block that selects a port reads it. -/
theorem hostStep_read_port {width : Nat} (hport : regPort off width = some port) :
    hostStep (.read (s.plat.regBase + off) width) s = .next { s with readOut := regRead s width port } := by
  obtain ⟨hoff, hwidth⟩ := regPort_listed hport
  have htouch : s.touchesRegs (s.plat.regBase + off) width = true := (touchesRegs_iff ..).mpr (by omega)
  have hat : s.portAt (s.plat.regBase + off) width = some port := by
    rw [State.portAt, if_pos (Nat.le_add_right ..), Nat.add_sub_cancel_left, hport]
  simp only [hostStep, hostRead, htouch, hat, if_true]

/-- A write at an offset of the block that selects a port writes it. -/
theorem hostStep_write_port {data : List Byte} (agent : Nat) (hport : regPort off data.length = some port) :
    hostStep (.write agent (s.plat.regBase + off) data) s = regWrite agent data s port := by
  obtain ⟨hoff, hwidth⟩ := regPort_listed hport
  have htouch : s.touchesRegs (s.plat.regBase + off) data.length = true := (touchesRegs_iff ..).mpr (by omega)
  have hat : s.portAt (s.plat.regBase + off) data.length = some port := by
    rw [State.portAt, if_pos (Nat.le_add_right ..), Nat.add_sub_cancel_left, hport]
  simp only [hostStep, hostWrite, htouch, hat, if_true]

theorem ownedByOther_false {agent : Nat} (h : s.owner = none ∨ s.owner = some agent) : s.ownedByOther agent = false := by
  rcases h with h | h <;> simp [State.ownedByOther, h]

/-- The agent that may write an argument register sets it. -/
theorem regWrite_arg {agent i : Nat} (h : s.owner = none ∨ s.owner = some agent) (v : Word64) :
    regWrite agent (bytesFrom v 0 8) s (.arg i) = .next { s with args := s.args.set i v, owner := some agent } := by
  simp only [regWrite, ownedByOther_false h, ofNat_natOfBytes_64, Bool.false_eq_true, if_false]

theorem regWrite_argHalf {agent i : Nat} (h : s.owner = none ∨ s.owner = some agent) (high : Bool) (w : Word32) :
    regWrite agent (bytesFrom w 0 4) s (.argHalf i high) =
      .next { s with args := s.args.set i (withHalf (s.args.get i) high w), owner := some agent } := by
  simp only [regWrite, ownedByOther_false h, ofNat_natOfBytes_32, Bool.false_eq_true, if_false]

end

/-! ### The statements -/

/-- Settles O6: each access selects its register's port, and the port's bytes are the register's. -/
theorem registerReads : Obligations.RegisterReads := by
  unfold Obligations.RegisterReads
  intro s
  refine ⟨hostStep_read_port (off := 0) (port := .cmd) rfl, hostStep_read_port (port := .status) rfl, ?_, ?_, ?_, ?_, ?_⟩
  · rw [hostStep_read_port (port := .res) rfl, regRead, bytesOfWord64_eq]
  · rw [hostStep_read_port (port := .resHalf false) rfl, regRead, bytesOf_halfOf]
    rfl
  · rw [hostStep_read_port (port := .resHalf true) rfl, regRead, bytesOf_halfOf]
    rfl
  · intro i hi
    rw [Nat.add_assoc]
    refine ⟨?_, ?_, ?_⟩
    · rw [hostStep_read_port (regPort_arg hi), regRead, bytesOfWord64_eq]
    · rw [hostStep_read_port (regPort_argLow hi), regRead, bytesOf_halfOf]
      rfl
    · rw [Nat.add_assoc, hostStep_read_port (regPort_argHigh hi), regRead, bytesOf_halfOf]
      rfl
  · intro off width h1 h2 hw halign
    rw [hostStep_read_port (regPort_reserved h1 h2 hw halign), regRead]

/-- An argument register written to holds the value, and the others what they held. -/
theorem args_get_set (a : Args) {i k : Nat} (hi : i < 8) (v : Word64) :
    (a.set i v).get k = if k = i then v else a.get k := by
  split
  · rename_i h
    rw [h, Args.get_set_same a hi]
  · rename_i h
    rw [Args.get_set_other a (Ne.symm h)]

/-- Settles O7. -/
theorem registerWrites : Obligations.RegisterWrites := by
  unfold Obligations.RegisterWrites
  intro s agent
  refine ⟨fun howner => ⟨fun i v hi => ?_, fun i w hi => ?_, fun i w hi => ?_⟩, fun data hlen => ⟨?_, ?_, ?_⟩,
    fun data hlen => ?_, fun off data h1 h2 hw halign => ?_⟩
  · refine ⟨s.args.set i v, ?_, fun k _ => args_get_set s.args hi v⟩
    rw [Nat.add_assoc, hostStep_write_port agent (by rw [length_bytesFrom]; exact regPort_arg hi), regWrite_arg howner]
  · refine ⟨s.args.set i (withHalf (s.args.get i) false w), ?_, fun k _ => args_get_set s.args hi _⟩
    rw [Nat.add_assoc, hostStep_write_port agent (by rw [length_bytesFrom]; exact regPort_argLow hi),
      regWrite_argHalf howner]
  · refine ⟨s.args.set i (withHalf (s.args.get i) true w), ?_, fun k _ => args_get_set s.args hi _⟩
    rw [Nat.add_assoc, Nat.add_assoc,
      hostStep_write_port agent (by rw [length_bytesFrom]; exact regPort_argHigh hi), regWrite_argHalf howner]
  · exact hostStep_write_port (port := .status) agent (by rw [hlen]; rfl)
  · exact hostStep_write_port (port := .resHalf false) agent (by rw [hlen]; rfl)
  · exact hostStep_write_port (port := .resHalf true) agent (by rw [hlen]; rfl)
  · exact hostStep_write_port (port := .res) agent (by rw [hlen]; rfl)
  · exact hostStep_write_port (port := .reserved) agent (regPort_reserved h1 h2 hw halign)

/-- Settles O8: an access that selects a port is a listed one. -/
theorem otherRegisterAccessesRefused : Obligations.OtherRegisterAccessesRefused := by
  unfold Obligations.OtherRegisterAccessesRefused
  intro s addr data agent hlen habove hbelow hlisted
  have htouch : s.touchesRegs addr data.length = true := (touchesRegs_iff ..).mpr ⟨hlen, habove, hbelow⟩
  have hat : s.portAt addr data.length = none := by
    unfold State.portAt
    split
    · rename_i hbase
      refine Option.eq_none_iff_forall_ne_some.mpr fun port hport => hlisted ?_
      obtain ⟨hoff, hwidth⟩ := regPort_listed hport
      exact ⟨addr - s.plat.regBase, by omega, hoff, hwidth⟩
    · rfl
  constructor
  · simp only [hostStep, hostRead, htouch, hat, if_true]
  · simp only [hostStep, hostWrite, htouch, hat, if_true]

/-- A write of a word to CMD issues it. -/
theorem hostStep_write_cmd {s : State} {agent : Nat} (h : s.owner = none ∨ s.owner = some agent) (w : Word32) :
    hostStep (.write agent s.plat.regBase (bytesOfWord32 w)) s = issueCommand w s := by
  refine (hostStep_write_port (off := 0) (port := .cmd) agent rfl).trans ?_
  simp only [regWrite, ownedByOther_false h, bytesOfWord32_eq, ofNat_natOfBytes_32, Bool.false_eq_true, if_false]

theorem issueCommand_decoded {w : Word32} {i : Instr} (h : decode (bytesOfWord32 w) = .ok i) (s : State) :
    issueCommand w s = exec i { s with cmd := w, owner := none } := by
  simp only [issueCommand, h]

/-- The word of a command decodes to it (R102). -/
theorem decode_encode (i : Instr) : decode (bytesOfWord32 (encode i)) = .ok i := by
  cases i <;> rfl

theorem ofNat_opcode_mod (i : Instr) : BitVec.ofNat 32 (opcode i % 2 ^ 32) = encode i := by
  cases i <;> rfl

/-- Settles O4. -/
theorem stepRunsDecodedCommand : Obligations.StepRunsDecodedCommand := by
  unfold Obligations.StepRunsDecodedCommand
  refine ⟨fun s h => ?_, fun s act rest h => ?_, fun s agent w => (hostStep_write_cmd · w),
    fun s w i h => issueCommand_decoded h s, fun s i => ?_⟩
  · simp only [step, stepHost, h]
  · simp only [step, stepHost, h]
  · have howner : s.owner = none ∨ s.owner = some (s.owner.getD 0) := by cases s.owner <;> simp
    rw [State.withFetchWord, ofNat_opcode_mod]
    exact (hostStep_write_cmd (s := s) howner (encode i)).trans (issueCommand_decoded (decode_encode i) s)

end Sys2Proof.Proofs
end

section
/-! SUPPORT. The argument registers a command does not use (10_state.md R32, 30_encoding.md R103): a command run in a state with
other values in them does the same. -/
namespace Sys2Proof.Proofs
open Sys2Proof.Machine Sys2Proof.Safety

/-- `s` with other argument registers. -/
def withArgs (s : State) (a : Args) : State := { s with args := a }

/-- `c'` does what `c` does, in a state whose argument registers are `a`. -/
def Agrees (a : Args) (c c' : Cmd State) : Prop :=
  match c with
  | .ok t => c' = .ok (withArgs t a)
  | .error e => c' = .error e

/-! ### Parts of commands that agree -/

section
variable {a : Args} {s : State}

theorem agrees_ok (t : State) : Agrees a (.ok t) (.ok (withArgs t a)) := rfl

/-- The same value goes into two continuations that agree. -/
theorem agrees_bind {β : Type} {x : Cmd β} {f g : β → Cmd State} (h : ∀ b, Agrees a (f b) (g b)) :
    Agrees a (x >>= f) (x >>= g) := by
  cases x with
  | ok b => exact h b
  | error e => rfl

/-- A state goes into one, and the state with the other registers into the other. -/
theorem agrees_bind_state {x y : Cmd State} {f g : State → Cmd State} (hx : Agrees a x y)
    (h : ∀ t, Agrees a (f t) (g (withArgs t a))) : Agrees a (x >>= f) (y >>= g) := by
  cases x with
  | ok t =>
    cases hx
    exact h t
  | error e =>
    cases hx
    rfl

theorem agrees_ite {p : Prop} [Decidable p] {c c' d d' : Cmd State} (hc : Agrees a c c') (hd : Agrees a d d') :
    Agrees a (if p then c else d) (if p then c' else d') := by
  by_cases hp : p
  · rwa [if_pos hp, if_pos hp]
  · rwa [if_neg hp, if_neg hp]

theorem agrees_memWrite (s : State) (p : Nat) (bs : List Byte) : Agrees a (memWrite s p bs) (memWrite (withArgs s a) p bs) :=
  agrees_ite rfl rfl

theorem agrees_memZero (s : State) (p n : Nat) : Agrees a (memZero s p n) (memZero (withArgs s a) p n) :=
  agrees_ite rfl rfl

theorem agrees_memHavoc (s : State) (p n : Nat) : Agrees a (memHavoc s p n) (memHavoc (withArgs s a) p n) :=
  agrees_ite rfl rfl

theorem agrees_putRecords (st : RbState) (count slot : Nat) (bs : List Byte) (s : State) :
    Agrees a (putRecords st count slot bs s) (putRecords st count slot bs (withArgs s a)) := by
  induction count generalizing slot bs s with
  | zero => exact agrees_ok s
  | succ count ih =>
    refine agrees_bind_state (agrees_bind_state (agrees_memWrite ..) fun s1 => ?_) fun s1 => ih ..
    exact agrees_ite (agrees_memWrite ..) (agrees_ok s1)

theorem agrees_destroy {σ : Type} (proj : UnitState → Option σ) (h0 : (withArgs s a).arg 0 = s.arg 0) :
    Agrees a (do let (i, _) ← checkHandle proj s (s.arg 0); destroyInstance s (s.arg 0) i)
      (do let (i, _) ← checkHandle proj (withArgs s a) ((withArgs s a).arg 0)
          destroyInstance (withArgs s a) ((withArgs s a).arg 0) i) := by
  rw [h0]
  exact agrees_bind fun _ => agrees_bind_state (agrees_memZero ..) fun _ => agrees_ok _

theorem agrees_create {buf bsz ws : Nat} {valid : Bool} {mk : Nat → UnitState} {f g : Nat × State → Cmd State}
    (h : ∀ hdl t, Agrees a (f (hdl, t)) (g (hdl, withArgs t a))) :
    Agrees a (createInstance s buf bsz valid ws mk >>= f) (createInstance (withArgs s a) buf bsz valid ws mk >>= g) := by
  simp only [createInstance, bind_assoc, pure_bind]
  iterate 5 refine agrees_bind fun _ => ?_
  exact h ..

/-- A command that only reads the instance at A0. -/
theorem agrees_query {σ : Type} {proj : UnitState → Option σ} {v : Instance × σ → Nat}
    (h0 : (withArgs s a).arg 0 = s.arg 0) :
    Agrees a (do let x ← checkHandle proj s (s.arg 0); return s.complete (v x))
      (do let x ← checkHandle proj (withArgs s a) ((withArgs s a).arg 0); return (withArgs s a).complete (v x)) := by
  rw [h0]
  exact agrees_bind fun _ => agrees_ok _

/-- Commands that agree end alike. -/
theorem finish_agrees {c c' : Cmd State} (h : Agrees a c c') :
    match finish s c with
    | .next t => finish (withArgs s a) c' = .next (withArgs t a)
    | .fault f => finish (withArgs s a) c' = .fault f
    | .refused r => finish (withArgs s a) c' = .refused r := by
  match c, h with
  | .ok t, h => cases h; rfl
  | .error (.status k), h => cases h; rfl
  | .error (.fault f), h => cases h; rfl

/-! ### The operands -/

theorem arg_withArgs {k : Nat} (h : a.get k = s.args.get k) : (withArgs s a).arg k = s.arg k := congrArg BitVec.toNat h

theorem sarg_withArgs {k : Nat} (h : a.get k = s.args.get k) : (withArgs s a).sarg k = s.sarg k := congrArg BitVec.toInt h

theorem readCoefficients_withArgs (maxc : Nat) (h1 : (withArgs s a).arg 1 = s.arg 1) (h2 : (withArgs s a).arg 2 = s.arg 2) :
    readCoefficients (withArgs s a) maxc = readCoefficients s maxc := by
  simp only [readCoefficients, h1, h2]
  rfl

theorem checkBlock_withArgs (maxin : Nat) (h1 : (withArgs s a).arg 1 = s.arg 1) (h2 : (withArgs s a).arg 2 = s.arg 2)
    (h3 : (withArgs s a).arg 3 = s.arg 3) : checkBlock (withArgs s a) maxin = checkBlock s maxin := by
  simp only [checkBlock, h1, h2, h3]
  rfl

theorem agrees_fft (kind : FftKind) (h : ∀ k ∈ [0, 1, 2, 3], a.get k = s.args.get k) :
    Agrees a (fftCommand kind s) (fftCommand kind (withArgs s a)) := by
  have arg (k : Nat) (hk : k ∈ [0, 1, 2, 3]) : (withArgs s a).arg k = s.arg k := arg_withArgs (h k hk)
  simp only [fftCommand, arg 0 (by decide), arg 2 (by decide), arg 3 (by decide), sarg_withArgs (h 1 (by decide))]
  iterate 6 refine agrees_bind fun _ => ?_
  exact agrees_bind_state (agrees_memWrite ..) fun _ => agrees_bind_state (agrees_memHavoc ..) fun _ => agrees_ok _

end

/-! ### The commands -/

/-- Every command agrees with itself in a state that has the same values in the registers it uses. -/
theorem command_agrees (i : Instr) (s : State) (a : Args) (h : ∀ k ∈ usedArgs i, a.get k = s.args.get k) :
    Agrees a (command i s) (command i (withArgs s a)) := by
  have arg (k : Nat) (hk : k ∈ usedArgs i) : (withArgs s a).arg k = s.arg k := arg_withArgs (h k hk)
  cases i with
  | rbWorksize =>
    simp only [command, rbWorksize, arg 0 (by decide), arg 1 (by decide), arg 2 (by decide)]
    exact agrees_bind fun _ => agrees_ok _
  | rbCreate =>
    simp only [command, rbCreate, arg 0 (by decide), arg 1 (by decide), arg 2 (by decide), arg 3 (by decide),
      arg 4 (by decide)]
    exact agrees_create fun _ _ => agrees_bind_state (agrees_memZero ..) fun _ => agrees_ok _
  | rbDestroy => exact agrees_destroy _ (arg 0 (by decide))
  | rbClear =>
    simp only [command, rbClear, arg 0 (by decide)]
    exact agrees_bind fun _ => agrees_bind_state (agrees_memZero ..) fun _ => agrees_ok _
  | rbPut =>
    simp only [command, rbPut, arg 0 (by decide), arg 1 (by decide), arg 2 (by decide)]
    iterate 5 refine agrees_bind fun _ => ?_
    exact agrees_bind_state (agrees_putRecords ..) fun _ => agrees_ok _
  | rbPeek =>
    simp only [command, rbPeek, arg 0 (by decide), arg 1 (by decide)]
    exact agrees_bind fun _ => agrees_bind fun _ => agrees_ok _
  | rbGet =>
    simp only [command, rbGet, arg 0 (by decide), arg 1 (by decide)]
    exact agrees_bind fun _ => agrees_bind fun _ => agrees_ok _
  | rbDpeek =>
    simp only [command, rbDpeek, arg 0 (by decide), arg 1 (by decide), arg 2 (by decide)]
    iterate 4 refine agrees_bind fun _ => ?_
    exact agrees_ok _
  | rbRemain => exact agrees_query (arg 0 (by decide))
  | rbFree => exact agrees_query (arg 0 (by decide))
  | fftCplx => exact agrees_fft .cplx h
  | fftReal => exact agrees_fft .real h
  | kcWorksize =>
    simp only [command, kcWorksize, arg 0 (by decide), arg 1 (by decide)]
    exact agrees_bind fun _ => agrees_ok _
  | kcCreate =>
    simp only [command, kcCreate, arg 0 (by decide), arg 1 (by decide), arg 4 (by decide), arg 5 (by decide)]
    exact agrees_create fun _ _ => agrees_ok _
  | kcDestroy => exact agrees_destroy _ (arg 0 (by decide))
  | kcReset =>
    simp only [command, kcResetCommand, arg 0 (by decide)]
    exact agrees_bind fun _ => agrees_ok _
  | kcSetcoef =>
    simp only [command, kcSetcoef, arg 0 (by decide), readCoefficients_withArgs _ (arg 1 (by decide)) (arg 2 (by decide))]
    exact agrees_bind fun _ => agrees_bind fun _ => agrees_ok _
  | kcConvolve =>
    simp only [command, kcConvolveCommand, arg 0 (by decide), arg 1 (by decide), arg 2 (by decide), arg 3 (by decide),
      checkBlock_withArgs _ (arg 1 (by decide)) (arg 2 (by decide)) (arg 3 (by decide))]
    refine agrees_bind fun _ => agrees_bind fun _ => agrees_ite (agrees_ok _) (agrees_bind fun _ => ?_)
    exact agrees_bind_state (agrees_memWrite ..) fun _ => agrees_ok _
  | kcGetlat => exact agrees_query (arg 0 (by decide))
  | pcWorksize =>
    simp only [command, pcWorksize, arg 0 (by decide), arg 1 (by decide), arg 2 (by decide)]
    exact agrees_bind fun _ => agrees_ok _
  | pcCreate =>
    simp only [command, pcCreate, arg 0 (by decide), arg 1 (by decide), arg 2 (by decide), arg 4 (by decide),
      arg 5 (by decide)]
    exact agrees_create fun _ _ => agrees_bind fun _ => agrees_bind fun _ => agrees_ok _
  | pcDestroy => exact agrees_destroy _ (arg 0 (by decide))
  | pcReset =>
    simp only [command, pcResetCommand, arg 0 (by decide)]
    exact agrees_bind fun _ => agrees_bind fun _ => agrees_bind fun _ => agrees_ok _
  | pcSetcoef =>
    simp only [command, pcSetcoef, arg 0 (by decide), readCoefficients_withArgs _ (arg 1 (by decide)) (arg 2 (by decide))]
    exact agrees_bind fun _ => agrees_bind fun _ => agrees_bind fun _ => agrees_bind fun _ => agrees_ok _
  | pcConvolve =>
    simp only [command, pcConvolveCommand, arg 0 (by decide), arg 1 (by decide), arg 2 (by decide), arg 3 (by decide),
      checkBlock_withArgs _ (arg 1 (by decide)) (arg 2 (by decide)) (arg 3 (by decide))]
    iterate 5 refine agrees_bind fun _ => ?_
    exact agrees_bind_state (agrees_memWrite ..) fun _ => agrees_ok _
  | pcGetlat => exact agrees_query (arg 0 (by decide))
  | hcWorksize =>
    simp only [command, hcWorksize, arg 0 (by decide), arg 1 (by decide), arg 2 (by decide), arg 3 (by decide)]
    exact agrees_bind fun _ => agrees_ok _
  | hcCreate =>
    simp only [command, hcCreate, arg 0 (by decide), arg 1 (by decide), arg 2 (by decide), arg 3 (by decide),
      arg 4 (by decide), arg 5 (by decide)]
    exact agrees_create fun _ _ => agrees_bind fun _ => agrees_bind fun _ => agrees_ok _
  | hcDestroy => exact agrees_destroy _ (arg 0 (by decide))
  | hcReset =>
    simp only [command, hcResetCommand, arg 0 (by decide)]
    exact agrees_bind fun _ => agrees_bind fun _ => agrees_bind fun _ => agrees_ok _
  | hcSetcoef =>
    simp only [command, hcSetcoef, arg 0 (by decide), readCoefficients_withArgs _ (arg 1 (by decide)) (arg 2 (by decide))]
    exact agrees_bind fun _ => agrees_bind fun _ => agrees_bind fun _ => agrees_bind fun _ => agrees_ok _
  | hcConvolve =>
    simp only [command, hcConvolveCommand, arg 0 (by decide), arg 1 (by decide), arg 2 (by decide), arg 3 (by decide),
      checkBlock_withArgs _ (arg 1 (by decide)) (arg 2 (by decide)) (arg 3 (by decide))]
    refine agrees_bind fun _ => agrees_bind fun _ => agrees_ite (agrees_ok _) ?_
    iterate 3 refine agrees_bind fun _ => ?_
    exact agrees_bind_state (agrees_memWrite ..) fun _ => agrees_ok _
  | hcGetlat => exact agrees_query (arg 0 (by decide))

/-- Settles O18. -/
theorem unusedRegistersAreIgnored : Obligations.UnusedRegistersAreIgnored := by
  unfold Obligations.UnusedRegistersAreIgnored
  intro i s a h
  simp only [exec_eq_finish]
  exact finish_agrees (command_agrees i s a h)

end Sys2Proof.Proofs
end

section
/-! SUPPORT. Host accesses to memory (20_memory.md R78, R81, R82, R87): an access outside the register block, what it reads in
a live arena and elsewhere, and the statements about them. -/
namespace Sys2Proof.Proofs
open Sys2Proof.Machine Sys2Proof.Safety

/-! ### Accesses outside the register block -/

section
variable {s : State} {addr : Nat}

theorem hostStep_write_arena {data : List Byte} (agent : Nat) (regs : s.touchesRegs addr data.length = false)
    (meets : s.meetsArena addr data.length = true) : hostStep (.write agent addr data) s = .fault .hostProtocol := by
  simp [hostStep, hostWrite, regs, meets]

theorem hostStep_write_memory {data : List Byte} (agent : Nat) (regs : s.touchesRegs addr data.length = false)
    (clear : s.meetsArena addr data.length = false) (backed : backedRange s.plat addr data.length = true) :
    hostStep (.write agent addr data) s = .next { s with mem := s.mem.write addr data } := by
  simp [hostStep, hostWrite, regs, clear, backed]

theorem hostStep_read_memory {len : Nat} (regs : s.touchesRegs addr len = false)
    (backed : backedRange s.plat addr len = true) :
    hostStep (.read addr len) s = .next { s with readOut := s.readBytes addr len, draws := s.draws + 1 } := by
  simp [hostStep, hostRead, regs, backed]

/-- A region that has a byte in a live arena meets it. -/
theorem meetsArena_of_byte {len a : Nat} {p : Nat × Instance} (hp : p ∈ s.insts) (ha : addr ≤ a ∧ a < addr + len)
    (arena : p.2.buf ≤ a ∧ a < p.2.buf + p.2.ws) : s.meetsArena addr len = true :=
  List.any_eq_true.mpr ⟨p, hp, (rangesMeet_iff ..).mpr ⟨a, ha, arena⟩⟩

/-! ### The byte a read returns -/

theorem readByte_of_unconstrained {a : Nat} (h : s.unconstrained a = true) : s.readByte a = Config.freeByte s.draws a :=
  if_pos h

theorem readByte_of_constrained {a : Nat} (h : s.unconstrained a = false) : s.readByte a = s.mem.read a := by
  simp [State.readByte, h]

/-- Outside the live arenas every byte is the memory's. -/
theorem unconstrained_of_clear {len a : Nat} (clear : s.meetsArena addr len = false) (ha : addr ≤ a ∧ a < addr + len) :
    s.unconstrained a = false := by
  refine List.any_eq_false.mpr fun p hp => ?_
  simp [(meetsArena_false_iff s addr len).mp clear p hp a ha.1 ha.2]

/-- In a sound instance set, whose arenas share no byte, a byte of a live arena is unconstrained exactly when it is none of
that instance's data region. -/
theorem unconstrained_in_arena {hdl a : Nat} {i : Instance} (hs : InstancesOk s) (hi : (hdl, i) ∈ s.insts)
    (ha : i.buf ≤ a ∧ a < i.buf + i.ws) : s.unconstrained a = !i.unit.dataHas a := by
  have arena : i.arenaHas a = true := by simpa [Instance.arenaHas] using ha
  have only (p : Nat × Instance) (hp : p ∈ s.insts) (hpa : p.2.arenaHas a = true) : p.2 = i := by
    by_cases hne : p.1 = hdl
    · have := (assocGet_of_mem hs.rising hp).symm.trans (hne ▸ assocGet_of_mem hs.rising hi)
      exact Option.some.inj this
    · have apart := disjoint_of_instancesOk hs hp hi hne
      rw [(rangesMeet_iff ..).mpr ⟨a, by simpa [Instance.arenaHas] using hpa, ha⟩] at apart
      cases apart
  rw [State.unconstrained, Bool.eq_iff_iff, List.any_eq_true]
  constructor
  · rintro ⟨p, hp, h⟩
    rw [Bool.and_eq_true] at h
    exact only p hp h.1 ▸ h.2
  · exact fun h => ⟨(hdl, i), hi, by rw [arena, h]; rfl⟩

theorem hostStep_read_byte {a : Nat} (regs : s.touchesRegs a 1 = false) (backed : s.plat.backed a = true) :
    hostStep (.read a 1) s = .next { s with readOut := [s.readByte a], draws := s.draws + 1 } := by
  refine hostStep_read_memory regs ((backedRange_iff ..).mpr fun i hi => ?_)
  obtain rfl : i = 0 := by omega
  exact backed

end

/-! ### The statements -/

/-- Settles O10. -/
theorem hostWriteIntoLiveArenaFaults : Obligations.HostWriteIntoLiveArenaFaults := by
  unfold Obligations.HostWriteIntoLiveArenaFaults
  intro s agent addr data hdl i k hi hk hlo hhi hregs
  have regs : s.touchesRegs addr data.length = false := by
    rw [Bool.eq_false_iff, Ne, touchesRegs_iff]
    omega
  exact hostStep_write_arena agent regs (meetsArena_of_byte hi (a := addr + k) (by omega) ⟨hlo, hhi⟩)

/-- Settles O11: the bytes written lie in no live arena, so the read returns the memory's. -/
theorem hostReadSeesLastWrite : Obligations.HostReadSeesLastWrite := by
  unfold Obligations.HostReadSeesLastWrite
  intro s agent addr data regs clear backed
  refine ⟨_, hostStep_write_memory agent regs clear backed, rfl, fun a => ?_, _, hostStep_read_memory regs backed, ?_, rfl⟩
  · split
    · rename_i ha
      obtain ⟨k, rfl⟩ := Nat.exists_eq_add_of_le ha.1
      have hk : k < data.length := by omega
      rw [Memory.read_write_inside _ _ _ hk, Nat.add_sub_cancel_left, List.getD_eq_getElem _ _ hk]
    · exact Memory.read_write_outside _ _ _ (by omega)
  · refine List.ext_getElem (length_readBytes ..) fun k _ hk => ?_
    have constrained := unconstrained_of_clear clear (a := addr + k) (by omega)
    simp only [State.readBytes, List.getElem_map, List.getElem_range]
    exact (readByte_of_constrained (s := { s with mem := s.mem.write addr data }) constrained).trans
      (Memory.read_write_inside _ _ _ hk)

/-- Settles O12. -/
theorem liveArenaReads : Obligations.LiveArenaReads := by
  unfold Obligations.LiveArenaReads
  intro s hdl i a hs hi hlo hhi regs backed
  have free := unconstrained_in_arena hs hi ⟨hlo, hhi⟩
  rw [hostStep_read_byte regs backed]
  refine ⟨fun st hst h1 h2 => ?_, fun h => ?_⟩
  · have data : i.unit.dataHas a = true := by
      simp [hst, UnitState.dataHas, RbState.dataLen, RbState.size, h1, h2]
    rw [data] at free
    rw [readByte_of_constrained free]
  · have data : i.unit.dataHas a = false := by
      cases hu : i.unit with
      | rb st =>
        simp only [UnitState.dataHas, Bool.and_eq_false_iff, decide_eq_false_iff_not, Nat.not_le, Nat.not_lt]
        exact h st hu
      | kc => rfl
      | pc => rfl
      | hc => rfl
    rw [data] at free
    rw [readByte_of_unconstrained free]

end Sys2Proof.Proofs
end

section
/-! SUPPORT. The canonical form of memory (20_memory.md R70, R78): every command and every action of the host keeps it. -/
namespace Sys2Proof.Proofs
open Sys2Proof.Machine Sys2Proof.Safety

/-- If the command, or the part of one, succeeds, the memory it leaves has the canonical form. -/
def LeavesWf (c : Cmd State) : Prop :=
  match c with
  | .ok t => t.mem.wf
  | .error _ => True

/-! ### Parts of commands -/

section
variable {s : State}

theorem leavesWf_ok (h : s.mem.wf) : LeavesWf (.ok s) := h

theorem leavesWf_bind {β : Type} {x : Cmd β} {f : β → Cmd State} (h : ∀ b, LeavesWf (f b)) : LeavesWf (x >>= f) := by
  cases x with
  | ok b => exact h b
  | error e => trivial

/-- The part goes on from the state another part leaves. -/
theorem leavesWf_bind_state {x : Cmd State} {f : State → Cmd State} (hx : LeavesWf x)
    (h : ∀ t, t.mem.wf → LeavesWf (f t)) : LeavesWf (x >>= f) := by
  cases x with
  | ok t => exact h t hx
  | error e => trivial

theorem leavesWf_ite {p : Prop} [Decidable p] {c d : Cmd State} (hc : LeavesWf c) (hd : LeavesWf d) :
    LeavesWf (if p then c else d) := by
  split
  · exact hc
  · exact hd

theorem leavesWf_memWrite (h : s.mem.wf) (a : Nat) (bs : List Byte) : LeavesWf (memWrite s a bs) :=
  leavesWf_ite (Memory.write_wf h a bs) trivial

theorem leavesWf_memZero (h : s.mem.wf) (a n : Nat) : LeavesWf (memZero s a n) :=
  leavesWf_ite (Memory.zeroFill_wf h a n) trivial

theorem leavesWf_memHavoc (h : s.mem.wf) (a n : Nat) : LeavesWf (memHavoc s a n) :=
  leavesWf_ite (Memory.havoc_wf h _ a n) trivial

theorem leavesWf_putRecords (h : s.mem.wf) (st : RbState) (count slot : Nat) (bs : List Byte) :
    LeavesWf (putRecords st count slot bs s) := by
  induction count generalizing slot bs s with
  | zero => exact leavesWf_ok h
  | succ count ih =>
    have slotWf : LeavesWf (slotWrite st (slot % st.size) (bs.take st.rs) s) :=
      leavesWf_bind_state (leavesWf_memWrite h ..) fun _ h1 => leavesWf_ite (leavesWf_memWrite h1 ..) (leavesWf_ok h1)
    exact leavesWf_bind_state slotWf fun _ h1 => ih h1 ..

theorem leavesWf_create (h : s.mem.wf) {buf bsz ws : Nat} {valid : Bool} {mk : Nat → UnitState}
    {f : Nat × State → Cmd State} (hf : ∀ hdl t, t.mem.wf → LeavesWf (f (hdl, t))) :
    LeavesWf (createInstance s buf bsz valid ws mk >>= f) := by
  simp only [createInstance, bind_assoc, pure_bind]
  iterate 5 refine leavesWf_bind fun _ => ?_
  exact hf _ _ (Memory.havoc_wf h ..)

theorem leavesWf_destroy (h : s.mem.wf) {σ : Type} (proj : UnitState → Option σ) :
    LeavesWf (do let (i, _) ← checkHandle proj s (s.arg 0); destroyInstance s (s.arg 0) i) :=
  leavesWf_bind fun _ => leavesWf_bind_state (leavesWf_memZero h ..) fun _ h1 => leavesWf_ok h1

theorem leavesWf_fft (h : s.mem.wf) (kind : FftKind) : LeavesWf (fftCommand kind s) := by
  iterate 6 refine leavesWf_bind fun _ => ?_
  exact leavesWf_bind_state (leavesWf_memWrite h ..) fun _ h1 =>
    leavesWf_bind_state (leavesWf_memHavoc h1 ..) fun _ h1 => leavesWf_ok h1

end

/-! ### Every command -/

theorem command_leavesWf (i : Instr) {s : State} (h : s.mem.wf) : LeavesWf (command i s) := by
  have keeps {t : State} (ht : t.mem = s.mem) : LeavesWf (.ok t) := leavesWf_ok (ht ▸ h)
  cases i with
  | rbWorksize => exact leavesWf_bind fun _ => keeps rfl
  | rbCreate => exact leavesWf_create h fun _ _ h1 => leavesWf_bind_state (leavesWf_memZero h1 ..) fun _ h1 => leavesWf_ok h1
  | rbDestroy => exact leavesWf_destroy h _
  | rbClear => exact leavesWf_bind fun _ => leavesWf_bind_state (leavesWf_memZero h ..) fun _ h1 => leavesWf_ok h1
  | rbPut =>
    iterate 5 refine leavesWf_bind fun _ => ?_
    exact leavesWf_bind_state (leavesWf_putRecords h ..) fun _ h1 => leavesWf_ok h1
  | rbPeek => exact leavesWf_bind fun _ => leavesWf_bind fun _ => keeps rfl
  | rbGet => exact leavesWf_bind fun _ => leavesWf_bind fun _ => keeps rfl
  | rbDpeek =>
    iterate 4 refine leavesWf_bind fun _ => ?_
    exact keeps rfl
  | rbRemain => exact leavesWf_bind fun _ => keeps rfl
  | rbFree => exact leavesWf_bind fun _ => keeps rfl
  | fftCplx => exact leavesWf_fft h .cplx
  | fftReal => exact leavesWf_fft h .real
  | kcWorksize => exact leavesWf_bind fun _ => keeps rfl
  | kcCreate => exact leavesWf_create h fun _ _ h1 => leavesWf_ok h1
  | kcDestroy => exact leavesWf_destroy h _
  | kcReset => exact leavesWf_bind fun _ => keeps rfl
  | kcSetcoef => exact leavesWf_bind fun _ => leavesWf_bind fun _ => keeps rfl
  | kcConvolve =>
    refine leavesWf_bind fun _ => leavesWf_bind fun _ => leavesWf_ite (keeps rfl) (leavesWf_bind fun _ => ?_)
    exact leavesWf_bind_state (leavesWf_memWrite h ..) fun _ h1 => leavesWf_ok h1
  | kcGetlat => exact leavesWf_bind fun _ => keeps rfl
  | pcWorksize => exact leavesWf_bind fun _ => keeps rfl
  | pcCreate => exact leavesWf_create h fun _ _ h1 => leavesWf_bind fun _ => leavesWf_bind fun _ => leavesWf_ok h1
  | pcDestroy => exact leavesWf_destroy h _
  | pcReset => exact leavesWf_bind fun _ => leavesWf_bind fun _ => leavesWf_bind fun _ => keeps rfl
  | pcSetcoef =>
    iterate 4 refine leavesWf_bind fun _ => ?_
    exact keeps rfl
  | pcConvolve =>
    iterate 5 refine leavesWf_bind fun _ => ?_
    exact leavesWf_bind_state (leavesWf_memWrite h ..) fun _ h1 => leavesWf_ok h1
  | pcGetlat => exact leavesWf_bind fun _ => keeps rfl
  | hcWorksize => exact leavesWf_bind fun _ => keeps rfl
  | hcCreate => exact leavesWf_create h fun _ _ h1 => leavesWf_bind fun _ => leavesWf_bind fun _ => leavesWf_ok h1
  | hcDestroy => exact leavesWf_destroy h _
  | hcReset => exact leavesWf_bind fun _ => leavesWf_bind fun _ => leavesWf_bind fun _ => keeps rfl
  | hcSetcoef =>
    iterate 4 refine leavesWf_bind fun _ => ?_
    exact keeps rfl
  | hcConvolve =>
    refine leavesWf_bind fun _ => leavesWf_bind fun _ => leavesWf_ite (keeps rfl) ?_
    iterate 3 refine leavesWf_bind fun _ => ?_
    exact leavesWf_bind_state (leavesWf_memWrite h ..) fun _ h1 => leavesWf_ok h1
  | hcGetlat => exact leavesWf_bind fun _ => keeps rfl

theorem exec_mem_wf {i : Instr} {s t : State} (h : s.mem.wf) (run : exec i s = .next t) : t.mem.wf := by
  rw [exec_eq_finish] at run
  rcases finish_next run with run | ⟨c, -, rfl⟩
  · exact (run ▸ command_leavesWf i h : LeavesWf (.ok t))
  · exact h

/-! ### Every step -/

theorem regWrite_mem_wf {agent : Nat} {data : List Byte} {s t : State} {port : RegPort} (h : s.mem.wf)
    (run : regWrite agent data s port = .next t) : t.mem.wf := by
  cases port with
  | cmd =>
    simp only [regWrite] at run
    split at run
    · cases run
    · unfold issueCommand at run
      split at run
      · exact exec_mem_wf (s := { s with cmd := _, owner := none }) h run
      · cases run
        exact h
  | arg i =>
    simp only [regWrite] at run
    split at run <;> cases run
    exact h
  | argHalf i high =>
    simp only [regWrite] at run
    split at run <;> cases run
    exact h
  | status => cases run; exact h
  | res => cases run; exact h
  | resHalf high => cases run; exact h
  | reserved => cases run; exact h

theorem hostStep_mem_wf {act : HostAction} {s t : State} (h : s.mem.wf) (run : hostStep act s = .next t) : t.mem.wf := by
  cases act with
  | read addr width =>
    simp only [hostStep, hostRead] at run
    split at run
    · split at run <;> cases run
      exact h
    · split at run <;> cases run
      exact h
  | write agent addr data =>
    simp only [hostStep, hostWrite] at run
    split at run
    · split at run
      · exact regWrite_mem_wf h run
      · cases run
    · split at run
      · cases run
      · split at run <;> cases run
        exact Memory.write_wf h addr data
  | reset => cases run; exact h

/-- Settles O55. -/
theorem memoryStaysCanonical : Obligations.MemoryStaysCanonical := by
  unfold Obligations.MemoryStaysCanonical
  intro s t h run
  unfold step stepHost at run
  split at run
  · cases run
    exact h
  · rename_i rest _
    exact hostStep_mem_wf (s := { s with inputs := rest }) h run

end Sys2Proof.Proofs
end

section
/-! SUPPORT. The checks of a command's operands (20_memory.md R71, R87 to R90, 60_exceptions.md R401), in the order in which the
commands make them: where the first failing one is a pointer, a region or a work size, an overlap, or the source's MEM. -/
namespace Sys2Proof.Proofs
open Sys2Proof.Machine Sys2Proof.Safety

/-! ### INVALID_ARGUMENT -/

/-- The command, or the part of one, fails with INVALID_ARGUMENT. -/
def Invalid {α : Type} (c : Cmd α) : Prop := c = .error (.status .invalidArgument)

section
variable {α β : Type} {s : State}

theorem invalid_bind {x : Cmd α} {f : α → Cmd β} (h : Invalid x) : Invalid (x >>= f) := by
  rw [h]
  rfl

/-- A check with this code that passes leaves the failure to the rest of the command. -/
theorem invalid_require {p : Prop} [Decidable p] {f : Unit → Cmd β} (h : p → Invalid (f ())) :
    Invalid (require p .invalidArgument >>= f) := by
  by_cases hp : p
  · rw [require_true hp]
    exact h hp
  · rw [require_false hp]
    rfl

theorem invalid_handle {proj : UnitState → Option α} {hdl : Nat} {f : Instance × α → Cmd β}
    (h : ∀ x st, assocGet hdl s.insts = some x → proj x.unit = some st → Invalid (f (x, st))) :
    Invalid (checkHandle proj s hdl >>= f) := by
  cases hc : checkHandle proj s hdl with
  | ok p => exact h p.1 p.2 (checkHandle_ok.mp hc).1 (checkHandle_ok.mp hc).2
  | error e => rw [checkHandle_error hc]; rfl

/-- A region that a command must not name: a null pointer, or one that passes the end of the address space (R90). -/
def BadRegion (sp : Span) : Prop := sp.base = 0 ∨ 2 ^ 64 < sp.base + sp.len

theorem not_badRegion {base len : Nat} (hne : base ≠ 0) (hfits : base + len ≤ addrLimit) :
    ¬BadRegion { base := base, len := len } := by
  rintro (hnull | hlong)
  · exact hne hnull
  · exact Nat.not_le.mpr hlong hfits

theorem createInstance_invalid {buf bsz ws : Nat} {valid : Bool} {mk : Nat → UnitState}
    (h : BadRegion { base := buf, len := ws } ∨ valid = false) : Invalid (createInstance s buf bsz valid ws mk) := by
  refine invalid_require fun hbuf => invalid_require fun hvalid => invalid_require fun _ => invalid_require fun hfits => ?_
  rcases h with bad | hv
  · exact absurd bad (not_badRegion hbuf hfits)
  · exact absurd (hv.symm.trans hvalid) Bool.false_ne_true

theorem readCoefficients_invalid {maxc : Nat} (h : BadRegion { base := s.arg 1, len := 4 * s.arg 2 }) :
    Invalid (readCoefficients s maxc) := by
  refine invalid_require fun hp => invalid_require fun _ => invalid_require fun hfits => ?_
  exact absurd h (not_badRegion hp hfits)

theorem checkBlock_invalid {maxin : Nat} (h : BadRegion { base := s.arg 1, len := 4 * s.arg 3 } ∨
    BadRegion { base := s.arg 2, len := 4 * s.arg 3 }) : Invalid (checkBlock s maxin) := by
  refine invalid_require fun hp => invalid_require fun _ => invalid_require fun hfits => ?_
  exact (h.elim (not_badRegion hp.1 hfits.1) (not_badRegion hp.2 hfits.2)).elim

theorem fftCommand_invalid {kind : FftKind} (h : BadRegion { base := s.arg 2, len := 4 * fftFloats kind (s.arg 0) } ∨
    BadRegion { base := s.arg 3, len := 4 * fftFloats kind (s.arg 0) }) : Invalid (fftCommand kind s) := by
  refine invalid_require fun hp => invalid_require fun _ => invalid_require fun hfits => ?_
  exact (h.elim (not_badRegion hp.1 hfits.1) (not_badRegion hp.2 hfits.2)).elim

theorem rbPut_invalid (h : BadRegion { base := s.arg 1, len := s.arg 2 * heldRecordSize s }) : Invalid (rbPut s) := by
  refine invalid_handle fun x st live hu => invalid_require fun hp => invalid_require fun hfits => ?_
  have hrs : heldRecordSize s = st.rs := by simp only [heldRecordSize, live, asRb_eq_some.mp hu]
  rw [hrs] at h
  exact absurd h (not_badRegion hp hfits)

/-- Every command that names a bad region fails (R90). -/
theorem command_invalid_of_region {i : Instr} {sp : Span} (hsp : sp ∈ operandRegions i s) (bad : BadRegion sp) :
    Invalid (command i s) := by
  have one {a : Span} (h : sp ∈ [a]) : BadRegion a := List.mem_singleton.mp h ▸ bad
  have two {a b : Span} (h : sp ∈ [a, b]) : BadRegion a ∨ BadRegion b := by
    rcases List.mem_cons.mp h with rfl | h
    · exact .inl bad
    · exact .inr (one h)
  cases i with
  | rbCreate => exact invalid_bind (createInstance_invalid (.inl (one hsp)))
  | kcCreate => exact invalid_bind (createInstance_invalid (.inl (one hsp)))
  | pcCreate => exact invalid_bind (createInstance_invalid (.inl (one hsp)))
  | hcCreate => exact invalid_bind (createInstance_invalid (.inl (one hsp)))
  | rbPut => exact rbPut_invalid (one hsp)
  | fftCplx => exact fftCommand_invalid (by simpa only [fftFloats, ← Nat.mul_assoc] using two hsp)
  | fftReal => exact fftCommand_invalid (two hsp)
  | kcSetcoef => exact invalid_handle fun _ _ _ _ => invalid_bind (readCoefficients_invalid (one hsp))
  | pcSetcoef => exact invalid_handle fun _ _ _ _ => invalid_bind (readCoefficients_invalid (one hsp))
  | hcSetcoef => exact invalid_handle fun _ _ _ _ => invalid_bind (readCoefficients_invalid (one hsp))
  | kcConvolve => exact invalid_handle fun _ _ _ _ => invalid_bind (checkBlock_invalid (two hsp))
  | pcConvolve => exact invalid_handle fun _ _ _ _ => invalid_bind (checkBlock_invalid (two hsp))
  | hcConvolve => exact invalid_handle fun _ _ _ _ => invalid_bind (checkBlock_invalid (two hsp))
  | _ => exact absurd hsp List.not_mem_nil

theorem wsRb_lt {n rs mrs : Nat} (h : validRb n rs mrs = true) : wsRb n rs mrs < addrLimit := by
  obtain ⟨-, -, -, -, h⟩ := (validRb_iff ..).mp h
  exact h

theorem wsKc_lt {maxc maxin : Nat} (h : validKc maxc maxin = true) : wsKc maxc maxin < addrLimit := by
  obtain ⟨-, -, h⟩ := (validKc_iff ..).mp h
  exact h

theorem wsPc_lt {fftMaxN maxc maxin f : Nat} (h : validPc fftMaxN maxc maxin f = true) : wsPc maxc maxin f < addrLimit := by
  obtain ⟨-, -, -, h⟩ := (validPc_iff ..).mp h
  exact h

theorem wsHc_lt {fftMaxN maxc maxin f t : Nat} (h : validHc fftMaxN maxc maxin f t = true) :
    wsHc maxc maxin f t < addrLimit := by
  obtain ⟨-, -, -, -, h⟩ := (validHc_iff ..).mp h
  exact h

/-- Every command that computes a work size of `2^64` or more fails (R90): no such configuration is valid. -/
theorem command_invalid_of_workSize {i : Instr} {ws : Nat} (hws : operandWorkSize i s = some ws) (large : addrLimit ≤ ws) :
    Invalid (command i s) := by
  have create {buf bsz : Nat} {valid : Bool} {mk : Nat → UnitState} {f : Nat × State → Cmd State}
      (h : valid = true → ws < addrLimit) : Invalid (createInstance s buf bsz valid ws mk >>= f) := by
    refine invalid_bind (createInstance_invalid (.inr (Bool.eq_false_iff.mpr fun hv => ?_)))
    exact Nat.not_lt.mpr large (h hv)
  have worksize {valid : Bool} {f : Unit → Cmd State} (h : valid = true → ws < addrLimit) :
      Invalid (require (valid = true) .invalidArgument >>= f) :=
    invalid_require fun hv => absurd (h hv) (Nat.not_lt.mpr large)
  cases i with
  | rbWorksize => cases hws; exact worksize wsRb_lt
  | rbCreate => cases hws; exact create wsRb_lt
  | kcWorksize => cases hws; exact worksize wsKc_lt
  | kcCreate => cases hws; exact create wsKc_lt
  | pcWorksize => cases hws; exact worksize wsPc_lt
  | pcCreate => cases hws; exact create wsPc_lt
  | hcWorksize => cases hws; exact worksize wsHc_lt
  | hcCreate => cases hws; exact create wsHc_lt
  | _ => cases hws

end

/-- Settles O22. -/
theorem pointersAndRegionsAreChecked : Obligations.PointersAndRegionsAreChecked := by
  unfold Obligations.PointersAndRegionsAreChecked
  intro i s h
  have invalid : Invalid (command i s) := by
    rcases h with ⟨sp, hsp, bad⟩ | ⟨ws, hws, large⟩
    · exact command_invalid_of_region hsp bad
    · exact command_invalid_of_workSize hws large
  rw [exec_eq_finish, invalid]
  rfl

/-! ### What comes after the checks that pass -/

section
variable {s : State}

theorem exec_fault {i : Instr} {f : Fault} (h : command i s = .error (.fault f)) : exec i s = .fault f := by
  rw [exec_eq_finish, h]
  rfl

theorem createInstance_overlap {buf bsz ws : Nat} {valid : Bool} {mk : Nat → UnitState} (hbuf : buf ≠ 0)
    (hvalid : valid = true) (room : ws ≤ bsz) (fits : buf + ws ≤ addrLimit) (meets : s.meetsArena buf ws = true) :
    createInstance s buf bsz valid ws mk = .error (.fault .hostProtocol) := by
  rw [createInstance, require_true hbuf, require_true hvalid, require_true room, require_true fits, faultIf_true meets]
  rfl

/-- A command that begins with a CREATE's shared part takes the fault of an arena in its way. -/
theorem exec_create_overlap {i : Instr} {buf bsz ws : Nat} {valid : Bool} {mk : Nat → UnitState}
    {f : Nat × State → Cmd State} (hi : command i s = createInstance s buf bsz valid ws mk >>= f) (hbuf : buf ≠ 0)
    (hvalid : valid = true) (room : ws ≤ bsz) (fits : buf + ws ≤ addrLimit) (meets : s.meetsArena buf ws = true) :
    exec i s = .fault .hostProtocol :=
  exec_fault (by rw [hi, createInstance_overlap hbuf hvalid room fits meets, error_bind])

/-- The operands of an FFT pass the checks of their values (R201, R210, R211). -/
structure FftChecked (kind : FftKind) (s : State) : Prop where
  x_ne        : s.arg 2 ≠ 0
  scratch_ne  : s.arg 3 ≠ 0
  valid       : validFft s.plat.fftMaxN kind (s.arg 0) (s.sarg 1) = true
  x_fits      : s.arg 2 + 4 * fftFloats kind (s.arg 0) ≤ addrLimit
  scratchFits : s.arg 3 + 4 * fftFloats kind (s.arg 0) ≤ addrLimit
  apart       : rangesMeet (s.arg 2) (4 * fftFloats kind (s.arg 0)) (s.arg 3) (4 * fftFloats kind (s.arg 0)) = false

theorem FftChecked.overlap {kind : FftKind} (h : FftChecked kind s)
    (meets : s.meetsArena (s.arg 2) (4 * fftFloats kind (s.arg 0)) = true ∨
      s.meetsArena (s.arg 3) (4 * fftFloats kind (s.arg 0)) = true) :
    fftCommand kind s = .error (.fault .hostProtocol) := by
  simp only [fftCommand]
  rw [require_true ⟨h.x_ne, h.scratch_ne⟩, require_true h.valid, require_true ⟨h.x_fits, h.scratchFits⟩,
    require_true h.apart, faultIf_true meets]
  rfl

theorem FftChecked.read_error {kind : FftKind} {e : Stop} (h : FftChecked kind s)
    (clear : ¬(s.meetsArena (s.arg 2) (4 * fftFloats kind (s.arg 0)) = true ∨
      s.meetsArena (s.arg 3) (4 * fftFloats kind (s.arg 0)) = true))
    (read : readSamples s (s.arg 2) (fftFloats kind (s.arg 0)) = .error e) : fftCommand kind s = .error e := by
  simp only [fftCommand]
  rw [require_true ⟨h.x_ne, h.scratch_ne⟩, require_true h.valid, require_true ⟨h.x_fits, h.scratchFits⟩,
    require_true h.apart, faultIf_false clear, read]
  rfl

theorem fftCommand_eq_command {i : Instr} {kind : FftKind}
    (h : (i = .fftCplx ∧ kind = .cplx) ∨ (i = .fftReal ∧ kind = .real)) :
    command i s = fftCommand kind s := by
  rcases h with ⟨rfl, rfl⟩ | ⟨rfl, rfl⟩ <;> rfl

/-! ### Convolvers' commands -/

/-- `i` is the CONVOLVE of the unit in `u`, whose per-call maximum is `maxin`. -/
def ConvolveOf (i : Instr) (u : UnitState) (maxin : Nat) : Prop :=
  (i = .kcConvolve ∧ ∃ st, u = .kc st ∧ st.maxin = maxin) ∨
    (i = .pcConvolve ∧ ∃ st, u = .pc st ∧ st.maxin = maxin) ∨
    (i = .hcConvolve ∧ ∃ st, u = .hc st ∧ st.maxin = maxin)

/-- `i` is the SETCOEF of the unit in `u`, whose greatest coefficient count is `maxc`. -/
def SetcoefOf (i : Instr) (u : UnitState) (maxc : Nat) : Prop :=
  (i = .kcSetcoef ∧ ∃ st, u = .kc st ∧ st.maxc = maxc) ∨
    (i = .pcSetcoef ∧ ∃ st, u = .pc st ∧ st.maxc = maxc) ∨
    (i = .hcSetcoef ∧ ∃ st, u = .hc st ∧ st.maxc = maxc)

variable {x : Instance}

theorem checkHandle_kc {st : KcState F32} (live : assocGet (s.arg 0) s.insts = some x) (hu : x.unit = .kc st) :
    checkHandle UnitState.asKc s (s.arg 0) = .ok (x, st) := checkHandle_ok.mpr ⟨live, asKc_eq_some.mpr hu⟩

theorem checkHandle_pc {st : PcState F32} (live : assocGet (s.arg 0) s.insts = some x) (hu : x.unit = .pc st) :
    checkHandle UnitState.asPc s (s.arg 0) = .ok (x, st) := checkHandle_ok.mpr ⟨live, asPc_eq_some.mpr hu⟩

theorem checkHandle_hc {st : HcState F32} (live : assocGet (s.arg 0) s.insts = some x) (hu : x.unit = .hc st) :
    checkHandle UnitState.asHc s (s.arg 0) = .ok (x, st) := checkHandle_ok.mpr ⟨live, asHc_eq_some.mpr hu⟩

/-- A CONVOLVE whose handle is good stops where its operand checks do. -/
theorem convolve_block_error {i : Instr} {maxin : Nat} {e : Stop} (live : assocGet (s.arg 0) s.insts = some x)
    (hi : ConvolveOf i x.unit maxin) (block : checkBlock s maxin = .error e) : command i s = .error e := by
  rcases hi with ⟨rfl, st, hu, rfl⟩ | ⟨rfl, st, hu, rfl⟩ | ⟨rfl, st, hu, rfl⟩
  · simp only [command, kcConvolveCommand, checkHandle_kc live hu, ok_bind, block, error_bind]
  · simp only [command, pcConvolveCommand, checkHandle_pc live hu, ok_bind, block, error_bind]
  · simp only [command, hcConvolveCommand, checkHandle_hc live hu, ok_bind, block, error_bind]

/-- After them, on at least one sample, it stops where its source read does. -/
theorem convolve_read_error {i : Instr} {maxin : Nat} {e : Stop} (live : assocGet (s.arg 0) s.insts = some x)
    (hi : ConvolveOf i x.unit maxin) (block : checkBlock s maxin = .ok ()) (hn : s.arg 3 ≠ 0)
    (read : readSamples s (s.arg 1) (s.arg 3) = .error e) : command i s = .error e := by
  rcases hi with ⟨rfl, st, hu, rfl⟩ | ⟨rfl, st, hu, rfl⟩ | ⟨rfl, st, hu, rfl⟩
  · simp only [command, kcConvolveCommand, checkHandle_kc live hu, ok_bind, block, if_neg hn, read, error_bind]
  · simp only [command, pcConvolveCommand, checkHandle_pc live hu, ok_bind, block, read, error_bind]
  · simp only [command, hcConvolveCommand, checkHandle_hc live hu, ok_bind, block, if_neg hn, read, error_bind]

theorem setcoef_read_error {i : Instr} {maxc : Nat} {e : Stop} (live : assocGet (s.arg 0) s.insts = some x)
    (hi : SetcoefOf i x.unit maxc) (read : readCoefficients s maxc = .error e) : command i s = .error e := by
  rcases hi with ⟨rfl, st, hu, rfl⟩ | ⟨rfl, st, hu, rfl⟩ | ⟨rfl, st, hu, rfl⟩
  · simp only [command, kcSetcoef, checkHandle_kc live hu, ok_bind, read, error_bind]
  · simp only [command, pcSetcoef, checkHandle_pc live hu, ok_bind, read, error_bind]
  · simp only [command, hcSetcoef, checkHandle_hc live hu, ok_bind, read, error_bind]

/-- The checks of a CONVOLVE that pass leave the destination's. -/
theorem checkBlock_eq {maxin : Nat} (in_ne : s.arg 1 ≠ 0) (out_ne : s.arg 2 ≠ 0) (n_le : s.arg 3 ≤ maxin)
    (in_fits : s.arg 1 + 4 * s.arg 3 ≤ addrLimit) (outFits : s.arg 2 + 4 * s.arg 3 ≤ addrLimit) :
    checkBlock s maxin = faultIf (s.meetsArena (s.arg 2) (4 * s.arg 3) = true) .hostProtocol := by
  rw [checkBlock, require_true ⟨in_ne, out_ne⟩, require_true n_le, require_true ⟨in_fits, outFits⟩]
  rfl

theorem readCoefficients_eq {maxc : Nat} (coef_ne : s.arg 1 ≠ 0) (pos : 1 ≤ s.arg 2) (le : s.arg 2 ≤ maxc)
    (fits : s.arg 1 + 4 * s.arg 2 ≤ addrLimit) : readCoefficients s maxc = readSamples s (s.arg 1) (s.arg 2) := by
  rw [readCoefficients, require_true coef_ne, require_true ⟨by omega, le⟩, require_true fits]
  rfl

/-! ### Reads outside MEM -/

theorem backedRange_false {p : Platform} {a n b : Nat} (hb : a ≤ b ∧ b < a + n) (h : p.backed b = false) :
    backedRange p a n = false := by
  refine Bool.eq_false_iff.mpr fun hall => ?_
  have := (backedRange_iff p a n).mp hall (b - a) (by omega)
  rw [Nat.add_sub_cancel' hb.1, h] at this
  cases this

theorem memRead_unbacked {a n : Nat} (h : backedRange s.plat a n = false) : memRead s a n = .error (.fault .bus) := by
  rw [memRead, if_neg (by simp [h])]

theorem readSamples_unbacked {a n : Nat} (h : backedRange s.plat a (4 * n) = false) :
    readSamples s a n = .error (.fault .bus) := by
  rw [readSamples, memRead_unbacked h]
  rfl

end

/-! ### The statements -/

/-- Settles O23. -/
theorem overlappedDestinationFaults : Obligations.OverlappedDestinationFaults := by
  unfold Obligations.OverlappedDestinationFaults
  refine ⟨fun s => exec_create_overlap rfl, fun s => exec_create_overlap rfl, fun s => exec_create_overlap rfl,
    fun s => exec_create_overlap rfl, ?_, ?_⟩
  · intro s i kind hi len h2 h3 hv hf2 hf3 apart meets
    refine exec_fault ((fftCommand_eq_command hi).trans (FftChecked.overlap ?_ meets))
    exact ⟨h2, h3, hv, hf2, hf3, apart⟩
  · intro s i x maxin live hi h1 h2 hn hf1 hf2 meets
    refine exec_fault (convolve_block_error live hi ?_)
    rw [checkBlock_eq h1 h2 hn hf1 hf2, faultIf_true meets]

/-- Settles O24. -/
theorem sourceOutsideMemoryFaults : Obligations.SourceOutsideMemoryFaults := by
  unfold Obligations.SourceOutsideMemoryFaults
  refine ⟨?_, ?_, ?_, ?_⟩
  · rintro s x st live hu hp hfits hfree ⟨a, h1, h2, hb⟩
    refine exec_fault (i := .rbPut) ?_
    have handle : checkHandle UnitState.asRb s (s.arg 0) = .ok (x, st) := checkHandle_ok.mpr ⟨live, asRb_eq_some.mpr hu⟩
    simp only [command, rbPut, handle, ok_bind, require_true hp, require_true hfits, require_true hfree,
      memRead_unbacked (backedRange_false ⟨h1, h2⟩ hb), error_bind]
  · rintro s i kind hi len h2 h3 hv hf2 hf3 apart clear2 clear3 ⟨a, ha1, ha2, hb⟩
    refine exec_fault ((fftCommand_eq_command hi).trans (FftChecked.read_error ?_ ?_ ?_))
    · exact ⟨h2, h3, hv, hf2, hf3, apart⟩
    · rw [clear2, clear3]
      decide
    · exact readSamples_unbacked (backedRange_false ⟨ha1, ha2⟩ hb)
  · rintro s i x maxc live hi hp pos le fits ⟨a, h1, h2, hb⟩
    refine exec_fault (setcoef_read_error live hi ?_)
    rw [readCoefficients_eq hp pos le fits, readSamples_unbacked (backedRange_false ⟨h1, h2⟩ hb)]
  · rintro s i x maxin live hi h1 h2 hn hf1 hf2 clear ⟨a, ha1, ha2, hb⟩
    refine exec_fault (convolve_read_error live hi ?_ (by omega) (readSamples_unbacked (backedRange_false ⟨ha1, ha2⟩ hb)))
    rw [checkBlock_eq h1 h2 hn hf1 hf2, faultIf_false (by simp [clear])]

end Sys2Proof.Proofs
end

section
/-! SUPPORT. The internal ring operations of a well-kept convolver succeed (40_ringbuffer.md R159, 42_partitioned.md R263,
44_hybrid.md R371), and what a reset leaves (R258, R369). -/
namespace Sys2Proof.Proofs
open Sys2Proof.Machine Sys2Proof.Safety

/-! ### The ring operations -/

theorem exists_bind {α β : Type} {x : Option α} {f : α → Option β} (hx : ∃ a, x = some a)
    (hf : ∀ a, x = some a → ∃ b, f a = some b) : ∃ b, (x >>= f) = some b := by
  obtain ⟨a, rfl⟩ := hx
  exact hf a rfl

section
variable {α : Type} {q : SampleRing α}

theorem ringPut_succeeds {vs : List α} (h : q.remaining + vs.length ≤ q.n) : ∃ q', ringPut q vs = some q' := by
  refine ⟨_, if_neg ?_⟩
  unfold SampleRing.free SampleRing.size
  omega

theorem ringPeek_succeeds {n : Nat} (hmrs : n ≤ q.mrs) (hrem : n ≤ q.remaining) : ∃ vs, ringPeek q n = some vs := by
  exact ⟨_, by rw [ringPeek, if_neg (by omega), if_neg (by omega)]⟩

theorem ringGet_succeeds {n : Nat} (hmrs : n ≤ q.mrs) (hrem : n ≤ q.remaining) : ∃ r, ringGet q n = some r := by
  obtain ⟨vs, hvs⟩ := ringPeek_succeeds hmrs hrem
  exact ⟨_, by rw [ringGet, hvs]⟩

/-- A cleared ring with `count` zero samples in it. -/
def seeded (zero : α) (q : SampleRing α) (count : Nat) : SampleRing α := { ringClear zero q with w := count }

/-- Zeros put into a ring of zeros leave every slot as it is. -/
theorem ringFill_zeros {zero : α} {len : Nat} (h : q.slots = List.replicate len zero) (k count : Nat) :
    ringFill q k (List.replicate count zero) = q := by
  induction count generalizing k with
  | zero => rfl
  | succ count ih =>
    have write : ringSlotWrite q (k % q.size) zero = q := by
      simp only [ringSlotWrite, h, List.set_replicate_self, ite_self]
      rw [← h]
    rw [List.replicate_succ, ringFill, write, ih]

theorem remaining_ringClear (zero : α) (q : SampleRing α) : (ringClear zero q).remaining = 0 := by
  simp [ringClear, SampleRing.remaining, subMod]

theorem ringSeed_eq {zero : α} {count : Nat} (h : count ≤ q.n) : ringSeed zero q count = some (seeded zero q count) := by
  have room : ¬(ringClear zero q).free < (List.replicate count zero).length := by
    rw [List.length_replicate, SampleRing.free, remaining_ringClear]
    show ¬q.n + 1 - 0 - 1 < count
    omega
  have wrap : (0 + count) % (q.n + 1) = count := by rw [Nat.zero_add, Nat.mod_eq_of_lt (by omega)]
  rw [ringSeed, ringPut, if_neg room, ringFill_zeros rfl, List.length_replicate]
  exact congrArg (fun w => some { ringClear zero q with w := w }) wrap

theorem ringUnread_seeded {zero : α} {count : Nat} (h : count ≤ q.n) :
    ringUnread (seeded zero q count) = List.replicate count (some zero) := by
  have level : (seeded zero q count).remaining = count := subMod_of_le (Nat.zero_le _) (Nat.lt_succ_of_le h)
  refine List.eq_replicate_iff.mpr ⟨by rw [ringUnread, List.length_map, List.length_range, level], fun v hv => ?_⟩
  obtain ⟨i, -, rfl⟩ := List.mem_map.mp hv
  have : (0 + i) % (q.n + 1) < q.n + 1 := Nat.mod_lt _ (Nat.succ_pos _)
  exact List.getElem?_replicate_of_lt (show (0 + i) % (q.n + 1) < q.n + 1 + q.mrs by omega)

end

/-! ### The partitioned convolver -/

/-- A PC state with everything but its coefficients at the reset values (R255, R258). -/
def pcCleared {α : Type} (env : PcEnv α) (st : PcState α) : PcState α :=
  { st with
    inRing := seeded env.arith.zero st.inRing st.p, outRing := seeded env.arith.zero st.outRing st.p,
    fb := List.replicate st.npMax (List.replicate st.f env.arith.zero), head := 0,
    acc := List.replicate st.f env.arith.zero, inCount := 0, cursor := 0 }

section
variable {fftMaxN : Nat} {st : PcState F32} {s : State}

theorem PcBase.reset_eq (h : PcBase fftMaxN st) (s : State) :
    pcReset (pcEnv s) st = some (pcCleared (pcEnv s) st) := by
  have hin := h.inSize.1
  have hout := h.outSize.1
  rw [pcReset, ringSeed_eq (by omega), ringSeed_eq (by omega)]
  rfl

theorem pcCleared_atReset (h : PcBase fftMaxN st) (s : State) : PcAtReset (pcCleared (pcEnv s) st) where
  inRing := ringUnread_seeded (by have := h.inSize.1; omega)
  outRing := ringUnread_seeded (by have := h.outSize.1; omega)
  fb := rfl
  head := rfl
  acc := rfl
  inCount := rfl
  cursor := rfl

/-- A block finds its input in the one ring and room for its output in the other (R263): together they hold no more
samples than `2P` and a call's. -/
theorem processBlock_succeeds {total : Nat} (h : PcMid fftMaxN total st) (room : total ≤ 2 * st.p + st.maxin)
    (full : st.f ≤ st.inRing.remaining) (j : Nat) : ∃ st', processBlock (pcEnv s) j st = some st' := by
  obtain ⟨hf, -⟩ := h.base.f_eq
  obtain ⟨-, inMrs⟩ := h.base.inSize
  obtain ⟨outN, -⟩ := h.base.outSize
  have level := h.level
  refine exists_bind (ringPeek_succeeds (by omega) full) fun u _ => exists_bind (ringPut_succeeds ?_) fun _ _ =>
    exists_bind (ringGet_succeeds (by omega) (by omega)) fun _ _ => ⟨_, rfl⟩
  have blockLen (v : List F32) : ((pcEnv s).fft st.f 1 v).length = st.f := length_fftImpl_real s.plat h.base.size 1 v
  rw [List.length_drop, blockLen]
  omega

theorem processBlocks_succeeds {total : Nat} (h : PcMid fftMaxN total st) (room : total ≤ 2 * st.p + st.maxin) (fuel j : Nat) :
    ∃ st', processBlocks (pcEnv s) fuel j st = some st' := by
  induction fuel generalizing j st with
  | zero => exact ⟨st, rfl⟩
  | succ fuel ih =>
    unfold processBlocks
    split
    · exact ⟨st, rfl⟩
    · rename_i full
      obtain ⟨st1, h1⟩ := processBlock_succeeds h room (Nat.le_of_not_lt full) j
      have same := processBlock_same h1
      have hp : st1.p = st.p := by rw [PcState.p, same.f, PcState.p]
      rw [h1]
      exact ih (processBlock_mid h (Nat.le_of_not_lt full) h1).1 (by rw [hp, same.maxin]; exact room) (j + 1)

/-- PC.CONVOLVE's internal operations succeed on a well-kept state (R263). -/
theorem pcConvolve_succeeds {xs : List F32} (h : PcOk fftMaxN st) (hlen : xs.length ≤ st.maxin) :
    ∃ r, pcConvolve (pcEnv s) st xs = some r := by
  have hin := h.inSize.1
  have hcount := h.count_lt
  have hbuffered := h.buffered
  refine exists_bind (ringPut_succeeds (by omega)) fun inRing hput => ?_
  have mid := PcMid.of_put h hput
  have room : 2 * st.p + xs.length ≤ 2 * st.p + st.maxin := by omega
  refine exists_bind (processBlocks_succeeds mid room inRing.remaining 0) fun st1 hblocks => ?_
  obtain ⟨mid1, below⟩ := processBlocks_mid mid (Nat.le_refl _) hblocks
  have same := processBlocks_same hblocks
  have hf := same.f
  have hp : st1.p = st.p := by rw [PcState.p, hf, PcState.p]
  have hmaxin : st1.maxin = st.maxin := same.maxin
  obtain ⟨hf1, -⟩ := mid1.base.f_eq
  obtain ⟨-, outMrs⟩ := mid1.base.outSize
  have level := mid1.level
  refine exists_bind (ringGet_succeeds (q := st1.outRing) (by omega) (by omega)) fun r _ => ⟨_, rfl⟩

end

/-! ### The hybrid convolver -/

/-- An HC state with everything but its mode and coefficients at the reset values (R366, R369). -/
def hcCleared {α : Type} (env : PcEnv α) (st : HcState α) : HcState α :=
  { st with
    k := kcReset env.arith st.k, q := pcCleared env st.q, dly := seeded env.arith.zero st.dly (st.t - st.l) }

section
variable {fftMaxN : Nat} {st : HcState F32} {s : State}

theorem HcBase.reset_eq (h : HcBase fftMaxN st) (s : State) :
    hcReset (pcEnv s) st = some (hcCleared (pcEnv s) st) := by
  have hdly := h.dlySize.1
  rw [hcReset, h.q_base.reset_eq, ringSeed_eq (by omega)]
  rfl

theorem hcCleared_atReset (h : HcBase fftMaxN st) (s : State) : HcAtReset (hcCleared (pcEnv s) st) where
  k := rfl
  q := pcCleared_atReset h.q_base s
  dly := ringUnread_seeded (by have := h.dlySize.1; omega)

/-- HC.CONVOLVE's internal operations succeed on a well-kept state (R371). -/
theorem hcConvolve_succeeds {xs : List F32} (h : HcOk fftMaxN st) (hlen : xs.length ≤ st.maxin) :
    ∃ r, hcConvolve (pcEnv s) st xs = some r := by
  unfold hcConvolve
  split
  · exact ⟨_, rfl⟩
  · obtain ⟨dlyN, dlyMrs⟩ := h.dlySize
    have delayed := h.delayed
    refine exists_bind (ringPut_succeeds (by omega)) fun dly1 hput => ?_
    obtain ⟨ok1, -, mrs1, level1⟩ := ringOk_put h.dly hput
    refine exists_bind (ringGet_succeeds (by omega) (by omega)) fun ⟨xd, dly2⟩ hget => ?_
    obtain ⟨-, -, -, -, hxd, -⟩ := ringOk_get ok1 hget
    have qMaxin := h.q_cfg.2.1
    exact exists_bind (pcConvolve_succeeds h.q_ok (by omega)) fun _ _ => ⟨_, rfl⟩

end

end Sys2Proof.Proofs
end

section
/-! SUPPORT. CREATE and SETCOEF on good operands (40_ringbuffer.md R146, R152, 42_partitioned.md R253 to R258, 43_karatsuba.md
R316 to R321, 44_hybrid.md R363 to R369): they succeed, and the instance they leave. -/
namespace Sys2Proof.Proofs
open Sys2Proof.Machine Sys2Proof.Safety

/-! ### CREATE -/

section
variable {s : State}

theorem exec_ok {i : Instr} {t : State} (h : command i s = .ok t) : exec i s = .next t := by
  rw [exec_eq_finish, h]
  rfl

theorem createInstance_succeeds {buf bsz ws : Nat} {valid : Bool} (h : CanCreate s buf bsz valid ws) (mk : Nat → UnitState) :
    ∃ t, createInstance s buf bsz valid ws mk = .ok (align16 buf, t) := by
  rw [createInstance, require_true h.buf_ne, require_true h.valid, require_true h.room, require_true h.fits,
    faultIf_false (by simp [h.clear])]
  exact ⟨_, rfl⟩

/-- A handle fits RES: the work size leaves room for the alignment. -/
theorem toNat_handle {buf bsz ws : Nat} {valid : Bool} (h : CanCreate s buf bsz valid ws) (hws : arenaAlign ≤ ws) :
    (BitVec.ofNat 64 (align16 buf)).toNat = align16 buf := by
  have hfits : buf + ws ≤ 2 ^ 64 := h.fits
  have hws : 16 ≤ ws := hws
  have hle : align16 buf ≤ buf + 15 := Nat.div_mul_le_self ..
  rw [BitVec.toNat_ofNat, Nat.mod_eq_of_lt (by omega)]

theorem arenaAlign_le_wsRb (n rs mrs : Nat) : arenaAlign ≤ wsRb n rs mrs := by
  unfold wsRb
  omega

theorem arenaAlign_le_wsKc (maxc maxin : Nat) : arenaAlign ≤ wsKc maxc maxin := by
  simp only [wsKc]
  omega

theorem arenaAlign_le_wsPc (maxc maxin f : Nat) : arenaAlign ≤ wsPc maxc maxin f := by
  unfold wsPc
  omega

theorem arenaAlign_le_wsHc (maxc maxin f t : Nat) : arenaAlign ≤ wsHc maxc maxin f t := by
  unfold wsHc
  omega

theorem memZero_backed {a n : Nat} (h : backedRange s.plat a n = true) :
    memZero s a n = .ok { s with mem := s.mem.zeroFill a n } := if_pos h

theorem rbCreate_completes (h : CanCreate s (s.arg 3) (s.arg 4) (validRb (s.arg 0) (s.arg 1) (s.arg 2))
      (wsRb (s.arg 0) (s.arg 1) (s.arg 2)))
    (backed : backedRange s.plat (align16 (s.arg 3) + hdrSize) ((s.arg 0 + 1 + s.arg 2) * s.arg 1) = true) :
    ∃ t, exec .rbCreate s = .next t ∧ t.status = 0 ∧ t.res.toNat = align16 (s.arg 3) ∧
      assocGet (align16 (s.arg 3)) t.insts = some
        { buf := s.arg 3, ws := wsRb (s.arg 0) (s.arg 1) (s.arg 2),
          unit := .rb (rbFresh (s.arg 0) (s.arg 1) (s.arg 2) (align16 (s.arg 3))) } ∧
      ∀ a, align16 (s.arg 3) + hdrSize ≤ a →
        a < align16 (s.arg 3) + hdrSize + (s.arg 0 + 1 + s.arg 2) * s.arg 1 → t.mem.read a = 0 := by
  obtain ⟨t, ht⟩ := createInstance_succeeds h fun hdl => .rb (rbFresh (s.arg 0) (s.arg 1) (s.arg 2) hdl)
  obtain ⟨-, -, -, -, -, -, heq⟩ := createInstance_ok ht
  have plat : t.plat = s.plat := by rw [heq]
  have insts := congrArg State.insts heq
  have run : command .rbCreate s = .ok (State.complete
      { t with mem := t.mem.zeroFill (align16 (s.arg 3) + hdrSize) ((s.arg 0 + 1 + s.arg 2) * s.arg 1) }
      (align16 (s.arg 3))) := by
    simp only [command, rbCreate, ht, ok_bind, memZero_backed (plat ▸ backed)]
    rfl
  exact ⟨_, exec_ok run, rfl, toNat_handle h (arenaAlign_le_wsRb ..),
    (congrArg _ insts).trans (assocGet_set_same ..),
    fun a h1 h2 => (Memory.read_zeroFill ..).trans (if_pos ⟨h1, h2⟩)⟩

theorem kcCreate_completes (h : CanCreate s (s.arg 4) (s.arg 5) (validKc (s.arg 0) (s.arg 1)) (wsKc (s.arg 0) (s.arg 1))) :
    ∃ t, exec .kcCreate s = .next t ∧ t.status = 0 ∧ t.res.toNat = align16 (s.arg 4) ∧
      assocGet (align16 (s.arg 4)) t.insts = some
        { buf := s.arg 4, ws := wsKc (s.arg 0) (s.arg 1), unit := .kc (kcFresh f32Arith (s.arg 0) (s.arg 1)) } := by
  obtain ⟨t, ht⟩ := createInstance_succeeds h fun _ => .kc (kcFresh f32Arith (s.arg 0) (s.arg 1))
  obtain ⟨-, -, -, -, -, -, heq⟩ := createInstance_ok ht
  have insts := congrArg State.insts heq
  have run : command .kcCreate s = .ok (t.complete (align16 (s.arg 4))) := by
    simp only [command, kcCreate, ht, ok_bind]
    rfl
  exact ⟨_, exec_ok run, rfl, toNat_handle h (arenaAlign_le_wsKc ..), (congrArg _ insts).trans (assocGet_set_same ..)⟩

theorem touchRings_backed {spans : List Span} (h : allBacked s.plat spans = true) : touchRings s spans = .ok () :=
  touchRings_ok.mpr h

theorem pcCreate_completes {maxc maxin f : Nat} (hmaxc : s.arg 0 = maxc) (hmaxin : s.arg 1 = maxin) (hf : s.arg 2 = f)
    (h : CanCreate s (s.arg 4) (s.arg 5) (validPc s.plat.fftMaxN maxc maxin f) (wsPc maxc maxin f))
    (backed : allBacked s.plat (pcRingSpans (align16 (s.arg 4)) maxin f) = true) {st : PcState F32}
    (reset : pcReset (pcEnv s) (pcBlank (pcEnv s) maxc maxin f) = some st) :
    ∃ t, exec .pcCreate s = .next t ∧ t.status = 0 ∧ t.res.toNat = align16 (s.arg 4) ∧
      assocGet (align16 (s.arg 4)) t.insts = some { buf := s.arg 4, ws := wsPc maxc maxin f, unit := .pc st } := by
  obtain ⟨t, ht⟩ := createInstance_succeeds h fun _ => .pc (pcBlank (pcEnv s) maxc maxin f)
  have run : command .pcCreate s = .ok ((t.setInstance (align16 (s.arg 4))
      { buf := s.arg 4, ws := wsPc maxc maxin f, unit := .pc st }).complete (align16 (s.arg 4))) := by
    simp only [command, pcCreate, hmaxc, hmaxin, hf, ht, ok_bind, touchRings_backed backed, reset, orInternal_some]
    rfl
  exact ⟨_, exec_ok run, rfl, toNat_handle h (arenaAlign_le_wsPc ..), assocGet_set_same ..⟩

theorem hcCreate_completes {maxc maxin f t0 : Nat} (hmaxc : s.arg 0 = maxc) (hmaxin : s.arg 1 = maxin) (hf : s.arg 2 = f)
    (ht0 : thresholdOf (s.arg 3) = t0)
    (h : CanCreate s (s.arg 4) (s.arg 5) (validHc s.plat.fftMaxN maxc maxin f t0) (wsHc maxc maxin f t0))
    (backed : allBacked s.plat (hcRingSpans (align16 (s.arg 4)) maxc maxin f t0) = true) {st : HcState F32}
    (reset : hcReset (pcEnv s) (hcBlank (pcEnv s) maxc maxin f t0) = some st) :
    ∃ t, exec .hcCreate s = .next t ∧ t.status = 0 ∧ t.res.toNat = align16 (s.arg 4) ∧
      assocGet (align16 (s.arg 4)) t.insts = some { buf := s.arg 4, ws := wsHc maxc maxin f t0, unit := .hc st } := by
  obtain ⟨t, ht⟩ := createInstance_succeeds h fun _ => .hc (hcBlank (pcEnv s) maxc maxin f t0)
  have run : command .hcCreate s = .ok ((t.setInstance (align16 (s.arg 4))
      { buf := s.arg 4, ws := wsHc maxc maxin f t0, unit := .hc st }).complete (align16 (s.arg 4))) := by
    simp only [command, hcCreate, hmaxc, hmaxin, hf, ht0, ht, ok_bind, touchRings_backed backed, reset, orInternal_some]
    rfl
  exact ⟨_, exec_ok run, rfl, toNat_handle h (arenaAlign_le_wsHc ..), assocGet_set_same ..⟩

end

/-- Settles O28. -/
theorem createCommandsComplete : Obligations.CreateCommandsComplete := by
  unfold Obligations.CreateCommandsComplete
  intro s maxc maxin f t0 buf hdl ring
  refine ⟨?_, fun h => kcCreate_completes h, fun h backed => ?_, fun h backed => ?_⟩
  · rintro n rs mrs rfl rfl rfl h backed
    exact rbCreate_completes h backed
  · obtain ⟨hmaxc, hmaxin, hf, -⟩ := (validPc_iff ..).mp h.valid
    have base := pcBlank_base (s := s) hmaxc hmaxin ((validFftSize_iff ..).mpr hf)
    obtain ⟨t, run, status, res, inst⟩ := pcCreate_completes rfl rfl rfl h backed (base.reset_eq s)
    exact ⟨t, _, run, status, res, inst, rfl, rfl, rfl, rfl, rfl, rfl, pcCleared_atReset base s,
      pcReset_ok base (base.reset_eq s)⟩
  · obtain ⟨hmaxc, hmaxin, hf, ht, -⟩ := (validHc_iff ..).mp h.valid
    have base := hcBlank_base (s := s) hmaxc hmaxin ((validFftSize_iff ..).mpr hf) ht
    obtain ⟨t, run, status, res, inst⟩ := hcCreate_completes rfl rfl rfl rfl h backed (base.reset_eq s)
    exact ⟨t, _, run, status, res, inst, rfl, rfl, rfl, rfl, rfl, rfl, rfl, rfl, rfl, rfl, hcCleared_atReset base s,
      hcReset_ok base (base.reset_eq s)⟩

/-! ### The coefficients a SETCOEF stores -/

theorem getElem?_padTo_of_lt {α : Type} (zero : α) {len k : Nat} {xs : List α} (h1 : k < xs.length) (h2 : k < len) :
    (padTo zero len xs)[k]? = xs[k]? := by
  rw [padTo, List.getElem?_take_of_lt h2, List.getElem?_append_left h1]

theorem padTo_of_le {α : Type} (zero : α) {len : Nat} {xs : List α} (h : xs.length ≤ len) :
    padTo zero len xs = xs ++ List.replicate (len - xs.length) zero := by
  rw [padTo, List.take_append, List.take_of_length_le h, List.take_replicate, Nat.min_eq_left (by omega)]

theorem kcSetCoefficients_coef {st : KcState F32} {c : List F32} (h : c.length ≤ st.maxc) :
    KcCoef (kcSetCoefficients f32Arith st c) c where
  nc := rfl
  coef := padTo_of_le f32Zero (h.trans ((Nat.le_max_left ..).trans (le_nextpow2 _)))

/-- The model's zero-padded segment is partition `p` as R251 gives it element by element. -/
theorem segment_eq_partitionOf (f : Nat) (c : List F32) (p : Nat) : Machine.segment f32Zero f c p = partitionOf f c p := by
  refine List.ext_getElem? fun k => ?_
  by_cases hk : k < f
  · have length : ((c.drop (p * (f / 2))).take (f / 2)).length = min (f / 2) (c.length - p * (f / 2)) := by simp
    rw [Machine.segment, partitionOf, List.getElem?_map, List.getElem?_range hk, Option.map_some]
    by_cases hin : k < f / 2 ∧ p * (f / 2) + k < c.length
    · rw [if_pos hin, getElem?_padTo_of_lt _ (by omega) hk, List.getElem?_take_of_lt hin.1, List.getElem?_drop,
        List.getD_eq_getElem _ _ hin.2, List.getElem?_eq_getElem hin.2]
    · rw [if_neg hin, getElem?_padTo_of_ge _ (by omega) hk]
  · rw [List.getElem?_eq_none (by rw [Machine.segment, length_padTo]; omega),
      List.getElem?_eq_none (by rw [partitionOf, List.length_map, List.length_range]; omega)]

/-- A PC state that SETCOEF has given the coefficients `c`, before its reset (R256). -/
def pcLoaded {α : Type} (env : PcEnv α) (st : PcState α) (c : List α) : PcState α :=
  { st with
    nc := c.length, np := ceilDiv c.length st.p,
    h := transformPartitions env st.f (ceilDiv c.length st.p) st.npMax c }

section
variable {fftMaxN : Nat} {s : State}

theorem pcLoaded_coef {st : PcState F32} {c : List F32} (le : c.length ≤ st.maxc) :
    PcCoef s.plat (pcLoaded (pcEnv s) st c) c where
  nc := rfl
  np := rfl
  rows := length_transformPartitions _ _ (ceilDiv_mono _ le) c
  used := by
    intro k hk
    have hk : k < ceilDiv c.length st.p := hk
    show (transformPartitions (pcEnv s) st.f (ceilDiv c.length st.p) st.npMax c)[k]? = _
    rw [transformPartitions, List.getElem?_append_left (by simpa using hk), List.getElem?_map, List.getElem?_range hk,
      Option.map_some]
    exact congrArg (fun v => some ((fftImpl s.plat .real st.f (-1) v).map (f32Mul (f32TwoOver st.f))))
      (segment_eq_partitionOf st.f c k)
  spare := by
    intro k hlo hhi
    have hlo : ceilDiv c.length st.p ≤ k := hlo
    have hhi : k < st.npMax := hhi
    show (transformPartitions (pcEnv s) st.f (ceilDiv c.length st.p) st.npMax c)[k]? = _
    rw [transformPartitions, List.getElem?_append_right (by simpa using hlo), List.length_map, List.length_range,
      List.getElem?_replicate_of_lt (by omega)]
    rfl

/-- A reset leaves the coefficients alone. -/
theorem pcCleared_coef {p : Platform} {st : PcState F32} {c : List F32} (h : PcCoef p st c) (env : PcEnv F32) :
    PcCoef p (pcCleared env st) c := ⟨h.nc, h.np, h.rows, h.used, h.spare⟩

theorem kcReset_coef {st : KcState F32} {c : List F32} (h : KcCoef st c) : KcCoef (kcReset f32Arith st) c := ⟨h.nc, h.coef⟩

theorem pcSetCoefficients_succeeds {st : PcState F32} {c : List F32} (h : PcBase fftMaxN st) (pos : 1 ≤ c.length)
    (le : c.length ≤ st.maxc) :
    ∃ st', pcSetCoefficients (pcEnv s) st c = some st' ∧ PcCoef s.plat st' c ∧ PcAtReset st' := by
  have base : PcBase fftMaxN (pcLoaded (pcEnv s) st c) := h.withCoefficients pos le s
  exact ⟨_, base.reset_eq s, pcCleared_coef (pcLoaded_coef le) _, pcCleared_atReset base s⟩

/-- Where the coefficients of an HC instance stand: in K alone, or in K up to the threshold and in Q from there on (R365). -/
def HcCoef (p : Platform) (t : Nat) (st : HcState F32) (c : List F32) : Prop :=
  if c.length ≤ t then st.mode = .timeOnly ∧ KcCoef st.k c ∧ PcCoef p st.q [f32Zero]
  else st.mode = .hybrid ∧ KcCoef st.k (c.take t) ∧ PcCoef p st.q (c.drop t)

theorem hcSetCoefficients_succeeds {st : HcState F32} {c : List F32} (h : HcOk fftMaxN st) (pos : 1 ≤ c.length)
    (le : c.length ≤ st.maxc) :
    ∃ st', hcSetCoefficients (pcEnv s) st c = some st' ∧ HcAtReset st' ∧ HcCoef s.plat st.t st' c := by
  have base := HcBase.of_hcOk h
  have kMaxc := h.k_cfg.1
  have qMaxc := h.q_cfg.1
  unfold hcSetCoefficients HcCoef
  by_cases hc : c.length ≤ st.t
  · obtain ⟨q, hq, coef, -⟩ := pcSetCoefficients_succeeds (s := s) base.q_base (c := [f32Zero]) (Nat.le_refl 1)
      h.q_ok.maxc_pos
    have base' := base.setCoefficients .timeOnly (ck := c) (cq := [f32Zero]) pos (by omega) (Nat.le_refl 1) h.q_ok.maxc_pos hq
    rw [if_pos hc]
    refine ⟨_, Option.bind_eq_some_iff.mpr ⟨q, hq, base'.reset_eq s⟩, hcCleared_atReset base' s, ?_⟩
    rw [if_pos hc]
    exact ⟨rfl, kcReset_coef (kcSetCoefficients_coef (by omega)), pcCleared_coef coef _⟩
  · have hkPos := h.k_ok.maxc_pos
    have htake : (c.take st.t).length = st.t := List.length_take_of_le (by omega)
    have hdrop : (c.drop st.t).length = c.length - st.t := List.length_drop
    obtain ⟨q, hq, coef, -⟩ := pcSetCoefficients_succeeds (s := s) base.q_base (c := c.drop st.t) (by omega) (by omega)
    have base' := base.setCoefficients .hybrid (ck := c.take st.t) (by omega) (by omega) (by omega) (by omega) hq
    rw [if_neg hc]
    refine ⟨_, Option.bind_eq_some_iff.mpr ⟨q, hq, base'.reset_eq s⟩, hcCleared_atReset base' s, ?_⟩
    rw [if_neg hc]
    exact ⟨rfl, kcReset_coef (kcSetCoefficients_coef (by omega)), pcCleared_coef coef _⟩

/-! ### SETCOEF -/

theorem length_samplesAt (s : State) (a n : Nat) : (samplesAt s a n).length = n := samplesOf_length (length_readBytes ..)

theorem readSamples_backed {a n : Nat} (h : backedRange s.plat a (4 * n) = true) :
    readSamples s a n = .ok (samplesAt s a n) := by
  rw [readSamples, memRead, if_pos h]
  rfl

theorem readCoefficients_succeeds {maxc : Nat} (h : CoefReady s maxc) :
    readCoefficients s maxc = .ok (samplesAt s (s.arg 1) (s.arg 2)) := by
  rw [readCoefficients_eq h.coef_ne h.pos h.le h.fits, readSamples_backed h.source]

/-- The state a SETCOEF ends in. -/
def coefficientsSet (s : State) (x : Instance) (u : UnitState) : State :=
  (s.setInstance (s.arg 0) { x with unit := u }).nextDraw.complete 0

end

/-- Settles O31. -/
theorem setcoefCommandsComplete : Obligations.SetcoefCommandsComplete := by
  unfold Obligations.SetcoefCommandsComplete
  intro s x live c
  have hlen : c.length = s.arg 2 := length_samplesAt ..
  have pos {maxc : Nat} (ready : CoefReady s maxc) : 1 ≤ c.length := hlen ▸ ready.pos
  have le {maxc : Nat} (ready : CoefReady s maxc) : c.length ≤ maxc := hlen ▸ ready.le
  refine ⟨fun st hu ready => ?_, fun st hu ok ready backed => ?_, fun st hu ok ready backed => ?_⟩
  · have run : command .kcSetcoef s = .ok (coefficientsSet s x (.kc (kcSetCoefficients f32Arith st c))) := by
      simp only [command, kcSetcoef, checkHandle_kc live hu, ok_bind, readCoefficients_succeeds ready]
      rfl
    exact ⟨_, _, exec_ok run, rfl, rfl, assocGet_set_same .., rfl, kcSetCoefficients_coef (le ready), rfl⟩
  · obtain ⟨st', hset, coef, reset⟩ := pcSetCoefficients_succeeds (s := s) (.of_pcOk ok) (pos ready) (le ready)
    have run : command .pcSetcoef s = .ok (coefficientsSet s x (.pc st')) := by
      simp only [command, pcSetcoef, checkHandle_pc live hu, ok_bind, readCoefficients_succeeds ready,
        touchRings_backed backed]
      rw [hset]
      rfl
    have config := (UnitStep.pcSetcoef (pos ready) (le ready) hset).configOf_eq
    exact ⟨_, st', exec_ok run, rfl, rfl, assocGet_set_same .., config, coef, reset⟩
  · obtain ⟨st', hset, reset, coef⟩ := hcSetCoefficients_succeeds (s := s) ok (pos ready) (le ready)
    have run : command .hcSetcoef s = .ok (coefficientsSet s x (.hc st')) := by
      simp only [command, hcSetcoef, checkHandle_hc live hu, ok_bind, readCoefficients_succeeds ready,
        touchRings_backed backed]
      rw [hset]
      rfl
    have config := (UnitStep.hcSetcoef (pos ready) (le ready) hset).configOf_eq
    rw [HcCoef, hlen] at coef
    exact ⟨_, st', exec_ok run, rfl, rfl, assocGet_set_same .., config, reset, coef⟩

end Sys2Proof.Proofs
end

section
/-! SUPPORT. The number of samples a CONVOLVE answers (43_karatsuba.md R310, R322, 44_hybrid.md R368): as many as it is given. -/
namespace Sys2Proof.Proofs
open Sys2Proof.Machine Sys2Proof.Safety

theorem length_foldl_of_step {α β : Type} {g : List α → β → List α} (h : ∀ z b, (g z b).length = z.length)
    (l : List β) (z : List α) : (l.foldl g z).length = z.length := by
  induction l generalizing z with
  | nil => rfl
  | cons b l ih => rw [List.foldl_cons, ih, h]

theorem length_directProduct {α : Type} (ar : Arith α) (n : Nat) (a b : List α) :
    (directProduct ar n a b).length = 2 * n := by
  rw [directProduct, length_foldl_of_step, List.length_replicate]
  exact fun z i => length_foldl_of_step (fun z j => List.length_modify ..) _ z

/-- The product of two blocks of `2^e` samples, whatever the lengths of the lists that hold them. -/
theorem length_kmul {α : Type} (ar : Arith α) (e : Nat) (a b : List α) : (kmul ar e a b).length = 2 * 2 ^ e := by
  induction e generalizing a b with
  | zero => exact length_directProduct ar 1 a b
  | succ e ih =>
    rw [kmul]
    split
    · exact length_directProduct ..
    · simp only [List.length_append, List.length_take, List.length_drop, List.length_zipWith, ih]
      have := Nat.two_pow_pos e
      omega

theorem length_kcConvolve {st : KcState F32} (h : KcOk st) {xs : List F32} (hlen : xs.length ≤ st.maxin) :
    (kcConvolve f32Arith st xs).2.length = xs.length := by
  obtain ⟨k, hk⟩ := nextpow2_eq_two_pow (max xs.length st.nc)
  have block : max xs.length st.nc ≤ 2 ^ k := hk ▸ le_nextpow2 _
  have carry : max st.maxc st.maxin ≤ st.bmax := le_nextpow2 _
  simp only [kcConvolve, kcBlock, hk, Nat.log2_two_pow, List.length_zipWith, List.length_take, length_kmul, h.ovl_len]
  omega

theorem length_hcConvolve {fftMaxN : Nat} {s : State} {st st' : HcState F32} {xs ys : List F32} (h : HcOk fftMaxN st)
    (hlen : xs.length ≤ st.maxin) (hrun : hcConvolve (pcEnv s) st xs = some (st', ys)) : ys.length = xs.length := by
  have kLen : (kcConvolve f32Arith st.k xs).2.length = xs.length := length_kcConvolve h.k_ok (h.k_cfg.2 ▸ hlen)
  unfold hcConvolve at hrun
  split at hrun
  · cases hrun
    exact kLen
  · obtain ⟨dly1, hput, hrun⟩ := Option.bind_eq_some_iff.mp hrun
    obtain ⟨⟨xd, dly2⟩, hget, hrun⟩ := Option.bind_eq_some_iff.mp hrun
    obtain ⟨⟨q, yp⟩, hq, hrun⟩ := Option.bind_eq_some_iff.mp hrun
    cases hrun
    obtain ⟨ok1, -, -, -⟩ := ringOk_put h.dly hput
    obtain ⟨-, -, -, -, hxd, -⟩ := ringOk_get ok1 hget
    have qLen := (pcConvolve_ok h.q_ok hq).2
    rw [List.length_zipWith, qLen, hxd]
    exact (congrArg (min · xs.length) kLen).trans (Nat.min_self _)

end Sys2Proof.Proofs
end

section
/-! SUPPORT. The bytes a command touches (20_memory.md R71): a command that succeeds has found every one of them in MEM, and one
that stops has a failing code or a fault of R405 other than `internal`. -/
namespace Sys2Proof.Proofs
open Sys2Proof.Machine Sys2Proof.Safety

/-- A reason for which a command may stop in a state whose convolvers are well kept. -/
def Regular : Stop → Prop
  | .status c => c ≠ .ok
  | .fault f => f ≠ .internal

/-- The command, or the part of one, gives a value of which `P` holds, or stops for such a reason. -/
def Yields {α : Type} (P : α → Prop) (c : Cmd α) : Prop :=
  match c with
  | .ok a => P a
  | .error e => Regular e

/-! ### Parts of commands -/

section
variable {α β : Type} {s : State}

theorem yields_bind {P : α → Prop} {Q : β → Prop} {x : Cmd α} {f : α → Cmd β} (hx : Yields P x)
    (hf : ∀ a, P a → Yields Q (f a)) : Yields Q (x >>= f) := by
  cases x with
  | ok a => exact hf a hx
  | error e => exact hx

theorem yields_mono {P Q : α → Prop} {x : Cmd α} (hx : Yields P x) (h : ∀ a, P a → Q a) : Yields Q x := by
  cases x with
  | ok a => exact h a hx
  | error e => exact hx

/-- What a part says when it goes on, and why it can stop. -/
theorem yields_of {P : α → Prop} {x : Cmd α} (ok : ∀ a, x = .ok a → P a) (error : ∀ e, x = .error e → Regular e) :
    Yields P x := by
  cases x with
  | ok a => exact ok a rfl
  | error e => exact error e rfl

theorem yields_require {p : Prop} [Decidable p] {c : StatusCode} (h : c ≠ .ok) : Yields (fun _ => p) (require p c) := by
  by_cases hp : p
  · rw [require_true hp]
    exact hp
  · rw [require_false hp]
    exact h

theorem yields_faultIf {p : Prop} [Decidable p] {f : Fault} (h : f ≠ .internal) : Yields (fun _ => ¬p) (faultIf p f) := by
  by_cases hp : p
  · rw [faultIf_true hp]
    exact h
  · rw [faultIf_false hp]
    exact hp

/-- A command that checks its handle goes on with a live instance of its unit (R403). -/
theorem yields_handle {proj : UnitState → Option α} {hdl : Nat} {Q : β → Prop} {f : Instance × α → Cmd β}
    (h : ∀ x st, assocGet hdl s.insts = some x → proj x.unit = some st → Yields Q (f (x, st))) :
    Yields Q (checkHandle proj s hdl >>= f) := by
  cases hc : checkHandle proj s hdl with
  | ok p => exact h p.1 p.2 (checkHandle_ok.mp hc).1 (checkHandle_ok.mp hc).2
  | error e => rw [checkHandle_error hc]; exact StatusCode.noConfusion

theorem yields_backed {P : α → Prop} {a n : Nat} {v : α} (h : backedRange s.plat a n = true → P v) :
    Yields P (if backedRange s.plat a n then .ok v else .error (.fault .bus)) := by
  split
  · exact h ‹_›
  · exact Fault.noConfusion

theorem yields_memRead (a n : Nat) :
    Yields (fun bs => backedRange s.plat a n = true ∧ bs.length = n) (memRead s a n) :=
  yields_backed fun h => ⟨h, length_readBytes ..⟩

theorem yields_memWrite (a : Nat) (bs : List Byte) :
    Yields (fun t => backedRange s.plat a bs.length = true ∧ t.plat = s.plat) (memWrite s a bs) :=
  yields_backed fun h => ⟨h, rfl⟩

theorem yields_memZero (a n : Nat) : Yields (fun _ => backedRange s.plat a n = true) (memZero s a n) := yields_backed id

theorem yields_memHavoc (a n : Nat) : Yields (fun _ => backedRange s.plat a n = true) (memHavoc s a n) := yields_backed id

theorem yields_readSamples (a n : Nat) :
    Yields (fun xs => backedRange s.plat a (4 * n) = true ∧ xs.length = n) (readSamples s a n) :=
  yields_bind (yields_memRead ..) fun _ ⟨backed, hlen⟩ => ⟨backed, samplesOf_length hlen⟩

theorem yields_touchRings (spans : List Span) : Yields (fun _ => allBacked s.plat spans = true) (touchRings s spans) :=
  yields_of (fun _ h => touchRings_ok.mp h) fun e h => by
    rw [(touchRings_error h).2]
    exact Fault.noConfusion

/-- An internal operation that succeeds does not stop its command. -/
theorem yields_orInternal {x : Option α} (h : ∃ v, x = some v) : Yields (fun v => x = some v) (orInternal x) := by
  obtain ⟨v, rfl⟩ := h
  exact rfl

theorem yields_create {buf bsz ws : Nat} {valid : Bool} {mk : Nat → UnitState} :
    Yields (fun r => valid = true ∧ r.1 = align16 buf ∧ r.2.plat = s.plat) (createInstance s buf bsz valid ws mk) := by
  refine yields_bind (yields_require StatusCode.noConfusion) fun _ _ => ?_
  refine yields_bind (yields_require StatusCode.noConfusion) fun _ hvalid => ?_
  refine yields_bind (yields_require StatusCode.noConfusion) fun _ _ => ?_
  refine yields_bind (yields_require StatusCode.noConfusion) fun _ _ => ?_
  exact yields_bind (yields_faultIf Fault.noConfusion) fun _ _ => ⟨hvalid, rfl, rfl⟩

theorem yields_readCoefficients (maxc : Nat) :
    Yields (fun c => backedRange s.plat (s.arg 1) (4 * s.arg 2) = true ∧ 1 ≤ c.length ∧ c.length ≤ maxc)
      (readCoefficients s maxc) := by
  refine yields_bind (yields_require StatusCode.noConfusion) fun _ _ => ?_
  refine yields_bind (yields_require StatusCode.noConfusion) fun _ ⟨hpos, hle⟩ => ?_
  refine yields_bind (yields_require StatusCode.noConfusion) fun _ _ => ?_
  exact yields_mono (yields_readSamples ..) fun c ⟨backed, hlen⟩ => ⟨backed, by omega, by omega⟩

theorem yields_checkBlock (maxin : Nat) : Yields (fun _ => s.arg 3 ≤ maxin) (checkBlock s maxin) := by
  refine yields_bind (yields_require StatusCode.noConfusion) fun _ _ => ?_
  refine yields_bind (yields_require StatusCode.noConfusion) fun _ hle => ?_
  refine yields_bind (yields_require StatusCode.noConfusion) fun _ _ => ?_
  exact yields_mono (yields_faultIf Fault.noConfusion) fun _ _ => hle

theorem yields_checkView (st : RbState) (n : Nat) : Yields (fun _ => True) (checkView st n) := by
  refine yields_bind (yields_require StatusCode.noConfusion) fun _ _ => ?_
  exact yields_mono (yields_require StatusCode.noConfusion) fun _ _ => trivial

/-! ### Spans -/

theorem allBacked_cons {p : Platform} {sp : Span} {l : List Span} (h : backedRange p sp.base sp.len = true)
    (hl : allBacked p l = true) : allBacked p (sp :: l) = true := by
  rw [allBacked, List.all_cons, h]
  exact hl

theorem heldRings_eq {x : Instance} (live : assocGet (s.arg 0) s.insts = some x) :
    heldRings s = internalRings (s.arg 0) x.unit := by simp only [heldRings, live]

/-- MEM has slot `k` of a ring, and its mirror in the shadow region if it has one (R142). -/
def SlotBacked (p : Platform) (st : RbState) (k : Nat) : Prop :=
  backedRange p (st.slotAddr k) st.rs = true ∧ (k < st.mrs → backedRange p (st.slotAddr (st.size + k)) st.rs = true)

theorem yields_slotWrite {st : RbState} {k : Nat} {rec : List Byte} (hlen : rec.length = st.rs) :
    Yields (fun t => t.plat = s.plat ∧ SlotBacked s.plat st k) (slotWrite st k rec s) := by
  refine yields_bind (yields_memWrite ..) fun s1 ⟨h1, plat⟩ => ?_
  rw [hlen] at h1
  split
  · refine yields_mono (yields_memWrite ..) fun t ⟨h2, plat'⟩ => ?_
    rw [hlen, plat] at h2
    exact ⟨plat'.trans plat, h1, fun _ => h2⟩
  · rename_i hk
    exact ⟨plat, h1, fun h => absurd h hk⟩

theorem yields_putRecords {st : RbState} {count slot : Nat} {bs : List Byte} (hlen : bs.length = count * st.rs) :
    Yields (fun _ => ∀ k, k < count → SlotBacked s.plat st ((slot + k) % st.size)) (putRecords st count slot bs s) := by
  induction count generalizing slot bs s with
  | zero => exact fun k hk => absurd hk (Nat.not_lt_zero k)
  | succ count ih =>
    rw [Nat.succ_mul] at hlen
    refine yields_bind (yields_slotWrite (by rw [List.length_take]; omega)) fun s1 ⟨plat, first⟩ => ?_
    refine yields_mono (ih (by rw [List.length_drop]; omega)) fun _ rest k hk => ?_
    cases k with
    | zero => exact first
    | succ k =>
      rw [← plat, show slot + (k + 1) = slot + 1 + k by omega]
      exact rest k (by omega)

theorem allBacked_ringSpans {x : Instance} {st : RbState} (live : assocGet (s.arg 0) s.insts = some x)
    (hu : x.unit = .rb st) (h : ∀ k, k < s.arg 2 → SlotBacked s.plat st ((st.w + k) % st.size)) :
    allBacked s.plat (ringSpans s true) = true := by
  simp only [ringSpans, live, hu, if_true, allBacked, List.all_flatMap, List.all_eq_true, List.mem_range]
  intro k hk sp hsp
  obtain ⟨slot, mirror⟩ := h k hk
  rcases List.mem_cons.mp hsp with rfl | hsp
  · exact slot
  · split at hsp
    · cases List.mem_singleton.mp hsp
      exact mirror ‹_›
    · cases hsp

end

/-! ### The commands -/

/-- What a command of a state with well-kept convolvers does about the bytes it touches. -/
def Touches (i : Instr) (s : State) : Prop := Yields (fun _ => allBacked s.plat (touched i s) = true) (command i s)

section
variable {s : State}

theorem touches_destroy {σ : Type} {proj : UnitState → Option σ} :
    Yields (fun _ => allBacked s.plat (arenaAt s (s.arg 0) ++ []) = true)
      (do let (i, _) ← checkHandle proj s (s.arg 0); destroyInstance s (s.arg 0) i) := by
  refine yields_handle fun x _ live _ => ?_
  refine yields_bind (yields_memZero ..) fun _ backed => ?_
  rw [arenaAt, live]
  exact allBacked_cons backed rfl

theorem touches_query {σ : Type} {proj : UnitState → Option σ} {v : Instance × σ → Nat} :
    Yields (fun _ => allBacked s.plat [] = true)
      (do let x ← checkHandle proj s (s.arg 0); return s.complete (v x)) :=
  yields_handle fun _ _ _ _ => rfl

theorem touches_worksize {valid : Bool} {v : Nat} :
    Yields (fun _ => allBacked s.plat [] = true)
      (do require (valid = true) .invalidArgument; return s.complete v) :=
  yields_bind (yields_require StatusCode.noConfusion) fun _ _ => rfl

/-! ### The ring buffer unit -/

theorem rbCreate_touches : Touches .rbCreate s := by
  refine yields_bind yields_create fun ⟨hdl, s1⟩ ⟨_, hhdl, plat⟩ => ?_
  subst hhdl
  exact yields_bind (yields_memZero ..) fun _ backed => allBacked_cons (plat ▸ backed) rfl

theorem rbClear_touches : Touches .rbClear s := by
  refine yields_handle fun x st live hu => ?_
  refine yields_bind (yields_memZero ..) fun _ backed => ?_
  have spans : ringSpans s false = [{ base := st.d, len := st.dataLen }] := by
    simp only [ringSpans, live, asRb_eq_some.mp hu, Bool.false_eq_true, if_false]
  show allBacked s.plat ([] ++ ringSpans s false ++ []) = true
  rw [spans]
  exact allBacked_cons backed rfl

theorem rbPut_touches : Touches .rbPut s := by
  refine yields_handle fun x st live hu => ?_
  iterate 3 refine yields_bind (yields_require StatusCode.noConfusion) fun _ _ => ?_
  refine yields_bind (yields_memRead ..) fun recs ⟨source, hlen⟩ => ?_
  refine yields_bind (yields_putRecords hlen) fun _ slots => ?_
  have hu := asRb_eq_some.mp hu
  have hrs : heldRecordSize s = st.rs := by simp only [heldRecordSize, live, hu]
  show allBacked s.plat ({ base := s.arg 1, len := s.arg 2 * heldRecordSize s } :: (ringSpans s true ++ [])) = true
  rw [hrs, List.append_nil]
  exact allBacked_cons source (allBacked_ringSpans live hu slots)

theorem rbPeek_touches : Touches .rbPeek s :=
  yields_handle fun _ _ _ _ => yields_bind (yields_checkView ..) fun _ _ => rfl

theorem rbGet_touches : Touches .rbGet s :=
  yields_handle fun _ _ _ _ => yields_bind (yields_checkView ..) fun _ _ => rfl

theorem rbDpeek_touches : Touches .rbDpeek s := by
  refine yields_handle fun _ _ _ _ => ?_
  iterate 3 refine yields_bind (yields_require StatusCode.noConfusion) fun _ _ => ?_
  exact rfl

/-! ### The FFT unit -/

/-- An FFT reads and writes `x` and writes `scratch`. -/
theorem fft_touches (kind : FftKind) :
    Yields (fun _ => backedRange s.plat (s.arg 2) (4 * fftFloats kind (s.arg 0)) = true ∧
      backedRange s.plat (s.arg 3) (4 * fftFloats kind (s.arg 0)) = true) (fftCommand kind s) := by
  iterate 4 refine yields_bind (yields_require StatusCode.noConfusion) fun _ _ => ?_
  refine yields_bind (yields_faultIf Fault.noConfusion) fun _ _ => ?_
  refine yields_bind (yields_readSamples ..) fun _ ⟨x, _⟩ => ?_
  refine yields_bind (yields_memWrite ..) fun s1 ⟨_, plat⟩ => ?_
  exact yields_bind (yields_memHavoc ..) fun _ scratch => ⟨x, plat ▸ scratch⟩

theorem fftCplx_touches : Touches .fftCplx s := by
  refine yields_mono (fft_touches .cplx) fun _ ⟨x, scratch⟩ => ?_
  rw [fftFloats, ← Nat.mul_assoc] at x scratch
  exact allBacked_cons x (allBacked_cons x (allBacked_cons scratch rfl))

theorem fftReal_touches : Touches .fftReal s :=
  yields_mono (fft_touches .real) fun _ ⟨x, scratch⟩ => allBacked_cons x (allBacked_cons x (allBacked_cons scratch rfl))

/-! ### The convolvers -/

theorem kcCreate_touches : Touches .kcCreate s := yields_bind yields_create fun _ _ => rfl

theorem pcCreate_touches : Touches .pcCreate s := by
  refine yields_bind yields_create fun ⟨hdl, s1⟩ ⟨hvalid, hhdl, _⟩ => ?_
  subst hhdl
  refine yields_bind (yields_touchRings _) fun _ rings => ?_
  obtain ⟨hmaxc, hmaxin, hf, -⟩ := (validPc_iff ..).mp hvalid
  have base := pcBlank_base (s := s) hmaxc hmaxin ((validFftSize_iff ..).mpr hf)
  exact yields_bind (yields_orInternal ⟨_, base.reset_eq s⟩) fun _ _ => rings

theorem hcCreate_touches : Touches .hcCreate s := by
  refine yields_bind yields_create fun ⟨hdl, s1⟩ ⟨hvalid, hhdl, _⟩ => ?_
  subst hhdl
  refine yields_bind (yields_touchRings _) fun _ rings => ?_
  obtain ⟨hmaxc, hmaxin, hf, ht, -⟩ := (validHc_iff ..).mp hvalid
  have base := hcBlank_base (s := s) hmaxc hmaxin ((validFftSize_iff ..).mpr hf) ht
  exact yields_bind (yields_orInternal ⟨_, base.reset_eq s⟩) fun _ _ => rings

theorem kcSetcoef_touches : Touches .kcSetcoef s := by
  refine yields_handle fun x st live _ => ?_
  exact yields_bind (yields_readCoefficients _) fun c ⟨source, _, _⟩ => allBacked_cons source rfl

variable (h : ConvolversOk s)
include h

theorem kcOk_of_convolversOk {x : Instance} {st : KcState F32} (live : assocGet (s.arg 0) s.insts = some x)
    (hu : UnitState.asKc x.unit = some st) : KcOk st := by
  have := h _ (mem_of_assocGet live)
  rwa [asKc_eq_some.mp hu] at this

theorem pcOk_of_convolversOk {x : Instance} {st : PcState F32} (live : assocGet (s.arg 0) s.insts = some x)
    (hu : UnitState.asPc x.unit = some st) : PcOk s.plat.fftMaxN st := by
  have := h _ (mem_of_assocGet live)
  rwa [asPc_eq_some.mp hu] at this

theorem hcOk_of_convolversOk {x : Instance} {st : HcState F32} (live : assocGet (s.arg 0) s.insts = some x)
    (hu : UnitState.asHc x.unit = some st) : HcOk s.plat.fftMaxN st := by
  have := h _ (mem_of_assocGet live)
  rwa [asHc_eq_some.mp hu] at this

theorem pcReset_touches : Touches .pcReset s := by
  refine yields_handle fun x st live hu => ?_
  refine yields_bind (yields_touchRings _) fun _ rings => ?_
  have base := PcBase.of_pcOk (pcOk_of_convolversOk h live hu)
  refine yields_bind (yields_orInternal ⟨_, base.reset_eq s⟩) fun _ _ => ?_
  rw [← heldRings_eq live] at rings
  exact rings

theorem hcReset_touches : Touches .hcReset s := by
  refine yields_handle fun x st live hu => ?_
  refine yields_bind (yields_touchRings _) fun _ rings => ?_
  have base := HcBase.of_hcOk (hcOk_of_convolversOk h live hu)
  refine yields_bind (yields_orInternal ⟨_, base.reset_eq s⟩) fun _ _ => ?_
  rw [← heldRings_eq live] at rings
  exact rings

theorem pcSetcoef_touches : Touches .pcSetcoef s := by
  refine yields_handle fun x st live hu => ?_
  refine yields_bind (yields_readCoefficients _) fun c ⟨source, pos, le⟩ => ?_
  refine yields_bind (yields_touchRings _) fun _ rings => ?_
  obtain ⟨st', hset, -⟩ := pcSetCoefficients_succeeds (s := s) (.of_pcOk (pcOk_of_convolversOk h live hu)) pos le
  refine yields_bind (yields_orInternal ⟨st', hset⟩) fun _ _ => ?_
  rw [← heldRings_eq live] at rings
  exact allBacked_cons source rings

theorem hcSetcoef_touches : Touches .hcSetcoef s := by
  refine yields_handle fun x st live hu => ?_
  refine yields_bind (yields_readCoefficients _) fun c ⟨source, pos, le⟩ => ?_
  refine yields_bind (yields_touchRings _) fun _ rings => ?_
  obtain ⟨st', hset, -⟩ := hcSetCoefficients_succeeds (s := s) (hcOk_of_convolversOk h live hu) pos le
  refine yields_bind (yields_orInternal ⟨st', hset⟩) fun _ _ => ?_
  rw [← heldRings_eq live] at rings
  exact allBacked_cons source rings

theorem kcConvolve_touches : Touches .kcConvolve s := by
  refine yields_handle fun x st live hu => ?_
  refine yields_bind (yields_checkBlock _) fun _ hle => ?_
  split
  · rename_i hn
    show allBacked s.plat [{ base := s.arg 1, len := 4 * s.arg 3 }, { base := s.arg 2, len := 4 * s.arg 3 }] = true
    rw [hn]
    rfl
  · refine yields_bind (yields_readSamples ..) fun xs ⟨source, hlen⟩ => ?_
    refine yields_bind (yields_memWrite ..) fun _ ⟨dest, _⟩ => ?_
    have answer := length_kcConvolve (kcOk_of_convolversOk h live hu) (hlen ▸ hle)
    rw [bytesOf_length, outputSamples, length_settleNaNs, answer, hlen] at dest
    exact allBacked_cons source (allBacked_cons dest rfl)

theorem pcConvolve_touches : Touches .pcConvolve s := by
  refine yields_handle fun x st live hu => ?_
  refine yields_bind (yields_checkBlock _) fun _ hle => ?_
  refine yields_bind (yields_readSamples ..) fun xs ⟨source, hlen⟩ => ?_
  refine yields_bind (yields_touchRings _) fun _ rings => ?_
  have ok := pcOk_of_convolversOk h live hu
  refine yields_bind (yields_orInternal (pcConvolve_succeeds ok (hlen ▸ hle))) fun r hrun => ?_
  refine yields_bind (yields_memWrite ..) fun _ ⟨dest, _⟩ => ?_
  rw [bytesOf_length, (pcConvolve_ok ok hrun).2, hlen] at dest
  rw [← heldRings_eq live] at rings
  exact allBacked_cons source (allBacked_cons dest rings)

theorem hcConvolve_touches : Touches .hcConvolve s := by
  refine yields_handle fun x st live hu => ?_
  refine yields_bind (yields_checkBlock _) fun _ hle => ?_
  split
  · rename_i hn
    have spans : usedRings .hcConvolve s = [] := if_neg fun ⟨hne, _⟩ => hne hn
    show allBacked s.plat ({ base := s.arg 1, len := 4 * s.arg 3 } :: { base := s.arg 2, len := 4 * s.arg 3 } ::
      usedRings .hcConvolve s) = true
    rw [hn, spans]
    rfl
  · refine yields_bind (yields_readSamples ..) fun xs ⟨source, hlen⟩ => ?_
    refine yields_bind (yields_touchRings _) fun _ rings => ?_
    have ok := hcOk_of_convolversOk h live hu
    refine yields_bind (yields_orInternal (hcConvolve_succeeds ok (hlen ▸ hle))) fun r hrun => ?_
    refine yields_bind (yields_memWrite ..) fun _ ⟨dest, _⟩ => ?_
    rw [bytesOf_length, outputSamples, length_settleNaNs, length_hcConvolve ok (hlen ▸ hle) hrun, hlen] at dest
    refine allBacked_cons source (allBacked_cons dest ?_)
    have hybrid : heldHybrid s = decide (st.mode = .hybrid) := by simp only [heldHybrid, live, asHc_eq_some.mp hu]
    show allBacked s.plat (if s.arg 3 ≠ 0 ∧ heldHybrid s = true then heldRings s else []) = true
    rw [hybrid, heldRings_eq live]
    cases hmode : st.mode with
    | timeOnly => simp [allBacked]
    | hybrid => simpa [hmode, ‹s.arg 3 ≠ 0›] using rings

theorem command_touches (i : Instr) : Touches i s := by
  cases i with
  | rbWorksize => exact touches_worksize
  | rbCreate => exact rbCreate_touches
  | rbDestroy => exact touches_destroy
  | rbClear => exact rbClear_touches
  | rbPut => exact rbPut_touches
  | rbPeek => exact rbPeek_touches
  | rbGet => exact rbGet_touches
  | rbDpeek => exact rbDpeek_touches
  | rbRemain => exact touches_query
  | rbFree => exact touches_query
  | fftCplx => exact fftCplx_touches
  | fftReal => exact fftReal_touches
  | kcWorksize => exact touches_worksize
  | kcCreate => exact kcCreate_touches
  | kcDestroy => exact touches_destroy
  | kcReset => exact yields_handle fun _ _ _ _ => rfl
  | kcSetcoef => exact kcSetcoef_touches
  | kcConvolve => exact kcConvolve_touches h
  | kcGetlat => exact touches_query
  | pcWorksize => exact touches_worksize
  | pcCreate => exact pcCreate_touches
  | pcDestroy => exact touches_destroy
  | pcReset => exact pcReset_touches h
  | pcSetcoef => exact pcSetcoef_touches h
  | pcConvolve => exact pcConvolve_touches h
  | pcGetlat => exact touches_query
  | hcWorksize => exact touches_worksize
  | hcCreate => exact hcCreate_touches
  | hcDestroy => exact touches_destroy
  | hcReset => exact hcReset_touches h
  | hcSetcoef => exact hcSetcoef_touches h
  | hcConvolve => exact hcConvolve_touches h
  | hcGetlat => exact touches_query

end

/-! ### The statement -/

section
variable {s : State} {spans : List Span} {sp : Span} {a : Nat}

theorem allBacked_false {p : Platform} (hsp : sp ∈ spans) (ha : sp.has a = true) (unbacked : p.backed a = false) :
    allBacked p spans = false := by
  refine Bool.eq_false_iff.mpr fun hall => ?_
  rw [(allBacked_iff ..).mp hall sp hsp a ha] at unbacked
  cases unbacked

/-- A command that touches a byte outside MEM does not succeed. -/
theorem exec_of_unbacked {i : Instr} (h : ConvolversOk s) (unbacked : allBacked s.plat (touched i s) = false) :
    exec i s = .fault .bus ∨ exec i s = .fault .hostProtocol ∨
      ∃ c : StatusCode, c ≠ .ok ∧ exec i s = .next (s.raise c) := by
  have run : Yields (fun _ => allBacked s.plat (touched i s) = true) (command i s) := command_touches h i
  rw [exec_eq_finish]
  match command i s, run with
  | .ok t, backed => rw [unbacked] at backed; cases backed
  | .error (.status c), hc => exact .inr (.inr ⟨c, hc, rfl⟩)
  | .error (.fault .bus), _ => exact .inl rfl
  | .error (.fault .hostProtocol), _ => exact .inr (.inl rfl)
  | .error (.fault .internal), hf => exact absurd rfl hf

theorem memZero_unbacked {a n : Nat} (h : backedRange s.plat a n = false) : memZero s a n = .error (.fault .bus) := by
  rw [memZero, if_neg (by simp [h])]

theorem touchRings_unbacked (h : allBacked s.plat spans = false) : touchRings s spans = .error (.fault .bus) :=
  faultIf_true h _

theorem rbCreate_unbacked (h : CanCreate s (s.arg 3) (s.arg 4) (validRb (s.arg 0) (s.arg 1) (s.arg 2))
      (wsRb (s.arg 0) (s.arg 1) (s.arg 2)))
    (unbacked : backedRange s.plat (align16 (s.arg 3) + hdrSize) ((s.arg 0 + 1 + s.arg 2) * s.arg 1) = false) :
    exec .rbCreate s = .fault .bus := by
  obtain ⟨t, ht⟩ := createInstance_succeeds h fun hdl => .rb (rbFresh (s.arg 0) (s.arg 1) (s.arg 2) hdl)
  obtain ⟨-, -, -, -, -, -, heq⟩ := createInstance_ok ht
  have plat : t.plat = s.plat := by rw [heq]
  refine exec_fault (i := .rbCreate) ?_
  simp only [command, rbCreate, ht, ok_bind, memZero_unbacked (plat ▸ unbacked), error_bind]

theorem pcCreate_unbacked (h : CanCreate s (s.arg 4) (s.arg 5) (validPc s.plat.fftMaxN (s.arg 0) (s.arg 1) (s.arg 2))
      (wsPc (s.arg 0) (s.arg 1) (s.arg 2)))
    (unbacked : allBacked s.plat (pcRingSpans (align16 (s.arg 4)) (s.arg 1) (s.arg 2)) = false) :
    exec .pcCreate s = .fault .bus := by
  obtain ⟨t, ht⟩ := createInstance_succeeds h fun _ => .pc (pcBlank (pcEnv s) (s.arg 0) (s.arg 1) (s.arg 2))
  refine exec_fault (i := .pcCreate) ?_
  simp only [command, pcCreate, ht, ok_bind, touchRings_unbacked unbacked, error_bind]

theorem hcCreate_unbacked (h : CanCreate s (s.arg 4) (s.arg 5)
      (validHc s.plat.fftMaxN (s.arg 0) (s.arg 1) (s.arg 2) (thresholdOf (s.arg 3)))
      (wsHc (s.arg 0) (s.arg 1) (s.arg 2) (thresholdOf (s.arg 3))))
    (unbacked : allBacked s.plat
      (hcRingSpans (align16 (s.arg 4)) (s.arg 0) (s.arg 1) (s.arg 2) (thresholdOf (s.arg 3))) = false) :
    exec .hcCreate s = .fault .bus := by
  obtain ⟨t, ht⟩ := createInstance_succeeds h fun _ =>
    .hc (hcBlank (pcEnv s) (s.arg 0) (s.arg 1) (s.arg 2) (thresholdOf (s.arg 3)))
  refine exec_fault (i := .hcCreate) ?_
  simp only [command, hcCreate, ht, ok_bind, touchRings_unbacked unbacked, error_bind]

end

/-- Settles O25: a success has found every touched byte in MEM, and no well-kept convolver takes the internal fault. -/
theorem bytesOutsideMemoryStopACommand : Obligations.BytesOutsideMemoryStopACommand := by
  unfold Obligations.BytesOutsideMemoryStopACommand
  refine ⟨fun i s sp a h hsp ha unb => exec_of_unbacked h (allBacked_false hsp ha unb), fun s sp a ha unb => ?_⟩
  refine ⟨fun h hsp => rbCreate_unbacked h ?_,
    fun h hsp => pcCreate_unbacked h (allBacked_false hsp ha unb),
    fun h hsp => hcCreate_unbacked h (allBacked_false hsp ha unb), fun x live hsp => ?_⟩
  · obtain rfl := List.mem_singleton.mp hsp
    exact backedRange_false ((Span.has_iff ..).mp ha) unb
  have rings := touchRings_unbacked (allBacked_false hsp ha unb)
  constructor
  · rintro ⟨st, hu⟩
    refine exec_fault (i := .pcReset) ?_
    simp only [command, pcResetCommand, checkHandle_pc live hu, ok_bind, rings, error_bind]
  · rintro ⟨st, hu⟩
    refine exec_fault (i := .hcReset) ?_
    simp only [command, hcResetCommand, checkHandle_hc live hu, ok_bind, rings, error_bind]

end Sys2Proof.Proofs
end

section
/-! SUPPORT. Encoding (30_encoding.md R100 to R109): the decoder as the inverse of the encoder, the words that are no command,
and the host actions of an assembly command line as one run. -/
namespace Sys2Proof.Proofs
open Sys2Proof.Machine Sys2Proof.Safety

/-! ### A word and its bytes (R72) -/

theorem bytesOfWord32_wordOfBytes (b0 b1 b2 b3 : Byte) : bytesOfWord32 (wordOfBytes b0 b1 b2 b3) = [b0, b1, b2, b3] := by
  have e0 : (wordOfBytes b0 b1 b2 b3).extractLsb' 0 8 = b0 :=
    (BitVec.extractLsb'_append_eq_of_add_le (by decide)).trans BitVec.extractLsb'_append_eq_right
  have e1 : (wordOfBytes b0 b1 b2 b3).extractLsb' 8 8 = b1 :=
    (BitVec.extractLsb'_append_eq_of_add_le (by decide)).trans BitVec.extractLsb'_append_eq_left
  have e2 : (wordOfBytes b0 b1 b2 b3).extractLsb' 16 8 = b2 :=
    (BitVec.extractLsb'_append_eq_of_le (by decide)).trans BitVec.extractLsb'_append_eq_right
  have e3 : (wordOfBytes b0 b1 b2 b3).extractLsb' 24 8 = b3 :=
    (BitVec.extractLsb'_append_eq_of_le (by decide)).trans BitVec.extractLsb'_append_eq_left
  rw [bytesOfWord32, e0, e1, e2, e3]

theorem wordOfBytes_extractLsb' (w : Word32) :
    wordOfBytes (w.extractLsb' 0 8) (w.extractLsb' 8 8) (w.extractLsb' 16 8) (w.extractLsb' 24 8) = w := by
  have high : w.extractLsb' 24 8 ++ w.extractLsb' 16 8 = w.extractLsb' 16 16 :=
    BitVec.extractLsb'_append_extractLsb'_eq_extractLsb' rfl
  have low : w.extractLsb' 8 8 ++ w.extractLsb' 0 8 = w.extractLsb' 0 16 :=
    BitVec.extractLsb'_append_extractLsb'_eq_extractLsb' rfl
  rw [wordOfBytes, high, low]
  exact (BitVec.extractLsb'_append_extractLsb'_eq_extractLsb' rfl).trans BitVec.extractLsb'_eq_self

/-- Decoding the four bytes of a word is decoding the word. -/
theorem decode_bytesOfWord32 (w : Word32) : decode (bytesOfWord32 w) = decodeWord w := by
  rw [bytesOfWord32, decode, wordOfBytes_extractLsb']

/-! ### The fields of a word and the opcode map (R100, R102) -/

theorem ofWord_rsv_eq_zero_iff (w : Word32) : (CmdWord.ofWord w).rsv = 0 ↔ w.toNat / 256 = 0 := by
  have hlt := w.isLt
  rw [← BitVec.toNat_inj, CmdWord.ofWord, BitVec.extractLsb'_toNat, Nat.shiftRight_eq_div_pow]
  show w.toNat / 2 ^ 8 % 2 ^ 24 = 0 ↔ _
  omega

theorem ofWord_unit_toNat (w : Word32) : (CmdWord.ofWord w).unit.toNat = w.toNat / 16 % 16 := by
  rw [CmdWord.ofWord, BitVec.extractLsb'_toNat, Nat.shiftRight_eq_div_pow]

theorem ofWord_op_toNat (w : Word32) : (CmdWord.ofWord w).op.toNat = w.toNat % 16 := by
  rw [CmdWord.ofWord, BitVec.extractLsb'_toNat, Nat.shiftRight_zero]

theorem opcode_of_opcodeMap {unit op : Nat} {i : Instr} (h : opcodeMap unit op = some i) : opcode i = 16 * unit + op := by
  unfold opcodeMap at h
  split at h <;> cases h <;> rfl

/-- The map leaves out the reserved units and the unassigned operations (R106). -/
theorem opcodeMap_eq_none_iff (unit op : Nat) : opcodeMap unit op = none ↔
    unit = 0 ∨ 6 ≤ unit ∨ (unit = 1 ∧ 10 ≤ op) ∨ (unit = 2 ∧ 2 ≤ op) ∨ (3 ≤ unit ∧ 7 ≤ op) := by
  unfold opcodeMap
  split
  case h_34 => grind
  all_goals simp

theorem toNat_encode (i : Instr) : (encode i).toNat = opcode i := by
  cases i <;> rfl

/-! ### The decoder (R105) -/

/-- A word decodes to the entry of the opcode map at its unit and operation numbers, if its reserved bits are 0. -/
theorem decodeWord_eq_ok_iff {w : Word32} {i : Instr} :
    decodeWord w = .ok i ↔ w.toNat / 256 = 0 ∧ opcodeMap (w.toNat / 16 % 16) (w.toNat % 16) = some i := by
  rw [← ofWord_rsv_eq_zero_iff, ← ofWord_unit_toNat, ← ofWord_op_toNat, decodeWord]
  by_cases hrsv : (CmdWord.ofWord w).rsv = 0
  · cases hmap : opcodeMap (CmdWord.ofWord w).unit.toNat (CmdWord.ofWord w).op.toNat <;> simp [hrsv]
  · rw [if_pos hrsv]
    exact ⟨nofun, fun h => absurd h.1 hrsv⟩

/-- The word that decodes to a command is its encoding: the fields that are read fix all 32 bits. -/
theorem decodeWord_eq_ok_iff_eq_encode {w : Word32} {i : Instr} : decodeWord w = .ok i ↔ w = encode i := by
  constructor
  · intro h
    obtain ⟨hrsv, hmap⟩ := decodeWord_eq_ok_iff.mp h
    have hop := opcode_of_opcodeMap hmap
    refine BitVec.eq_of_toNat_eq ?_
    rw [toNat_encode]
    omega
  · rintro rfl
    rw [← decode_bytesOfWord32, decode_encode]

theorem decode_eq_ok_iff {bs : List Byte} {i : Instr} : decode bs = .ok i ↔ bs = bytesOfWord32 (encode i) := by
  constructor
  · fun_cases decode bs with
    | case1 b0 b1 b2 b3 =>
      intro h
      rw [← decodeWord_eq_ok_iff_eq_encode.mp h, bytesOfWord32_wordOfBytes]
    | case2 => nofun
  · rintro rfl
    exact decode_encode i

/-- A table word of 32 bits is read as its low 32 bits (log 20). -/
theorem decodeTableWord_32_eq_some_iff {w : Nat} {i : Instr} :
    decodeTableWord 32 w = some i ↔ decodeWord (BitVec.ofNat 32 (w % 2 ^ 32)) = .ok i := by
  rw [decodeTableWord, if_pos (Nat.mod_lt _ (by decide)), decode_bytesOfWord32]
  cases decodeWord (BitVec.ofNat 32 (w % 2 ^ 32)) <;> simp

/-- Settles O2: both decoders answer `i` exactly on its word. -/
theorem decodeIsInverseOfEncode : Obligations.DecodeIsInverseOfEncode := by
  unfold Obligations.DecodeIsInverseOfEncode
  refine ⟨fun bs i => decode_eq_ok_iff, fun w i => ?_⟩
  rw [decodeTableWord_32_eq_some_iff, decodeWord_eq_ok_iff_eq_encode, ← BitVec.toNat_inj, toNat_encode,
    BitVec.toNat_ofNat, Nat.mod_mod]

/-- Settles O1: each word is looked up. -/
theorem commandWordsDecode : Obligations.CommandWordsDecode := by
  unfold Obligations.CommandWordsDecode
  decide

/-! ### The words that are no command (R106) -/

theorem issueCommand_of_error {w : Word32} {r : Reject} (h : decode (bytesOfWord32 w) = .error r) (s : State) :
    issueCommand w s = .next (({ s with cmd := w, owner := none } : State).raise .illegalCommand) := by
  simp only [issueCommand, h]

/-- The words that decode to no command: a reserved bit is set, or the opcode is unassigned. -/
theorem decodeWord_ne_ok_iff (w : Word32) : (∀ i, decodeWord w ≠ .ok i) ↔
    w.toNat / 256 ≠ 0 ∨ opcodeMap (w.toNat / 16 % 16) (w.toNat % 16) = none := by
  simp only [ne_eq, decodeWord_eq_ok_iff, not_and_or, forall_or_left, Option.eq_none_iff_forall_ne_some]

/-- Settles O3: a word decodes or fails to, and the legality condition says which. -/
theorem illegalWordsFail : Obligations.IllegalWordsFail := by
  unfold Obligations.IllegalWordsFail
  intro w s rsv unit op
  have hillegal := (decodeWord_ne_ok_iff w).trans (or_congr_right (opcodeMap_eq_none_iff unit op))
  cases hdec : decode (bytesOfWord32 w) with
  | ok i =>
    rw [if_neg fun h => hillegal.mpr h i ((decode_bytesOfWord32 w).symm.trans hdec)]
    exact ⟨i, rfl⟩
  | error r =>
    rw [if_pos (hillegal.mp fun i h => nomatch hdec.symm.trans ((decode_bytesOfWord32 w).trans h))]
    exact ⟨_, issueCommand_of_error hdec s, rfl, rfl, rfl, rfl, rfl, rfl⟩

/-! ### The host actions of a command line (R109) -/

theorem run_succ_of_next {M : Host.Core} {s t : M.State} (h : M.step s = .next t) (n : Nat) :
    M.run (n + 1) s = M.run n t := by
  simp only [Host.Core.run, h]

theorem run_one (M : Host.Core) (s : M.State) : M.run 1 s = M.step s := by
  simp only [Host.Core.run]
  cases M.step s <;> rfl

/-- A step takes the oldest pending action. -/
theorem step_cons {s : State} {act : HostAction} {rest : List HostAction} (h : s.inputs = act :: rest) :
    step s = hostStep act { s with inputs := rest } := by
  simp only [step, stepHost, h]

/-- The write of a command's word to CMD runs it. -/
theorem step_write_encode {s : State} {agent : Nat} {i : Instr} {rest : List HostAction}
    (howner : s.owner = none ∨ s.owner = some agent)
    (h : s.inputs = .write agent s.plat.regBase (bytesOfWord32 (encode i)) :: rest) :
    step s = exec i { s with cmd := encode i, inputs := rest, owner := none } :=
  (step_cons h).trans ((hostStep_write_cmd (s := { s with inputs := rest }) howner _).trans
    (issueCommand_decoded (decode_encode i) _))

/-- The write of a value to an argument register sets it and opens the agent's sequence of operand writes (log 4). -/
theorem step_write_arg {s : State} {agent k : Nat} {v : Word64} {rest : List HostAction} (hk : k < 8)
    (howner : s.owner = none ∨ s.owner = some agent)
    (h : s.inputs = .write agent (s.plat.regBase + argOffset k) (bytesOfWord64 v) :: rest) :
    step s = .next { s with args := s.args.set k v, inputs := rest, owner := some agent } := by
  rw [bytesOfWord64_eq] at h
  exact (step_cons h).trans ((hostStep_write_port (s := { s with inputs := rest }) agent
    (by rw [length_bytesFrom]; exact regPort_arg hk)).trans (regWrite_arg (s := { s with inputs := rest }) howner v))

/-- The operand writes from register `k` on and the write of the command's word, run one after the other. -/
theorem run_operandWrites (agent : Nat) (i : Instr) (rest : List HostAction) (ops : List (Option Word64)) (k : Nat)
    (s : State) (hk : k + ops.length ≤ 8) (howner : s.owner = none ∨ s.owner = some agent)
    (h : s.inputs = operandWrites s.plat.regBase agent k ops ++
      .write agent s.plat.regBase (bytesOfWord32 (encode i)) :: rest) :
    core.run ((operandWrites s.plat.regBase agent k ops).length + 1) s =
      exec i { s with cmd := encode i, args := writeOperands s.args k ops, inputs := rest, owner := none } := by
  induction ops generalizing k s with
  | nil => exact (run_one core s).trans (step_write_encode howner h)
  | cons op ops ih =>
    rw [List.length_cons] at hk
    cases op with
    | none => exact ih (k + 1) s (by omega) howner h
    | some v =>
      refine (run_succ_of_next (M := core) (step_write_arg (by omega) howner h) _).trans ?_
      exact ih (k + 1) { s with args := s.args.set k v, inputs := _, owner := some agent } (by omega) (.inr rfl) rfl

/-- Settles O5: a well-formed line has at most six operands, so its writes select argument registers. -/
theorem commandLineExpansionRuns : Obligations.CommandLineExpansionRuns := by
  unfold Obligations.CommandLineExpansionRuns
  intro s agent l rest hwf howner hinputs
  have hlen : l.ops.length ≤ 6 := by
    simp only [CommandLine.wellFormed, Bool.and_eq_true, decide_eq_true_eq] at hwf
    exact hwf.2
  rw [CommandLine.expand, List.append_assoc] at hinputs
  rw [CommandLine.expand, List.length_append]
  exact run_operandWrites agent l.instr rest l.ops 0 s (by omega) howner hinputs

end Sys2Proof.Proofs
end

section
/-! SUPPORT. The slots of a ring buffer in host memory (40_ringbuffer.md R140 to R143): where a ring's data region stands, what a
slot holds after a slot write and its mirror, what a PUT stores, and what a view shows. -/
namespace Sys2Proof.Proofs
open Sys2Proof.Machine Sys2Proof.Safety

/-! ### The rings of a sound instance set -/

/-- A ring of a sound instance set: its data region lies inside its arena, in MEM and in the address space, and its cursors are
slot indexes (R40, R80, R144). -/
structure RingSound (p : Platform) (x : Instance) (st : RbState) : Prop where
  rs_pos : 1 ≤ st.rs
  mrs_le : st.mrs ≤ st.n
  r_lt   : st.r < st.size
  w_lt   : st.w < st.size
  above  : x.buf ≤ st.d
  inside : st.d + st.dataLen ≤ x.buf + x.ws
  fits   : x.buf + x.ws ≤ 2 ^ 64
  backed : backedRange p st.d st.dataLen = true

/-- The handle and the data region stand inside an arena of the ring's work size (R80, R83). -/
theorem ring_inside_arena (buf n rs mrs : Nat) :
    buf ≤ align16 buf + hdrSize ∧ align16 buf + hdrSize + (n + 1 + mrs) * rs ≤ buf + wsRb n rs mrs := by
  simp only [wsRb, align16, arenaAlign, hdrSize]
  omega

theorem ringSound_of_instancesOk {s : State} (h : InstancesOk s) {hdl : Nat} {x : Instance} {st : RbState}
    (mem : (hdl, x) ∈ s.insts) (hu : x.unit = .rb st) : RingSound s.plat x st := by
  have hx := h.each _ mem
  have hws := hx.ws_eq
  have hvalid := hx.valid
  have hcursors := hx.cursors
  rw [hu] at hws hvalid hcursors
  obtain ⟨-, hrs, -, hmrs, -⟩ := (validRb_iff ..).mp hvalid
  obtain ⟨hr, hw, hd, backed⟩ := hcursors
  obtain ⟨above, inside⟩ := ring_inside_arena x.buf st.n st.rs st.mrs
  rw [← hx.handle, ← hd] at above inside
  exact ⟨hrs, hmrs, hr, hw, above, hws ▸ inside, hx.fits, backed⟩

/-! ### Slots -/

theorem rb_size_pos (st : RbState) : 0 < st.size := Nat.succ_pos _

section
variable {st : RbState} {m m' : Memory}

/-- The slots do not overlap (R141). -/
theorem slotAddr_add_le_of_lt {j k : Nat} (h : j < k) : st.slotAddr j + st.rs ≤ st.slotAddr k := by
  have := Nat.mul_le_mul_right st.rs (Nat.succ_le_of_lt h)
  rw [Nat.succ_mul] at this
  simp only [RbState.slotAddr]
  omega

/-- The slots of the circular store and of the shadow region make up the data region (R40, R141). -/
theorem slot_in_data {k : Nat} (h : k < st.size + st.mrs) :
    st.d ≤ st.slotAddr k ∧ st.slotAddr k + st.rs ≤ st.d + st.dataLen :=
  ⟨Nat.le_add_right .., slotAddr_add_le_of_lt h⟩

theorem slotBytes_congr {k : Nat} (h : ∀ a, st.slotAddr k ≤ a → a < st.slotAddr k + st.rs → m'.read a = m.read a) :
    slotBytes m' st k = slotBytes m st k :=
  List.map_congr_left fun _ hb => h _ (Nat.le_add_right ..) (Nat.add_lt_add_left (List.mem_range.mp hb) _)

theorem slotBytes_write_same {rec : List Byte} (hlen : rec.length = st.rs) (k : Nat) :
    slotBytes (m.write (st.slotAddr k) rec) st k = rec := by
  refine List.ext_getElem (by simp [slotBytes, hlen]) fun b _ hb => ?_
  simp only [slotBytes, List.getElem_map, List.getElem_range]
  exact Memory.read_write_inside _ _ _ hb

theorem slotBytes_write_other {rec : List Byte} (hlen : rec.length = st.rs) {j k : Nat} (h : j ≠ k) :
    slotBytes (m.write (st.slotAddr k) rec) st j = slotBytes m st j := by
  refine slotBytes_congr fun a h1 h2 => Memory.read_write_outside _ _ _ ?_
  rcases Nat.lt_or_gt_of_ne h with h | h
  · have := slotAddr_add_le_of_lt (st := st) h
    omega
  · have := slotAddr_add_le_of_lt (st := st) h
    omega

/-! ### The shadow region -/

/-- The shadow slots of a ring mirror its first slots (R143). -/
def Mirrored (m : Memory) (st : RbState) : Prop :=
  ∀ j, j < st.mrs → slotBytes m st (st.size + j) = slotBytes m st j

/-- What is outside a ring's data region does not matter to its shadow slots. -/
theorem Mirrored.congr (h : Mirrored m st)
    (data : ∀ a, st.d ≤ a → a < st.d + st.dataLen → m'.read a = m.read a) : Mirrored m' st := by
  have slot {k : Nat} (hk : k < st.size + st.mrs) : slotBytes m' st k = slotBytes m st k := by
    obtain ⟨lo, hi⟩ := slot_in_data hk
    exact slotBytes_congr fun a h1 h2 => data a (by omega) (by omega)
  intro j hj
  have hsize : st.size = st.n + 1 := rfl
  rw [slot (by omega), slot (by omega), h j hj]

/-- A data region of zeros mirrors itself. -/
theorem mirrored_of_zero (data : ∀ a, st.d ≤ a → a < st.d + st.dataLen → m.read a = 0) :
    Mirrored m st := by
  have slot {k : Nat} (hk : k < st.size + st.mrs) : slotBytes m st k = List.replicate st.rs 0 := by
    obtain ⟨lo, hi⟩ := slot_in_data hk
    refine List.eq_replicate_iff.mpr ⟨by simp [slotBytes], fun v hv => ?_⟩
    obtain ⟨b, hb, rfl⟩ := List.mem_map.mp hv
    have hb := List.mem_range.mp hb
    exact data _ (by omega) (by omega)
  intro j hj
  have hsize : st.size = st.n + 1 := rfl
  rw [slot (by omega), slot (by omega)]

/-- Where the shadow slots mirror the first ones, the physical slots from a circular slot on hold the circular slots'
contents, also across the wrap (R143, R157). -/
theorem Mirrored.slotBytes_mod (h : Mirrored m st) (hmrs : st.mrs ≤ st.n) {k j : Nat} (hk : k < st.size) (hj : j < st.mrs) :
    slotBytes m st (k + j) = slotBytes m st ((k + j) % st.size) := by
  have hsize : st.size = st.n + 1 := rfl
  rcases Nat.lt_or_ge (k + j) st.size with hlt | hge
  · rw [Nat.mod_eq_of_lt hlt]
  · obtain ⟨i, hi⟩ := Nat.exists_eq_add_of_le hge
    rw [hi, Nat.add_mod_left, Nat.mod_eq_of_lt (by omega : i < st.size), h i (by omega)]

/-- A view of `n` records from slot `k` on shows the circular slots `k, k + 1, …` (R12, R143). -/
theorem Mirrored.recordsAt_eq (h : Mirrored m st) (hmrs : st.mrs ≤ st.n) {k n : Nat} (hk : k < st.size) (hn : n ≤ st.mrs) :
    recordsAt m (st.slotAddr k) st.rs n = (List.range n).map fun i => slotBytes m st ((k + i) % st.size) := by
  refine List.map_congr_left fun i hi => ?_
  have hi := List.mem_range.mp hi
  rw [← h.slotBytes_mod hmrs hk (by omega)]
  simp only [slotBytes, RbState.slotAddr, Nat.add_mul, Nat.add_assoc]

/-! ### Slot writes -/

/-- What SlotWrite stores (R142): the record in slot `k`, and in the shadow slot that mirrors it. -/
def storeSlot (st : RbState) (k : Nat) (rec : List Byte) (m : Memory) : Memory :=
  if k < st.mrs then (m.write (st.slotAddr k) rec).write (st.slotAddr (st.size + k)) rec
  else m.write (st.slotAddr k) rec

/-- The spans of slot `k` and of its mirror. -/
def slotSpans (st : RbState) (k : Nat) : List Span :=
  { base := st.slotAddr k, len := st.rs } ::
    (if k < st.mrs then [{ base := st.slotAddr (st.size + k), len := st.rs }] else [])

/-- The address lies in none of the spans. -/
def Outside (spans : List Span) (a : Nat) : Prop := ∀ sp ∈ spans, a < sp.base ∨ sp.base + sp.len ≤ a

theorem slotSpans_in_data {k : Nat} (hk : k < st.size) {sp : Span} (hsp : sp ∈ slotSpans st k) :
    st.d ≤ sp.base ∧ sp.base + sp.len ≤ st.d + st.dataLen := by
  rcases List.mem_cons.mp hsp with rfl | hsp
  · exact slot_in_data (by omega)
  · split at hsp
    · cases List.mem_singleton.mp hsp
      exact slot_in_data (by omega)
    · cases hsp

theorem slotWrite_mem {k : Nat} {rec : List Byte} {s t : State} (h : slotWrite st k rec s = .ok t) :
    t.mem = storeSlot st k rec s.mem := by
  obtain ⟨s1, h1, h⟩ := bind_ok h
  obtain ⟨-, rfl⟩ := memWrite_ok h1
  unfold storeSlot
  split at h
  · rw [if_pos ‹_›, (memWrite_ok h).2]
  · cases h
    rw [if_neg ‹_›]

theorem storeSlot_outside {k a : Nat} {rec : List Byte} (hlen : rec.length ≤ st.rs) (h : Outside (slotSpans st k) a) :
    (storeSlot st k rec m).read a = m.read a := by
  have slot := h _ List.mem_cons_self
  simp only at slot
  unfold storeSlot
  split
  · have mirror := h { base := st.slotAddr (st.size + k), len := st.rs } (by simp [slotSpans, *])
    simp only at mirror
    rw [Memory.read_write_outside _ _ _ (by omega), Memory.read_write_outside _ _ _ (by omega)]
  · exact Memory.read_write_outside _ _ _ (by omega)

/-- After a slot write the slots whose circular index is the written one hold the record, and every other slot what it held. -/
theorem slotBytes_storeSlot (hmrs : st.mrs ≤ st.n) {j k : Nat} {rec : List Byte} (hlen : rec.length = st.rs) (hk : k < st.size)
    (hj : j < st.size + st.mrs) :
    slotBytes (storeSlot st k rec m) st j = if j % st.size = k then rec else slotBytes m st j := by
  have hsize : st.size = st.n + 1 := rfl
  have circular : j % st.size = k ↔ j = k ∨ j = st.size + k := by
    rcases Nat.lt_or_ge j st.size with hlt | hge
    · rw [Nat.mod_eq_of_lt hlt]
      omega
    · rw [Nat.mod_eq_sub_mod hge, Nat.mod_eq_of_lt (by omega)]
      omega
  unfold storeSlot
  split
  · by_cases hmirror : j = st.size + k
    · rw [if_pos (circular.mpr (.inr hmirror)), hmirror, slotBytes_write_same hlen]
    · rw [slotBytes_write_other hlen hmirror]
      by_cases hslot : j = k
      · rw [if_pos (circular.mpr (.inl hslot)), hslot, slotBytes_write_same hlen]
      · rw [slotBytes_write_other hlen hslot, if_neg (by omega)]
  · by_cases hslot : j = k
    · rw [if_pos (circular.mpr (.inl hslot)), hslot, slotBytes_write_same hlen]
    · rw [slotBytes_write_other hlen hslot, if_neg (by omega)]

theorem Mirrored.storeSlot (h : Mirrored m st) (hmrs : st.mrs ≤ st.n) {k : Nat} {rec : List Byte} (hlen : rec.length = st.rs)
    (hk : k < st.size) : Mirrored (storeSlot st k rec m) st := by
  intro j hj
  have hsize : st.size = st.n + 1 := rfl
  rw [slotBytes_storeSlot hmrs hlen hk (by omega), slotBytes_storeSlot hmrs hlen hk (by omega), Nat.add_mod_left, h j hj]

/-! ### PUT -/

/-- What the slot writes of a PUT store (R149). -/
def storeRecords (st : RbState) : Nat → Nat → List Byte → Memory → Memory
  | 0, _, _, m => m
  | count + 1, slot, bs, m =>
    storeRecords st count (slot + 1) (bs.drop st.rs) (storeSlot st (slot % st.size) (bs.take st.rs) m)

theorem putRecords_mem {count slot : Nat} {bs : List Byte} {s t : State} (h : putRecords st count slot bs s = .ok t) :
    t.mem = storeRecords st count slot bs s.mem := by
  induction count generalizing slot bs s with
  | zero => cases h; rfl
  | succ count ih =>
    obtain ⟨s1, h1, h⟩ := bind_ok h
    rw [ih h, slotWrite_mem h1, storeRecords]

theorem storeRecords_outside {count slot a : Nat} {bs : List Byte}
    (h : ∀ k, k < count → Outside (slotSpans st ((slot + k) % st.size)) a) :
    (storeRecords st count slot bs m).read a = m.read a := by
  induction count generalizing slot bs m with
  | zero => rfl
  | succ count ih =>
    have rest : ∀ k, k < count → Outside (slotSpans st ((slot + 1 + k) % st.size)) a := by
      intro k hk
      rw [Nat.add_assoc, Nat.add_comm 1]
      exact h (k + 1) (by omega)
    rw [storeRecords, ih rest]
    exact storeSlot_outside (List.length_take_le ..) (h 0 (by omega))

/-- The first record and the rest of the source bytes of a PUT. -/
theorem length_take_drop_records {count : Nat} {bs : List Byte} (hlen : bs.length = (count + 1) * st.rs) :
    (bs.take st.rs).length = st.rs ∧ (bs.drop st.rs).length = count * st.rs := by
  rw [Nat.succ_mul] at hlen
  simp [hlen]

theorem Mirrored.storeRecords (h : Mirrored m st) (hmrs : st.mrs ≤ st.n) {count slot : Nat} {bs : List Byte}
    (hlen : bs.length = count * st.rs) : Mirrored (storeRecords st count slot bs m) st := by
  induction count generalizing slot bs m with
  | zero => exact h
  | succ count ih =>
    obtain ⟨first, rest⟩ := length_take_drop_records hlen
    exact ih (h.storeSlot hmrs first (Nat.mod_lt _ (rb_size_pos st))) rest

/-! ### Slot writes in MEM -/

theorem backedRange_within {p : Platform} {a n b k : Nat} (h : backedRange p a n = true) (lo : a ≤ b) (hi : b + k ≤ a + n) :
    backedRange p b k = true := by
  refine (backedRange_iff ..).mpr fun i hi' => ?_
  have := (backedRange_iff ..).mp h (b - a + i) (by omega)
  rwa [← Nat.add_assoc, Nat.add_sub_cancel' lo] at this

theorem memWrite_backed {s : State} {a : Nat} {bs : List Byte} (h : backedRange s.plat a bs.length = true) :
    memWrite s a bs = .ok { s with mem := s.mem.write a bs } := if_pos h

theorem slotWrite_backed {s : State} (backed : backedRange s.plat st.d st.dataLen = true) {k : Nat}
    {rec : List Byte} (hlen : rec.length = st.rs) (hk : k < st.size) :
    slotWrite st k rec s = .ok { s with mem := storeSlot st k rec s.mem } := by
  have slot {j : Nat} (hj : j < st.size + st.mrs) : backedRange s.plat (st.slotAddr j) rec.length = true := by
    obtain ⟨lo, hi⟩ := slot_in_data hj
    exact backedRange_within backed lo (hlen ▸ hi)
  rw [slotWrite, memWrite_backed (slot (by omega)), ok_bind]
  unfold storeSlot
  split
  · exact memWrite_backed (slot (by omega))
  · rfl

theorem putRecords_backed {s : State} (backed : backedRange s.plat st.d st.dataLen = true) {count slot : Nat}
    {bs : List Byte} (hlen : bs.length = count * st.rs) :
    putRecords st count slot bs s = .ok { s with mem := storeRecords st count slot bs s.mem } := by
  induction count generalizing slot bs s with
  | zero => rfl
  | succ count ih =>
    obtain ⟨first, rest⟩ := length_take_drop_records hlen
    rw [putRecords, slotWrite_backed backed first (Nat.mod_lt _ (rb_size_pos st)), ok_bind]
    exact ih (s := { s with mem := storeSlot st (slot % st.size) (bs.take st.rs) s.mem }) backed rest

/-! ### The queue -/

theorem mod_add_ne {r i j m : Nat} (h : i < j) (hj : j < m) : (r + i) % m ≠ (r + j) % m := by
  intro heq
  have := (Nat.ModEq.add_left_cancel' r heq).eq_of_lt_of_lt (h.trans hj) hj
  omega

/-- Counting the distance from `r` to `w` off from `r` ends at `w`. -/
theorem add_subMod_mod {w r m : Nat} (hw : w < m) (hr : r < m) : (r + subMod w r m) % m = w := by
  rcases Nat.lt_or_ge w r with h | h
  · rw [subMod_of_lt h hr, show r + (w + m - r) = w + m by omega, Nat.add_mod_right, Nat.mod_eq_of_lt hw]
  · rw [subMod_of_le h hw, Nat.add_sub_cancel' h, Nat.mod_eq_of_lt hw]

/-- A slot write at the write cursor appends its record behind the unread ones (R149, R156). -/
theorem unread_storeSlot (hmrs : st.mrs ≤ st.n) {k : Nat} {rec : List Byte} (hlen : rec.length = st.rs) (hr : st.r < st.size)
    (hk : k < st.size) (room : subMod k st.r st.size + 1 < st.size) :
    unread (storeSlot st k rec m) { st with w := (k + 1) % st.size } = unread m { st with w := k } ++ [rec] := by
  have level : RbState.remaining { st with w := (k + 1) % st.size } = subMod k st.r st.size + 1 := subMod_add_left room
  have after (i : Nat) : slotBytes (storeSlot st k rec m) st ((st.r + i) % st.size) =
      if (st.r + i) % st.size = k then rec else slotBytes m st ((st.r + i) % st.size) := by
    have hi := Nat.mod_lt (st.r + i) (rb_size_pos st)
    rw [slotBytes_storeSlot hmrs hlen hk (by omega), Nat.mod_mod]
  rw [unread, level, List.range_succ, List.map_append]
  refine congrArg₂ _ (List.map_congr_left fun i hi => ?_) (congrArg (fun v => [v]) ?_)
  · refine (after i).trans (if_neg ?_)
    rw [← add_subMod_mod hk hr]
    exact mod_add_ne (List.mem_range.mp hi) (by omega)
  · exact (after _).trans (if_pos (add_subMod_mod hk hr))

/-- The slot writes of a PUT append its records, in order (R149, R156). -/
theorem unread_storeRecords (hmrs : st.mrs ≤ st.n) (hr : st.r < st.size) {count slot : Nat} {bs : List Byte}
    (hlen : bs.length = count * st.rs) (room : subMod (slot % st.size) st.r st.size + count < st.size) :
    unread (storeRecords st count slot bs m) { st with w := (slot + count) % st.size } =
      unread m { st with w := slot % st.size } ++ recordsOf st.rs count bs := by
  induction count generalizing slot bs m with
  | zero => exact (List.append_nil _).symm
  | succ count ih =>
    obtain ⟨first, rest⟩ := length_take_drop_records hlen
    have hnext : (slot % st.size + 1) % st.size = (slot + 1) % st.size := Nat.mod_add_mod ..
    have level : subMod ((slot + 1) % st.size) st.r st.size = subMod (slot % st.size) st.r st.size + 1 := by
      rw [← hnext]
      exact subMod_add_left (by omega)
    have head := unread_storeSlot (m := m) hmrs first hr (Nat.mod_lt slot (rb_size_pos st)) (by omega)
    rw [hnext] at head
    rw [storeRecords, recordsOf, show slot + (count + 1) = slot + 1 + count by omega, ih rest (by omega), head,
      List.append_assoc, List.singleton_append]

end

end Sys2Proof.Proofs
end

section
/-! SUPPORT. What a command that succeeds has stored in host memory (20_memory.md R71, R88, 40_ringbuffer.md R142 to R149): read off
each command's body once, with the rings its instance set holds. The frame of every command and the shadow invariant follow. -/
namespace Sys2Proof.Proofs
open Sys2Proof.Machine Sys2Proof.Safety

/-- Every ring of the instance set `l` is a ring of `s` with the same arena and configuration; its cursors may have moved. -/
def RingsFrom (s : State) (l : List (Nat × Instance)) : Prop :=
  ∀ p ∈ l, ∀ st, p.2.unit = .rb st → ∃ r w, (p.1, { p.2 with unit := .rb { st with r := r, w := w } }) ∈ s.insts

/-- What a successful command has stored: nothing; bytes of its destinations, which meet no live arena (R88); a new ring's zeros;
an arena's or a data region's zeros; or a PUT's records. -/
inductive StoreEffect (i : Instr) (s t : State) : Prop
  | keep (mem : t.mem = s.mem) (rings : RingsFrom s t.insts)
  | apart (frame : ∀ a, Outside (destinations i s) a → t.mem.read a = s.mem.read a)
      (clear : ∀ sp ∈ destinations i s, s.meetsArena sp.base sp.len = false) (rings : RingsFrom s t.insts)
  | rbCreate {buf n rs mrs : Nat} (dest : destinations i s = [{ base := buf, len := wsRb n rs mrs }])
      (clear : s.meetsArena buf (wsRb n rs mrs) = false)
      (mem : t.mem = (s.mem.havoc s.draws buf (wsRb n rs mrs)).zeroFill (align16 buf + hdrSize) ((n + 1 + mrs) * rs))
      (insts : t.insts = assocSet (align16 buf)
        { buf := buf, ws := wsRb n rs mrs, unit := .rb (rbFresh n rs mrs (align16 buf)) } s.insts)
  | destroy {x : Instance} (live : assocGet (s.arg 0) s.insts = some x)
      (dest : destinations i s = [{ base := x.buf, len := x.ws }]) (mem : t.mem = s.mem.zeroFill x.buf x.ws)
      (insts : t.insts = assocDrop (s.arg 0) 1 s.insts)
  | rbClear {x : Instance} {st : RbState} (live : assocGet (s.arg 0) s.insts = some x) (unit : x.unit = .rb st)
      (dest : destinations i s = [{ base := st.d, len := st.dataLen }]) (mem : t.mem = s.mem.zeroFill st.d st.dataLen)
      (insts : t.insts = assocSet (s.arg 0) { x with unit := .rb { st with r := 0, w := 0 } } s.insts)
  | rbPut {x : Instance} {st : RbState} {n w : Nat} {bs : List Byte} (live : assocGet (s.arg 0) s.insts = some x)
      (unit : x.unit = .rb st) (len : bs.length = n * st.rs)
      (dest : destinations i s = (List.range n).flatMap fun k => slotSpans st ((st.w + k) % st.size))
      (mem : t.mem = storeRecords st n st.w bs s.mem)
      (insts : t.insts = assocSet (s.arg 0) { x with unit := .rb { st with w := w } } s.insts)

/-! ### The rings of an instance set -/

section
variable {s : State}

theorem ringsFrom_self (s : State) : RingsFrom s s.insts := fun p hp st hu => ⟨st.r, st.w, by rw [← hu]; exact hp⟩

/-- An instance that is no ring may be set. -/
theorem ringsFrom_set {hdl : Nat} {x : Instance} (h : x.unit.asRb = none) : RingsFrom s (assocSet hdl x s.insts) := by
  intro p hp st hu
  rcases mem_assocSet hp with rfl | hp
  · rw [hu] at h
    cases h
  · exact ringsFrom_self s p hp st hu

/-- A ring's cursors may be moved. -/
theorem ringsFrom_cursors {x : Instance} {st : RbState} (live : assocGet (s.arg 0) s.insts = some x) (unit : x.unit = .rb st)
    (r w : Nat) : RingsFrom s (assocSet (s.arg 0) { x with unit := .rb { st with r := r, w := w } } s.insts) := by
  intro p hp st' hu
  rcases mem_assocSet hp with rfl | hp
  · cases hu
    exact ⟨st.r, st.w, by rw [← unit]; exact mem_of_assocGet live⟩
  · exact ringsFrom_self s p hp st' hu

/-! ### The shapes of the commands -/

variable {t : State} {i : Instr}

theorem StoreEffect.answer (i : Instr) (s : State) (v : Nat) : StoreEffect i s (s.complete v) := .keep rfl (ringsFrom_self s)

theorem StoreEffect.of_require {p : Prop} [Decidable p] {c : StatusCode} {v : Nat}
    (h : (do require p c; return s.complete v : Cmd State) = .ok t) : StoreEffect i s t := by
  obtain ⟨_, _, h⟩ := bind_ok h
  cases h
  exact .answer i s v

theorem StoreEffect.of_query {σ : Type} {proj : UnitState → Option σ} {v : Instance × σ → Nat}
    (h : (do let x ← checkHandle proj s (s.arg 0); return s.complete (v x) : Cmd State) = .ok t) : StoreEffect i s t := by
  obtain ⟨x, _, h⟩ := bind_ok h
  cases h
  exact .answer i s _

theorem StoreEffect.of_destroy {σ : Type} {proj : UnitState → Option σ} (dest : destinations i s = arenaAt s (s.arg 0))
    (h : (do let (x, _) ← checkHandle proj s (s.arg 0); destroyInstance s (s.arg 0) x : Cmd State) = .ok t) :
    StoreEffect i s t := by
  obtain ⟨⟨x, st⟩, hx, h⟩ := bind_ok h
  obtain ⟨-, rfl⟩ := destroyInstance_ok h
  have live := (checkHandle_ok.mp hx).1
  exact .destroy live (by rw [dest, arenaAt, live]) rfl rfl

/-- A command that changes the instance at A0, no ring, and no memory. -/
theorem StoreEffect.of_change {u : UnitState} (x : Instance) (mem : t.mem = s.mem)
    (insts : t.insts = assocSet (s.arg 0) { x with unit := u } s.insts) (hu : u.asRb = none) : StoreEffect i s t :=
  .keep mem (insts ▸ ringsFrom_set hu)

/-- A CREATE of a convolver. -/
theorem StoreEffect.of_create {buf ws hdl : Nat} {x : Instance} (dest : destinations i s = [{ base := buf, len := ws }])
    (clear : s.meetsArena buf ws = false) (mem : t.mem = s.mem.havoc s.draws buf ws)
    (insts : t.insts = assocSet hdl x s.insts) (hx : x.unit.asRb = none) : StoreEffect i s t := by
  refine .apart (fun a ha => ?_) (fun sp hsp => ?_) (insts ▸ ringsFrom_set hx)
  · rw [mem]
    exact Memory.read_havoc_outside _ _ _ _ (ha _ (dest ▸ List.mem_cons_self))
  · rw [dest] at hsp
    cases List.mem_singleton.mp hsp
    exact clear

/-- A CONVOLVE: at most the operand count of samples goes to the output. -/
theorem StoreEffect.of_convolve {u : UnitState} {x : Instance} {ys : List F32}
    (dest : destinations i s = [{ base := s.arg 2, len := 4 * s.arg 3 }])
    (clear : s.meetsArena (s.arg 2) (4 * s.arg 3) = false) (hlen : ys.length ≤ s.arg 3)
    (mem : t.mem = s.mem.write (s.arg 2) (bytesOf ys))
    (insts : t.insts = assocSet (s.arg 0) { x with unit := u } s.insts) (hu : u.asRb = none) : StoreEffect i s t := by
  refine .apart (fun a ha => ?_) (fun sp hsp => ?_) (insts ▸ ringsFrom_set hu)
  · have out : a < s.arg 2 ∨ s.arg 2 + 4 * s.arg 3 ≤ a := ha _ (dest ▸ List.mem_cons_self)
    rw [mem, Memory.read_write_outside _ _ _ (by rw [bytesOf_length]; omega)]
  · rw [dest] at hsp
    cases List.mem_singleton.mp hsp
    exact clear

theorem checkBlock_clear {maxin : Nat} {u : Unit} (h : checkBlock s maxin = .ok u) :
    s.meetsArena (s.arg 2) (4 * s.arg 3) = false := by
  obtain ⟨_, _, h⟩ := bind_ok h
  obtain ⟨_, _, h⟩ := bind_ok h
  obtain ⟨_, _, h⟩ := bind_ok h
  simpa using faultIf_ok h

/-! ### The ring buffer unit -/

theorem rbCreate_stores (h : rbCreate s = .ok t) : StoreEffect .rbCreate s t := by
  obtain ⟨⟨hdl, s1⟩, h1, h⟩ := bind_ok h
  obtain ⟨-, -, -, -, clear, rfl, rfl⟩ := createInstance_ok h1
  obtain ⟨s2, h2, h⟩ := bind_ok h
  obtain ⟨-, rfl⟩ := memZero_ok h2
  cases h
  exact .rbCreate rfl clear rfl rfl

theorem rbClear_stores (h : rbClear s = .ok t) : StoreEffect .rbClear s t := by
  obtain ⟨⟨x, st⟩, hx, h⟩ := bind_ok h
  obtain ⟨s1, h1, h⟩ := bind_ok h
  obtain ⟨-, rfl⟩ := memZero_ok h1
  cases h
  obtain ⟨live, hu⟩ := checkHandle_ok.mp hx
  have hu := asRb_eq_some.mp hu
  exact .rbClear live hu (by simp only [destinations, ringSpans, live, hu, Bool.false_eq_true, if_false]) rfl rfl

theorem rbPut_stores (h : rbPut s = .ok t) : StoreEffect .rbPut s t := by
  obtain ⟨⟨x, st⟩, hx, h⟩ := bind_ok h
  obtain ⟨_, _, h⟩ := bind_ok h
  obtain ⟨_, _, h⟩ := bind_ok h
  obtain ⟨_, _, h⟩ := bind_ok h
  obtain ⟨recs, hread, h⟩ := bind_ok h
  obtain ⟨s1, h1, h⟩ := bind_ok h
  obtain ⟨live, hu⟩ := checkHandle_ok.mp hx
  have hu := asRb_eq_some.mp hu
  have hlen : recs.length = s.arg 2 * st.rs := by rw [(memRead_ok hread).2, length_readBytes]
  have insts : s1.insts = s.insts := by rw [putRecords_ok h1]
  cases h
  have mem := putRecords_mem h1
  refine .rbPut live hu hlen ?_ mem (congrArg _ insts)
  simp only [destinations, ringSpans, live, hu, if_true]
  rfl

theorem rbPeek_stores (h : rbPeek s = .ok t) : StoreEffect .rbPeek s t := by
  obtain ⟨_, _, h⟩ := bind_ok h
  obtain ⟨_, _, h⟩ := bind_ok h
  cases h
  exact .answer ..

theorem rbGet_stores (h : rbGet s = .ok t) : StoreEffect .rbGet s t := by
  obtain ⟨⟨x, st⟩, hx, h⟩ := bind_ok h
  obtain ⟨_, _, h⟩ := bind_ok h
  cases h
  obtain ⟨live, hu⟩ := checkHandle_ok.mp hx
  exact .keep rfl (ringsFrom_cursors live (asRb_eq_some.mp hu) _ _)

theorem rbDpeek_stores (h : rbDpeek s = .ok t) : StoreEffect .rbDpeek s t := by
  obtain ⟨_, _, h⟩ := bind_ok h
  obtain ⟨_, _, h⟩ := bind_ok h
  obtain ⟨_, _, h⟩ := bind_ok h
  obtain ⟨_, _, h⟩ := bind_ok h
  cases h
  exact .answer ..

/-! ### The FFT unit -/

theorem length_toComplex {n : Nat} {v : List F32} (h : v.length = 2 * n) : (toComplex v).length = n := by
  induction n generalizing v with
  | zero => simp_all [toComplex]
  | succ n ih =>
    match v, h with
    | re :: im :: v, h =>
      simp only [List.length_cons] at h
      rw [toComplex, List.length_cons, ih (by omega)]

/-- Every transform answers as many floats as its operand holds, whichever function `fftImpl` is. -/
theorem length_fftImpl {p : Platform} {kind : FftKind} {n : Nat} {flag : Int} {v : List F32}
    (valid : validFft p.fftMaxN kind n flag = true) (hlen : v.length = fftFloats kind n) :
    (fftImpl p kind n flag v).length = fftFloats kind n := by
  simp only [validFft, Bool.and_eq_true, decide_eq_true_eq] at valid
  obtain ⟨⟨⟨pow, low⟩, high⟩, -⟩ := valid
  cases kind with
  | real => exact length_fftImpl_real p (fftMaxN := p.fftMaxN) (by simpa [validFftSize, pow, high] using low) flag v
  | cplx =>
    obtain ⟨e, rfl⟩ := (ispow2_iff n).mp pow
    unfold fftImpl
    split
    · simp
    · split
      · rw [length_settleNaNs, fftReference, length_ofComplex, length_cfftRef _ (length_toComplex hlen)]
        rfl
      · simp

theorem fftCommand_stores {kind : FftKind} (dest : destinations i s =
      [{ base := s.arg 2, len := 4 * fftFloats kind (s.arg 0) }, { base := s.arg 3, len := 4 * fftFloats kind (s.arg 0) }])
    (h : fftCommand kind s = .ok t) : StoreEffect i s t := by
  obtain ⟨_, _, h⟩ := bind_ok h
  obtain ⟨_, hvalid, h⟩ := bind_ok h
  obtain ⟨_, _, h⟩ := bind_ok h
  obtain ⟨_, _, h⟩ := bind_ok h
  obtain ⟨_, hclear, h⟩ := bind_ok h
  obtain ⟨v, hread, h⟩ := bind_ok h
  obtain ⟨s1, h1, h⟩ := bind_ok h
  obtain ⟨-, rfl⟩ := memWrite_ok h1
  obtain ⟨s2, h2, h⟩ := bind_ok h
  obtain ⟨-, rfl⟩ := memHavoc_ok h2
  cases h
  have hlen := length_fftImpl (require_ok hvalid) (readSamples_ok hread).2.2
  obtain ⟨clearX, clearScratch⟩ := not_or.mp (faultIf_ok hclear)
  refine .apart (fun a ha => ?_) (fun sp hsp => ?_) (ringsFrom_self s)
  · rw [dest] at ha
    have scratch := ha _ (List.mem_cons_of_mem _ List.mem_cons_self)
    have x := ha _ List.mem_cons_self
    exact (Memory.read_havoc_outside _ _ _ _ scratch).trans
      (Memory.read_write_outside _ _ _ (by rw [bytesOf_length, hlen]; exact x))
  · rw [dest] at hsp
    rcases List.mem_cons.mp hsp with rfl | hsp
    · simpa using clearX
    · cases List.mem_singleton.mp hsp
      simpa using clearScratch

/-! ### The Karatsuba convolver -/

theorem kcCreate_stores (h : kcCreate s = .ok t) : StoreEffect .kcCreate s t := by
  obtain ⟨⟨hdl, s1⟩, h1, h⟩ := bind_ok h
  obtain ⟨-, -, -, -, clear, rfl, rfl⟩ := createInstance_ok h1
  cases h
  exact .of_create rfl clear rfl rfl rfl

theorem kcResetCommand_stores (h : kcResetCommand s = .ok t) : StoreEffect .kcReset s t := by
  obtain ⟨⟨x, st⟩, _, h⟩ := bind_ok h
  cases h
  exact .of_change x rfl rfl rfl

theorem kcSetcoef_stores (h : kcSetcoef s = .ok t) : StoreEffect .kcSetcoef s t := by
  obtain ⟨⟨x, st⟩, _, h⟩ := bind_ok h
  obtain ⟨c, _, h⟩ := bind_ok h
  cases h
  exact .of_change x rfl rfl rfl

theorem length_kcConvolve_le (st : KcState F32) (xs : List F32) : (kcConvolve f32Arith st xs).2.length ≤ xs.length := by
  simp only [kcConvolve, List.length_zipWith, List.length_take]
  omega

theorem kcConvolveCommand_stores (h : kcConvolveCommand s = .ok t) : StoreEffect .kcConvolve s t := by
  obtain ⟨⟨x, st⟩, _, h⟩ := bind_ok h
  obtain ⟨_, hblock, h⟩ := bind_ok h
  split at h
  · cases h
    exact .answer ..
  · obtain ⟨xs, hread, h⟩ := bind_ok h
    obtain ⟨s1, h1, h⟩ := bind_ok h
    obtain ⟨-, rfl⟩ := memWrite_ok h1
    cases h
    have hlen := length_kcConvolve_le st xs
    rw [(readSamples_ok hread).2.2] at hlen
    exact .of_convolve rfl (checkBlock_clear hblock) (by rwa [outputSamples, length_settleNaNs]) rfl rfl rfl

/-! ### The partitioned convolver -/

theorem pcCreate_stores (h : pcCreate s = .ok t) : StoreEffect .pcCreate s t := by
  obtain ⟨⟨hdl, s1⟩, h1, h⟩ := bind_ok h
  obtain ⟨-, -, -, -, clear, rfl, rfl⟩ := createInstance_ok h1
  obtain ⟨_, _, h⟩ := bind_ok h
  obtain ⟨st, _, h⟩ := bind_ok h
  cases h
  exact .of_create rfl clear rfl (assocSet_assocSet ..) rfl

theorem pcResetCommand_stores (h : pcResetCommand s = .ok t) : StoreEffect .pcReset s t := by
  obtain ⟨⟨x, st⟩, _, h⟩ := bind_ok h
  obtain ⟨_, _, h⟩ := bind_ok h
  obtain ⟨st', _, h⟩ := bind_ok h
  cases h
  exact .of_change x rfl rfl rfl

theorem pcSetcoef_stores (h : pcSetcoef s = .ok t) : StoreEffect .pcSetcoef s t := by
  obtain ⟨⟨x, st⟩, _, h⟩ := bind_ok h
  obtain ⟨c, _, h⟩ := bind_ok h
  obtain ⟨_, _, h⟩ := bind_ok h
  obtain ⟨st', _, h⟩ := bind_ok h
  cases h
  exact .of_change x rfl rfl rfl

theorem length_ringGet_le {α : Type} {q q' : SampleRing α} {n : Nat} {vs : List α} (h : ringGet q n = some (vs, q')) :
    vs.length ≤ n := by
  unfold ringGet ringPeek at h
  split at h
  · cases h
  · rename_i hpeek
    cases h
    split at hpeek
    · cases hpeek
    · split at hpeek <;> cases hpeek
      exact List.length_take_le ..

theorem length_pcConvolve_le {env : PcEnv F32} {st : PcState F32} {xs : List F32} {r : PcState F32 × List F32}
    (h : pcConvolve env st xs = some r) : r.2.length ≤ xs.length := by
  obtain ⟨_, _, h⟩ := Option.bind_eq_some_iff.mp h
  obtain ⟨_, _, h⟩ := Option.bind_eq_some_iff.mp h
  obtain ⟨_, hget, h⟩ := Option.bind_eq_some_iff.mp h
  cases h
  exact length_ringGet_le hget

theorem pcConvolveCommand_stores (h : pcConvolveCommand s = .ok t) : StoreEffect .pcConvolve s t := by
  obtain ⟨⟨x, st⟩, _, h⟩ := bind_ok h
  obtain ⟨_, hblock, h⟩ := bind_ok h
  obtain ⟨xs, hread, h⟩ := bind_ok h
  obtain ⟨_, _, h⟩ := bind_ok h
  obtain ⟨r, hrun, h⟩ := bind_ok h
  obtain ⟨s1, h1, h⟩ := bind_ok h
  obtain ⟨-, rfl⟩ := memWrite_ok h1
  cases h
  have hlen := length_pcConvolve_le (orInternal_ok hrun)
  rw [(readSamples_ok hread).2.2] at hlen
  exact .of_convolve rfl (checkBlock_clear hblock) hlen rfl rfl rfl

/-! ### The hybrid convolver -/

theorem hcCreate_stores (h : hcCreate s = .ok t) : StoreEffect .hcCreate s t := by
  obtain ⟨⟨hdl, s1⟩, h1, h⟩ := bind_ok h
  obtain ⟨-, -, -, -, clear, rfl, rfl⟩ := createInstance_ok h1
  obtain ⟨_, _, h⟩ := bind_ok h
  obtain ⟨st, _, h⟩ := bind_ok h
  cases h
  exact .of_create rfl clear rfl (assocSet_assocSet ..) rfl

theorem hcResetCommand_stores (h : hcResetCommand s = .ok t) : StoreEffect .hcReset s t := by
  obtain ⟨⟨x, st⟩, _, h⟩ := bind_ok h
  obtain ⟨_, _, h⟩ := bind_ok h
  obtain ⟨st', _, h⟩ := bind_ok h
  cases h
  exact .of_change x rfl rfl rfl

theorem hcSetcoef_stores (h : hcSetcoef s = .ok t) : StoreEffect .hcSetcoef s t := by
  obtain ⟨⟨x, st⟩, _, h⟩ := bind_ok h
  obtain ⟨c, _, h⟩ := bind_ok h
  obtain ⟨_, _, h⟩ := bind_ok h
  obtain ⟨st', _, h⟩ := bind_ok h
  cases h
  exact .of_change x rfl rfl rfl

theorem length_hcConvolve_le {s : State} {st : HcState F32} {xs : List F32} {r : HcState F32 × List F32}
    (h : hcConvolve (pcEnv s) st xs = some r) : r.2.length ≤ xs.length := by
  have kLen := length_kcConvolve_le st.k xs
  unfold hcConvolve at h
  split at h
  · cases h
    exact kLen
  · obtain ⟨_, _, h⟩ := Option.bind_eq_some_iff.mp h
    obtain ⟨_, _, h⟩ := Option.bind_eq_some_iff.mp h
    obtain ⟨_, _, h⟩ := Option.bind_eq_some_iff.mp h
    cases h
    rw [List.length_zipWith]
    exact (Nat.min_le_left ..).trans kLen

theorem hcConvolveCommand_stores (h : hcConvolveCommand s = .ok t) : StoreEffect .hcConvolve s t := by
  obtain ⟨⟨x, st⟩, _, h⟩ := bind_ok h
  obtain ⟨_, hblock, h⟩ := bind_ok h
  split at h
  · cases h
    exact .answer ..
  · obtain ⟨xs, hread, h⟩ := bind_ok h
    obtain ⟨_, _, h⟩ := bind_ok h
    obtain ⟨r, hrun, h⟩ := bind_ok h
    obtain ⟨s1, h1, h⟩ := bind_ok h
    obtain ⟨-, rfl⟩ := memWrite_ok h1
    cases h
    have hlen := length_hcConvolve_le (orInternal_ok hrun)
    rw [(readSamples_ok hread).2.2] at hlen
    exact .of_convolve rfl (checkBlock_clear hblock) (by rwa [outputSamples, length_settleNaNs]) rfl rfl rfl

/-! ### Every command -/

theorem command_stores {i : Instr} (h : command i s = .ok t) : StoreEffect i s t := by
  cases i with
  | rbWorksize => exact .of_require h
  | rbCreate => exact rbCreate_stores h
  | rbDestroy => exact .of_destroy rfl h
  | rbClear => exact rbClear_stores h
  | rbPut => exact rbPut_stores h
  | rbPeek => exact rbPeek_stores h
  | rbGet => exact rbGet_stores h
  | rbDpeek => exact rbDpeek_stores h
  | rbRemain => exact .of_query h
  | rbFree => exact .of_query h
  | fftCplx => exact fftCommand_stores (by simp only [destinations, fftFloats, ← Nat.mul_assoc]) h
  | fftReal => exact fftCommand_stores rfl h
  | kcWorksize => exact .of_require h
  | kcCreate => exact kcCreate_stores h
  | kcDestroy => exact .of_destroy rfl h
  | kcReset => exact kcResetCommand_stores h
  | kcSetcoef => exact kcSetcoef_stores h
  | kcConvolve => exact kcConvolveCommand_stores h
  | kcGetlat => exact .of_query h
  | pcWorksize => exact .of_require h
  | pcCreate => exact pcCreate_stores h
  | pcDestroy => exact .of_destroy rfl h
  | pcReset => exact pcResetCommand_stores h
  | pcSetcoef => exact pcSetcoef_stores h
  | pcConvolve => exact pcConvolveCommand_stores h
  | pcGetlat => exact .of_query h
  | hcWorksize => exact .of_require h
  | hcCreate => exact hcCreate_stores h
  | hcDestroy => exact .of_destroy rfl h
  | hcReset => exact hcResetCommand_stores h
  | hcSetcoef => exact hcSetcoef_stores h
  | hcConvolve => exact hcConvolveCommand_stores h
  | hcGetlat => exact .of_query h

end

end Sys2Proof.Proofs
end

section
/-! SUPPORT. The memory frame of every command (20_memory.md, 40_ringbuffer.md R142 to R149), DESTROY, and the shadow invariant of the
rings (R143) along a step. -/
namespace Sys2Proof.Proofs
open Sys2Proof.Machine Sys2Proof.Safety

/-! ### The frame of a command -/

section
variable {i : Instr} {s t : State} {a : Nat}

/-- A command stores nothing outside its destinations. -/
theorem StoreEffect.frame (h : StoreEffect i s t) (out : Outside (destinations i s) a) : t.mem.read a = s.mem.read a := by
  cases h with
  | keep mem => rw [mem]
  | apart frame => exact frame a out
  | @rbCreate buf n rs mrs dest _ mem =>
    have arena : a < buf ∨ buf + wsRb n rs mrs ≤ a := out _ (dest ▸ List.mem_cons_self)
    obtain ⟨above, inside⟩ := ring_inside_arena buf n rs mrs
    rw [mem, Memory.read_zeroFill, if_neg (by omega), Memory.read_havoc_outside _ _ _ _ arena]
  | @destroy x _ dest mem =>
    have arena : a < x.buf ∨ x.buf + x.ws ≤ a := out _ (dest ▸ List.mem_cons_self)
    rw [mem, Memory.read_zeroFill, if_neg (by omega)]
  | @rbClear x st _ _ dest mem =>
    have data : a < st.d ∨ st.d + st.dataLen ≤ a := out _ (dest ▸ List.mem_cons_self)
    rw [mem, Memory.read_zeroFill, if_neg (by omega)]
  | rbPut _ _ _ dest mem =>
    rw [mem, storeRecords_outside]
    exact fun k hk sp hsp => out sp (dest ▸ List.mem_flatMap.mpr ⟨k, List.mem_range.mpr hk, hsp⟩)

end

/-- Settles O20: a success stores in its destinations alone, and a failure stores nothing. -/
theorem commandsWriteOnlyTheirDestinations : Obligations.CommandsWriteOnlyTheirDestinations := by
  unfold Obligations.CommandsWriteOnlyTheirDestinations
  intro i s t h a out
  rw [exec_eq_finish] at h
  rcases finish_next h with h | ⟨c, -, rfl⟩
  · exact (command_stores h).frame out
  · rfl

/-! ### DESTROY -/

theorem destroy_completes {s : State} {i : Instr} {x : Instance} {σ : Type} {proj : UnitState → Option σ} {st : σ}
    (hi : command i s = (do let (x, _) ← checkHandle proj s (s.arg 0); destroyInstance s (s.arg 0) x))
    (live : assocGet (s.arg 0) s.insts = some x) (unit : proj x.unit = some st)
    (backed : backedRange s.plat x.buf x.ws = true) :
    ∃ t, exec i s = .next t ∧ t.status = 0 ∧ t.res = 0 ∧ assocGet (s.arg 0) t.insts = none ∧
      ∀ a, x.buf ≤ a → a < x.buf + x.ws → t.mem.read a = 0 := by
  have handle : checkHandle proj s (s.arg 0) = .ok (x, st) := checkHandle_ok.mpr ⟨live, unit⟩
  have run : command i s =
      .ok ((State.removeInstance { s with mem := s.mem.zeroFill x.buf x.ws } (s.arg 0)).complete 0) := by
    simp only [hi, handle, ok_bind, destroyInstance, memZero_backed backed]
    rfl
  refine ⟨_, exec_ok run, rfl, rfl, ?_, fun a lo hi => (Memory.read_zeroFill ..).trans (if_pos ⟨lo, hi⟩)⟩
  exact (assocGet_drop ..).trans (if_pos (by omega))

/-- Settles O29: the command is the DESTROY of the unit the handle holds. -/
theorem destroyCommandsComplete : Obligations.DestroyCommandsComplete := by
  unfold Obligations.DestroyCommandsComplete
  intro s i x hi live hunit backed
  simp only [List.mem_cons, List.not_mem_nil, or_false] at hi
  rcases hi with rfl | rfl | rfl | rfl
  · cases hu : x.unit with
    | rb st => exact destroy_completes rfl live (asRb_eq_some.mpr hu) backed
    | _ => rw [hu] at hunit; cases hunit
  · cases hu : x.unit with
    | kc st => exact destroy_completes rfl live (asKc_eq_some.mpr hu) backed
    | _ => rw [hu] at hunit; cases hunit
  · cases hu : x.unit with
    | pc st => exact destroy_completes rfl live (asPc_eq_some.mpr hu) backed
    | _ => rw [hu] at hunit; cases hunit
  · cases hu : x.unit with
    | hc st => exact destroy_completes rfl live (asHc_eq_some.mpr hu) backed
    | _ => rw [hu] at hunit; cases hunit

/-! ### The shadow invariant along a command -/

section
variable {i : Instr} {s t : State}

/-- No byte of a live arena lies in spans that meet none. -/
theorem outside_of_clear {spans : List Span} (clear : ∀ sp ∈ spans, s.meetsArena sp.base sp.len = false) {p : Nat × Instance}
    (hp : p ∈ s.insts) {a : Nat} (ha : p.2.arenaHas a = true) : Outside spans a := by
  intro sp hsp
  by_contra inside
  have := (meetsArena_false_iff s sp.base sp.len).mp (clear sp hsp) p hp a (by omega) (by omega)
  rw [ha] at this
  cases this

/-- No byte of a live arena lies in spans inside the arena at another handle (R89). -/
theorem outside_of_other_arena (hs : InstancesOk s) {spans : List Span} {p q : Nat × Instance} (hp : p ∈ s.insts)
    (hq : q ∈ s.insts) (hne : p.1 ≠ q.1)
    (inside : ∀ sp ∈ spans, q.2.buf ≤ sp.base ∧ sp.base + sp.len ≤ q.2.buf + q.2.ws) {a : Nat} (ha : p.2.arenaHas a = true) :
    Outside spans a := by
  intro sp hsp
  by_contra within
  have apart := disjoint_of_instancesOk hs hp hq hne
  have hq := inside sp hsp
  rw [(rangesMeet_iff ..).mpr ⟨a, by simpa [Instance.arenaHas] using ha, by omega⟩] at apart
  cases apart

/-- The shadow slots of a ring whose arena a command leaves alone stay mirrored. -/
theorem StoreEffect.mirrored (h : StoreEffect i s t) (hs : InstancesOk s) (shadow : ShadowOk s) {p : Nat × Instance}
    (hp : p ∈ s.insts) {st : RbState} (hu : p.2.unit = .rb st)
    (out : ∀ a, p.2.arenaHas a = true → Outside (destinations i s) a) : Mirrored t.mem st := by
  have ring := ringSound_of_instancesOk hs hp hu
  have := ring.above
  have := ring.inside
  have kept : Mirrored s.mem st := shadow p hp st hu
  refine kept.congr fun a lo hi => h.frame (out a ?_)
  simp only [Instance.arenaHas, Bool.and_eq_true, decide_eq_true_eq]
  omega

/-- An entry of an updated map is the new one, or one at another key. -/
theorem mem_assocSet_of_rising {β : Type} {k : Nat} {v : β} {l : List (Nat × β)} (rising : assocRising l) {p : Nat × β}
    (h : p ∈ assocSet k v l) : p = (k, v) ∨ p ∈ l ∧ p.1 ≠ k := by
  by_cases hk : p.1 = k
  · have value : assocGet k (assocSet k v l) = some p.2 := assocGet_of_mem (assocRising_set k v rising) (hk ▸ h)
    rw [assocGet_set_same] at value
    exact .inl (Prod.ext hk (Option.some.inj value).symm)
  · exact .inr ⟨(mem_assocSet h).resolve_left (mt (congrArg Prod.fst) hk), hk⟩

theorem StoreEffect.shadowOk (h : StoreEffect i s t) (hs : InstancesOk s) (shadow : ShadowOk s) : ShadowOk t := by
  intro p hp st hu
  show Mirrored t.mem st
  have kept {q : Nat × Instance} (hq : q ∈ s.insts) {st : RbState} (hu : q.2.unit = .rb st)
      (out : ∀ a, q.2.arenaHas a = true → Outside (destinations i s) a) : Mirrored t.mem st :=
    h.mirrored hs shadow hq hu out
  have elsewhere {x : Instance} (live : assocGet (s.arg 0) s.insts = some x)
      (inside : ∀ sp ∈ destinations i s, x.buf ≤ sp.base ∧ sp.base + sp.len ≤ x.buf + x.ws)
      (old : p ∈ s.insts ∧ p.1 ≠ s.arg 0) : Mirrored t.mem st :=
    kept old.1 hu fun a => outside_of_other_arena hs old.1 (mem_of_assocGet live) old.2 inside
  cases h with
  | keep mem rings =>
    obtain ⟨r, w, hp⟩ := rings p hp st hu
    rw [mem]
    exact shadow _ hp { st with r := r, w := w } rfl
  | apart frame clear rings =>
    obtain ⟨r, w, hp⟩ := rings p hp st hu
    exact kept hp (st := { st with r := r, w := w }) rfl fun a => outside_of_clear clear hp
  | @rbCreate buf n rs mrs dest clear mem insts =>
    rcases mem_assocSet (insts ▸ hp) with rfl | hp
    · cases hu
      refine mirrored_of_zero fun a lo hi => ?_
      rw [mem]
      exact (Memory.read_zeroFill ..).trans (if_pos ⟨lo, hi⟩)
    · refine kept hp hu fun a => outside_of_clear ?_ hp
      rw [dest]
      simpa using clear
  | destroy live dest mem insts =>
    obtain ⟨hp, other⟩ := List.mem_filter.mp (insts ▸ hp)
    refine elsewhere live (by simp [dest]) ⟨hp, ?_⟩
    simp only [Bool.or_eq_true, decide_eq_true_eq] at other
    omega
  | rbClear live unit dest mem insts =>
    have ring := ringSound_of_instancesOk hs (mem_of_assocGet live) unit
    rcases mem_assocSet_of_rising hs.rising (insts ▸ hp) with rfl | old
    · cases hu
      refine mirrored_of_zero fun a lo hi => ?_
      rw [mem]
      exact (Memory.read_zeroFill ..).trans (if_pos ⟨lo, hi⟩)
    · exact elsewhere live (by simp [dest, ring.above, ring.inside]) old
  | @rbPut x st' n w bs live unit len dest mem insts =>
    have ring := ringSound_of_instancesOk hs (mem_of_assocGet live) unit
    rcases mem_assocSet_of_rising hs.rising (insts ▸ hp) with rfl | old
    · cases hu
      have before : Mirrored s.mem st' := shadow _ (mem_of_assocGet live) st' unit
      rw [mem]
      exact before.storeRecords ring.mrs_le len
    · refine elsewhere live (fun sp hsp => ?_) old
      rw [dest] at hsp
      obtain ⟨k, -, hsp⟩ := List.mem_flatMap.mp hsp
      obtain ⟨lo, hi⟩ := slotSpans_in_data (Nat.mod_lt _ (rb_size_pos st')) hsp
      have := ring.above
      have := ring.inside
      omega

theorem exec_shadowOk (h : exec i s = .next t) (hs : InstancesOk s) (shadow : ShadowOk s) : ShadowOk t := by
  rw [exec_eq_finish] at h
  rcases finish_next h with h | ⟨c, -, rfl⟩
  · exact (command_stores h).shadowOk hs shadow
  · exact shadow

/-! ### The shadow invariant along a step -/

theorem issueCommand_shadowOk {w : Word32} (h : issueCommand w s = .next t) (hs : InstancesOk s) (shadow : ShadowOk s) :
    ShadowOk t := by
  unfold issueCommand at h
  split at h
  · exact exec_shadowOk h ⟨hs.rising, hs.each, hs.disjoint⟩ shadow
  · cases h
    exact shadow

theorem regWrite_shadowOk {agent : Nat} {data : List Byte} {port : RegPort} (h : regWrite agent data s port = .next t)
    (hs : InstancesOk s) (shadow : ShadowOk s) : ShadowOk t := by
  cases port with
  | cmd =>
    simp only [regWrite] at h
    split at h
    · cases h
    · exact issueCommand_shadowOk h hs shadow
  | arg k =>
    simp only [regWrite] at h
    split at h <;> cases h
    exact shadow
  | argHalf k high =>
    simp only [regWrite] at h
    split at h <;> cases h
    exact shadow
  | status => cases h; exact shadow
  | res => cases h; exact shadow
  | resHalf high => cases h; exact shadow
  | reserved => cases h; exact shadow

/-- A host write to memory goes to no live arena (R87). -/
theorem hostWrite_shadowOk {agent addr : Nat} {data : List Byte} (h : hostWrite agent addr data s = .next t)
    (hs : InstancesOk s) (shadow : ShadowOk s) : ShadowOk t := by
  unfold hostWrite at h
  split at h
  · split at h
    · exact regWrite_shadowOk h hs shadow
    · cases h
  · split at h
    · cases h
    · rename_i clear
      split at h <;> cases h
      intro p hp st hu
      have ring := ringSound_of_instancesOk hs hp hu
      have kept : Mirrored s.mem st := shadow p hp st hu
      refine kept.congr fun a lo hi => Memory.read_write_outside _ _ _ ?_
      by_contra inside
      have := ring.above
      have := ring.inside
      exact clear (meetsArena_of_byte hp (a := a) (by omega) (by omega))

theorem hostStep_shadowOk {act : HostAction} (h : hostStep act s = .next t) (hs : InstancesOk s) (shadow : ShadowOk s) :
    ShadowOk t := by
  cases act with
  | read addr width =>
    simp only [hostStep, hostRead] at h
    split at h
    · split at h <;> cases h
      exact shadow
    · split at h <;> cases h
      exact shadow
  | write agent addr data => exact hostWrite_shadowOk h hs shadow
  | reset =>
    cases h
    exact fun p hp => absurd hp List.not_mem_nil

end

/-- Settles O58: what stores into a ring's data region stores the mirrored slot too, or zeros. -/
theorem shadowStaysMirrored : Obligations.ShadowStaysMirrored := by
  unfold Obligations.ShadowStaysMirrored
  refine ⟨fun s t hs shadow h => ?_, fun s hdl x st hs shadow hx hu slot j hslot hj => ?_⟩
  · unfold step stepHost at h
    split at h
    · cases h
      exact shadow
    · exact hostStep_shadowOk h ⟨hs.rising, hs.each, hs.disjoint⟩ shadow
  · have mirrored : Mirrored s.mem st := shadow _ hx st hu
    exact mirrored.slotBytes_mod (ringSound_of_instancesOk hs hx hu).mrs_le hslot hj

end Sys2Proof.Proofs
end

section
/-! SUPPORT. The ring buffer's commands on a live ring (40_ringbuffer.md R148 to R158): what each answers, the queue of unread records
it leaves, and the order of its checks. -/
namespace Sys2Proof.Proofs
open Sys2Proof.Machine Sys2Proof.Safety

section
variable {s : State} {x : Instance} {st : RbState}

theorem checkHandle_rb (live : assocGet (s.arg 0) s.insts = some x) (hu : x.unit = .rb st) :
    checkHandle UnitState.asRb s (s.arg 0) = .ok (x, st) := checkHandle_ok.mpr ⟨live, asRb_eq_some.mpr hu⟩

theorem exec_raise {i : Instr} {c : StatusCode} (h : command i s = .error (.status c)) : exec i s = .next (s.raise c) := by
  rw [exec_eq_finish, h]
  rfl

end

/-! ### CLEAR -/

/-- Settles O33: the data region of a ring of a sound instance set is in MEM. -/
theorem rbClearCompletes : Obligations.RbClearCompletes := by
  unfold Obligations.RbClearCompletes
  intro s x st hs live hu
  have ring := ringSound_of_instancesOk hs (mem_of_assocGet live) hu
  have run : command .rbClear s = .ok ((State.setInstance { s with mem := s.mem.zeroFill st.d st.dataLen } (s.arg 0)
      { x with unit := .rb { st with r := 0, w := 0 } }).complete 0) := by
    simp only [command, rbClear, checkHandle_rb live hu, ok_bind, memZero_backed ring.backed]
    rfl
  exact ⟨_, exec_ok run, rfl, rfl, assocGet_set_same ..,
    fun a lo hi => (Memory.read_zeroFill ..).trans (if_pos ⟨lo, hi⟩)⟩

/-! ### PUT -/

section
variable {s : State} {x : Instance} {st : RbState}

/-- The room of a ring is what its level leaves of its capacity (R40). -/
theorem remaining_add_free (st : RbState) : st.remaining + st.free = st.n := by
  have level : st.remaining < st.size := subMod_lt _ _ (rb_size_pos st)
  have hsize : st.size = st.n + 1 := rfl
  rw [RbState.free]
  omega

theorem memRead_backed {a n : Nat} (h : backedRange s.plat a n = true) : memRead s a n = .ok (s.readBytes a n) := if_pos h

/-- A PUT with room for its records stores the source's bytes and moves the write cursor (R149). -/
theorem rbPut_run (ring : RingSound s.plat x st) (live : assocGet (s.arg 0) s.insts = some x) (hu : x.unit = .rb st)
    (hsrc : s.arg 1 ≠ 0) (hfits : s.arg 1 + s.arg 2 * st.rs ≤ addrLimit) (hfree : s.arg 2 ≤ st.free)
    (source : backedRange s.plat (s.arg 1) (s.arg 2 * st.rs) = true) :
    command .rbPut s = .ok ((State.setInstance
      { s with mem := storeRecords st (s.arg 2) st.w (s.readBytes (s.arg 1) (s.arg 2 * st.rs)) s.mem } (s.arg 0)
      { x with unit := .rb { st with w := (st.w + s.arg 2) % st.size } }).nextDraw.complete 0) := by
  simp only [command, rbPut, checkHandle_rb live hu, ok_bind, require_true hsrc, require_true hfits, require_true hfree,
    memRead_backed source, putRecords_backed ring.backed (length_readBytes ..)]
  rfl

end

/-- Settles O34: the source is read before any slot is written, so what it overlaps does not matter. -/
theorem rbPutAppendsRecords : Obligations.RbPutAppendsRecords := by
  unfold Obligations.RbPutAppendsRecords
  intro s x st hs live hu hsrc hfits hfree source
  have ring := ringSound_of_instancesOk hs (mem_of_assocGet live) hu
  have level := remaining_add_free st
  have hw : st.w % st.size = st.w := Nat.mod_eq_of_lt ring.w_lt
  have room : subMod (st.w % st.size) st.r st.size + s.arg 2 < st.size := by
    rw [hw]
    show st.remaining + s.arg 2 < st.n + 1
    omega
  have queue := unread_storeRecords (m := s.mem) ring.mrs_le ring.r_lt
    (length_readBytes s (s.arg 1) (s.arg 2 * st.rs)) room
  rw [hw] at queue
  exact ⟨_, exec_ok (rbPut_run ring live hu hsrc hfits hfree source), rfl, rfl, assocGet_set_same .., queue⟩

/-! ### Views -/

section
variable {s : State} {x : Instance} {st : RbState}

theorem checkView_passes {n : Nat} (hmrs : n ≤ st.mrs) (hrem : n ≤ st.remaining) : checkView st n = .ok () := by
  rw [checkView, require_true hmrs, require_true hrem]
  rfl

/-- The address of a slot of the circular store fits RES. -/
theorem RingSound.toNat_slotAddr {p : Platform} (ring : RingSound p x st) {k : Nat} (hk : k < st.size) :
    (BitVec.ofNat 64 (st.slotAddr k)).toNat = st.slotAddr k := by
  have := ring.inside
  have := ring.fits
  have := ring.rs_pos
  obtain ⟨-, hi⟩ := slot_in_data (st := st) (k := k) (by omega)
  rw [BitVec.toNat_ofNat, Nat.mod_eq_of_lt (by omega)]

/-- The `n` oldest records are the circular slots from the read cursor on (R140). -/
theorem take_unread (m : Memory) {n : Nat} (h : n ≤ st.remaining) :
    (unread m st).take n = (List.range n).map fun i => slotBytes m st ((st.r + i) % st.size) := by
  rw [unread, ← List.map_take, List.take_range, Nat.min_eq_left h]

/-- A ring whose read cursor has gone on by `n` slots holds the records behind the first `n` (R151). -/
theorem unread_advance (m : Memory) {n : Nat} (hr : st.r < st.size) (hw : st.w < st.size) (h : n ≤ st.remaining) :
    unread m { st with r := (st.r + n) % st.size } = (unread m st).drop n := by
  have level : RbState.remaining { st with r := (st.r + n) % st.size } = st.remaining - n := subMod_add_right hw hr h
  rw [unread, level, unread]
  refine List.ext_getElem (by simp) fun i _ _ => ?_
  simp only [List.getElem_map, List.getElem_range, List.getElem_drop]
  show slotBytes m st (((st.r + n) % st.size + i) % st.size) = _
  rw [Nat.mod_add_mod, Nat.add_assoc]

end

/-- Settles O35: the view's physical slots hold the circular slots' contents, because the shadow slots are mirrored. -/
theorem rbGetReturnsOldestRecords : Obligations.RbGetReturnsOldestRecords := by
  unfold Obligations.RbGetReturnsOldestRecords
  intro s x st hs shadow live hu hmrs hrem view st'
  have mem := mem_of_assocGet live
  have ring := ringSound_of_instancesOk hs mem hu
  have mirrored : Mirrored s.mem st := shadow _ mem st hu
  have peek : command .rbPeek s = .ok (s.complete (st.slotAddr st.r)) := by
    simp only [command, rbPeek, checkHandle_rb live hu, ok_bind, checkView_passes hmrs hrem]
    rfl
  have get : command .rbGet s =
      .ok ((s.setInstance (s.arg 0) { x with unit := .rb st' }).complete (st.slotAddr st.r)) := by
    simp only [command, rbGet, checkHandle_rb live hu, ok_bind, checkView_passes hmrs hrem]
    rfl
  have res := ring.toNat_slotAddr ring.r_lt
  refine ⟨?_, ⟨_, exec_ok peek, rfl, res⟩, ⟨_, exec_ok get, rfl, res, rfl, assocGet_set_same .., ?_⟩⟩
  · rw [take_unread _ hrem]
    exact mirrored.recordsAt_eq ring.mrs_le ring.r_lt hmrs
  · exact unread_advance _ ring.r_lt ring.w_lt hrem

/-- Settles O36: as for O35, from the delayed slot on. -/
theorem rbDelayedPeekView : Obligations.RbDelayedPeekView := by
  unfold Obligations.RbDelayedPeekView
  intro s x st hs shadow live hu hdelay hmrs hrem first
  have mem := mem_of_assocGet live
  have ring := ringSound_of_instancesOk hs mem hu
  have mirrored : Mirrored s.mem st := shadow _ mem st hu
  have hsize : st.size = st.n + 1 := rfl
  have hfirst : subMod st.r (s.arg 2) st.size = first := by
    rw [subMod, Nat.mod_eq_of_lt (by omega : s.arg 2 < st.size), ← Nat.add_sub_assoc (by omega)]
    rfl
  have hlt : first < st.size := Nat.mod_lt _ (rb_size_pos st)
  have run : command .rbDpeek s = .ok (s.complete (st.slotAddr first)) := by
    simp only [command, rbDpeek, checkHandle_rb live hu, ok_bind, require_true hdelay, require_true hmrs,
      require_true hrem, hfirst]
    rfl
  have res := ring.toNat_slotAddr hlt
  refine ⟨_, exec_ok run, rfl, res, ?_⟩
  rw [State.complete_res, res]
  exact mirrored.recordsAt_eq ring.mrs_le hlt hmrs

/-! ### The counts -/

section
variable {s : State} {x : Instance} {st : RbState}

/-- A ring's capacity is less than its work size, and fits RES (R83, R90). -/
theorem RingSound.capacity_lt {p : Platform} (ring : RingSound p x st) : st.n < 2 ^ 64 := by
  have := ring.inside
  have := ring.fits
  have hdata : st.size + st.mrs ≤ st.dataLen := Nat.le_mul_of_pos_right _ ring.rs_pos
  have hsize : st.size = st.n + 1 := rfl
  omega

/-- The level of a ring whose cursors are slot indexes (R40). -/
theorem remaining_eq (hr : st.r < st.size) (hw : st.w < st.size) :
    st.remaining = if st.r ≤ st.w then st.w - st.r else st.w + (st.n + 1) - st.r := by
  split
  · exact subMod_of_le ‹_› hw
  · exact subMod_of_lt (by omega) hr

end

/-- Settles O37. -/
theorem rbCountsSumToCapacity : Obligations.RbCountsSumToCapacity := by
  unfold Obligations.RbCountsSumToCapacity
  intro s x st hs live hu remain
  have ring := ringSound_of_instancesOk hs (mem_of_assocGet live) hu
  have capacity := ring.capacity_lt
  have level := remaining_add_free st
  have toNat {v : Nat} (hv : v ≤ st.n) : (BitVec.ofNat 64 v).toNat = v := by
    rw [BitVec.toNat_ofNat, Nat.mod_eq_of_lt (by omega)]
  have runRemain : command .rbRemain s = .ok (s.complete st.remaining) := by
    simp only [command, rbRemain, checkHandle_rb live hu, ok_bind]
    rfl
  have runFree : command .rbFree s = .ok (s.complete st.free) := by
    simp only [command, rbFree, checkHandle_rb live hu, ok_bind]
    rfl
  have resRemain := toNat (v := st.remaining) (by omega)
  refine ⟨_, _, exec_ok runRemain, rfl, resRemain.trans (remaining_eq ring.r_lt ring.w_lt), exec_ok runFree, rfl, ?_⟩
  rw [State.complete_res, State.complete_res, resRemain, toNat (by omega), level]

/-! ### The order of the checks -/

section
variable {s : State} {x : Instance} {st : RbState}

theorem checkView_exceeds_required {n : Nat} (h : st.mrs < n) :
    checkView st n = .error (.status .exceedsMaxRequiredSize) := by
  rw [checkView, require_false (by omega), error_bind]

theorem checkView_exceeds_remaining {n : Nat} (hmrs : n ≤ st.mrs) (h : st.remaining < n) :
    checkView st n = .error (.status .exceedsRemainingData) := by
  rw [checkView, require_true hmrs, ok_bind, require_false (by omega)]

/-- PEEK and GET on a live ring stop where the checks of their view do (R150, R151). -/
theorem view_error {i : Instr} (hi : i = .rbPeek ∨ i = .rbGet) (live : assocGet (s.arg 0) s.insts = some x)
    (hu : x.unit = .rb st) {c : StatusCode} (check : checkView st (s.arg 1) = .error (.status c)) :
    exec i s = .next (s.raise c) := by
  refine exec_raise ?_
  rcases hi with rfl | rfl
  · simp only [command, rbPeek, checkHandle_rb live hu, ok_bind, check, error_bind]
  · simp only [command, rbGet, checkHandle_rb live hu, ok_bind, check, error_bind]

end

/-- Settles O38: each clause passes the checks before the one that fails. -/
theorem ringErrorPriority : Obligations.RingErrorPriority := by
  unfold Obligations.RingErrorPriority
  intro s x st live hu
  have handle := checkHandle_rb live hu
  refine ⟨fun hsrc hfits h => ?_, fun i hi => ⟨fun h => ?_, fun hmrs h => ?_⟩, fun h => ?_, fun hdelay h => ?_,
    fun hdelay hmrs h => ?_⟩
  · refine exec_raise (i := .rbPut) (c := .exceedsCapacity) ?_
    simp only [command, rbPut, handle, ok_bind, require_true hsrc, require_true hfits, require_false (Nat.not_le.mpr h),
      error_bind]
  · exact view_error hi live hu (checkView_exceeds_required h)
  · exact view_error hi live hu (checkView_exceeds_remaining hmrs h)
  · refine exec_raise (i := .rbDpeek) (c := .invalidArgument) ?_
    simp only [command, rbDpeek, handle, ok_bind, require_false (Nat.not_le.mpr h), error_bind]
  · refine exec_raise (i := .rbDpeek) (c := .exceedsMaxRequiredSize) ?_
    simp only [command, rbDpeek, handle, ok_bind, require_true hdelay, require_false (Nat.not_le.mpr h), error_bind]
  · refine exec_raise (i := .rbDpeek) (c := .exceedsRemainingData) ?_
    simp only [command, rbDpeek, handle, ok_bind, require_true hdelay, require_true hmrs,
      require_false (Nat.not_le.mpr h), error_bind]

end Sys2Proof.Proofs
end

section
/-! SUPPORT. No step takes `fault(INTERNAL)` from well-kept convolvers (40_ringbuffer.md R159, 42_partitioned.md R263,
44_hybrid.md R371): only a command can, and no command does. -/
namespace Sys2Proof.Proofs
open Sys2Proof.Machine Sys2Proof.Safety

theorem exec_not_internal {i : Instr} {s : State} (h : ConvolversOk s) : exec i s ≠ .fault .internal := by
  intro hrun
  rw [exec_eq_finish] at hrun
  have run : Yields (fun _ => allBacked s.plat (touched i s) = true) (command i s) := command_touches h i
  rw [finish_faults hrun] at run
  exact run rfl

theorem regWrite_not_internal {agent : Nat} {data : List Byte} {s : State} {port : RegPort} (h : ConvolversOk s) :
    regWrite agent data s port ≠ .fault .internal := by
  cases port with
  | cmd =>
    simp only [regWrite, issueCommand]
    split
    · nofun
    · split
      · exact exec_not_internal h
      · nofun
  | arg k =>
    simp only [regWrite]
    split <;> nofun
  | argHalf k high =>
    simp only [regWrite]
    split <;> nofun
  | status => nofun
  | res => nofun
  | resHalf high => nofun
  | reserved => nofun

theorem hostStep_not_internal {act : HostAction} {s : State} (h : ConvolversOk s) : hostStep act s ≠ .fault .internal := by
  cases act with
  | read addr width =>
    simp only [hostStep, hostRead]
    split
    · split <;> nofun
    · split <;> nofun
  | write agent addr data =>
    simp only [hostStep, hostWrite]
    split
    · split
      · exact regWrite_not_internal h
      · nofun
    · split
      · nofun
      · split <;> nofun
  | reset => nofun

/-- Settles O60: no command of a state with well-kept convolvers stops with `fault(INTERNAL)`. -/
theorem noInternalFault : Obligations.NoInternalFault := by
  unfold Obligations.NoInternalFault
  intro s h
  unfold step stepHost
  split
  · nofun
  · exact hostStep_not_internal h

end Sys2Proof.Proofs
end

section
/-! SUPPORT. The two FFT commands (41_fft.md R201, R210, R211, R216): what they do on good operands, and which operands they
refuse. -/
namespace Sys2Proof.Proofs
open Sys2Proof.Machine Sys2Proof.Safety

/-! ### Samples in memory (R72) -/

theorem getElem?_bytesOfWord32 (w : Word32) {b : Nat} (hb : b < 4) :
    (bytesOfWord32 w)[b]? = some (w.extractLsb' (8 * b) 8) := by
  simp [bytesOfWord32_eq, bytesFrom, hb]

theorem getElem?_bytesOf {xs : List F32} {i b : Nat} (hi : i < xs.length) (hb : b < 4) :
    (bytesOf xs)[4 * i + b]? = some ((xs.getD i f32Zero).extractLsb' (8 * b) 8) := by
  induction xs generalizing i with
  | nil => simp at hi
  | cons x xs ih =>
    have split : bytesOf (x :: xs) = bytesOfWord32 x ++ bytesOf xs := rfl
    have four : (bytesOfWord32 x).length = 4 := rfl
    cases i with
    | zero =>
      rw [split, Nat.mul_zero, Nat.zero_add, List.getElem?_append_left (four ▸ hb), getElem?_bytesOfWord32 x hb]
      rfl
    | succ i =>
      rw [split, List.getElem?_append_right (by omega), four, show 4 * (i + 1) + b - 4 = 4 * i + b by omega,
        ih (Nat.lt_of_succ_lt_succ hi)]
      rfl

/-- Samples written to memory stand there. -/
theorem samplesAre_write (m : Memory) (a : Nat) (xs : List F32) : SamplesAre (m.write a (bytesOf xs)) a xs := by
  intro i hi b hb
  have hlt : 4 * i + b < (bytesOf xs).length := by rw [bytesOf_length]; omega
  rw [Nat.add_assoc, Memory.read_write_inside _ _ _ hlt]
  exact Option.some.inj ((List.getElem?_eq_getElem hlt).symm.trans (getElem?_bytesOf hi hb))

/-- They stay there as long as none of their bytes changes. -/
theorem samplesAre_congr {m m' : Memory} {addr : Nat} {xs : List F32} (h : SamplesAre m addr xs)
    (same : ∀ a, addr ≤ a → a < addr + 4 * xs.length → m'.read a = m.read a) : SamplesAre m' addr xs :=
  fun i hi b hb => (same _ (by omega) (by omega)).trans (h i hi b hb)

/-! ### An FFT command on good operands -/

theorem rangesMeet_of_apart {a n b m : Nat} (h : a + n ≤ b ∨ b + m ≤ a) : rangesMeet a n b m = false := by
  refine Bool.eq_false_iff.mpr fun meet => ?_
  obtain ⟨x, _, _⟩ := (rangesMeet_iff ..).mp meet
  omega

theorem validFft_iff (fftMaxN : Nat) (kind : FftKind) (n : Nat) (flag : Int) : validFft fftMaxN kind n flag = true ↔
    (∃ k, n = 2 ^ k) ∧ (kind = .real → 2 ≤ n) ∧ n ≤ fftMaxN ∧ (flag = -1 ∨ flag = 1) := by
  simp only [validFft, Bool.and_eq_true, Bool.or_eq_true, decide_eq_true_eq, ispow2_iff, and_assoc]
  refine and_congr_right fun ⟨k, hk⟩ => and_congr_left fun _ => ?_
  have : 1 ≤ n := hk ▸ Nat.one_le_two_pow
  cases kind <;> simp [this]

/-- The samples an FFT command puts at `x`. -/
def fftOutput (kind : FftKind) (s : State) : List F32 :=
  fftImpl s.plat kind (s.arg 0) (s.sarg 1) (samplesAt s (s.arg 2) (fftFloats kind (s.arg 0)))

/-- Memory after an FFT command: its output at `x`, then a draw over the scratch buffer (R216). -/
def fftMemory (kind : FftKind) (s : State) : Memory :=
  (s.mem.write (s.arg 2) (bytesOf (fftOutput kind s))).havoc s.draws (s.arg 3) (4 * fftFloats kind (s.arg 0))

section
variable {s : State} {kind : FftKind}

theorem memHavoc_backed {a n : Nat} (h : backedRange s.plat a n = true) :
    memHavoc s a n = .ok { s with mem := s.mem.havoc s.draws a n } := if_pos h

theorem FftChecked.length_output (h : FftChecked kind s) : (fftOutput kind s).length = fftFloats kind (s.arg 0) :=
  length_fftImpl h.valid (length_samplesAt ..)

theorem FftChecked.completes (h : FftChecked kind s)
    (clear : ¬(s.meetsArena (s.arg 2) (4 * fftFloats kind (s.arg 0)) = true ∨
      s.meetsArena (s.arg 3) (4 * fftFloats kind (s.arg 0)) = true))
    (x_backed : backedRange s.plat (s.arg 2) (4 * fftFloats kind (s.arg 0)) = true)
    (scratchBacked : backedRange s.plat (s.arg 3) (4 * fftFloats kind (s.arg 0)) = true) :
    fftCommand kind s = .ok (({ s with mem := fftMemory kind s } : State).nextDraw.complete 0) := by
  have write := memWrite_backed (s := s) (a := s.arg 2) (bs := bytesOf (fftOutput kind s))
    (by rwa [bytesOf_length, h.length_output])
  have havoc := memHavoc_backed (s := { s with mem := s.mem.write (s.arg 2) (bytesOf (fftOutput kind s)) }) scratchBacked
  simp only [fftCommand]
  rw [require_true ⟨h.x_ne, h.scratch_ne⟩, require_true h.valid, require_true ⟨h.x_fits, h.scratchFits⟩,
    require_true h.apart, faultIf_false clear, readSamples_backed x_backed]
  simp only [ok_bind]
  rw [← fftOutput, write, ok_bind, havoc]
  rfl

/-- The output stands at `x`: the scratch buffer lies apart from it. -/
theorem FftChecked.output_stands (h : FftChecked kind s) : SamplesAre (fftMemory kind s) (s.arg 2) (fftOutput kind s) := by
  refine samplesAre_congr (samplesAre_write s.mem (s.arg 2) (fftOutput kind s)) fun a lo hi =>
    Memory.read_havoc_outside _ _ _ _ ?_
  rw [h.length_output] at hi
  by_contra inside
  exact Bool.false_ne_true (h.apart.symm.trans ((rangesMeet_iff ..).mpr ⟨a, ⟨lo, hi⟩, by omega, by omega⟩))

end

/-- Settles O39. -/
theorem fftCommandsComplete : Obligations.FftCommandsComplete := by
  unfold Obligations.FftCommandsComplete
  intro s i kind hi n flag x scratch floats len x_ne scratch_ne pow low high hflag x_fits scratchFits apart clearX clearScratch
    x_backed scratchBacked
  have hfloats : floats = fftFloats kind n := by cases kind <;> rfl
  clear_value floats
  subst hfloats
  have checked : FftChecked kind s :=
    ⟨x_ne, scratch_ne, (validFft_iff ..).mpr ⟨pow, low, high, hflag⟩, x_fits, scratchFits, rangesMeet_of_apart apart⟩
  have clear : ¬(s.meetsArena x len = true ∨ s.meetsArena scratch len = true) := by simp [clearX, clearScratch]
  refine ⟨_, exec_ok ((fftCommand_eq_command hi).trans (checked.completes clear x_backed scratchBacked)), rfl, rfl, rfl,
    checked.length_output, checked.output_stands, fun a lo hi => ⟨s.draws, ?_⟩⟩
  obtain ⟨d, rfl⟩ := Nat.exists_eq_add_of_le lo
  exact Memory.read_havoc_inside _ _ _ _ (Nat.lt_of_add_lt_add_left hi)

/-- Settles O40: the operands that pass the four checks are none of the bad ones. -/
theorem fftOperandsAreChecked : Obligations.FftOperandsAreChecked := by
  unfold Obligations.FftOperandsAreChecked
  intro s i kind hi n len bad
  have hlen : len = 4 * fftFloats kind n := by
    cases kind with
    | cplx => exact Nat.mul_assoc 4 2 n
    | real => rfl
  have invalid : Invalid (fftCommand kind s) := by
    refine invalid_require fun ⟨x_ne, scratch_ne⟩ => invalid_require fun valid => invalid_require fun ⟨x_fits, scratchFits⟩ =>
      invalid_require fun apart => ?_
    obtain ⟨pow, low, high, hflag⟩ := (validFft_iff ..).mp valid
    rw [← hlen] at x_fits scratchFits apart
    rcases bad with hx | hs | hpow | ⟨hreal, hone⟩ | hlarge | ⟨hback, hforward⟩ | hlong | hlong | ⟨a, lo, hi, lo', hi'⟩
    · exact absurd hx x_ne
    · exact absurd hs scratch_ne
    · exact absurd pow hpow
    · have := low hreal
      omega
    · exact absurd high (Nat.not_le.mpr hlarge)
    · exact (hflag.elim hback hforward).elim
    · exact absurd x_fits (Nat.not_le.mpr hlong)
    · exact absurd scratchFits (Nat.not_le.mpr hlong)
    · exact absurd ((rangesMeet_iff ..).mpr ⟨a, ⟨lo, hi⟩, lo', hi'⟩) (Bool.eq_false_iff.mp apart)
  exact exec_raise ((fftCommand_eq_command hi).trans invalid)

end Sys2Proof.Proofs
end

section
/-! SUPPORT. The ideal transforms and the packed product (41_fft.md R202 to R205, R218) in exact arithmetic: the roots of
unity, the inversion of the DFT, the product of two spectra, and the entries of the packed forms. -/
namespace Sys2Proof.Proofs
open Sys2Proof.Machine Sys2Proof.Ideal

/-! ### Roots of unity -/

/-- `exp(2πi / n)`, of which every `rot` is a power. -/
noncomputable def unitRoot (n : ℕ) : ℂ := Complex.exp (2 * Real.pi * Complex.I / n)

theorem rot_eq_zpow (flag : ℤ) (n j k : ℕ) : rot flag n j k = unitRoot n ^ (flag * (j * k)) := by
  rw [rot, unitRoot, ← Complex.exp_int_mul]
  congr 1
  push_cast
  ring

theorem conj_rot (flag : ℤ) (n j k : ℕ) : (starRingEnd ℂ) (rot flag n j k) = rot (-flag) n j k := by
  rw [rot, rot, ← Complex.exp_conj]
  simp [map_ofNat]

theorem rot_zero_right (flag : ℤ) (n j : ℕ) : rot flag n j 0 = 1 := by simp [rot]

/-- The real and imaginary part of a twiddle, as the inverse transform's second form has them (R205). -/
theorem rot_one_eq (n j k : ℕ) :
    rot 1 n j k = ⟨Real.cos (2 * Real.pi * j * k / n), Real.sin (2 * Real.pi * j * k / n)⟩ := by
  have angle : ((1 : ℤ) : ℂ) * (2 * Real.pi * Complex.I) * (j * k : ℕ) / n =
      ((2 * Real.pi * j * k / n : ℝ) : ℂ) * Complex.I := by
    push_cast
    ring
  rw [rot, angle]
  exact Complex.ext (Complex.exp_ofReal_mul_I_re _) (Complex.exp_ofReal_mul_I_im _)

section
variable {n : ℕ} (hn : n ≠ 0)
include hn

theorem isPrimitiveRoot_unitRoot : IsPrimitiveRoot (unitRoot n) n := Complex.isPrimitiveRoot_exp n hn

theorem unitRoot_zpow_congr {a b : ℤ} (h : (n : ℤ) ∣ a - b) : unitRoot n ^ a = unitRoot n ^ b := by
  have ne : unitRoot n ≠ 0 := Complex.exp_ne_zero _
  have one := ((isPrimitiveRoot_unitRoot hn).zpow_eq_one_iff_dvd _).mpr h
  rw [zpow_sub₀ ne] at one
  exact (div_eq_one_iff_eq (zpow_ne_zero _ ne)).mp one

/-- Counting `k` from the end of a period gives the conjugate twiddle. -/
theorem rot_reflect (flag : ℤ) (j : ℕ) {k : ℕ} (hk : k ≤ n) :
    rot flag n j (n - k) = (starRingEnd ℂ) (rot flag n j k) := by
  rw [conj_rot, rot_eq_zpow, rot_eq_zpow, Nat.cast_sub hk]
  exact unitRoot_zpow_congr hn ⟨flag * j, by ring⟩

/-- Half a period from the start a twiddle is a sign. -/
theorem rot_half (j : ℕ) {m : ℕ} (hm : n = 2 * m) : rot 1 n j m = (-1) ^ j := by
  have hroot : unitRoot n ^ m = -1 := by
    subst hm
    exact ((isPrimitiveRoot_unitRoot hn).pow (Nat.pos_of_ne_zero hn) (Nat.mul_comm 2 m)).eq_neg_one_of_two_right
  rw [rot_eq_zpow, ← hroot, ← pow_mul, ← zpow_natCast]
  congr 1
  push_cast
  ring

/-- The twiddles of `l` and `j` against each other are those of their circular distance. -/
theorem rot_mul_rot {l : ℕ} (hl : l ≤ n) (j k : ℕ) : rot (-1) n l k * rot 1 n j k = rot 1 n ((j + n - l) % n) k := by
  have ne : unitRoot n ≠ 0 := Complex.exp_ne_zero _
  have period : ((j + n - l : ℕ) : ℤ) = n * ((j + n - l) / n : ℕ) + ((j + n - l) % n : ℕ) := by
    exact_mod_cast (Nat.div_add_mod (j + n - l) n).symm
  rw [Nat.cast_sub (by omega), Nat.cast_add] at period
  rw [rot_eq_zpow, rot_eq_zpow, rot_eq_zpow, ← zpow_add₀ ne]
  exact unitRoot_zpow_congr hn ⟨((((j + n - l) / n : ℕ) : ℤ) - 1) * k, by linear_combination (k : ℤ) * period⟩

/-- The twiddles of two different places are orthogonal. -/
theorem sum_rot_mul_rot {m j : ℕ} (hm : m < n) (hj : j < n) :
    ∑ k ∈ Finset.range n, rot (-1) n m k * rot 1 n j k = if m = j then (n : ℂ) else 0 := by
  have ne : unitRoot n ≠ 0 := Complex.exp_ne_zero _
  have power (k : ℕ) : rot (-1) n m k * rot 1 n j k = (unitRoot n ^ ((j : ℤ) - m)) ^ k := by
    rw [rot_eq_zpow, rot_eq_zpow, ← zpow_add₀ ne, ← zpow_natCast, ← zpow_mul]
    congr 1
    ring
  rw [Finset.sum_congr rfl fun k _ => power k]
  split
  next h => simp [h]
  next h =>
    have hne : unitRoot n ^ ((j : ℤ) - m) ≠ 1 := by
      intro one
      obtain ⟨c, hc⟩ := ((isPrimitiveRoot_unitRoot hn).zpow_eq_one_iff_dvd _).mp one
      have habs := Int.eq_zero_of_abs_lt_dvd ⟨c, hc⟩ (by rw [abs_lt]; omega)
      omega
    rw [geom_sum_eq hne, ← zpow_natCast, ← zpow_mul, unitRoot_zpow_congr hn (b := 0) ⟨(j : ℤ) - m, by ring⟩]
    simp

/-! ### The DFT -/

/-- The inverse DFT gives the vector back, `n` times (R203). -/
theorem sum_dft_mul_rot (v : ℕ → ℂ) {j : ℕ} (hj : j < n) :
    ∑ k ∈ Finset.range n, dft n (-1) v k * rot 1 n j k = n * v j := by
  calc ∑ k ∈ Finset.range n, dft n (-1) v k * rot 1 n j k
      = ∑ k ∈ Finset.range n, ∑ m ∈ Finset.range n, v m * (rot (-1) n m k * rot 1 n j k) := by
        simp only [dft, Finset.sum_mul, mul_assoc]
    _ = ∑ m ∈ Finset.range n, v m * ∑ k ∈ Finset.range n, rot (-1) n m k * rot 1 n j k := by
        rw [Finset.sum_comm]
        simp only [Finset.mul_sum]
    _ = ∑ m ∈ Finset.range n, v m * if m = j then (n : ℂ) else 0 :=
        Finset.sum_congr rfl fun m hm => by rw [sum_rot_mul_rot hn (Finset.mem_range.mp hm) hj]
    _ = n * v j := by simp [hj, mul_comm]

/-- The inverse DFT of a product of spectra is the circular convolution, `n` times. -/
theorem sum_dft_mul_dft_mul_rot (u g : ℕ → ℂ) (j : ℕ) :
    ∑ k ∈ Finset.range n, dft n (-1) u k * dft n (-1) g k * rot 1 n j k =
      n * ∑ l ∈ Finset.range n, g l * u ((j + n - l) % n) := by
  calc ∑ k ∈ Finset.range n, dft n (-1) u k * dft n (-1) g k * rot 1 n j k
      = ∑ k ∈ Finset.range n, ∑ l ∈ Finset.range n, g l * (dft n (-1) u k * (rot (-1) n l k * rot 1 n j k)) := by
        refine Finset.sum_congr rfl fun k _ => ?_
        rw [dft.eq_def n (-1) g, Finset.mul_sum, Finset.sum_mul]
        exact Finset.sum_congr rfl fun l _ => by ring
    _ = ∑ l ∈ Finset.range n, g l * ∑ k ∈ Finset.range n, dft n (-1) u k * (rot (-1) n l k * rot 1 n j k) := by
        rw [Finset.sum_comm]
        simp only [Finset.mul_sum]
    _ = ∑ l ∈ Finset.range n, g l * (n * u ((j + n - l) % n)) := by
        refine Finset.sum_congr rfl fun l hl => ?_
        simp only [rot_mul_rot hn (Finset.mem_range.mp hl).le]
        rw [sum_dft_mul_rot hn u (Nat.mod_lt _ (Nat.pos_of_ne_zero hn))]
    _ = n * ∑ l ∈ Finset.range n, g l * u ((j + n - l) % n) := by
        rw [Finset.mul_sum]
        exact Finset.sum_congr rfl fun l _ => by ring

/-- The spectrum of a real vector is conjugate symmetric (R204). -/
theorem bin_reflect (v : List ℝ) {k : ℕ} (hk : k ≤ n) : bin n v (n - k) = (starRingEnd ℂ) (bin n v k) := by
  simp only [bin, dft, map_sum, map_mul, Complex.conj_ofReal, rot_reflect hn (-1) _ hk]

/-- The Nyquist bin is real. -/
theorem bin_half_im (v : List ℝ) {m : ℕ} (hm : n = 2 * m) : (bin n v m).im = 0 := by
  have h := bin_reflect hn v (k := m) (by omega)
  rw [show n - m = m by omega] at h
  exact Complex.conj_eq_iff_im.mp h.symm

end

/-- The DC bin is real. -/
theorem bin_zero_im (n : ℕ) (v : List ℝ) : (bin n v 0).im = 0 := by
  simp [bin, dft, rot_zero_right]

/-- A conjugate symmetric sequence adds up to its real bins and twice the real parts of the others up to the middle. -/
theorem re_sum_of_symmetric {m : ℕ} (hm : 1 ≤ m) {w : ℕ → ℂ}
    (h : ∀ k ≤ 2 * m, w (2 * m - k) = (starRingEnd ℂ) (w k)) :
    (∑ k ∈ Finset.range (2 * m), w k).re = (w 0).re + (w m).re + 2 * ∑ k ∈ Finset.Ico 1 m, (w k).re := by
  have upper : ∑ k ∈ Finset.Ico (m + 1) (2 * m), (w k).re = ∑ k ∈ Finset.Ico 1 m, (w k).re := by
    have reflect := Finset.sum_Ico_reflect (fun k => (w k).re) 1 (show m ≤ 2 * m + 1 by omega)
    rw [show 2 * m + 1 - m = m + 1 by omega, Nat.add_sub_cancel] at reflect
    rw [← reflect]
    refine Finset.sum_congr rfl fun k hk => ?_
    have := (Finset.mem_Ico.mp hk).2
    rw [h k (by omega), Complex.conj_re]
  rw [Complex.re_sum, Finset.range_eq_Ico, Finset.sum_eq_sum_Ico_succ_bot (by omega),
    ← Finset.sum_Ico_consecutive _ hm (show m ≤ 2 * m by omega), Finset.sum_eq_sum_Ico_succ_bot (show m < 2 * m by omega),
    upper]
  ring

/-! ### Packed spectra (R204, R205, R218) -/

theorem realForward_getD {n i : ℕ} (v : List ℝ) (hi : i < n) : (realForward n v).getD i 0 =
    if i = 0 then (bin n v 0).re
    else if i = 1 then (bin n v (n / 2)).re
    else if i % 2 = 0 then (bin n v (i / 2)).re
    else (bin n v (i / 2)).im := by
  simp [realForward, List.getD_eq_getElem?_getD, hi]

theorem realForward_getD_zero {m : ℕ} (v : List ℝ) (hm : 1 ≤ m) :
    (realForward (2 * m) v).getD 0 0 = (bin (2 * m) v 0).re := by
  rw [realForward_getD v (by omega), if_pos rfl]

theorem realForward_getD_one {m : ℕ} (v : List ℝ) (hm : 1 ≤ m) :
    (realForward (2 * m) v).getD 1 0 = (bin (2 * m) v m).re := by
  rw [realForward_getD v (by omega), if_neg one_ne_zero, if_pos rfl, Nat.mul_div_cancel_left m (by decide)]

theorem realForward_getD_even {m k : ℕ} (v : List ℝ) (h1 : 1 ≤ k) (hk : k < m) :
    (realForward (2 * m) v).getD (2 * k) 0 = (bin (2 * m) v k).re := by
  rw [realForward_getD v (by omega), if_neg (by omega), if_neg (by omega), if_pos (by omega),
    Nat.mul_div_cancel_left k (by decide)]

theorem realForward_getD_odd {m k : ℕ} (v : List ℝ) (h1 : 1 ≤ k) (hk : k < m) :
    (realForward (2 * m) v).getD (2 * k + 1) 0 = (bin (2 * m) v k).im := by
  rw [realForward_getD v (by omega), if_neg (by omega), if_neg (by omega), if_neg (by omega),
    show (2 * k + 1) / 2 = k by omega]

theorem length_realForward (n : ℕ) (v : List ℝ) : (realForward n v).length = n := by simp [realForward]

/-- Bin `k`'s part of float `j` of the packed real inverse transform (R205). -/
noncomputable def inverseTerm (n : ℕ) (p : List ℝ) (j k : ℕ) : ℝ :=
  p.getD (2 * k) 0 * Real.cos (2 * Real.pi * j * k / n) - p.getD (2 * k + 1) 0 * Real.sin (2 * Real.pi * j * k / n)

/-- In `realInverse` the index of a float is a real number, which here is the natural number again. -/
theorem realInverse_getD {m j : ℕ} (p : List ℝ) (hj : j < 2 * m) : (realInverse (2 * m) p).getD j 0 =
    (p.getD 0 0 + (-1) ^ j * p.getD 1 0) / 2 + ∑ k ∈ Finset.Ico 1 m, inverseTerm (2 * m) p j k := by
  have hindex : (List.range (2 * m) >>= fun a => pure (a : ℝ)) = (List.range (2 * m)).map ((↑) : ℕ → ℝ) :=
    List.map_eq_flatMap.symm
  rw [realInverse, hindex, List.map_map, List.getD_eq_getElem?_getD, List.getElem?_map, List.getElem?_range hj,
    Nat.mul_div_cancel_left m (by decide)]
  simp only [Option.map_some, Option.getD_some, Function.comp_apply, Real.rpow_natCast, inverseTerm]

/-- Complex entry `i` of `p` is that of `acc` plus the product of those of `x` and `h`. -/
def BinAccumulates (p acc x h : List ℝ) (i : ℕ) : Prop :=
  p.getD (2 * i) 0 =
      acc.getD (2 * i) 0 + (x.getD (2 * i) 0 * h.getD (2 * i) 0 - x.getD (2 * i + 1) 0 * h.getD (2 * i + 1) 0) ∧
    p.getD (2 * i + 1) 0 =
      acc.getD (2 * i + 1) 0 + (x.getD (2 * i) 0 * h.getD (2 * i + 1) 0 + x.getD (2 * i + 1) 0 * h.getD (2 * i) 0)

theorem packedBins_accumulates {m i : ℕ} {acc x h : List ℝ} (hacc : acc.length = 2 * m) (hx : x.length = 2 * m)
    (hh : h.length = 2 * m) (hi : i < m) : BinAccumulates (packedBins exact acc x h) acc x h i := by
  induction m generalizing acc x h i with
  | zero => omega
  | succ m ih =>
    match acc, x, h, hacc, hx, hh with
    | a0 :: a1 :: acc, x0 :: x1 :: x, h0 :: h1 :: h, hacc, hx, hh =>
      cases i with
      | zero => exact ⟨rfl, rfl⟩
      | succ i =>
        simp only [List.length_cons] at hacc hx hh
        exact ih (acc := acc) (x := x) (h := h) (by omega) (by omega) (by omega) (Nat.lt_of_succ_lt_succ hi)

section
variable {m : ℕ} {acc x h : List ℝ} (hacc : acc.length = 2 * m) (hx : x.length = 2 * m) (hh : h.length = 2 * m)
include hacc hx hh

/-- The DC and the Nyquist entry of a packed product are real products. -/
theorem packedMac_getD_real (hm : 1 ≤ m) :
    (packedMac exact acc x h).getD 0 0 = acc.getD 0 0 + x.getD 0 0 * h.getD 0 0 ∧
      (packedMac exact acc x h).getD 1 0 = acc.getD 1 0 + x.getD 1 0 * h.getD 1 0 := by
  obtain ⟨m, rfl⟩ := Nat.exists_eq_add_of_le' hm
  match acc, x, h, hacc, hx, hh with
  | a0 :: a1 :: acc, x0 :: x1 :: x, h0 :: h1 :: h, _, _, _ => exact ⟨rfl, rfl⟩

theorem packedMac_accumulates {k : ℕ} (h1 : 1 ≤ k) (hk : k < m) : BinAccumulates (packedMac exact acc x h) acc x h k := by
  obtain ⟨k, rfl⟩ := Nat.exists_eq_add_of_le' h1
  obtain ⟨m, rfl⟩ := Nat.exists_eq_add_of_le' (Nat.one_le_of_lt hk)
  match acc, x, h, hacc, hx, hh with
  | a0 :: a1 :: acc, x0 :: x1 :: x, h0 :: h1 :: h, hacc, hx, hh =>
    simp only [List.length_cons] at hacc hx hh
    exact packedBins_accumulates (m := m) (acc := acc) (x := x) (h := h) (by omega) (by omega) (by omega)
      (Nat.lt_of_succ_lt_succ hk)

end

end Sys2Proof.Proofs
end

section
/-! SUPPORT. The packed product of two spectra transforms back to the circular convolution (41_fft.md R218, R219), whatever it
accumulates on. -/
namespace Sys2Proof.Proofs
open Sys2Proof.Machine Sys2Proof.Ideal

/-- Term `k` of the inverse DFT at `j` of the product of two spectra. -/
noncomputable def productTerm (n : ℕ) (u g : List ℝ) (j k : ℕ) : ℂ := bin n u k * bin n g k * rot 1 n j k

theorem productTerm_reflect {n : ℕ} (hn : n ≠ 0) (u g : List ℝ) (j : ℕ) {k : ℕ} (hk : k ≤ n) :
    productTerm n u g j (n - k) = (starRingEnd ℂ) (productTerm n u g j k) := by
  simp only [productTerm, map_mul, bin_reflect hn _ hk, rot_reflect hn _ _ hk]

theorem productTerm_zero_re (n : ℕ) (u g : List ℝ) (j : ℕ) :
    (productTerm n u g j 0).re = (bin n u 0).re * (bin n g 0).re := by
  simp [productTerm, rot_zero_right, bin_zero_im]

theorem productTerm_half_re {n m : ℕ} (hn : n ≠ 0) (hm : n = 2 * m) (u g : List ℝ) (j : ℕ) :
    (productTerm n u g j m).re = (-1) ^ j * ((bin n u m).re * (bin n g m).re) := by
  have sign : ((-1) ^ j : ℂ) = (((-1) ^ j : ℝ) : ℂ) := by push_cast; rfl
  rw [productTerm, rot_half hn j hm, sign, Complex.re_mul_ofReal, Complex.mul_re, bin_half_im hn u hm]
  ring

theorem productTerm_re (n : ℕ) (u g : List ℝ) (j k : ℕ) : (productTerm n u g j k).re =
    ((bin n u k).re * (bin n g k).re - (bin n u k).im * (bin n g k).im) * Real.cos (2 * Real.pi * j * k / n) -
      ((bin n u k).re * (bin n g k).im + (bin n u k).im * (bin n g k).re) * Real.sin (2 * Real.pi * j * k / n) := by
  rw [productTerm, rot_one_eq, Complex.mul_re, Complex.mul_re, Complex.mul_im]

theorem sum_productTerm {n : ℕ} (hn : n ≠ 0) (u g : List ℝ) (j : ℕ) : (∑ k ∈ Finset.range n, productTerm n u g j k).re =
    n * ∑ l ∈ Finset.range n, g.getD l 0 * u.getD ((j + n - l) % n) 0 := by
  have h := sum_dft_mul_dft_mul_rot hn (fun i => (u.getD i 0 : ℂ)) (fun i => (g.getD i 0 : ℂ)) j
  have real : (∑ k ∈ Finset.range n, productTerm n u g j k) =
      ((n * ∑ l ∈ Finset.range n, g.getD l 0 * u.getD ((j + n - l) % n) 0 : ℝ) : ℂ) := by
    push_cast
    exact h
  rw [real, Complex.ofReal_re]

/-- The spectrum of `g` times `2 / n` (R219). -/
noncomputable def scaledForward (n : ℕ) (g : List ℝ) : List ℝ := (realForward n g).map fun y => 2 / (n : ℝ) * y

theorem length_scaledForward (n : ℕ) (g : List ℝ) : (scaledForward n g).length = n := by
  rw [scaledForward, List.length_map, length_realForward]

theorem scaledForward_getD (n : ℕ) (g : List ℝ) (i : ℕ) :
    (scaledForward n g).getD i 0 = 2 / (n : ℝ) * (realForward n g).getD i 0 := by
  rw [scaledForward, ← List.getD_map (f := fun y => 2 / (n : ℝ) * y), mul_zero]

/-- The spectrum of `u` times the scaled spectrum of `g`, accumulated on `acc` (R218, R219). -/
noncomputable def accumulated (n : ℕ) (acc u g : List ℝ) : List ℝ :=
  packedMac exact acc (realForward n u) (scaledForward n g)

section
variable {m : ℕ} {acc : List ℝ} (hacc : acc.length = 2 * m) (u g : List ℝ)
include hacc

theorem accumulated_getD_real (hm : 1 ≤ m) :
    (accumulated (2 * m) acc u g).getD 0 0 = acc.getD 0 0 +
        2 / (2 * m : ℕ) * ((bin (2 * m) u 0).re * (bin (2 * m) g 0).re) ∧
      (accumulated (2 * m) acc u g).getD 1 0 = acc.getD 1 0 +
        2 / (2 * m : ℕ) * ((bin (2 * m) u m).re * (bin (2 * m) g m).re) := by
  obtain ⟨dc, nyquist⟩ := packedMac_getD_real hacc (length_realForward _ u) (length_scaledForward _ g) hm
  rw [scaledForward_getD, realForward_getD_zero _ hm, realForward_getD_zero _ hm] at dc
  rw [scaledForward_getD, realForward_getD_one _ hm, realForward_getD_one _ hm] at nyquist
  exact ⟨dc.trans (by ring), nyquist.trans (by ring)⟩

theorem inverseTerm_accumulated (j : ℕ) {k : ℕ} (h1 : 1 ≤ k) (hk : k < m) :
    inverseTerm (2 * m) (accumulated (2 * m) acc u g) j k =
      inverseTerm (2 * m) acc j k + 2 / (2 * m : ℕ) * (productTerm (2 * m) u g j k).re := by
  obtain ⟨even, odd⟩ := packedMac_accumulates hacc (length_realForward _ u) (length_scaledForward _ g) h1 hk
  simp only [scaledForward_getD, realForward_getD_even _ h1 hk, realForward_getD_odd _ h1 hk] at even odd
  rw [inverseTerm, inverseTerm, accumulated, even, odd, productTerm_re]
  ring

/-- The accumulated product adds the circular convolution to what `acc` transforms back to. -/
theorem realInverse_accumulated {j : ℕ} (hj : j < 2 * m) : (realInverse (2 * m) (accumulated (2 * m) acc u g)).getD j 0 =
    (realInverse (2 * m) acc).getD j 0 +
      ∑ l ∈ Finset.range (2 * m), g.getD l 0 * u.getD ((j + 2 * m - l) % (2 * m)) 0 := by
  have hm : 1 ≤ m := by omega
  have hn : 2 * m ≠ 0 := by omega
  have hn' : ((2 * m : ℕ) : ℝ) ≠ 0 := Nat.cast_ne_zero.mpr hn
  obtain ⟨dc, nyquist⟩ := accumulated_getD_real hacc u g hm
  have bins : ∑ k ∈ Finset.Ico 1 m, inverseTerm (2 * m) (accumulated (2 * m) acc u g) j k =
      ∑ k ∈ Finset.Ico 1 m, inverseTerm (2 * m) acc j k +
        2 / (2 * m : ℕ) * ∑ k ∈ Finset.Ico 1 m, (productTerm (2 * m) u g j k).re := by
    rw [Finset.mul_sum, ← Finset.sum_add_distrib]
    exact Finset.sum_congr rfl fun k hk =>
      inverseTerm_accumulated hacc u g j (Finset.mem_Ico.mp hk).1 (Finset.mem_Ico.mp hk).2
  have total := (re_sum_of_symmetric hm fun k hk => productTerm_reflect hn u g j hk).symm.trans (sum_productTerm hn u g j)
  rw [productTerm_zero_re, productTerm_half_re hn rfl] at total
  rw [realInverse_getD _ hj, realInverse_getD _ hj, dc, nyquist, bins]
  field_simp
  linear_combination 2 * total

end

/-- Settles O41: a power of two from 2 on is even, and the accumulator of zeros transforms back to zeros. -/
theorem packedProductIsCircularConvolution : Obligations.PackedProductIsCircularConvolution := by
  unfold Obligations.PackedProductIsCircularConvolution
  intro k u g hk _ _ f acc j hj
  obtain ⟨e, rfl⟩ := Nat.exists_eq_add_of_le' hk
  have hf : f = 2 * 2 ^ e := pow_succ' 2 e
  clear_value f
  subst hf
  have zeros : (realInverse (2 * 2 ^ e) (List.replicate (2 * 2 ^ e) 0)).getD j 0 = 0 := by
    rw [realInverse_getD _ hj]
    simp [inverseTerm, List.getD_eq_getElem?_getD, List.getElem?_getD_replicate_default_eq]
  exact (realInverse_accumulated List.length_replicate u g hj).trans (by rw [zeros, zero_add])

end Sys2Proof.Proofs
end

section
/-! SUPPORT. GETLAT and RESET of a live convolver (42_partitioned.md R255, R258, R260, 43_karatsuba.md R320, R321, R323,
44_hybrid.md R366, R367, R369): what each answers, and the instance a RESET leaves. -/
namespace Sys2Proof.Proofs
open Sys2Proof.Machine Sys2Proof.Safety

/-! ### GETLAT -/

/-- Settles O32: past its handle check a GETLAT only answers. -/
theorem getlatCommandsComplete : Obligations.GetlatCommandsComplete := by
  unfold Obligations.GetlatCommandsComplete
  intro s x live
  refine ⟨fun st hu => ?_, fun st hu => ?_, fun st hu => ?_⟩
  · exact exec_ok (i := .kcGetlat) (t := s.complete 0) (by rw [command, kcGetlat, checkHandle_kc live hu]; rfl)
  · exact exec_ok (i := .pcGetlat) (t := s.complete st.p) (by rw [command, pcGetlat, checkHandle_pc live hu]; rfl)
  · exact exec_ok (i := .hcGetlat) (t := s.complete 0) (by rw [command, hcGetlat, checkHandle_hc live hu]; rfl)

/-! ### RESET -/

section
variable {s : State} {x : Instance}

/-- The state a RESET ends in. -/
def resetTo (s : State) (x : Instance) (u : UnitState) : State := (s.setInstance (s.arg 0) { x with unit := u }).complete 0

theorem kcReset_run {st : KcState F32} (live : assocGet (s.arg 0) s.insts = some x) (hu : x.unit = .kc st) :
    exec .kcReset s = .next (resetTo s x (.kc (kcReset f32Arith st))) := by
  refine exec_ok ?_
  rw [command, kcResetCommand, checkHandle_kc live hu]
  rfl

theorem pcReset_run {st st' : PcState F32} (live : assocGet (s.arg 0) s.insts = some x) (hu : x.unit = .pc st)
    (backed : allBacked s.plat (internalRings (s.arg 0) x.unit) = true) (reset : pcReset (pcEnv s) st = some st') :
    exec .pcReset s = .next (resetTo s x (.pc st')) := by
  refine exec_ok ?_
  simp only [command, pcResetCommand, checkHandle_pc live hu, ok_bind, touchRings_backed backed, reset, orInternal_some]
  rfl

theorem hcReset_run {st st' : HcState F32} (live : assocGet (s.arg 0) s.insts = some x) (hu : x.unit = .hc st)
    (backed : allBacked s.plat (internalRings (s.arg 0) x.unit) = true) (reset : hcReset (pcEnv s) st = some st') :
    exec .hcReset s = .next (resetTo s x (.hc st')) := by
  refine exec_ok ?_
  simp only [command, hcResetCommand, checkHandle_hc live hu, ok_bind, touchRings_backed backed, reset, orInternal_some]
  rfl

end

/-- Settles O30: a reset clears everything but the mode, the coefficients and the configuration. -/
theorem resetCommandsComplete : Obligations.ResetCommandsComplete := by
  unfold Obligations.ResetCommandsComplete
  intro s x live
  refine ⟨fun st hu => ?_, fun st hu ok backed => ?_, fun st hu ok backed => ?_⟩
  · exact ⟨_, kcReset_run live hu, rfl, rfl, assocGet_set_same ..⟩
  · have base := PcBase.of_pcOk ok
    exact ⟨_, pcCleared (pcEnv s) st, pcReset_run live hu backed (base.reset_eq s), rfl, rfl, assocGet_set_same ..,
      rfl, rfl, rfl, rfl, pcCleared_atReset base s⟩
  · have base := HcBase.of_hcOk ok
    exact ⟨_, hcCleared (pcEnv s) st, hcReset_run live hu backed (base.reset_eq s), rfl, rfl, assocGet_set_same ..,
      rfl, rfl, rfl, rfl, rfl, rfl, rfl, hcCleared_atReset base s⟩

end Sys2Proof.Proofs
end

section
/-! SUPPORT. The internal rings as queues (40_ringbuffer.md R140, R142, R143, R149 to R151, R156, R159): a Put appends its samples
behind the unread ones, a Peek shows the oldest ones and a Get takes them. -/
namespace Sys2Proof.Proofs
open Sys2Proof.Machine Sys2Proof.Safety

section
variable {α : Type} {q q' : SampleRing α} {vs : List α} {n : Nat}

@[simp] theorem length_ringUnread (q : SampleRing α) : (ringUnread q).length = q.remaining := by simp [ringUnread]

/-- The mirror of a slot write lies behind the circular slots. -/
theorem getElem?_ringSlotWrite (h : RingOk q) {k i : Nat} (hi : i < q.size) (v : α) :
    (ringSlotWrite q k v).slots[i]? = if i = k then some v else q.slots[i]? := by
  have hslots := h.slots
  show (if k < q.mrs then (q.slots.set k v).set (q.size + k) v else q.slots.set k v)[i]? = _
  have mirror : (if k < q.mrs then (q.slots.set k v).set (q.size + k) v else q.slots.set k v)[i]? = (q.slots.set k v)[i]? := by
    split
    · exact List.getElem?_set_ne (by omega)
    · rfl
  rw [mirror]
  split
  next h => rw [h, List.getElem?_set_self (by omega)]
  next h => rw [List.getElem?_set_ne (Ne.symm h)]

/-! ### Put -/

/-- A slot write at the write cursor appends its sample behind the unread ones. -/
theorem ringUnread_slotWrite (h : RingOk q) {k : Nat} (hk : k < q.size) (room : subMod k q.r q.size + 1 < q.size) (v : α) :
    ringUnread { ringSlotWrite q k v with w := (k + 1) % q.size } = ringUnread { q with w := k } ++ [some v] := by
  have level : SampleRing.remaining { ringSlotWrite q k v with w := (k + 1) % q.size } = subMod k q.r q.size + 1 :=
    subMod_add_left room
  have after (i : Nat) : (ringSlotWrite q k v).slots[(q.r + i) % q.size]? =
      if (q.r + i) % q.size = k then some v else q.slots[(q.r + i) % q.size]? :=
    getElem?_ringSlotWrite h (Nat.mod_lt _ (ring_size_pos q)) v
  rw [ringUnread, level, List.range_succ, List.map_append]
  refine congrArg₂ _ (List.map_congr_left fun i hi => ?_) (congrArg (fun u => [u]) ?_)
  · refine (after i).trans (if_neg ?_)
    rw [← add_subMod_mod hk h.r_lt]
    exact mod_add_ne (List.mem_range.mp hi) (by omega)
  · exact (after _).trans (if_pos (add_subMod_mod hk h.r_lt))

theorem ringUnread_fill (h : RingOk q) {k : Nat} (room : subMod (k % q.size) q.r q.size + vs.length < q.size) :
    ringUnread { ringFill q k vs with w := (k + vs.length) % q.size } =
      ringUnread { q with w := k % q.size } ++ vs.map some := by
  induction vs generalizing q k with
  | nil => exact (List.append_nil _).symm
  | cons v vs ih =>
    have hk := Nat.mod_lt k (ring_size_pos q)
    have next : (k % q.size + 1) % q.size = (k + 1) % q.size := Nat.mod_add_mod ..
    rw [List.length_cons] at room
    have level : subMod ((k + 1) % q.size) q.r q.size = subMod (k % q.size) q.r q.size + 1 := by
      rw [← next]
      exact subMod_add_left (by omega)
    have head := ringUnread_slotWrite h hk (by omega) v
    have tail := ih (ringOk_slotWrite h hk v) (k := k + 1) (by
      show subMod ((k + 1) % q.size) q.r q.size + vs.length < q.size
      omega)
    rw [next] at head
    rw [ringFill, List.length_cons, List.map_cons, List.append_cons, ← head,
      show k + (vs.length + 1) = k + 1 + vs.length by omega]
    exact tail

/-- A Put (R149) appends its samples to the queue. -/
theorem ringUnread_put (h : RingOk q) (hput : ringPut q vs = some q') : ringUnread q' = ringUnread q ++ vs.map some := by
  unfold ringPut at hput
  split at hput
  · cases hput
  · rename_i room
    cases hput
    have level := ring_remaining_lt q
    have hw : q.w % q.size = q.w := Nat.mod_eq_of_lt h.w_lt
    have fill := ringUnread_fill h (k := q.w) (vs := vs) (by
      rw [hw]
      show q.remaining + vs.length < q.size
      unfold SampleRing.free at room
      omega)
    rwa [hw] at fill

/-! ### Peek and Get -/

/-- A slot of a view is the circular slot it stands for: behind the store's end the shadow slots mirror the first ones. -/
theorem getElem?_view (h : RingOk q) {i : Nat} (hi : i < q.mrs) : q.slots[q.r + i]? = q.slots[(q.r + i) % q.size]? := by
  have hr := h.r_lt
  have hmrs := h.mrs_le
  have hsize : q.size = q.n + 1 := rfl
  rcases Nat.lt_or_ge (q.r + i) q.size with inside | behind
  · rw [Nat.mod_eq_of_lt inside]
  · rw [Nat.mod_eq_sub_mod behind, Nat.mod_eq_of_lt (by omega), ← h.shadow (q.r + i - q.size) (by omega),
      Nat.add_sub_cancel' behind]

/-- A Peek (R150) shows the oldest samples. -/
theorem map_some_of_ringPeek (h : RingOk q) (hpeek : ringPeek q n = some vs) : vs.map some = (ringUnread q).take n := by
  obtain ⟨hlen, hrem⟩ := length_of_ringPeek h hpeek
  unfold ringPeek at hpeek
  split at hpeek
  · cases hpeek
  · split at hpeek
    · cases hpeek
    · rename_i hmrs _
      cases hpeek
      refine List.ext_getElem? fun i => ?_
      rcases Nat.lt_or_ge i n with hi | hi
      · rw [List.getElem?_map, List.getElem?_take_of_lt hi, List.getElem?_drop, List.getElem?_take_of_lt hi, ringUnread,
          List.getElem?_map, List.getElem?_range (by omega), getElem?_view h (by omega)]
        obtain ⟨v, hv⟩ : ∃ v, q.slots[(q.r + i) % q.size]? = some v := by
          have := Nat.mod_lt (q.r + i) (ring_size_pos q)
          have := h.slots
          exact ⟨_, List.getElem?_eq_getElem (by omega)⟩
        rw [hv, Option.map_some, Option.map_some, hv]
      · rw [List.getElem?_eq_none (by rw [List.length_map]; omega), List.getElem?_eq_none (by simp; omega)]

/-- A Get (R151) takes the oldest samples from the queue. -/
theorem ringUnread_get (h : RingOk q) (hget : ringGet q n = some (vs, q')) :
    vs.map some = (ringUnread q).take n ∧ ringUnread q' = (ringUnread q).drop n := by
  obtain ⟨-, -, -, level, -, hrem⟩ := ringOk_get h hget
  unfold ringGet at hget
  split at hget
  · cases hget
  · rename_i us hpeek
    cases hget
    refine ⟨map_some_of_ringPeek h hpeek, ?_⟩
    rw [ringUnread, level, ringUnread]
    refine List.ext_getElem (by simp) fun i _ _ => ?_
    simp only [List.getElem_map, List.getElem_range, List.getElem_drop]
    show q.slots[((q.r + n) % q.size + i) % q.size]? = _
    rw [Nat.mod_add_mod, Nat.add_assoc]

end

end Sys2Proof.Proofs
end

section
/-! SUPPORT. What PC.CONVOLVE does with its rings, whatever the transform and the arithmetic are (42_partitioned.md R259, R261,
R262, R266): the output ring is a queue between the blocks and the host, and the input ring's level moves by whole partitions. -/
namespace Sys2Proof.Proofs
open Sys2Proof.Machine Sys2Proof.Safety

section
variable {α : Type} {env : PcEnv α} {st st' : PcState α}

theorem SameFilter.p (h : SameFilter st st') : st'.p = st.p := by rw [PcState.p, h.f, PcState.p]

/-! ### A block and a call -/

/-- The accumulator of the block in flight once the partitions from 1 on are all in it, however many the schedule has left
(R261, R264). -/
def finished (env : PcEnv α) (st : PcState α) : List α := macPartitions env st (st.cursor + 1) (st.np - 1) st.acc

/-- The samples that a block gives for the input window `u` (R261). -/
def blockOutput (env : PcEnv α) (j : Nat) (u : List α) (st : PcState α) : List α :=
  (env.fft st.f 1 (env.settle j (packedMac env.arith (finished env st) (env.fft st.f (-1) u) (st.h.getD 0 [])))).drop st.p

/-- The state after a block on the input window `u`, its rings apart (R261). -/
def afterBlock (env : PcEnv α) (u : List α) (st : PcState α) : PcState α :=
  { st with
    fb := st.fb.set st.head (env.fft st.f (-1) u), head := (st.head + 1) % st.np,
    acc := List.replicate st.f env.arith.zero, cursor := 0 }

/-- What ProcessBlock (R261) does: a Peek of `F` samples, a Put of the block's output, a Get of `P` samples. -/
theorem processBlock_eq_some {j : Nat} : processBlock env j st = some st' ↔
    ∃ u outRing vs inRing, ringPeek st.inRing st.f = some u ∧ ringPut st.outRing (blockOutput env j u st) = some outRing ∧
      ringGet st.inRing st.p = some (vs, inRing) ∧
      st' = { afterBlock env u st with inRing := inRing, outRing := outRing } := by
  constructor
  · intro h
    obtain ⟨u, peek, h⟩ := Option.bind_eq_some_iff.mp h
    obtain ⟨outRing, put, h⟩ := Option.bind_eq_some_iff.mp h
    obtain ⟨⟨vs, inRing⟩, get, h⟩ := Option.bind_eq_some_iff.mp h
    cases h
    exact ⟨u, outRing, vs, inRing, peek, put, get, rfl⟩
  · rintro ⟨u, outRing, vs, inRing, peek, put, get, rfl⟩
    exact Option.bind_eq_some_iff.mpr ⟨u, peek, Option.bind_eq_some_iff.mpr ⟨outRing, put,
      Option.bind_eq_some_iff.mpr ⟨(vs, inRing), get, rfl⟩⟩⟩

/-- What PC.CONVOLVE (R259) does: a Put of its samples, the blocks, the schedule's products and a Get. -/
theorem pcConvolve_eq_some {xs ys : List α} : pcConvolve env st xs = some (st', ys) ↔
    ∃ inRing st1 outRing, ringPut st.inRing xs = some inRing ∧
      processBlocks env inRing.remaining 0 { st with inRing := inRing } = some st1 ∧
      ringGet st1.outRing xs.length = some (ys, outRing) ∧
      st' = { amortise env { st1 with inCount := st1.inRing.remaining - st1.p } with outRing := outRing } := by
  constructor
  · intro h
    obtain ⟨inRing, put, h⟩ := Option.bind_eq_some_iff.mp h
    obtain ⟨st1, blocks, h⟩ := Option.bind_eq_some_iff.mp h
    obtain ⟨⟨zs, outRing⟩, get, h⟩ := Option.bind_eq_some_iff.mp h
    cases h
    exact ⟨inRing, st1, outRing, put, blocks, get, rfl⟩
  · rintro ⟨inRing, st1, outRing, put, blocks, get, rfl⟩
    exact Option.bind_eq_some_iff.mpr ⟨inRing, put, Option.bind_eq_some_iff.mpr ⟨st1, blocks,
      Option.bind_eq_some_iff.mpr ⟨(ys, outRing), get, rfl⟩⟩⟩

theorem pcRun_cons_eq_some {xs zs : List α} {blocks : List (List α)} : pcRun env st (xs :: blocks) = some (st', zs) ↔
    ∃ st1 ys ys', pcConvolve env st xs = some (st1, ys) ∧ pcRun env st1 blocks = some (st', ys') ∧ zs = ys ++ ys' := by
  constructor
  · intro h
    obtain ⟨⟨st1, ys⟩, first, h⟩ := Option.bind_eq_some_iff.mp h
    obtain ⟨⟨st2, ys'⟩, rest, h⟩ := Option.bind_eq_some_iff.mp h
    cases h
    exact ⟨st1, ys, ys', first, rest, rfl⟩
  · rintro ⟨st1, ys, ys', first, rest, rfl⟩
    exact Option.bind_eq_some_iff.mpr ⟨(st1, ys), first, Option.bind_eq_some_iff.mpr ⟨(st', ys'), rest, rfl⟩⟩

/-! ### The output ring -/

/-- The output ring has gone from `q` to `q'`: the samples `ys` were taken from its front, others were put behind. -/
def Flows (q q' : SampleRing α) (ys : List α) : Prop :=
  RingOk q' ∧ ∃ zs : List α, ys.map some ++ ringUnread q' = ringUnread q ++ zs.map some

theorem Flows.refl {q : SampleRing α} (h : RingOk q) : Flows q q [] := ⟨h, [], by simp⟩

theorem Flows.trans {q q' q'' : SampleRing α} {ys ys' : List α} (h : Flows q q' ys) (h' : Flows q' q'' ys') :
    Flows q q'' (ys ++ ys') := by
  obtain ⟨-, zs, hzs⟩ := h
  obtain ⟨ok, zs', hzs'⟩ := h'
  refine ⟨ok, zs ++ zs', ?_⟩
  rw [List.map_append, List.append_assoc, hzs', ← List.append_assoc, hzs, List.map_append, List.append_assoc]

theorem flows_put {q q' : SampleRing α} {vs : List α} (h : RingOk q) (hput : ringPut q vs = some q') : Flows q q' [] :=
  ⟨(ringOk_put h hput).1, vs, ringUnread_put h hput⟩

theorem flows_get {q q' : SampleRing α} {n : Nat} {ys : List α} (h : RingOk q) (hget : ringGet q n = some (ys, q')) :
    Flows q q' ys := by
  obtain ⟨taken, rest⟩ := ringUnread_get h hget
  exact ⟨(ringOk_get h hget).1, [], by rw [taken, rest, List.take_append_drop, List.map_nil, List.append_nil]⟩

/-- The samples that were unread come out first. -/
theorem Flows.getElem? {q q' : SampleRing α} {ys : List α} (h : Flows q q' ys) {k : Nat} (hk : k < ys.length)
    (unread : k < q.remaining) : (ringUnread q)[k]? = some ys[k]? := by
  obtain ⟨-, zs, hzs⟩ := h
  have front := congrArg (·[k]?) hzs
  simp only [List.getElem?_append_left (show k < (ys.map some).length by rwa [List.length_map]),
    List.getElem?_append_left (show k < (ringUnread q).length by rwa [length_ringUnread])] at front
  rw [← front, List.getElem?_map, List.getElem?_eq_getElem hk, Option.map_some]

theorem processBlocks_flows {fuel j : Nat} (h : RingOk st.outRing) (run : processBlocks env fuel j st = some st') :
    Flows st.outRing st'.outRing [] := by
  induction fuel generalizing j st with
  | zero =>
    cases run
    exact .refl h
  | succ fuel ih =>
    unfold processBlocks at run
    split at run
    · cases run
      exact .refl h
    · split at run
      · cases run
      · rename_i st1 block
        obtain ⟨u, outRing, vs, inRing, -, put, -, rfl⟩ := processBlock_eq_some.mp block
        have first := flows_put h put
        exact first.trans (ih first.1 run)

theorem pcConvolve_flows {xs ys : List α} (h : RingOk st.outRing) (run : pcConvolve env st xs = some (st', ys)) :
    Flows st.outRing st'.outRing ys ∧ ys.length = xs.length := by
  obtain ⟨inRing, st1, outRing, -, blocks, get, rfl⟩ := pcConvolve_eq_some.mp run
  have given : Flows st.outRing st1.outRing [] := processBlocks_flows (st := { st with inRing := inRing }) h blocks
  obtain ⟨-, -, -, -, taken, -⟩ := ringOk_get given.1 get
  exact ⟨given.trans (flows_get given.1 get), taken⟩

/-- A run (R266) gives as many samples as it takes, and first those of the output ring. -/
theorem pcRun_flows {blocks : List (List α)} {ys : List α} (h : RingOk st.outRing)
    (run : pcRun env st blocks = some (st', ys)) :
    Flows st.outRing st'.outRing ys ∧ ys.length = blocks.flatten.length := by
  induction blocks generalizing st ys with
  | nil =>
    cases run
    exact ⟨.refl h, rfl⟩
  | cons xs blocks ih =>
    obtain ⟨st1, zs, zs', first, rest, rfl⟩ := pcRun_cons_eq_some.mp run
    obtain ⟨flows, length⟩ := pcConvolve_flows h first
    obtain ⟨flows', length'⟩ := ih flows.1 rest
    exact ⟨flows.trans flows', by rw [List.length_append, List.flatten_cons, List.length_append, length, length']⟩

/-! ### The input ring's level -/

theorem processBlocks_level {fuel j : Nat} (h : RingOk st.inRing) (run : processBlocks env fuel j st = some st') :
    st'.inRing.remaining % st.p = st.inRing.remaining % st.p := by
  induction fuel generalizing j st with
  | zero =>
    cases run
    rfl
  | succ fuel ih =>
    unfold processBlocks at run
    split at run
    · cases run
      rfl
    · split at run
      · cases run
      · rename_i st1 block
        obtain ⟨u, outRing, vs, inRing, -, -, get, rfl⟩ := processBlock_eq_some.mp block
        obtain ⟨ok, -, -, level, -, enough⟩ := ringOk_get h get
        refine (ih ok run).trans ?_
        show inRing.remaining % st.p = _
        rw [level, ← Nat.mod_eq_sub_mod enough]

theorem pcConvolve_level {xs ys : List α} (h : RingOk st.inRing) (run : pcConvolve env st xs = some (st', ys)) :
    st'.inRing.remaining % st.p = (st.inRing.remaining + xs.length) % st.p := by
  obtain ⟨inRing, st1, outRing, put, blocks, -, rfl⟩ := pcConvolve_eq_some.mp run
  obtain ⟨ok, -, -, level⟩ := ringOk_put h put
  have kept : st1.inRing.remaining % st.p = inRing.remaining % st.p := processBlocks_level ok blocks
  rwa [level] at kept

end

/-! ### A call without samples -/

section
variable {α : Type} {env : PcEnv α} {st : PcState α}

theorem ringPut_nil {q : SampleRing α} (h : RingOk q) : ringPut q [] = some q := by
  rw [ringPut, if_neg (by simp)]
  show some { q with w := (q.w + 0) % q.size } = some q
  rw [Nat.add_zero, Nat.mod_eq_of_lt h.w_lt]

theorem ringGet_zero {q : SampleRing α} (h : RingOk q) : ringGet q 0 = some ([], q) := by
  rw [ringGet, ringPeek, if_neg (Nat.not_lt_zero _), if_neg (Nat.not_lt_zero _), List.take_zero]
  show some ([], { q with r := (q.r + 0) % q.size }) = some ([], q)
  rw [Nat.add_zero, Nat.mod_eq_of_lt h.r_lt]

theorem processBlocks_idle (h : st.inRing.remaining < st.f) (fuel j : Nat) : processBlocks env fuel j st = some st := by
  cases fuel with
  | zero => rfl
  | succ fuel => rw [processBlocks, if_pos h]

/-- Where the schedule is kept, it has no product to make. -/
theorem amortise_idle (h : st.cursor = (st.np - 1) * st.inCount / st.p) : amortise env st = st := by
  simp only [amortise, ← h, macPartitions, Nat.sub_self, List.range'_zero, List.foldl_nil, Nat.max_self]

end

section
variable {fftMaxN : Nat} {st st' : PcState F32}

/-- With `n = 0` PC.CONVOLVE changes nothing (R259). -/
theorem pcConvolve_nil (h : PcOk fftMaxN st) (env : PcEnv F32) : pcConvolve env st [] = some (st, []) := by
  have count := h.count_lt
  have buffered := h.buffered
  have hf := (PcBase.of_pcOk h).f_eq.1
  have same : st.inRing.remaining - st.p = st.inCount := by omega
  have level : st.inRing.remaining < st.f := by omega
  refine pcConvolve_eq_some.mpr ⟨st.inRing, st, st.outRing, ringPut_nil h.inRing, processBlocks_idle level _ _,
    ringGet_zero h.outRing, ?_⟩
  rw [same, amortise_idle (st := { st with inCount := st.inCount }) h.schedule]

/-- The samples of the block in flight count modulo `P` (R262). -/
theorem pcConvolve_inCount {s : State} {xs ys : List F32} (h : PcOk fftMaxN st)
    (run : pcConvolve (pcEnv s) st xs = some (st', ys)) : st'.inCount = (st.inCount + xs.length) % st.p := by
  obtain ⟨ok, -⟩ := pcConvolve_ok h run
  have hp := (pcConvolve_same run).p
  have count := ok.count_lt
  have buffered := ok.buffered
  calc st'.inCount = st'.inCount % st.p := (Nat.mod_eq_of_lt (hp ▸ count)).symm
    _ = st'.inRing.remaining % st.p := by rw [buffered, hp, Nat.add_mod_left]
    _ = (st.inCount + xs.length) % st.p := by
      rw [pcConvolve_level h.inRing run, h.buffered, Nat.add_assoc, Nat.add_mod_left]

end

/-! ### The statements -/

/-- Settles O50: the output ring of a reset instance holds `P` zeros. -/
theorem pcFirstOutputsAreZero : Obligations.PcFirstOutputsAreZero := by
  unfold Obligations.PcFirstOutputsAreZero
  intro fftMaxN env st st' blocks ys ok reset run
  obtain ⟨flows, length⟩ := pcRun_flows ok.outRing run
  refine ⟨length, fun k hk hlt => ?_⟩
  have held : k < st.outRing.remaining := by rwa [← length_ringUnread, reset.outRing, List.length_replicate]
  have first := flows.getElem? hlt held
  rw [reset.outRing, List.getElem?_replicate_of_lt hk] at first
  exact (Option.some.inj first).symm

section
variable {s : State} {x : Instance} {st st' : PcState F32}

theorem checkBlock_passes {maxin : Nat} (h : BlockReady s maxin) : checkBlock s maxin = .ok () := by
  rw [checkBlock_eq h.in_ne h.out_ne h.n_le h.in_fits h.outFits, faultIf_false (by simp [h.clear])]

/-- The state a PC.CONVOLVE ends in. -/
def convolvedTo (s : State) (x : Instance) (st : PcState F32) (ys : List F32) : State :=
  let s1 : State := { s with mem := s.mem.write (s.arg 2) (bytesOf ys) }
  (s1.setInstance (s.arg 0) { x with unit := .pc st }).nextDraw.complete 0

theorem pcConvolve_run {ys : List F32} (live : assocGet (s.arg 0) s.insts = some x) (hu : x.unit = .pc st)
    (ready : BlockReady s st.maxin) (backed : s.arg 3 = 0 ∨ allBacked s.plat (internalRings (s.arg 0) x.unit) = true)
    (run : pcConvolve (pcEnv s) st (samplesAt s (s.arg 1) (s.arg 3)) = some (st', ys)) (length : ys.length = s.arg 3) :
    exec .pcConvolve s = .next (convolvedTo s x st' ys) := by
  have rings : allBacked s.plat (if s.arg 3 = 0 then [] else internalRings (s.arg 0) x.unit) = true := by
    split
    next => rfl
    next hn => exact backed.resolve_left hn
  have write := memWrite_backed (s := s) (a := s.arg 2) (bs := bytesOf ys) (by rw [bytesOf_length, length]; exact ready.dest)
  refine exec_ok ?_
  simp only [command, pcConvolveCommand, checkHandle_pc live hu, ok_bind, checkBlock_passes ready,
    readSamples_backed ready.source, touchRings_backed rings, run, orInternal_some, write]
  rfl

end

/-- Settles O43: the internal operations of a well-kept instance succeed, and leave it well kept. -/
theorem pcConvolveCompletes : Obligations.PcConvolveCompletes := by
  unfold Obligations.PcConvolveCompletes
  intro s x st live hu ok ready backed
  have taken : (samplesAt s (s.arg 1) (s.arg 3)).length = s.arg 3 := length_samplesAt ..
  obtain ⟨⟨st', ys⟩, run⟩ := pcConvolve_succeeds (s := s) ok (taken.trans_le ready.n_le)
  obtain ⟨ok', length⟩ := pcConvolve_ok ok run
  have same := pcConvolve_same run
  have length : ys.length = s.arg 3 := length.trans taken
  refine ⟨_, st', ys, pcConvolve_run live hu ready backed run length, rfl, rfl, run, assocGet_set_same .., length,
    samplesAre_write s.mem (s.arg 2) ys, ok', (UnitStep.pcConvolve run).configOf_eq, same.nc, same.np, same.h, ?_, fun k hk held => ?_,
    fun hn => ?_⟩
  · rw [pcConvolve_inCount ok run, taken]
  · exact (pcConvolve_flows ok.outRing run).1.getElem? (length.symm ▸ hk) held
  · rw [List.eq_nil_of_length_eq_zero (taken.trans hn), pcConvolve_nil ok] at run
    cases run
    rfl

end Sys2Proof.Proofs
end

section
/-! SUPPORT. The output stream of PC.CONVOLVE as a function of its input stream (42_partitioned.md R261, R264, R266): block `b` reads
window `b` of the stream and nothing else of it, so how the stream is split into calls does not matter. -/
namespace Sys2Proof.Proofs
open Sys2Proof.Machine Sys2Proof.Safety

section
variable {α : Type} {env : PcEnv α} {st st' : PcState α}

/-! ### The schedule -/

/-- Two PC states whose next block, and every block after it, gives the same output on the same windows: what the schedule
has made of the accumulator so far does not matter (R264). -/
structure SameBlocks (env : PcEnv α) (st st' : PcState α) : Prop where
  filter : SameFilter st st'
  fb     : st'.fb = st.fb
  head   : st'.head = st.head
  acc    : finished env st' = finished env st

theorem SameBlocks.refl (env : PcEnv α) (st : PcState α) : SameBlocks env st st := ⟨.refl st, rfl, rfl, rfl⟩

theorem SameBlocks.trans {st'' : PcState α} (h : SameBlocks env st st') (h' : SameBlocks env st' st'') :
    SameBlocks env st st'' :=
  ⟨h.filter.trans h'.filter, h'.fb.trans h.fb, h'.head.trans h.head, h'.acc.trans h.acc⟩

theorem SameBlocks.output (h : SameBlocks env st st') (j : Nat) (u : List α) :
    blockOutput env j u st' = blockOutput env j u st := by
  rw [blockOutput, h.acc, h.filter.f, h.filter.h, h.filter.p, blockOutput]

theorem macPartitions_congr (same : SameFilter st st') (fb : st'.fb = st.fb) (head : st'.head = st.head) (lo hi : Nat)
    (acc : List α) : macPartitions env st' lo hi acc = macPartitions env st lo hi acc := by
  rw [macPartitions, fb, head, same.np, same.h, macPartitions]

theorem SameBlocks.after (h : SameBlocks env st st') (u : List α) :
    SameBlocks env (afterBlock env u st) (afterBlock env u st') := by
  have filter : SameFilter (afterBlock env u st) (afterBlock env u st') :=
    ⟨h.filter.maxc, h.filter.maxin, h.filter.f, h.filter.nc, h.filter.np, h.filter.h⟩
  have fb : (afterBlock env u st').fb = (afterBlock env u st).fb := by
    simp only [afterBlock, h.fb, h.head, h.filter.f]
  have head : (afterBlock env u st').head = (afterBlock env u st).head := by
    simp only [afterBlock, h.head, h.filter.np]
  refine ⟨filter, fb, head, ?_⟩
  rw [finished, macPartitions_congr filter fb head, filter.np, finished]
  simp only [afterBlock, h.filter.f]

/-- Partitions in two runs of ascending numbers. -/
theorem macPartitions_append (env : PcEnv α) (st : PcState α) {lo mid hi : Nat} (h1 : lo ≤ mid + 1) (h2 : mid ≤ hi)
    (acc : List α) :
    macPartitions env st (mid + 1) hi (macPartitions env st lo mid acc) = macPartitions env st lo hi acc := by
  have split : List.range' lo (hi + 1 - lo) = List.range' lo (mid + 1 - lo) ++ List.range' (mid + 1) (hi + 1 - (mid + 1)) := by
    have := List.range'_append_1 (s := lo) (m := mid + 1 - lo) (n := hi + 1 - (mid + 1))
    rw [show lo + (mid + 1 - lo) = mid + 1 by omega] at this
    rw [this]
    congr 1
    omega
  simp only [macPartitions, split, List.foldl_append]

/-- Amortise (R264) makes some of the products that the block makes otherwise, in the block's order. -/
theorem amortise_sameBlocks (h : st.inCount ≤ st.p) : SameBlocks env st (amortise env st) := by
  refine ⟨⟨rfl, rfl, rfl, rfl, rfl, rfl⟩, rfl, rfl, ?_⟩
  have target : (st.np - 1) * st.inCount / st.p ≤ st.np - 1 :=
    Nat.div_le_of_le_mul (by rw [Nat.mul_comm st.p]; exact Nat.mul_le_mul_left _ h)
  show macPartitions env st (max st.cursor ((st.np - 1) * st.inCount / st.p) + 1) (st.np - 1)
    (macPartitions env st (st.cursor + 1) ((st.np - 1) * st.inCount / st.p) st.acc) = finished env st
  rcases Nat.le_total st.cursor ((st.np - 1) * st.inCount / st.p) with ahead | done
  · rw [Nat.max_eq_right ahead, macPartitions_append env st (by omega) target, finished]
  · have none : macPartitions env st (st.cursor + 1) ((st.np - 1) * st.inCount / st.p) st.acc = st.acc := by
      rw [macPartitions, show (st.np - 1) * st.inCount / st.p + 1 - (st.cursor + 1) = 0 by omega, List.range'_zero,
        List.foldl_nil]
    rw [Nat.max_eq_left done, none, finished]

/-! ### The stages of a stream -/

/-- Window `b` of a stream: the block before and block `b` (R261, R265). -/
def windowOf (st : PcState α) (stream : List α) (b : Nat) : List α := (stream.drop (b * st.p)).take st.f

/-- The state after `b` blocks of a stream, its rings and its schedule apart. -/
def stage (env : PcEnv α) (st : PcState α) (stream : List α) : Nat → PcState α
  | 0 => st
  | b + 1 => afterBlock env (windowOf st stream b) (stage env st stream b)

/-- The output of the first `b` blocks of a stream, where the accumulator's NaNs are settled alike in every block. -/
def emitted (env : PcEnv α) (st : PcState α) (stream : List α) (b : Nat) : List α :=
  (List.range b).flatMap fun k => blockOutput env 0 (windowOf st stream k) (stage env st stream k)

theorem stage_sameFilter (env : PcEnv α) (st : PcState α) (stream : List α) (b : Nat) :
    SameFilter st (stage env st stream b) := by
  induction b with
  | zero => exact .refl st
  | succ b ih => exact ih.trans ⟨rfl, rfl, rfl, rfl, rfl, rfl⟩

theorem emitted_succ (env : PcEnv α) (st : PcState α) (stream : List α) (b : Nat) : emitted env st stream (b + 1) =
    emitted env st stream b ++ blockOutput env 0 (windowOf st stream b) (stage env st stream b) := by
  simp [emitted, List.range_succ]

/-- A state `st` reached from `st0` when `m` samples of the stream have been taken in, `b` blocks made and the samples `ys`
given out. -/
structure Follows (env : PcEnv α) (st0 : PcState α) (stream : List α) (m b : Nat) (ys : List α) (st : PcState α) : Prop where
  blocks  : SameBlocks env (stage env st0 stream b) st
  inRing  : RingOk st.inRing
  outRing : RingOk st.outRing
  low     : (b + 1) * st0.p ≤ m
  within  : m ≤ stream.length
  pending : ringUnread st.inRing = ((stream.take m).drop (b * st0.p)).map some
  output  : ys.map some ++ ringUnread st.outRing = ringUnread st0.outRing ++ (emitted env st0 stream b).map some

section
variable {st0 : PcState α} {stream ys : List α} {m b : Nat}

theorem Follows.sameFilter (h : Follows env st0 stream m b ys st) : SameFilter st0 st :=
  (stage_sameFilter env st0 stream b).trans h.blocks.filter

theorem Follows.level (h : Follows env st0 stream m b ys st) : st.inRing.remaining = m - b * st0.p := by
  rw [← length_ringUnread, h.pending, List.length_map, List.length_drop, List.length_take, Nat.min_eq_left h.within]

theorem Follows.put {xs rest : List α} {inRing : SampleRing α} (h : Follows env st0 stream m b ys st)
    (next : stream.drop m = xs ++ rest) (put : ringPut st.inRing xs = some inRing) :
    Follows env st0 stream (m + xs.length) b ys { st with inRing := inRing } := by
  have low := h.low
  have longer : b * st0.p ≤ (stream.take m).length := by
    rw [List.length_take, Nat.min_eq_left h.within]
    exact (Nat.mul_le_mul_right _ (Nat.le_succ b)).trans low
  refine ⟨h.blocks.trans ⟨⟨rfl, rfl, rfl, rfl, rfl, rfl⟩, rfl, rfl, rfl⟩, (ringOk_put h.inRing put).1, h.outRing,
    by omega, ?_, ?_, h.output⟩
  · have := congrArg List.length next
    rw [List.length_drop, List.length_append] at this
    have := h.within
    omega
  · rw [ringUnread_put h.inRing put, h.pending, List.take_add, next, List.take_left, List.drop_append_of_le_length longer,
      List.map_append]

/-- A block (R261) whose NaNs are settled like block 0's moves the state to the next stage. -/
theorem Follows.block {j : Nat} (h : Follows env st0 stream m b ys st) (even : st0.f = 2 * st0.p)
    (settle : env.settle j = env.settle 0) (full : st.f ≤ st.inRing.remaining) (block : processBlock env j st = some st') :
    Follows env st0 stream m (b + 1) ys st' := by
  obtain ⟨u, outRing, vs, inRing, peek, put, get, rfl⟩ := processBlock_eq_some.mp block
  have same := h.sameFilter
  have level := h.level
  have low := h.low
  have step : (b + 1) * st0.p = b * st0.p + st0.p := Nat.succ_mul ..
  have step' : (b + 1 + 1) * st0.p = (b + 1) * st0.p + st0.p := Nat.succ_mul ..
  rw [same.f] at peek full
  rw [same.p] at get
  have window : u = windowOf st0 stream b := by
    have shown := map_some_of_ringPeek h.inRing peek
    rw [h.pending, ← List.map_take, List.drop_take, List.take_take, Nat.min_eq_left (by omega)] at shown
    exact (List.map_injective_iff.mpr (Option.some_injective α)) shown
  have out : blockOutput env j u st = blockOutput env 0 (windowOf st0 stream b) (stage env st0 stream b) := by
    rw [← h.blocks.output, window, blockOutput, settle, blockOutput]
  obtain ⟨-, rest⟩ := ringUnread_get h.inRing get
  refine ⟨?_, (ringOk_get h.inRing get).1, (ringOk_put h.outRing put).1, by omega, h.within, ?_, ?_⟩
  · subst window
    exact (h.blocks.after _).trans ⟨⟨rfl, rfl, rfl, rfl, rfl, rfl⟩, rfl, rfl, rfl⟩
  · show ringUnread inRing = _
    rw [rest, h.pending, ← List.map_drop, List.drop_drop, step]
  · show ys.map some ++ ringUnread outRing = _
    rw [ringUnread_put h.outRing put, ← List.append_assoc, h.output, out, emitted_succ, List.map_append, List.append_assoc]

/-- The blocks of a call leave less than a window. -/
theorem Follows.processBlocks {fuel j : Nat} (h : Follows env st0 stream m b ys st) (even : st0.f = 2 * st0.p)
    (pos : 1 ≤ st0.p) (settle : ∀ j, env.settle j = env.settle 0) (enough : st.inRing.remaining ≤ fuel)
    (run : processBlocks env fuel j st = some st') :
    ∃ b', Follows env st0 stream m b' ys st' ∧ st'.inRing.remaining < st0.f := by
  induction fuel generalizing j b st with
  | zero =>
    cases run
    exact ⟨b, h, by omega⟩
  | succ fuel ih =>
    unfold Machine.processBlocks at run
    split at run
    · cases run
      exact ⟨b, h, by rwa [← h.sameFilter.f]⟩
    · rename_i full
      split at run
      · cases run
      · rename_i st1 block
        have next := h.block even (settle j) (Nat.le_of_not_lt full) block
        refine ih next ?_ run
        have := h.level
        have := next.level
        have := h.sameFilter.f
        have step : (b + 1) * st0.p = b * st0.p + st0.p := Nat.succ_mul ..
        omega

/-- PC.CONVOLVE (R259) takes its samples in and gives out as many; the schedule's products are made, not used. -/
theorem Follows.convolve {xs rest zs : List α} (h : Follows env st0 stream m b ys st) (even : st0.f = 2 * st0.p)
    (pos : 1 ≤ st0.p) (settle : ∀ j, env.settle j = env.settle 0) (next : stream.drop m = xs ++ rest)
    (run : pcConvolve env st xs = some (st', zs)) :
    ∃ b', Follows env st0 stream (m + xs.length) b' (ys ++ zs) st' ∧ m + xs.length < (b' + 2) * st0.p := by
  obtain ⟨inRing, st1, outRing, put, blocks, get, rfl⟩ := pcConvolve_eq_some.mp run
  obtain ⟨b', h1, below⟩ := (h.put next put).processBlocks even pos settle (Nat.le_refl _) blocks
  have same := h1.sameFilter
  have step : (b' + 2) * st0.p = b' * st0.p + 2 * st0.p := Nat.add_mul ..
  have level := h1.level
  obtain ⟨taken, left⟩ := ringUnread_get h1.outRing get
  refine ⟨b', ⟨?_, h1.inRing, (ringOk_get h1.outRing get).1, h1.low, h1.within, h1.pending, ?_⟩, by omega⟩
  · have count : st1.inRing.remaining - st1.p ≤ st1.p := by
      rw [same.p]
      omega
    refine h1.blocks.trans (SameBlocks.trans (st' := { st1 with inCount := st1.inRing.remaining - st1.p }) ?_ ?_)
    · exact ⟨⟨rfl, rfl, rfl, rfl, rfl, rfl⟩, rfl, rfl, rfl⟩
    · exact (amortise_sameBlocks count).trans ⟨⟨rfl, rfl, rfl, rfl, rfl, rfl⟩, rfl, rfl, rfl⟩
  · show (ys ++ zs).map some ++ ringUnread outRing = _
    rw [List.map_append, List.append_assoc, taken, left, List.take_append_drop, h1.output]

/-- A run over the rest of the stream ends with every whole block made. -/
theorem Follows.run {blocks : List (List α)} {zs : List α} (h : Follows env st0 stream m b ys st)
    (even : st0.f = 2 * st0.p) (pos : 1 ≤ st0.p) (settle : ∀ j, env.settle j = env.settle 0)
    (settled : m < (b + 2) * st0.p) (rest : stream.drop m = blocks.flatten) (run : pcRun env st blocks = some (st', zs)) :
    ∃ b', Follows env st0 stream stream.length b' (ys ++ zs) st' ∧ stream.length < (b' + 2) * st0.p := by
  induction blocks generalizing m b ys st zs with
  | nil =>
    cases run
    have all : m = stream.length := Nat.le_antisymm h.within (List.drop_eq_nil_iff.mp rest)
    subst all
    exact ⟨b, by rwa [List.append_nil], settled⟩
  | cons xs blocks ih =>
    obtain ⟨st1, zs1, zs2, first, others, rfl⟩ := pcRun_cons_eq_some.mp run
    obtain ⟨b1, h1, settled1⟩ := h.convolve even pos settle rest first
    rw [← List.append_assoc]
    refine ih h1 settled1 ?_ others
    rw [← List.drop_drop, rest, List.flatten_cons, List.drop_left]

end

/-! ### The stream of a run -/

/-- The unread slots of a ring hold samples. -/
theorem exists_unread {q : SampleRing α} (h : RingOk q) : ∃ vs : List α, ringUnread q = vs.map some := by
  have inside (i : Nat) : (q.r + i) % q.size < q.slots.length := by
    have := Nat.mod_lt (q.r + i) (ring_size_pos q)
    have := h.slots
    omega
  refine ⟨(List.range q.remaining).map fun i => q.slots[(q.r + i) % q.size]'(inside i), ?_⟩
  rw [ringUnread, List.map_map]
  exact List.map_congr_left fun i _ => List.getElem?_eq_getElem (inside i)

/-- The output of a run is the beginning of a stream that the samples held and taken in fix, split or not (R266). -/
theorem pcRun_output {held ys : List α} {blocks : List (List α)} (settle : ∀ j, env.settle j = env.settle 0)
    (even : st.f = 2 * st.p) (pos : 1 ≤ st.p) (inRing : RingOk st.inRing) (outRing : RingOk st.outRing)
    (unread : ringUnread st.inRing = held.map some) (low : st.p ≤ held.length) (high : held.length < st.f)
    (run : pcRun env st blocks = some (st', ys)) :
    ys.map some ++ ringUnread st'.outRing = ringUnread st.outRing ++
      (emitted env st (held ++ blocks.flatten) ((held ++ blocks.flatten).length / st.p - 1)).map some := by
  have start : Follows env st (held ++ blocks.flatten) held.length 0 [] st :=
    { blocks := .refl env st
      inRing := inRing
      outRing := outRing
      low := by omega
      within := by simp
      pending := by rw [Nat.zero_mul, List.drop_zero, List.take_left, unread]
      output := by simp [emitted] }
  obtain ⟨b, h, settled⟩ := start.run even pos settle (by omega) List.drop_left run
  have count : (held ++ blocks.flatten).length / st.p = b + 1 := Nat.div_eq_of_lt_le h.low settled
  rw [count]
  exact h.output

end

/-- Settles O51: both runs give the beginning of the same stream, and equally much of it. -/
theorem pcOutputIsIndependentOfTheSplit : Obligations.PcOutputIsIndependentOfTheSplit := by
  unfold Obligations.PcOutputIsIndependentOfTheSplit
  intro fftMaxN env st st1 st2 blocks1 blocks2 ys1 ys2 ok settle same run1 run2
  obtain ⟨held, unread⟩ := exists_unread ok.inRing
  obtain ⟨even, pos⟩ := (PcBase.of_pcOk ok).f_eq
  have length : held.length = st.p + st.inCount := by
    rw [← ok.buffered, ← length_ringUnread, unread, List.length_map]
  have count := ok.count_lt
  have output {blocks : List (List F32)} {st' : PcState F32} {ys : List F32} :=
    pcRun_output (blocks := blocks) (st' := st') (ys := ys) settle even pos ok.inRing ok.outRing unread (by omega) (by omega)
  have stream := (output run1).trans (same ▸ (output run2).symm)
  have equal : ys1.length = ys2.length := by
    rw [(pcRun_flows ok.outRing run1).2, (pcRun_flows ok.outRing run2).2, same]
  exact List.map_injective_iff.mpr (Option.some_injective F32) (List.append_inj stream (by simpa using equal)).1

end Sys2Proof.Proofs
end

section
/-! SUPPORT. A run of PC.CONVOLVE succeeds whatever the arithmetic is, where the transforms give as many samples as their size says
(42_partitioned.md R43, R262, R263). -/
namespace Sys2Proof.Proofs
open Sys2Proof.Machine Sys2Proof.Safety

section
variable {α : Type} {env : PcEnv α} {st : PcState α} {total : Nat}

/-- The rings of a PC state that hold `total` samples together, at least `P` of them input, and no more than a call may leave
in them. -/
structure PcLevels (total : Nat) (st : PcState α) : Prop where
  even    : st.f = 2 * st.p
  pos     : 1 ≤ st.p
  inRing  : RingOk st.inRing
  outRing : RingOk st.outRing
  inSize  : st.inRing.n = 2 * st.p + st.maxin ∧ st.inRing.mrs = st.f
  outSize : st.outRing.n = st.p + st.maxin ∧ st.outRing.mrs = st.maxin
  low     : st.p ≤ st.inRing.remaining
  level   : st.inRing.remaining + st.outRing.remaining = total
  room    : total ≤ 2 * st.p + st.maxin

section
variable (hfft : ∀ n flag v, (env.fft n flag v).length = n)
include hfft

theorem length_blockOutput (h : PcLevels total st) (j : Nat) (u : List α) : (blockOutput env j u st).length = st.p := by
  have := h.even
  rw [blockOutput, List.length_drop, hfft]
  omega

theorem PcLevels.block (h : PcLevels total st) (full : st.f ≤ st.inRing.remaining) (j : Nat) :
    ∃ st', processBlock env j st = some st' ∧ PcLevels total st' ∧ st'.inRing.remaining < st.inRing.remaining := by
  obtain ⟨inN, inMrs⟩ := h.inSize
  obtain ⟨outN, outMrs⟩ := h.outSize
  have even := h.even
  have pos := h.pos
  have level := h.level
  have room := h.room
  obtain ⟨u, peek⟩ := ringPeek_succeeds (q := st.inRing) (n := st.f) (by omega) full
  obtain ⟨outRing, put⟩ := ringPut_succeeds (q := st.outRing) (vs := blockOutput env j u st)
    (by rw [length_blockOutput hfft h]; omega)
  obtain ⟨⟨vs, inRing⟩, get⟩ := ringGet_succeeds (q := st.inRing) (n := st.p) (by omega) (by omega)
  obtain ⟨inOk, inN', inMrs', inLevel, -, -⟩ := ringOk_get h.inRing get
  obtain ⟨outOk, outN', outMrs', outLevel⟩ := ringOk_put h.outRing put
  rw [length_blockOutput hfft h] at outLevel
  have lower : inRing.remaining < st.inRing.remaining := by omega
  refine ⟨_, processBlock_eq_some.mpr ⟨u, outRing, vs, inRing, peek, put, get, rfl⟩, ?_, lower⟩
  exact
    { even := even
      pos := pos
      inRing := inOk
      outRing := outOk
      inSize := ⟨inN'.trans inN, inMrs'.trans inMrs⟩
      outSize := ⟨outN'.trans outN, outMrs'.trans outMrs⟩
      low := show st.p ≤ inRing.remaining by omega
      level := show inRing.remaining + outRing.remaining = total by omega
      room := room }

theorem PcLevels.blocks (h : PcLevels total st) {fuel : Nat} (enough : st.inRing.remaining ≤ fuel) (j : Nat) :
    ∃ st', processBlocks env fuel j st = some st' ∧ PcLevels total st' ∧ st'.inRing.remaining < st'.f := by
  induction fuel generalizing j st with
  | zero =>
    have := h.low
    have := h.pos
    omega
  | succ fuel ih =>
    rcases Nat.lt_or_ge st.inRing.remaining st.f with below | full
    · exact ⟨st, processBlocks_idle below _ _, h, below⟩
    · obtain ⟨st1, block, h1, lower⟩ := h.block hfft full j
      obtain ⟨st', run, rest⟩ := ih h1 (by omega) (j + 1)
      refine ⟨st', ?_, rest⟩
      rw [processBlocks, if_neg (Nat.not_lt.mpr full), block]
      exact run

/-- Between two calls the rings hold `2P` samples together (R262). -/
theorem PcLevels.convolve (h : PcLevels (2 * st.p) st) {xs : List α} (hlen : xs.length ≤ st.maxin) :
    ∃ st' ys, pcConvolve env st xs = some (st', ys) ∧ PcLevels (2 * st'.p) st' := by
  have level := h.level
  have low := h.low
  obtain ⟨inN, inMrs⟩ := h.inSize
  obtain ⟨inRing, put⟩ := ringPut_succeeds (q := st.inRing) (vs := xs) (by omega)
  obtain ⟨inOk, inN', inMrs', inLevel⟩ := ringOk_put h.inRing put
  have taken : PcLevels (2 * st.p + xs.length) { st with inRing := inRing } :=
    { h with
      inRing := inOk
      inSize := ⟨inN'.trans inN, inMrs'.trans inMrs⟩
      low := show st.p ≤ inRing.remaining by omega
      level := show inRing.remaining + st.outRing.remaining = _ by omega
      room := Nat.add_le_add_left hlen _ }
  obtain ⟨st1, blocks, h1, below⟩ := taken.blocks hfft (Nat.le_refl _) 0
  have same := processBlocks_same blocks
  have p1 : st1.p = st.p := same.p
  have maxin1 : st1.maxin = st.maxin := same.maxin
  obtain ⟨outN, outMrs⟩ := h1.outSize
  have even1 := h1.even
  have level1 := h1.level
  obtain ⟨⟨ys, outRing⟩, get⟩ := ringGet_succeeds (q := st1.outRing) (n := xs.length) (by omega) (by omega)
  obtain ⟨outOk, outN', outMrs', outLevel, -, -⟩ := ringOk_get h1.outRing get
  refine ⟨_, ys, pcConvolve_eq_some.mpr ⟨inRing, st1, outRing, put, blocks, get, rfl⟩, ?_⟩
  exact
    { h1 with
      outRing := outOk
      outSize := ⟨outN'.trans outN, outMrs'.trans outMrs⟩
      level := show st1.inRing.remaining + outRing.remaining = 2 * st1.p by omega
      room := Nat.le_add_right .. }

/-- Every run within the per-call maximum succeeds (R263). -/
theorem PcLevels.run (h : PcLevels (2 * st.p) st) {blocks : List (List α)} (hlen : ∀ xs ∈ blocks, xs.length ≤ st.maxin) :
    ∃ r, pcRun env st blocks = some r := by
  induction blocks generalizing st with
  | nil => exact ⟨(st, []), rfl⟩
  | cons xs blocks ih =>
    obtain ⟨first, rest⟩ := List.forall_mem_cons.mp hlen
    obtain ⟨st1, ys, call, h1⟩ := h.convolve hfft first
    obtain ⟨⟨st', ys'⟩, run⟩ := ih h1 fun zs hzs => (pcConvolve_same call).maxin ▸ rest zs hzs
    exact ⟨_, pcRun_cons_eq_some.mpr ⟨st1, ys, ys', call, run, rfl⟩⟩

end

/-! ### A reset state -/

/-- A reset succeeds where the rings have room for its zeros, whatever the arithmetic is (R255). -/
theorem pcReset_eq (hin : st.p ≤ st.inRing.n) (hout : st.p ≤ st.outRing.n) :
    pcReset env st = some (pcCleared env st) := by
  rw [pcReset, ringSeed_eq hin, ringSeed_eq hout]
  rfl

/-- Its rings hold `P` zeros each (R258). -/
theorem pcCleared_levels (env : PcEnv α) (even : st.f = 2 * st.p) (pos : 1 ≤ st.p)
    (inSize : st.inRing.n = 2 * st.p + st.maxin ∧ st.inRing.mrs = st.f)
    (outSize : st.outRing.n = st.p + st.maxin ∧ st.outRing.mrs = st.maxin) :
    PcLevels (2 * (pcCleared env st).p) (pcCleared env st) := by
  obtain ⟨inOk, -, -, inLevel⟩ := ringOk_seed (by omega) (ringSeed_eq (zero := env.arith.zero) (q := st.inRing)
    (count := st.p) (by omega))
  obtain ⟨outOk, -, -, outLevel⟩ := ringOk_seed (by omega) (ringSeed_eq (zero := env.arith.zero) (q := st.outRing)
    (count := st.p) (by omega))
  exact
    { even := even
      pos := pos
      inRing := inOk
      outRing := outOk
      inSize := inSize
      outSize := outSize
      low := inLevel.symm.le
      level := (congrArg₂ (· + ·) inLevel outLevel).trans (Nat.two_mul _).symm
      room := Nat.le_add_right .. }

end

end Sys2Proof.Proofs
end

section
/-! SUPPORT. The ideal law of the partitioned convolver (42_partitioned.md R251, R257, R261, R265): with ideal transforms and exact
arithmetic a block's output is the sum of the circular convolutions of the past windows with the partitions, and that sum is
the linear convolution. -/
namespace Sys2Proof.Proofs
open Sys2Proof.Machine Sys2Proof.Safety Sys2Proof.Ideal

/-! ### Accumulated partitions -/

/-- Sample `j` of the circular convolution of `u` with `g` over `n` samples (R219). -/
noncomputable def circular (n : ℕ) (u g : List ℝ) (j : ℕ) : ℝ :=
  ∑ l ∈ Finset.range n, g.getD l 0 * u.getD ((j + n - l) % n) 0

theorem length_accumulated (n : ℕ) (acc u g : List ℝ) : (accumulated n acc u g).length = acc.length :=
  length_packedMac ..

/-- The products of the partitions from 1 on, in the machine's order (R264). -/
noncomputable def accumulatedFrom1 (n : ℕ) (acc : List ℝ) (u g : ℕ → List ℝ) (count : ℕ) : List ℝ :=
  (List.range' 1 count).foldl (fun acc q => accumulated n acc (u q) (g q)) acc

theorem accumulatedFrom1_succ (n : ℕ) (acc : List ℝ) (u g : ℕ → List ℝ) (count : ℕ) :
    accumulatedFrom1 n acc u g (count + 1) =
      accumulated n (accumulatedFrom1 n acc u g count) (u (count + 1)) (g (count + 1)) := by
  rw [accumulatedFrom1, List.range'_concat, List.foldl_append, List.foldl_cons, List.foldl_nil, Nat.one_mul,
    Nat.add_comm 1 count, accumulatedFrom1]

theorem length_accumulatedFrom1 (n : ℕ) (acc : List ℝ) (u g : ℕ → List ℝ) (count : ℕ) :
    (accumulatedFrom1 n acc u g count).length = acc.length := by
  induction count with
  | zero => rfl
  | succ count ih => rw [accumulatedFrom1_succ, length_accumulated, ih]

/-- The inverse transform of zeros is zero. -/
theorem realInverse_zeros {m j : ℕ} (hj : j < 2 * m) : (realInverse (2 * m) (List.replicate (2 * m) 0)).getD j 0 = 0 := by
  rw [realInverse_getD _ hj]
  simp [inverseTerm, List.getD_eq_getElem?_getD, List.getElem?_getD_replicate_default_eq]

section
variable {m j : ℕ} (u g : ℕ → List ℝ) (hj : j < 2 * m)
include hj

theorem realInverse_accumulatedFrom1 (count : ℕ) :
    (realInverse (2 * m) (accumulatedFrom1 (2 * m) (List.replicate (2 * m) 0) u g count)).getD j 0 =
      ∑ q ∈ Finset.range count, circular (2 * m) (u (q + 1)) (g (q + 1)) j := by
  induction count with
  | zero => exact realInverse_zeros hj
  | succ count ih =>
    rw [accumulatedFrom1_succ, realInverse_accumulated (by rw [length_accumulatedFrom1, List.length_replicate]) _ _ hj, ih,
      Finset.sum_range_succ, circular]

/-- Every partition counts once, partition 0 last (R261). -/
theorem realInverse_partitions {np : ℕ} (hnp : 1 ≤ np) :
    (realInverse (2 * m) (accumulated (2 * m)
      (accumulatedFrom1 (2 * m) (List.replicate (2 * m) 0) u g (np - 1)) (u 0) (g 0))).getD j 0 =
      ∑ q ∈ Finset.range np, circular (2 * m) (u q) (g q) j := by
  obtain ⟨count, rfl⟩ := Nat.exists_eq_add_of_le' hnp
  rw [realInverse_accumulated (by rw [length_accumulatedFrom1, List.length_replicate]) _ _ hj, Nat.add_sub_cancel,
    realInverse_accumulatedFrom1 u g hj, Finset.sum_range_succ', circular]

end

/-! ### The circular convolutions are the linear one -/

theorem sum_range_mul {M : Type} [AddCommMonoid M] (f : ℕ → M) (n m : ℕ) :
    ∑ k ∈ Finset.range (n * m), f k = ∑ q ∈ Finset.range n, ∑ l ∈ Finset.range m, f (q * m + l) := by
  induction n with
  | zero => simp
  | succ n ih => rw [Nat.succ_mul, Finset.sum_range_add, ih, Finset.sum_range_succ]

theorem getD_padTo (xs : List ℝ) {len k : ℕ} (h : k < len) : (padTo 0 len xs).getD k 0 = xs.getD k 0 := by
  rcases Nat.lt_or_ge k xs.length with inside | behind
  · rw [List.getD_eq_getElem?_getD, getElem?_padTo_of_lt 0 inside h, List.getD_eq_getElem?_getD]
  · rw [List.getD_eq_getElem?_getD, getElem?_padTo_of_ge 0 behind h, List.getD_eq_default _ _ behind, Option.getD_some]

theorem getD_take_drop (xs : List ℝ) (start len k : ℕ) :
    ((xs.drop start).take len).getD k 0 = if k < len then xs.getD (start + k) 0 else 0 := by
  simp only [List.getD_eq_getElem?_getD, List.getElem?_take, List.getElem?_drop]
  split <;> rfl

theorem getD_segment {m q l : ℕ} (h : List ℝ) (hl : l < 2 * m) :
    (Machine.segment 0 (2 * m) h q).getD l 0 = if l < m then h.getD (q * m + l) 0 else 0 := by
  rw [Machine.segment, getD_padTo _ hl, Nat.mul_div_cancel_left m (by decide), getD_take_drop]

theorem getD_zeros_append (n k : ℕ) (xs : List ℝ) :
    (List.replicate n 0 ++ xs).getD k 0 = if n ≤ k then xs.getD (k - n) 0 else 0 := by
  split
  next h => rw [List.getD_append_right _ _ _ _ (by simpa using h), List.length_replicate]
  next h => rw [List.getD_append _ _ _ _ (by simpa using h), List.getD_replicate _ (by omega)]

/-- The input stream of a reset instance behind `np` blocks of zeros. -/
def history (np m : ℕ) (x : List ℝ) : List ℝ := List.replicate (np * m + m) 0 ++ x

/-- Window `w` of it. -/
def pastWindow (np m : ℕ) (x : List ℝ) (w : ℕ) : List ℝ := ((history np m x).drop (w * m)).take (2 * m)

/-- The term of tap `k` in sample `t` of the delayed convolution (R265). -/
noncomputable def tapTerm (h x : List ℝ) (delay t k : ℕ) : ℝ :=
  if delay + k ≤ t then h.getD k 0 * x.getD (t - delay - k) 0 else 0

/-- In the second half of a window the convolution with a partition does not wrap around (R265). -/
theorem circular_partition {np m b q i : ℕ} (h x : List ℝ) (hq : q < np) (hi : i < m) :
    circular (2 * m) (pastWindow np m x (b + np - q)) (Machine.segment 0 (2 * m) h q) (m + i) =
      ∑ l ∈ Finset.range m, tapTerm h x m (m + b * m + i) (q * m + l) := by
  have zero : ∑ l ∈ Finset.range m, (Machine.segment 0 (2 * m) h q).getD (m + l) 0 *
      (pastWindow np m x (b + np - q)).getD ((m + i + 2 * m - (m + l)) % (2 * m)) 0 = 0 :=
    Finset.sum_eq_zero fun l hl => by
      rw [getD_segment h (by have := Finset.mem_range.mp hl; omega), if_neg (by omega), zero_mul]
  rw [circular, Nat.two_mul, Finset.sum_range_add, ← Nat.two_mul, zero, add_zero]
  refine Finset.sum_congr rfl fun l hl => ?_
  have hl := Finset.mem_range.mp hl
  have place : (m + i + 2 * m - l) % (2 * m) = m + i - l := by
    rw [show m + i + 2 * m - l = m + i - l + 2 * m by omega, Nat.add_mod_right, Nat.mod_eq_of_lt (by omega)]
  have start : (b + np - q) * m = b * m + np * m - q * m := by rw [Nat.sub_mul, Nat.add_mul]
  have inside : q * m ≤ np * m := Nat.mul_le_mul_right m hq.le
  rw [getD_segment h (by omega), if_pos hl, place, pastWindow, getD_take_drop, if_pos (by omega), history,
    getD_zeros_append, start, tapTerm]
  by_cases reached : m + (q * m + l) ≤ m + b * m + i
  · rw [if_pos reached, if_pos (by omega)]
    congr 2
    omega
  · rw [if_neg reached, if_neg (by omega), mul_zero]

/-- The taps of all partitions are the coefficients, and zeros (R251). -/
theorem sum_partitions (h x : List ℝ) {np m : ℕ} (cover : h.length ≤ np * m) (delay t : ℕ) :
    ∑ q ∈ Finset.range np, ∑ l ∈ Finset.range m, tapTerm h x delay t (q * m + l) = convolveAt h x delay t := by
  rw [← sum_range_mul (tapTerm h x delay t), convolveAt]
  refine (Finset.sum_subset (Finset.range_subset_range.mpr cover) fun k _ hk => ?_).symm
  rw [tapTerm, List.getD_eq_default _ _ (by simpa using hk), zero_mul, ite_self]

/-- The second half of a block's output (R265): `m` samples of the delayed convolution. -/
theorem sum_circular_partitions (h x : List ℝ) {np m b i : ℕ} (cover : h.length ≤ np * m) (hi : i < m) :
    ∑ q ∈ Finset.range np, circular (2 * m) (pastWindow np m x (b + np - q)) (Machine.segment 0 (2 * m) h q) (m + i) =
      convolveAt h x m (m + b * m + i) := by
  rw [← sum_partitions h x cover]
  exact Finset.sum_congr rfl fun q hq => circular_partition h x (Finset.mem_range.mp hq) hi

end Sys2Proof.Proofs
end

section
/-! SUPPORT. The ideal output stream of PC.CONVOLVE (42_partitioned.md R262, R265): the spectra the ring FB holds, what a block gives
with them, and the stream of all blocks. -/
namespace Sys2Proof.Proofs
open Sys2Proof.Machine Sys2Proof.Safety

/-! ### The ideal transforms -/

theorem length_idealFft (n : ℕ) (flag : ℤ) (v : List ℝ) : (Ideal.env.fft n flag v).length = n := by
  show (if flag = -1 then Ideal.realForward n v else Ideal.realInverse n v).length = n
  split
  · exact length_realForward n v
  · simp [Ideal.realInverse]

theorem idealFft_forward (n : ℕ) (v : List ℝ) : Ideal.env.fft n (-1) v = Ideal.realForward n v := by
  show (if (-1 : ℤ) = -1 then Ideal.realForward n v else Ideal.realInverse n v) = _
  exact if_pos rfl

theorem idealFft_inverse (n : ℕ) (v : List ℝ) : Ideal.env.fft n 1 v = Ideal.realInverse n v := by
  show (if (1 : ℤ) = -1 then Ideal.realForward n v else Ideal.realInverse n v) = _
  exact if_neg (by decide)

/-- The spectrum of zeros is zeros: what a reset FB holds (R258). -/
theorem realForward_zeros (n : ℕ) : Ideal.realForward n (List.replicate n 0) = List.replicate n 0 := by
  have bin (k : ℕ) : Ideal.bin n (List.replicate n 0) k = 0 := by
    simp [Ideal.bin, Ideal.dft, List.getD_eq_getElem?_getD, List.getElem?_getD_replicate_default_eq]
  simp [Ideal.realForward, bin]

/-! ### The spectra of past blocks -/

/-- A PC state between block `b − 1` and block `b`: FB holds the spectra of the last `np` windows, the accumulator is empty
(R261, R262). -/
structure PastSpectra (np m : ℕ) (x : List ℝ) (b : ℕ) (st : PcState ℝ) : Prop where
  head   : st.head = b % np
  room   : np ≤ st.fb.length
  fb     : ∀ w, b ≤ w → w < b + np → st.fb.getD (w % np) [] = Ideal.realForward (2 * m) (pastWindow np m x w)
  acc    : st.acc = List.replicate (2 * m) 0
  cursor : st.cursor = 0

/-- A PC state whose coefficients are `h` (R257). -/
structure IdealFilter (np m : ℕ) (h : List ℝ) (st : PcState ℝ) : Prop where
  size  : st.f = 2 * m
  parts : st.np = np
  rows  : ∀ q, q < np → st.h.getD q [] = scaledForward (2 * m) (Machine.segment 0 (2 * m) h q)

theorem IdealFilter.of_same {np m : ℕ} {h : List ℝ} {st st' : PcState ℝ} (hst : IdealFilter np m h st)
    (same : SameFilter st st') : IdealFilter np m h st' :=
  ⟨same.f.trans hst.size, same.np.trans hst.parts, fun q hq => same.h ▸ hst.rows q hq⟩

theorem IdealFilter.p {np m : ℕ} {h : List ℝ} {st : PcState ℝ} (hst : IdealFilter np m h st) : st.p = m := by
  rw [PcState.p, hst.size, Nat.mul_div_cancel_left m (by decide)]

section
variable {np m b : ℕ} {h x : List ℝ} {st : PcState ℝ}

/-- The block's own spectrum displaces the oldest one (R261). -/
theorem PastSpectra.after (past : PastSpectra np m x b st) (filter : IdealFilter np m h st) (hnp : 1 ≤ np) :
    PastSpectra np m x (b + 1) (afterBlock Ideal.env (pastWindow np m x (b + np)) st) := by
  have slot : st.head < st.fb.length := past.head ▸ (Nat.mod_lt b hnp).trans_le past.room
  refine ⟨?_, ?_, fun w lo hi => ?_, congrArg (List.replicate · 0) filter.size, rfl⟩
  · show (st.head + 1) % st.np = (b + 1) % np
    rw [past.head, filter.parts, Nat.mod_add_mod]
  · show np ≤ (st.fb.set _ _).length
    rw [List.length_set]
    exact past.room
  · show (st.fb.set st.head (Ideal.env.fft st.f (-1) _)).getD (w % np) [] = _
    rw [List.getD_eq_getElem?_getD, idealFft_forward, filter.size]
    rcases Nat.lt_or_ge w (b + np) with old | new
    · have other : st.head ≠ w % np := by
        rw [past.head]
        obtain ⟨d, rfl⟩ := Nat.exists_eq_add_of_le (Nat.le_of_succ_le lo)
        exact mod_add_ne (i := 0) (by omega) (by omega)
      rw [List.getElem?_set_ne other, ← List.getD_eq_getElem?_getD, past.fb w (by omega) old]
    · obtain rfl : w = b + np := by omega
      rw [Nat.add_mod_right, ← past.head, List.getElem?_set_self slot, Option.getD_some]

/-- The accumulator of a block, with the partitions from 1 on (R261, R264). -/
theorem PastSpectra.finished_eq (past : PastSpectra np m x b st) (filter : IdealFilter np m h st) :
    finished Ideal.env st = accumulatedFrom1 (2 * m) (List.replicate (2 * m) 0)
      (fun q => pastWindow np m x (b + np - q)) (fun q => Machine.segment 0 (2 * m) h q) (np - 1) := by
  rw [finished, macPartitions, past.cursor, past.acc, filter.parts, accumulatedFrom1,
    show np - 1 + 1 - (0 + 1) = np - 1 by omega]
  refine List.foldl_ext _ _ _ fun acc q hq => ?_
  obtain ⟨lo, hi⟩ := List.mem_range'_1.mp hq
  have slot : subMod st.head q np = (b + np - q) % np := by
    rw [subMod, past.head, Nat.mod_eq_of_lt (by omega : q < np), Nat.mod_add_mod, Nat.add_sub_assoc (by omega)]
  rw [slot, past.fb _ (by omega) (by omega), filter.rows q (by omega)]
  rfl

/-- A block gives `m` samples of the delayed convolution (R265). -/
theorem PastSpectra.output (past : PastSpectra np m x b st) (filter : IdealFilter np m h st) (hnp : 1 ≤ np)
    (cover : h.length ≤ np * m) : blockOutput Ideal.env 0 (pastWindow np m x (b + np)) st =
      (List.range m).map fun i => Ideal.convolveAt h x m (m + b * m + i) := by
  have product : blockOutput Ideal.env 0 (pastWindow np m x (b + np)) st =
      (Ideal.realInverse (2 * m) (accumulated (2 * m) (finished Ideal.env st) (pastWindow np m x (b + np - 0))
        (Machine.segment 0 (2 * m) h 0))).drop m := by
    rw [blockOutput, idealFft_inverse, idealFft_forward, filter.size, filter.p, filter.rows 0 hnp]
    rfl
  have length : (Ideal.realInverse (2 * m) (accumulated (2 * m) (finished Ideal.env st)
      (pastWindow np m x (b + np - 0)) (Machine.segment 0 (2 * m) h 0))).length = 2 * m := by
    rw [← idealFft_inverse, length_idealFft]
  rw [product]
  refine List.ext_getElem (by rw [List.length_drop, length, List.length_map, List.length_range]; omega) fun i _ hi => ?_
  rw [List.length_map, List.length_range] at hi
  rw [List.getElem_drop, List.getElem_map, List.getElem_range, ← sum_circular_partitions h x cover hi,
    ← realInverse_partitions (fun q => pastWindow np m x (b + np - q)) (Machine.segment 0 (2 * m) h) (by omega) hnp,
    ← past.finished_eq filter, List.getD_eq_getElem]

end

/-! ### A run from a reset state -/

/-- Nothing of the input comes out before the delay. -/
theorem convolveAt_of_lt (h x : List ℝ) {m t : ℕ} (ht : t < m) : Ideal.convolveAt h x m t = 0 :=
  Finset.sum_eq_zero fun k _ => if_neg (by omega)

/-- A reset instance with the coefficients `h`. -/
noncomputable def idealStart (st : PcState ℝ) (h : List ℝ) : PcState ℝ := pcCleared Ideal.env (pcLoaded Ideal.env st h)

section
variable {m : ℕ} {st : PcState ℝ} {h : List ℝ} (hf : st.f = 2 * m)
include hf

theorem p_eq_half : st.p = m := by rw [PcState.p, hf, Nat.mul_div_cancel_left m (by decide)]

theorem idealStart_filter : IdealFilter (ceilDiv h.length m) m h (idealStart st h) := by
  have hp := p_eq_half hf
  refine ⟨hf, congrArg (ceilDiv h.length) hp, fun q hq => ?_⟩
  show (transformPartitions Ideal.env st.f (ceilDiv h.length st.p) st.npMax h).getD q [] = _
  rw [hp, hf, transformPartitions, List.getD_append _ _ _ _ (by simpa using hq), List.getD_eq_getElem _ _ (by simpa using hq),
    List.getElem_map, List.getElem_range, idealFft_forward, scaledForward]
  rfl

theorem idealStart_past (hc : h.length ≤ st.maxc) (x : List ℝ) :
    PastSpectra (ceilDiv h.length m) m x 0 (idealStart st h) := by
  have hp := p_eq_half hf
  have room : ceilDiv h.length m ≤ st.npMax := by
    rw [← hp]
    exact ceilDiv_mono _ hc
  refine ⟨(Nat.zero_mod _).symm, ?_, fun w _ hw => ?_, congrArg (List.replicate · 0) hf, rfl⟩
  · show _ ≤ (List.replicate st.npMax _).length
    rwa [List.length_replicate]
  · rw [Nat.zero_add] at hw
    have zeros : pastWindow (ceilDiv h.length m) m x w = List.replicate (2 * m) 0 := by
      have : (w + 1) * m ≤ ceilDiv h.length m * m := Nat.mul_le_mul_right m hw
      rw [Nat.add_one_mul] at this
      rw [pastWindow, history, List.drop_append_of_le_length (by rw [List.length_replicate]; omega), List.drop_replicate,
        List.take_append_of_le_length (by rw [List.length_replicate]; omega), List.take_replicate, Nat.min_eq_left (by omega)]
    show (List.replicate st.npMax (List.replicate st.f (0 : ℝ))).getD _ [] = _
    rw [Nat.mod_eq_of_lt hw, List.getD_replicate _ (by omega), zeros, realForward_zeros, hf]

/-- Window `b` of a reset instance's input stream. -/
theorem windowOf_idealStart (np : ℕ) (x : List ℝ) (b : ℕ) :
    windowOf (idealStart st h) (List.replicate m 0 ++ x) b = pastWindow np m x (b + np) := by
  have hp : (idealStart st h).p = m := p_eq_half hf
  have size : (idealStart st h).f = 2 * m := hf
  have front : history np m x = List.replicate (np * m) 0 ++ (List.replicate m 0 ++ x) := by
    rw [history, List.replicate_add, List.append_assoc]
  rw [windowOf, hp, size, pastWindow, front, Nat.add_comm b np, Nat.add_mul, ← List.drop_drop,
    List.drop_left' List.length_replicate]

variable (hm : 1 ≤ m) (pos : 1 ≤ h.length) (le : h.length ≤ st.maxc)
include hm pos le

theorem stage_past (x : List ℝ) (b : ℕ) :
    PastSpectra (ceilDiv h.length m) m x b (stage Ideal.env (idealStart st h) (List.replicate m 0 ++ x) b) := by
  induction b with
  | zero => exact idealStart_past hf le x
  | succ b ih =>
    rw [stage, windowOf_idealStart hf (ceilDiv h.length m)]
    exact ih.after ((idealStart_filter hf).of_same (stage_sameFilter ..)) (ceilDiv_pos pos hm)

/-- The blocks' output stream is the convolution, from the delay on (R265). -/
theorem emitted_ideal (x : List ℝ) (b : ℕ) : emitted Ideal.env (idealStart st h) (List.replicate m 0 ++ x) b =
    (List.range (b * m)).map fun k => Ideal.convolveAt h x m (m + k) := by
  induction b with
  | zero => rw [Nat.zero_mul]; rfl
  | succ b ih =>
    have cover : h.length ≤ ceilDiv h.length m * m := by
      have := Nat.div_add_mod (h.length + m - 1) m
      have := Nat.mod_lt (h.length + m - 1) hm
      rw [ceilDiv, Nat.mul_comm]
      omega
    rw [emitted_succ, ih, windowOf_idealStart hf (ceilDiv h.length m), (stage_past hf hm pos le x b).output
      ((idealStart_filter hf).of_same (stage_sameFilter ..)) (ceilDiv_pos pos hm) cover, Nat.succ_mul, List.range_add,
      List.map_append, List.map_map]
    simp only [Function.comp_def, Nat.add_assoc]

/-- With the zeros of the output ring in front it is the whole delayed convolution. -/
theorem seeded_emitted_ideal (x : List ℝ) (b : ℕ) :
    List.replicate m 0 ++ emitted Ideal.env (idealStart st h) (List.replicate m 0 ++ x) b =
      (List.range (m + b * m)).map (Ideal.convolveAt h x m) := by
  have zeros : List.replicate m 0 = (List.range m).map (Ideal.convolveAt h x m) := by
    refine (List.eq_replicate_iff.mpr ⟨by simp, fun y hy => ?_⟩).symm
    obtain ⟨t, ht, rfl⟩ := List.mem_map.mp hy
    exact convolveAt_of_lt h x (List.mem_range.mp ht)
  rw [emitted_ideal hf hm pos le, zeros, List.range_add, List.map_append, List.map_map]
  rfl

end

/-- What comes first of a stream is given by its length. -/
theorem eq_map_range_of_append {α : Type} {ys : List α} {rest : List (Option α)} {g : ℕ → α} {n : ℕ}
    (h : ys.map some ++ rest = ((List.range n).map g).map some) : ys = (List.range ys.length).map g := by
  have le := congrArg List.length h
  simp only [List.length_append, List.length_map, List.length_range] at le
  have first := congrArg (List.take ys.length) h
  rw [List.take_left' (List.length_map _), ← List.map_take, ← List.map_take, List.take_range, Nat.min_eq_left (by omega)]
    at first
  exact List.map_injective_iff.mpr (Option.some_injective α) first

/-- Settles O48: the stream is the `P` zeros of the output ring and the outputs of the blocks. -/
theorem pcStreamLaw : Obligations.PcStreamLaw := by
  unfold Obligations.PcStreamLaw
  intro k st0 h blocks hk hf inN inMrs outN outMrs pos le maxin
  obtain ⟨e, rfl⟩ := Nat.exists_eq_add_of_le' hk
  rw [pow_succ'] at hf
  have hm : 1 ≤ 2 ^ e := Nat.one_le_two_pow
  have hp := p_eq_half hf
  have hp' : (idealStart st0 h).p = 2 ^ e := hp
  have roomIn : st0.p ≤ st0.inRing.n := by omega
  have roomOut : st0.p ≤ st0.outRing.n := by omega
  have reset : pcSetCoefficients Ideal.env st0 h = some (idealStart st0 h) :=
    pcReset_eq (st := pcLoaded Ideal.env st0 h) roomIn roomOut
  have levels : PcLevels (2 * (idealStart st0 h).p) (idealStart st0 h) :=
    pcCleared_levels (st := pcLoaded Ideal.env st0 h) Ideal.env (show st0.f = 2 * st0.p by rw [hp, hf]) (hp ▸ hm)
      ⟨inN, inMrs⟩ ⟨outN, outMrs⟩
  have heldIn : ringUnread (idealStart st0 h).inRing = (List.replicate (2 ^ e) 0).map some := by
    rw [List.map_replicate, ← hp]
    exact ringUnread_seeded roomIn
  have heldOut : ringUnread (idealStart st0 h).outRing = (List.replicate (2 ^ e) 0).map some := by
    rw [List.map_replicate, ← hp]
    exact ringUnread_seeded roomOut
  obtain ⟨⟨st', ys⟩, run⟩ := levels.run length_idealFft maxin
  have output := pcRun_output (fun _ => rfl) levels.even levels.pos levels.inRing levels.outRing heldIn
    (by rw [hp', List.length_replicate]) (by rw [levels.even, hp', List.length_replicate]; omega) run
  rw [heldOut, ← List.map_append, seeded_emitted_ideal hf hm pos le] at output
  have stream : ys = Ideal.convolved h blocks.flatten st0.p := by
    rw [eq_map_range_of_append output, (pcRun_flows levels.outRing run).2, Ideal.convolved, hp]
  exact ⟨_, st', reset, stream ▸ run⟩

end Sys2Proof.Proofs
end

section
/-! SUPPORT. The recursive product (43_karatsuba.md R310, R311), whatever the arithmetic is: its two cases, and its last element,
which no addition reaches. -/
namespace Sys2Proof.Proofs
open Sys2Proof.Machine

section
variable {α : Type} (ar : Arith α)

/-- The inner loop of the direct product (R310): `a[i]` times every `b[j]`. -/
def addRow (n : Nat) (a b z : List α) (i : Nat) : List α :=
  (List.range n).foldl (fun z j => addAt ar z (i + j) (ar.mul (a.getD i ar.zero) (b.getD j ar.zero))) z

theorem directProduct_eq (n : Nat) (a b : List α) :
    directProduct ar n a b = (List.range n).foldl (addRow ar n a b) (List.replicate (2 * n) ar.zero) := rfl

/-- The end of a KMul of twice `n` samples: the two half products side by side, the middle product added across them (R310). -/
def joinHalves (n : Nat) (x1 x2 x3 : List α) : List α :=
  ((x1 ++ x2).take n ++
    List.zipWith ar.add (((x1 ++ x2).drop n).take (2 * n)) (List.zipWith ar.sub (List.zipWith ar.sub x3 x1) x2)) ++
      (x1 ++ x2).drop (3 * n)

theorem kmul_small {e : Nat} (h : 2 ^ e ≤ karatsubaBase) (a b : List α) : kmul ar e a b = directProduct ar (2 ^ e) a b := by
  cases e with
  | zero => rfl
  | succ e => rw [kmul, if_pos h]

theorem kmul_split {e : Nat} (h : ¬2 ^ (e + 1) ≤ karatsubaBase) (a b : List α) : kmul ar (e + 1) a b =
    joinHalves ar (2 ^ e) (kmul ar e (a.take (2 ^ e)) (b.take (2 ^ e))) (kmul ar e (a.drop (2 ^ e)) (b.drop (2 ^ e)))
      (kmul ar e (List.zipWith ar.add (a.take (2 ^ e)) (a.drop (2 ^ e)))
        (List.zipWith ar.add (b.take (2 ^ e)) (b.drop (2 ^ e)))) := by
  rw [kmul, if_neg h, joinHalves, pow_succ', show 3 * 2 ^ e = 2 ^ e + 2 * 2 ^ e by omega]

theorem getElem?_addAt_of_ne {i k : Nat} (h : i ≠ k) (z : List α) (v : α) : (addAt ar z i v)[k]? = z[k]? :=
  List.getElem?_modify_ne _ z h

theorem length_addAt (z : List α) (i : Nat) (v : α) : (addAt ar z i v).length = z.length := List.length_modify ..

theorem length_addRow (n : Nat) (a b z : List α) (i : Nat) : (addRow ar n a b z i).length = z.length :=
  length_foldl_of_step (fun z _ => length_addAt ar z ..) _ z

/-- The sums `i + j` of two places below `n` stay below the last place (R311). -/
theorem directProduct_last {n : Nat} (hn : 1 ≤ n) (a b : List α) :
    (directProduct ar n a b)[2 * n - 1]? = some ar.zero := by
  have start : (List.replicate (2 * n) ar.zero)[2 * n - 1]? = some ar.zero := List.getElem?_replicate_of_lt (by omega)
  rw [directProduct_eq]
  refine List.foldlRecOn (motive := fun z => z[2 * n - 1]? = some ar.zero) _ _ start fun z hz i hi => ?_
  refine List.foldlRecOn (motive := fun z => z[2 * n - 1]? = some ar.zero) _ _ hz fun z hz j hj => ?_
  have hi := List.mem_range.mp hi
  have hj := List.mem_range.mp hj
  have other : i + j ≠ 2 * n - 1 := by omega
  rw [getElem?_addAt_of_ne ar other, hz]

/-- The middle product ends before the last place of the second half (R311). -/
theorem joinHalves_last {n : Nat} {x1 x2 x3 : List α} (hn : 1 ≤ n) (h1 : x1.length = 2 * n) (h2 : x2.length = 2 * n)
    (h3 : x3.length = 2 * n) : (joinHalves ar n x1 x2 x3)[4 * n - 1]? = x2[2 * n - 1]? := by
  have front : ((x1 ++ x2).take n ++ List.zipWith ar.add (((x1 ++ x2).drop n).take (2 * n))
      (List.zipWith ar.sub (List.zipWith ar.sub x3 x1) x2)).length = 3 * n := by
    simp only [List.length_append, List.length_take, List.length_drop, List.length_zipWith, h1, h2, h3]
    omega
  rw [joinHalves, List.getElem?_append_right (by omega), front, List.getElem?_drop, List.getElem?_append_right (by omega), h1]
  congr 1
  omega

theorem kmul_last (e : Nat) (a b : List α) : (kmul ar e a b)[2 * 2 ^ e - 1]? = some ar.zero := by
  induction e generalizing a b with
  | zero => exact directProduct_last ar (Nat.le_refl 1) a b
  | succ e ih =>
    by_cases h : 2 ^ (e + 1) ≤ karatsubaBase
    · rw [kmul_small ar h]
      exact directProduct_last ar Nat.one_le_two_pow a b
    · rw [kmul_split ar h, show 2 * 2 ^ (e + 1) - 1 = 4 * 2 ^ e - 1 by omega,
        joinHalves_last ar Nat.one_le_two_pow (length_kmul ..) (length_kmul ..) (length_kmul ..), ih]

end

/-- Settles O46: no addition reaches the last element, whatever the arithmetic. -/
theorem kMulLastElementIsZero : Obligations.KMulLastElementIsZero := by
  unfold Obligations.KMulLastElementIsZero
  intro e a b
  rw [pow_succ']
  exact ⟨length_kmul .., kmul_last f32Arith e a b⟩

end Sys2Proof.Proofs
end

section
/-! SUPPORT. The recursive product in exact arithmetic (43_karatsuba.md R310, R311): read as polynomials, the result is the product of
the operands. -/
namespace Sys2Proof.Proofs
open Sys2Proof.Machine Sys2Proof.Ideal Polynomial

/-- The polynomial whose coefficients are the samples of a list, lowest degree first. -/
noncomputable def listPoly : List ℝ → ℝ[X]
  | [] => 0
  | x :: l => C x + X * listPoly l

theorem coeff_listPoly (l : List ℝ) (k : ℕ) : (listPoly l).coeff k = l.getD k 0 := by
  induction l generalizing k with
  | nil => simp [listPoly]
  | cons x l ih => cases k <;> simp [listPoly, coeff_C, ih]

theorem listPoly_append (l l' : List ℝ) : listPoly (l ++ l') = listPoly l + X ^ l.length * listPoly l' := by
  induction l with
  | nil => simp [listPoly]
  | cons x l ih =>
    rw [List.cons_append, listPoly, listPoly, ih, List.length_cons]
    ring

theorem listPoly_take_add_drop (l : List ℝ) {n : ℕ} (h : n ≤ l.length) :
    listPoly l = listPoly (l.take n) + X ^ n * listPoly (l.drop n) := by
  conv_lhs => rw [← List.take_append_drop n l, listPoly_append, List.length_take_of_le h]

theorem getD_zipWith {f : ℝ → ℝ → ℝ} (zero : f 0 0 = 0) {l l' : List ℝ} (h : l.length = l'.length) (k : ℕ) :
    (List.zipWith f l l').getD k 0 = f (l.getD k 0) (l'.getD k 0) := by
  rcases Nat.lt_or_ge k l.length with inside | behind
  · simp [inside, h ▸ inside]
  · rw [List.getD_eq_default, List.getD_eq_default _ _ behind, List.getD_eq_default _ _ (h ▸ behind), zero]
    rw [List.length_zipWith]
    omega

theorem listPoly_add {l l' : List ℝ} (h : l.length = l'.length) :
    listPoly (List.zipWith exact.add l l') = listPoly l + listPoly l' := by
  ext k
  simp only [coeff_add, coeff_listPoly]
  exact getD_zipWith (add_zero 0) h k

theorem listPoly_sub {l l' : List ℝ} (h : l.length = l'.length) :
    listPoly (List.zipWith exact.sub l l') = listPoly l - listPoly l' := by
  ext k
  simp only [coeff_sub, coeff_listPoly]
  exact getD_zipWith (sub_zero 0) h k

theorem listPoly_eq_sum {l : List ℝ} {n : ℕ} (h : l.length ≤ n) :
    listPoly l = ∑ i ∈ Finset.range n, C (l.getD i 0) * X ^ i := by
  ext k
  simp only [finsetSum_coeff, coeff_C_mul_X_pow, coeff_listPoly, Finset.sum_ite_eq, Finset.mem_range]
  split
  · rfl
  · exact List.getD_eq_default _ _ (by omega)

theorem listPoly_replicate_zero (n : ℕ) : listPoly (List.replicate n 0) = 0 := by
  ext k
  simp [coeff_listPoly, List.getD_eq_getElem?_getD, List.getElem?_getD_replicate_default_eq]

/-! ### The direct product (R310) -/

theorem listPoly_addAt {z : List ℝ} {i : ℕ} (h : i < z.length) (v : ℝ) :
    listPoly (addAt exact z i v) = listPoly z + C v * X ^ i := by
  ext k
  rw [coeff_add, coeff_C_mul_X_pow, coeff_listPoly, coeff_listPoly, addAt, List.getD_eq_getElem?_getD,
    List.getElem?_modify]
  by_cases hk : i = k
  · subst hk
    simp [h, exact]
  · simp [hk, Ne.symm hk]

/-- A loop whose every step adds a term adds their sum. -/
theorem listPoly_foldl {g : List ℝ → ℕ → List ℝ} {term : ℕ → ℝ[X]} {len : ℕ} (length : ∀ z i, (g z i).length = z.length)
    (n : ℕ) (step : ∀ z i, z.length = len → i < n → listPoly (g z i) = listPoly z + term i) {z : List ℝ} (hz : z.length = len) :
    listPoly ((List.range n).foldl g z) = listPoly z + ∑ i ∈ Finset.range n, term i := by
  induction n with
  | zero => simp
  | succ n ih =>
    rw [List.range_succ, List.foldl_append, List.foldl_cons, List.foldl_nil,
      step _ _ ((length_foldl_of_step length _ z).trans hz) (Nat.lt_succ_self n),
      ih fun z i hz hi => step z i hz (Nat.lt_succ_of_lt hi), Finset.sum_range_succ, add_assoc]

theorem listPoly_addRow {n i : ℕ} {a b z : List ℝ} (hb : b.length ≤ n) (hz : z.length = 2 * n) (hi : i < n) :
    listPoly (addRow exact n a b z i) = listPoly z + C (a.getD i 0) * X ^ i * listPoly b := by
  have step (z : List ℝ) (j : ℕ) (hz : z.length = 2 * n) (hj : j < n) :
      listPoly (addAt exact z (i + j) (exact.mul (a.getD i exact.zero) (b.getD j exact.zero))) =
        listPoly z + C (a.getD i 0) * X ^ i * (C (b.getD j 0) * X ^ j) := by
    rw [listPoly_addAt (by omega)]
    show listPoly z + C (a.getD i 0 * b.getD j 0) * X ^ (i + j) = _
    rw [C_mul]
    ring
  rw [addRow, listPoly_foldl (fun z j => length_addAt exact z (i + j) _) n step hz, ← Finset.mul_sum, ← listPoly_eq_sum hb]

theorem listPoly_directProduct {n : ℕ} {a b : List ℝ} (ha : a.length ≤ n) (hb : b.length ≤ n) :
    listPoly (directProduct exact n a b) = listPoly a * listPoly b := by
  rw [directProduct_eq, listPoly_foldl (fun z i => length_addRow exact n a b z i) n
    (fun z i hz hi => listPoly_addRow hb hz hi) List.length_replicate, ← Finset.sum_mul, ← listPoly_eq_sum ha]
  exact add_eq_right.mpr (listPoly_replicate_zero _)

/-! ### The recursion (R310, R311) -/

theorem listPoly_joinHalves {n : ℕ} {x1 x2 x3 : List ℝ} (h1 : x1.length = 2 * n) (h2 : x2.length = 2 * n)
    (h3 : x3.length = 2 * n) : listPoly (joinHalves exact n x1 x2 x3) =
      listPoly x1 + X ^ (2 * n) * listPoly x2 + X ^ n * (listPoly x3 - listPoly x1 - listPoly x2) := by
  have inner : (List.zipWith exact.sub x3 x1).length = x2.length := by rw [List.length_zipWith, h1, h2, h3, Nat.min_self]
  have whole : (x1 ++ x2).length = 4 * n := by rw [List.length_append, h1, h2]; omega
  have across : (((x1 ++ x2).drop n).take (2 * n)).length =
      (List.zipWith exact.sub (List.zipWith exact.sub x3 x1) x2).length := by
    rw [List.length_zipWith, inner, List.length_take, List.length_drop, whole, h2]
    omega
  have product : listPoly x1 + X ^ (2 * n) * listPoly x2 = listPoly ((x1 ++ x2).take n) +
      X ^ n * (listPoly (((x1 ++ x2).drop n).take (2 * n)) + X ^ (2 * n) * listPoly ((x1 ++ x2).drop (3 * n))) := by
    rw [← h1, ← listPoly_append, h1, listPoly_take_add_drop (x1 ++ x2) (n := n) (by omega),
      listPoly_take_add_drop ((x1 ++ x2).drop n) (n := 2 * n) (by rw [List.length_drop]; omega), List.drop_drop,
      show n + 2 * n = 3 * n by omega]
  rw [joinHalves, listPoly_append, listPoly_append, listPoly_add across, listPoly_sub inner, listPoly_sub (h3.trans h1.symm),
    List.length_append, List.length_zipWith, ← across, Nat.min_self, List.length_take, List.length_take, List.length_drop,
    whole, Nat.min_eq_left (by omega), Nat.min_eq_left (by omega), product]
  ring

section
variable {l : List ℝ} {n : ℕ} (h : l.length = 2 * n)
include h

theorem length_low_half : (l.take n).length = n := List.length_take_of_le (by omega)

theorem length_high_half : (l.drop n).length = n := by
  rw [List.length_drop]
  omega

theorem length_sum_of_halves : (List.zipWith exact.add (l.take n) (l.drop n)).length = n := by
  rw [List.length_zipWith, length_low_half h, length_high_half h, Nat.min_self]

theorem listPoly_sum_of_halves :
    listPoly (List.zipWith exact.add (l.take n) (l.drop n)) = listPoly (l.take n) + listPoly (l.drop n) :=
  listPoly_add ((length_low_half h).trans (length_high_half h).symm)

theorem listPoly_halves : listPoly l = listPoly (l.take n) + X ^ n * listPoly (l.drop n) :=
  listPoly_take_add_drop l (by omega)

end

/-- With `a = a₀ + Xʰ·a₁` and `b = b₀ + Xʰ·b₁` the third half product minus the others is `a₀·b₁ + a₁·b₀`. -/
theorem listPoly_kmul {e : ℕ} {a b : List ℝ} (ha : a.length = 2 ^ e) (hb : b.length = 2 ^ e) :
    listPoly (kmul exact e a b) = listPoly a * listPoly b := by
  induction e generalizing a b with
  | zero => exact listPoly_directProduct ha.le hb.le
  | succ e ih =>
    by_cases h : 2 ^ (e + 1) ≤ karatsubaBase
    · rw [kmul_small exact h]
      exact listPoly_directProduct ha.le hb.le
    · rw [pow_succ'] at ha hb
      rw [kmul_split exact h, listPoly_joinHalves (length_kmul ..) (length_kmul ..) (length_kmul ..),
        ih (length_low_half ha) (length_low_half hb), ih (length_high_half ha) (length_high_half hb),
        ih (length_sum_of_halves ha) (length_sum_of_halves hb), listPoly_sum_of_halves ha, listPoly_sum_of_halves hb,
        listPoly_halves ha, listPoly_halves hb]
      ring

/-- A coefficient of the product is a sample of the convolution (R311, R324). -/
theorem coeff_listPoly_mul (h x : List ℝ) (t : ℕ) : (listPoly h * listPoly x).coeff t = convolveAt h x 0 t := by
  simp only [listPoly_eq_sum (Nat.le_refl h.length), Finset.sum_mul, finsetSum_coeff, mul_assoc, coeff_C_mul,
    coeff_X_pow_mul', coeff_listPoly, convolveAt, Nat.zero_add, Nat.sub_zero, mul_ite, mul_zero]

/-- Settles O45: the coefficients of the product of the two polynomials. -/
theorem kMulExactLaw : Obligations.KMulExactLaw := by
  unfold Obligations.KMulExactLaw
  intro e a b ha hb
  refine ⟨by rw [length_kmul, pow_succ'], fun k _ => ?_⟩
  rw [← coeff_listPoly, listPoly_kmul ha hb, coeff_listPoly_mul, convolveAt, ha]
  refine Finset.sum_congr rfl fun i _ => ?_
  rw [Nat.zero_add, Nat.sub_zero]
  by_cases behind : 2 ^ e ≤ k - i
  · have zero : b.getD (k - i) 0 = 0 := List.getD_eq_default _ _ (hb.trans_le behind)
    rw [zero, mul_zero, ite_self, ite_self]
  · exact if_congr (by omega) rfl rfl

end Sys2Proof.Proofs
end

section
/-! SUPPORT. KC.CONVOLVE sample by sample (43_karatsuba.md R314, R315, R322), whatever the arithmetic is, and what the command writes. -/
namespace Sys2Proof.Proofs
open Sys2Proof.Machine Sys2Proof.Safety

/-! ### The block's product, the output and the carry -/

theorem getElem?_padTo {α : Type} (zero : α) {len k : Nat} (xs : List α) (h : k < len) :
    (padTo zero len xs)[k]? = some (xs.getD k zero) := by
  rcases Nat.lt_or_ge k xs.length with inside | behind
  · rw [getElem?_padTo_of_lt zero inside h, List.getD_eq_getElem _ _ inside, List.getElem?_eq_getElem inside]
  · rw [getElem?_padTo_of_ge zero behind h, List.getD_eq_default _ _ behind]

/-- Past the end of a list there is the default. -/
theorem ite_getD_eq {α : Type} {l : List α} {len : Nat} (h : l.length = len) (k : Nat) (d : α) :
    (if k < len then l.getD k d else d) = l.getD k d :=
  ite_eq_left_iff.mpr fun behind => (List.getD_eq_default _ _ (by omega)).symm

section
variable {α : Type} {st : KcState α} {xs : List α}

/-- The product `z` of one call (R322). -/
def kcProduct (ar : Arith α) (st : KcState α) (xs : List α) : List α :=
  kmul ar (kcBlock xs.length st.nc).log2 (padTo ar.zero (kcBlock xs.length st.nc) xs)
    (st.coef.take (kcBlock xs.length st.nc))

theorem two_pow_log2_kcBlock (n nc : Nat) : 2 ^ (kcBlock n nc).log2 = kcBlock n nc := by
  obtain ⟨k, hk⟩ := nextpow2_eq_two_pow (max n nc)
  rw [kcBlock, hk, Nat.log2_two_pow]

theorem length_kcProduct (ar : Arith α) (st : KcState α) (xs : List α) :
    (kcProduct ar st xs).length = 2 * kcBlock xs.length st.nc := by
  rw [kcProduct, length_kmul, two_pow_log2_kcBlock]

/-- The block size covers the samples and the coefficients, and fits the arrays (R314). -/
theorem kcBlock_bounds {n nc : Nat} (hn : n ≤ st.maxin) (hnc : nc ≤ st.maxc) :
    n ≤ kcBlock n nc ∧ nc ≤ kcBlock n nc ∧ kcBlock n nc ≤ st.bmax := by
  have covers : max n nc ≤ kcBlock n nc := le_nextpow2 _
  obtain ⟨k, hk⟩ := nextpow2_eq_two_pow (max st.maxc st.maxin)
  have fits : kcBlock n nc ≤ 2 ^ k := nextpow2_le (by have := le_nextpow2 (max st.maxc st.maxin); omega)
  exact ⟨by omega, by omega, fits.trans hk.ge⟩

theorem kcConvolve_output (ar : Arith α) (hn : xs.length ≤ st.ovl.length) : (kcConvolve ar st xs).2 =
    (List.range xs.length).map fun k => ar.add ((kcProduct ar st xs).getD k ar.zero) (st.ovl.getD k ar.zero) := by
  have covers : max xs.length st.nc ≤ kcBlock xs.length st.nc := le_nextpow2 _
  have hz := length_kcProduct ar st xs
  show List.zipWith ar.add ((kcProduct ar st xs).take xs.length) (st.ovl.take xs.length) = _
  refine List.ext_getElem ?_ fun k _ hk => ?_
  · rw [List.length_zipWith, List.length_take, List.length_take, List.length_map, List.length_range]
    omega
  · rw [List.length_map, List.length_range] at hk
    rw [List.getElem_zipWith, List.getElem_take, List.getElem_take, List.getElem_map, List.getElem_range,
      List.getD_eq_getElem, List.getD_eq_getElem]

/-- Past the ends of the old carry and of the product there are zeros (R315). -/
theorem kcConvolve_carry (ar : Arith α) (st : KcState α) (xs : List α) {j : Nat} (hj : j < 2 * st.bmax) :
    (kcConvolve ar st xs).1.ovl[j]? = some (ar.add (st.ovl.getD (xs.length + j) ar.zero)
      ((kcProduct ar st xs).getD (xs.length + j) ar.zero)) := by
  have drop (l : List α) : (l.drop xs.length).getD j ar.zero = l.getD (xs.length + j) ar.zero := by
    rw [List.getD_eq_getElem?_getD, List.getElem?_drop, ← List.getD_eq_getElem?_getD]
  show (List.zipWith ar.add (padTo ar.zero (2 * st.bmax) (st.ovl.drop xs.length))
    (padTo ar.zero (2 * st.bmax) ((kcProduct ar st xs).drop xs.length)))[j]? = _
  rw [List.getElem?_zipWith, getElem?_padTo _ _ hj, getElem?_padTo _ _ hj, drop, drop]

theorem length_kcConvolve_carry (ar : Arith α) (st : KcState α) (xs : List α) :
    (kcConvolve ar st xs).1.ovl.length = 2 * st.bmax := by
  show (List.zipWith ar.add (padTo ar.zero (2 * st.bmax) _) (padTo ar.zero (2 * st.bmax) _)).length = _
  rw [List.length_zipWith, length_padTo, length_padTo, Nat.min_self]

end

/-! ### Samples written with free NaNs (D11) -/

theorem f32IsNaN_of_fields {x : F32} (exponent : x.extractLsb' 23 8 = BitVec.allOnes 8) (fraction : f32Frac x ≠ 0) :
    f32IsNaN x = true := by
  rw [f32IsNaN, f32Exp, exponent, decide_eq_true fraction]
  rfl

theorem f32IsNaN_f32NaNOf (bits : F32) : f32IsNaN (f32NaNOf bits) = true := by
  have ones : (bits ||| 0x7F800000#32).extractLsb' 23 8 = BitVec.allOnes 8 := by
    rw [BitVec.extractLsb'_or, show (0x7F800000#32).extractLsb' 23 8 = BitVec.allOnes 8 by decide, BitVec.or_allOnes]
  simp only [f32NaNOf]
  split
  case isTrue zero =>
    have zero : (bits ||| 0x7F800000#32).extractLsb' 0 23 = 0#23 := BitVec.eq_of_toNat_eq zero
    refine f32IsNaN_of_fields ?_ ?_
    · rw [BitVec.extractLsb'_or, ones, BitVec.allOnes_or]
    · rw [f32Frac, BitVec.extractLsb'_or, zero, BitVec.zero_or]
      decide
  case isFalse nonzero => exact f32IsNaN_of_fields ones nonzero

theorem writtenAs_outputSamples (s : State) (m : Memory) (a : Nat) (ys : List F32) :
    WrittenAs (m.write a (bytesOf (outputSamples s ys))) a ys := by
  intro i hi
  have stands := samplesAre_write m a (outputSamples s ys) i (by rwa [outputSamples, length_settleNaNs])
  refine ⟨_, stands, ?_⟩
  have settled : (outputSamples s ys).getD i f32Zero =
      if f32IsNaN (ys.getD i f32Zero) then f32NaNOf (Config.freeOutNan s.draws i) else ys.getD i f32Zero := by
    simp [outputSamples, settleNaNs, hi]
  rw [settled]
  split
  · exact f32IsNaN_f32NaNOf _
  · rfl

/-! ### The command -/

section
variable {s : State} {x : Instance} {st : KcState F32}

/-- The state a KC.CONVOLVE of at least one sample ends in. -/
def kcConvolvedTo (s : State) (x : Instance) (r : KcState F32 × List F32) : State :=
  let s1 : State := { s with mem := s.mem.write (s.arg 2) (bytesOf (outputSamples s r.2)) }
  (s1.setInstance (s.arg 0) { x with unit := .kc r.1 }).nextDraw.complete 0

theorem kcConvolve_run_empty (live : assocGet (s.arg 0) s.insts = some x) (hu : x.unit = .kc st)
    (ready : BlockReady s st.maxin) (hn : s.arg 3 = 0) : exec .kcConvolve s = .next (s.complete 0) := by
  refine exec_ok ?_
  simp only [command, kcConvolveCommand, checkHandle_kc live hu, ok_bind, checkBlock_passes ready, if_pos hn]
  rfl

theorem kcConvolve_run (live : assocGet (s.arg 0) s.insts = some x) (hu : x.unit = .kc st) (ok : KcOk st)
    (ready : BlockReady s st.maxin) (hn : s.arg 3 ≠ 0) :
    exec .kcConvolve s = .next (kcConvolvedTo s x (kcConvolve f32Arith st (samplesAt s (s.arg 1) (s.arg 3)))) := by
  have taken : (samplesAt s (s.arg 1) (s.arg 3)).length = s.arg 3 := length_samplesAt ..
  have length := length_kcConvolve ok (taken.trans_le ready.n_le)
  have write := memWrite_backed (s := s) (a := s.arg 2)
    (bs := bytesOf (outputSamples s (kcConvolve f32Arith st (samplesAt s (s.arg 1) (s.arg 3))).2))
    (by rw [bytesOf_length, outputSamples, length_settleNaNs, length, taken]; exact ready.dest)
  refine exec_ok ?_
  simp only [command, kcConvolveCommand, checkHandle_kc live hu, ok_bind, checkBlock_passes ready, if_neg hn,
    readSamples_backed ready.source, write]
  rfl

end

/-- Settles O42: on good operands the command writes the output and installs the carry of `kcConvolve`. -/
theorem kcConvolveCompletes : Obligations.KcConvolveCompletes := by
  unfold Obligations.KcConvolveCompletes
  intro s x st live hu ok ready n b xs z
  have taken : xs.length = n := length_samplesAt ..
  have block : kcBlock xs.length st.nc = b := by rw [taken]; rfl
  obtain ⟨covers, -, fits⟩ := kcBlock_bounds (st := st) (taken.trans_le ready.n_le) ok.nc_le
  have product : kcProduct f32Arith st xs = z := by
    rw [kcProduct, padTo_of_le _ covers, block, taken]
    rfl
  have zLen : z.length = 2 * b := by rw [← product, length_kcProduct, block]
  refine ⟨kcConvolve_run_empty live hu ready, fun hn => ⟨_, _, kcConvolve_run live hu ok ready (by omega), rfl, rfl,
    assocGet_set_same .., rfl, length_kcConvolve_carry .., fun j hj => ?_, ?_⟩⟩
  · rw [kcConvolve_carry f32Arith st xs hj, product, taken, Nat.add_comm n j]
    rw [ite_getD_eq ok.ovl_len, ite_getD_eq zLen]
    rfl
  · have room : xs.length ≤ st.ovl.length := by rw [ok.ovl_len]; omega
    have output := kcConvolve_output f32Arith room
    rw [product, taken] at output
    change _ = (List.range n).map fun k => f32Add (z.getD k f32Zero) (st.ovl.getD k f32Zero) at output
    rw [← output]
    exact writtenAs_outputSamples s s.mem (s.arg 2) _

end Sys2Proof.Proofs
end

section
/-! SUPPORT. The ideal law of the Karatsuba convolver (43_karatsuba.md R314 to R316, R322, R324): between calls the carry holds what
the stream so far adds to the samples to come. -/
namespace Sys2Proof.Proofs
open Sys2Proof.Machine Sys2Proof.Safety Sys2Proof.Ideal Polynomial

/-! ### The convolution of a stream -/

/-- Samples that follow do not change the output before them. -/
theorem convolveAt_append (h x xs : List ℝ) {t : ℕ} (ht : t < x.length) :
    convolveAt h (x ++ xs) 0 t = convolveAt h x 0 t := by
  refine Finset.sum_congr rfl fun k _ => ?_
  rw [List.getD_append _ _ _ _ (by omega)]

/-- The output ends with the last sample's product with the last coefficient. -/
theorem convolveAt_of_ge {h x : List ℝ} {t : ℕ} (ht : h.length + x.length ≤ t) : convolveAt h x 0 t = 0 := by
  refine Finset.sum_eq_zero fun k hk => ?_
  have := Finset.mem_range.mp hk
  rw [List.getD_eq_default x _ (by omega), mul_zero, ite_self]

/-- A block adds its own convolution, from its place in the stream on. -/
theorem convolveAt_append_add (h x xs : List ℝ) (i : ℕ) : convolveAt h (x ++ xs) 0 (x.length + i) =
    convolveAt h x 0 (x.length + i) + convolveAt h xs 0 i := by
  have shifted : listPoly h * (X ^ x.length * listPoly xs) = X ^ x.length * (listPoly h * listPoly xs) := by ring
  rw [← coeff_listPoly_mul, ← coeff_listPoly_mul, ← coeff_listPoly_mul, listPoly_append, mul_add, coeff_add, shifted,
    Nat.add_comm x.length i, coeff_X_pow_mul]

/-! ### A call -/

theorem listPoly_append_zeros (l : List ℝ) (n : ℕ) : listPoly (l ++ List.replicate n 0) = listPoly l := by
  rw [listPoly_append, listPoly_replicate_zero, mul_zero, add_zero]

theorem listPoly_padTo {l : List ℝ} {len : ℕ} (h : l.length ≤ len) : listPoly (padTo 0 len l) = listPoly l := by
  rw [padTo_of_le 0 h, listPoly_append_zeros]

theorem listPoly_take_padTo {l : List ℝ} {n len : ℕ} (h : l.length ≤ n) (hlen : l.length ≤ len) :
    listPoly ((padTo 0 len l).take n) = listPoly l := by
  rw [padTo_of_le 0 hlen, List.take_append, List.take_of_length_le h, List.take_replicate, listPoly_append_zeros]

/-- A KC state with the coefficients `h` after the stream `x` (R42, R322, R324). -/
structure KcFollows (h x : List ℝ) (st : KcState ℝ) : Prop where
  count  : st.nc = h.length
  fits   : h.length ≤ st.maxc
  taps   : st.coef = padTo 0 st.bmax h
  length : st.ovl.length = 2 * st.bmax
  carry  : ∀ j, st.ovl.getD j 0 = convolveAt h x 0 (x.length + j)

section
variable {h x xs : List ℝ} {st : KcState ℝ}

theorem KcFollows.taps_le (hst : KcFollows h x st) : h.length ≤ st.bmax := by
  have := hst.fits
  exact (by omega : h.length ≤ max st.maxc st.maxin).trans (le_nextpow2 _)

theorem KcFollows.product (hst : KcFollows h x st) (hlen : xs.length ≤ st.maxin) (k : ℕ) :
    (kcProduct exact st xs).getD k 0 = convolveAt h xs 0 k := by
  obtain ⟨samples, taps, fits⟩ := kcBlock_bounds hlen (hst.count.trans_le hst.fits)
  have padded : (padTo 0 (kcBlock xs.length st.nc) xs).length = 2 ^ (kcBlock xs.length st.nc).log2 := by
    rw [length_padTo, two_pow_log2_kcBlock]
  have taken : (st.coef.take (kcBlock xs.length st.nc)).length = 2 ^ (kcBlock xs.length st.nc).log2 := by
    rw [two_pow_log2_kcBlock, hst.taps, List.length_take_of_le (by rwa [length_padTo])]
  have zero : exact.zero = 0 := rfl
  rw [← coeff_listPoly, kcProduct, zero, listPoly_kmul padded taken, listPoly_padTo samples, hst.taps,
    listPoly_take_padTo (hst.count ▸ taps) hst.taps_le, mul_comm, coeff_listPoly_mul]

theorem KcFollows.call (hst : KcFollows h x st) (hlen : xs.length ≤ st.maxin) :
    KcFollows h (x ++ xs) (kcConvolve exact st xs).1 where
  count := hst.count
  fits := hst.fits
  taps := hst.taps
  length := length_kcConvolve_carry ..
  carry := by
    intro j
    rw [List.length_append, Nat.add_assoc]
    rcases Nat.lt_or_ge j (2 * st.bmax) with inside | behind
    · rw [List.getD_eq_getElem?_getD, kcConvolve_carry exact st xs inside, Option.getD_some, convolveAt_append_add,
        ← hst.carry, ← hst.product hlen]
      rfl
    · rw [List.getD_eq_default _ _ ((length_kcConvolve_carry ..).trans_le behind), convolveAt_of_ge]
      have := hst.taps_le
      rw [List.length_append]
      omega

theorem KcFollows.output (hst : KcFollows h x st) (hlen : xs.length ≤ st.maxin) : (kcConvolve exact st xs).2 =
    (List.range xs.length).map fun i => convolveAt h (x ++ xs) 0 (x.length + i) := by
  have room : xs.length ≤ st.ovl.length := by
    have : max st.maxc st.maxin ≤ st.bmax := le_nextpow2 _
    rw [hst.length]
    omega
  rw [kcConvolve_output exact room]
  refine List.map_congr_left fun i _ => ?_
  rw [convolveAt_append_add, ← hst.carry, ← hst.product hlen, add_comm]
  rfl

end

/-! ### A run -/

theorem KcFollows.run {h x : List ℝ} {st : KcState ℝ} {blocks : List (List ℝ)} (hst : KcFollows h x st)
    (hlen : ∀ xs ∈ blocks, xs.length ≤ st.maxin) : (kcRun exact st blocks).2 =
      (List.range blocks.flatten.length).map fun i => convolveAt h (x ++ blocks.flatten) 0 (x.length + i) := by
  induction blocks generalizing x st with
  | nil => rfl
  | cons xs rest ih =>
    have hxs : xs.length ≤ st.maxin := hlen xs List.mem_cons_self
    have hrest : ∀ ys ∈ rest, ys.length ≤ st.maxin := fun ys hys => hlen ys (List.mem_cons_of_mem _ hys)
    rw [kcRun, List.flatten_cons]
    split
    next empty =>
      obtain rfl := List.eq_nil_of_length_eq_zero empty
      exact ih hst hrest
    next =>
      have front : (kcConvolve exact st xs).2 =
          (List.range xs.length).map fun i => convolveAt h (x ++ (xs ++ rest.flatten)) 0 (x.length + i) := by
        rw [hst.output hxs]
        refine List.map_congr_left fun i hi => ?_
        rw [← List.append_assoc, convolveAt_append _ (x ++ xs) _ (by simpa using hi)]
      show (kcConvolve exact st xs).2 ++ (kcRun exact (kcConvolve exact st xs).1 rest).2 = _
      rw [ih (hst.call hxs) hrest, front, List.length_append, List.append_assoc, List.length_append, List.range_add,
        List.map_append, List.map_map]
      simp only [Function.comp_def, Nat.add_assoc]

/-- SETCOEF starts a new stream (R316, R324). -/
theorem kcSetCoefficients_follows {st : KcState ℝ} {h : List ℝ} (le : h.length ≤ st.maxc) :
    KcFollows h [] (kcSetCoefficients exact st h) where
  count := rfl
  fits := le
  taps := rfl
  length := List.length_replicate
  carry := by
    intro j
    have quiet : convolveAt h [] 0 j = 0 := by simp [convolveAt]
    rw [List.length_nil, Nat.zero_add, quiet, List.getD_eq_getElem?_getD]
    exact List.getElem?_getD_replicate_default_eq ..

/-- Settles O47: the run from SETCOEF's empty stream. -/
theorem kcStreamLaw : Obligations.KcStreamLaw := by
  unfold Obligations.KcStreamLaw
  intro st0 h blocks _ le hlen
  have run := (kcSetCoefficients_follows le).run hlen
  simpa [convolved] using run

end Sys2Proof.Proofs
end

section
/-! SUPPORT. HC.CONVOLVE (44_hybrid.md R368, R371, R372): what a call does in each mode, and what the command writes. -/
namespace Sys2Proof.Proofs
open Sys2Proof.Machine Sys2Proof.Safety

/-! ### The delay ring -/

/-- A call has put `xs` into the delay ring `q` and taken as many samples, `xd`, from its front: `dly` is left. -/
structure Delayed {α : Type} (q : SampleRing α) (xs xd : List α) (dly : SampleRing α) : Prop where
  ring   : RingOk dly
  size   : dly.n = q.n ∧ dly.mrs = q.mrs
  level  : dly.remaining = q.remaining
  length : xd.length = xs.length
  taken  : xd.map some = (ringUnread q ++ xs.map some).take xs.length
  left   : ringUnread dly = (ringUnread q ++ xs.map some).drop xs.length

section
variable {α : Type} {q q1 dly : SampleRing α} {xs xd : List α}

theorem delayed_of_put_get (ok : RingOk q) (put : ringPut q xs = some q1) (get : ringGet q1 xs.length = some (xd, dly)) :
    Delayed q xs xd dly := by
  obtain ⟨ok1, n1, mrs1, level1⟩ := ringOk_put ok put
  obtain ⟨ok2, n2, mrs2, level2, length, -⟩ := ringOk_get ok1 get
  obtain ⟨taken, left⟩ := ringUnread_get ok1 get
  rw [ringUnread_put ok put] at taken left
  exact ⟨ok2, ⟨n2.trans n1, mrs2.trans mrs1⟩, by omega, length, taken, left⟩

/-- Samples leave the delay ring in the order in which they came. -/
theorem Delayed.queue (h : Delayed q xs xd dly) : xd.map some ++ ringUnread dly = ringUnread q ++ xs.map some := by
  rw [h.taken, h.left, List.take_append_drop]

end

/-! ### A call -/

section
variable {α : Type} {env : PcEnv α} {st st' : HcState α} {xs ys : List α}

theorem hcConvolve_timeOnly (mode : st.mode = .timeOnly) : hcConvolve env st xs =
    some ({ st with k := (kcConvolve env.arith st.k xs).1 }, (kcConvolve env.arith st.k xs).2) := by
  rw [hcConvolve, mode]

/-- In Hybrid mode (R368) Q runs on the delayed samples, and the two paths' outputs are added. -/
theorem hcConvolve_hybrid_eq_some (mode : st.mode = .hybrid) : hcConvolve env st xs = some (st', ys) ↔
    ∃ dly1 xd dly q yp, ringPut st.dly xs = some dly1 ∧ ringGet dly1 xs.length = some (xd, dly) ∧
      pcConvolve env st.q xd = some (q, yp) ∧ st' = { st with k := (kcConvolve env.arith st.k xs).1, q := q, dly := dly } ∧
      ys = List.zipWith env.arith.add (kcConvolve env.arith st.k xs).2 yp := by
  rw [hcConvolve, mode]
  constructor
  · intro h
    obtain ⟨dly1, put, h⟩ := Option.bind_eq_some_iff.mp h
    obtain ⟨⟨xd, dly⟩, get, h⟩ := Option.bind_eq_some_iff.mp h
    obtain ⟨⟨q, yp⟩, call, h⟩ := Option.bind_eq_some_iff.mp h
    cases h
    exact ⟨dly1, xd, dly, q, yp, put, get, call, rfl, rfl⟩
  · rintro ⟨dly1, xd, dly, q, yp, put, get, call, rfl, rfl⟩
    exact Option.bind_eq_some_iff.mpr ⟨dly1, put, Option.bind_eq_some_iff.mpr ⟨(xd, dly), get,
      Option.bind_eq_some_iff.mpr ⟨(q, yp), call, rfl⟩⟩⟩

/-! ### A run -/

theorem hcRun_cons {blocks : List (List α)} {zs : List α} {st1 : HcState α} (hxs : xs.length ≠ 0)
    (call : hcConvolve env st xs = some (st1, ys)) (run : hcRun env st1 blocks = some (st', zs)) :
    hcRun env st (xs :: blocks) = some (st', ys ++ zs) := by
  rw [hcRun, if_neg hxs]
  exact Option.bind_eq_some_iff.mpr ⟨(st1, ys), call, Option.bind_eq_some_iff.mpr ⟨(st', zs), run, rfl⟩⟩

/-- R372: in TimeOnly mode the run is the Karatsuba path's, whatever the arithmetic is. -/
theorem hcRun_timeOnly (mode : st.mode = .timeOnly) (blocks : List (List α)) : hcRun env st blocks =
    some ({ st with k := (kcRun env.arith st.k blocks).1 }, (kcRun env.arith st.k blocks).2) := by
  induction blocks generalizing st with
  | nil => rfl
  | cons xs blocks ih =>
    by_cases hxs : xs.length = 0
    · rw [hcRun, kcRun, if_pos hxs, if_pos hxs]
      exact ih mode
    · rw [hcRun_cons hxs (hcConvolve_timeOnly mode)
        (ih (st := { st with k := (kcConvolve env.arith st.k xs).1 }) mode), kcRun, if_neg hxs]

end

/-- Settles O52. -/
theorem hcTimeOnlyEqualsKc : Obligations.HcTimeOnlyEqualsKc := by
  unfold Obligations.HcTimeOnlyEqualsKc
  exact fun env st blocks mode => hcRun_timeOnly mode blocks

/-! ### The command -/

section
variable {s : State} {x : Instance} {st : HcState F32} {r : HcState F32 × List F32}

/-- The state an HC.CONVOLVE of at least one sample ends in. -/
def hcConvolvedTo (s : State) (x : Instance) (r : HcState F32 × List F32) : State :=
  let s1 : State := { s with mem := s.mem.write (s.arg 2) (bytesOf (outputSamples s r.2)) }
  (s1.setInstance (s.arg 0) { x with unit := .hc r.1 }).nextDraw.complete 0

theorem hcConvolve_run_empty (live : assocGet (s.arg 0) s.insts = some x) (hu : x.unit = .hc st)
    (ready : BlockReady s st.maxin) (hn : s.arg 3 = 0) : exec .hcConvolve s = .next (s.complete 0) := by
  refine exec_ok ?_
  simp only [command, hcConvolveCommand, checkHandle_hc live hu, ok_bind, checkBlock_passes ready, if_pos hn]
  rfl

theorem hcConvolve_run (live : assocGet (s.arg 0) s.insts = some x) (hu : x.unit = .hc st)
    (ready : BlockReady s st.maxin) (hn : s.arg 3 ≠ 0)
    (backed : st.mode = .hybrid → allBacked s.plat (internalRings (s.arg 0) x.unit) = true)
    (run : hcConvolve (pcEnv s) st (samplesAt s (s.arg 1) (s.arg 3)) = some r) (length : r.2.length = s.arg 3) :
    exec .hcConvolve s = .next (hcConvolvedTo s x r) := by
  have rings : allBacked s.plat (if st.mode = .timeOnly then [] else internalRings (s.arg 0) x.unit) = true := by
    cases hmode : st.mode with
    | timeOnly => rfl
    | hybrid => exact backed hmode
  have write := memWrite_backed (s := s) (a := s.arg 2) (bs := bytesOf (outputSamples s r.2))
    (by rw [bytesOf_length, outputSamples, length_settleNaNs, length]; exact ready.dest)
  refine exec_ok ?_
  simp only [command, hcConvolveCommand, checkHandle_hc live hu, ok_bind, checkBlock_passes ready, if_neg hn,
    readSamples_backed ready.source, touchRings_backed rings, run, orInternal_some, write]
  rfl

end

/-- Settles O44: the internal operations of a well-kept instance succeed in both modes. -/
theorem hcConvolveCompletes : Obligations.HcConvolveCompletes := by
  unfold Obligations.HcConvolveCompletes
  intro s x st live hu ok ready n xs rk
  have taken : xs.length = n := length_samplesAt ..
  have room : xs.length ≤ st.maxin := taken.trans_le ready.n_le
  have kLen : rk.2.length = n := (length_kcConvolve ok.k_ok (ok.k_cfg.2 ▸ room)).trans taken
  refine ⟨hcConvolve_run_empty live hu ready, fun hn mode => ?_, fun hn mode backed => ?_⟩
  · exact ⟨_, hcConvolve_run live hu ready (by omega) (fun hybrid => nomatch mode.symm.trans hybrid)
      (hcConvolve_timeOnly mode) kLen, rfl, rfl, assocGet_set_same .., kLen, writtenAs_outputSamples s s.mem (s.arg 2) _⟩
  · obtain ⟨⟨st', ys⟩, run⟩ := hcConvolve_succeeds (s := s) ok room
    have length : ys.length = n := (length_hcConvolve ok room run).trans taken
    obtain ⟨dly1, xd, dly, q, yp, put, get, call, rfl, rfl⟩ := (hcConvolve_hybrid_eq_some mode).mp run
    have delayed := delayed_of_put_get ok.dly put get
    have qLen : yp.length = n := ((pcConvolve_ok ok.q_ok call).2.trans delayed.length).trans taken
    exact ⟨_, xd, dly, q, yp, hcConvolve_run live hu ready (by omega) (fun _ => backed) run length, rfl, rfl,
      taken ▸ delayed.taken, taken ▸ delayed.left, call, qLen, assocGet_set_same .., kLen,
      writtenAs_outputSamples s s.mem (s.arg 2) _⟩

end Sys2Proof.Proofs
end

section
/-! SUPPORT. A run of HC.CONVOLVE in Hybrid mode (44_hybrid.md R368, R371), whatever the arithmetic is: its output is the sum of a
run of K on the calls' samples and a run of Q on the delayed ones. -/
namespace Sys2Proof.Proofs
open Sys2Proof.Machine Sys2Proof.Safety

section
variable {α : Type} {env : PcEnv α} {st : HcState α} {xs : List α} {blocks : List (List α)}

/-- A Hybrid state between calls: Q's rings and the delay ring have room for a call's samples. -/
structure HybridReady (st : HcState α) : Prop where
  mode   : st.mode = .hybrid
  carry  : st.k.ovl.length = 2 * st.k.bmax
  kMaxin : st.k.maxin = st.maxin
  levels : PcLevels (2 * st.q.p) st.q
  qMaxin : st.q.maxin = st.maxin
  dly    : RingOk st.dly
  room   : st.dly.remaining + st.maxin ≤ st.dly.n
  mrs    : st.dly.mrs = st.maxin

/-- K answers every sample of a call (R322). -/
theorem HybridReady.length_kcConvolve (h : HybridReady st) (hlen : xs.length ≤ st.maxin) :
    (kcConvolve env.arith st.k xs).2.length = xs.length := by
  have covers : max st.k.maxc st.k.maxin ≤ st.k.bmax := le_nextpow2 _
  have carry := h.carry
  have maxin := h.kMaxin
  rw [kcConvolve_output env.arith (by omega), List.length_map, List.length_range]

section
variable (hfft : ∀ n flag v, (env.fft n flag v).length = n)
include hfft

/-- A call succeeds, and leaves the state ready for the next one (R371). -/
theorem HybridReady.call (h : HybridReady st) (hlen : xs.length ≤ st.maxin) :
    ∃ xd dly q yp, Delayed st.dly xs xd dly ∧ pcConvolve env st.q xd = some (q, yp) ∧
      let st' := { st with k := (kcConvolve env.arith st.k xs).1, q := q, dly := dly }
      hcConvolve env st xs = some (st', List.zipWith env.arith.add (kcConvolve env.arith st.k xs).2 yp) ∧
        HybridReady st' := by
  have room := h.room
  have mrs := h.mrs
  have qMaxin := h.qMaxin
  obtain ⟨dly1, put⟩ := ringPut_succeeds (q := st.dly) (vs := xs) (by omega)
  obtain ⟨-, -, mrs1, level1⟩ := ringOk_put h.dly put
  obtain ⟨⟨xd, dly⟩, get⟩ := ringGet_succeeds (q := dly1) (n := xs.length) (by omega) (by omega)
  have delayed := delayed_of_put_get h.dly put get
  obtain ⟨n', mrs'⟩ := delayed.size
  obtain ⟨q, yp, run, levels⟩ := h.levels.convolve hfft (xs := xd) (by rw [delayed.length]; omega)
  refine ⟨xd, dly, q, yp, delayed, run, ?_, ?_⟩
  · exact (hcConvolve_hybrid_eq_some h.mode).mpr ⟨dly1, xd, dly, q, yp, put, get, run, rfl, rfl⟩
  · exact
      { h with
        carry := length_kcConvolve_carry ..
        levels := levels
        qMaxin := (pcConvolve_same run).maxin.trans qMaxin
        dly := delayed.ring
        room := by rw [delayed.level, n']; exact room
        mrs := mrs'.trans mrs }

/-- Q's calls take the samples of the delay ring and then those of HC's calls, as many as HC's take. -/
theorem HybridReady.run (h : HybridReady st) (hlen : ∀ xs ∈ blocks, xs.length ≤ st.maxin) :
    ∃ xds q yp st', (∀ xd ∈ xds, xd.length ≤ st.maxin) ∧ xds.flatten.length = blocks.flatten.length ∧
      (∃ rest, xds.flatten.map some ++ rest = ringUnread st.dly ++ blocks.flatten.map some) ∧
      pcRun env st.q xds = some (q, yp) ∧
      hcRun env st blocks = some (st', List.zipWith env.arith.add (kcRun env.arith st.k blocks).2 yp) := by
  induction blocks generalizing st with
  | nil => exact ⟨[], st.q, [], st, by simp, rfl, ⟨ringUnread st.dly, by simp⟩, rfl, rfl⟩
  | cons xs blocks ih =>
    obtain ⟨hxs, hrest⟩ := List.forall_mem_cons.mp hlen
    by_cases empty : xs.length = 0
    · rw [hcRun, kcRun, if_pos empty, if_pos empty, List.length_eq_zero_iff.mp empty, List.flatten_cons, List.nil_append]
      exact ih h hrest
    · obtain ⟨xd, dly, q, yp, delayed, first, call, ready⟩ := h.call hfft hxs
      obtain ⟨xds, q', yp', st', small, length, ⟨rest, queue⟩, others, run⟩ := ih ready hrest
      have answered : (kcConvolve env.arith st.k xs).2.length = yp.length := by
        rw [h.length_kcConvolve hxs, (pcConvolve_flows h.levels.outRing first).2, delayed.length]
      refine ⟨xd :: xds, q', yp ++ yp', st', ?_, ?_, ⟨rest, ?_⟩,
        pcRun_cons_eq_some.mpr ⟨q, yp, yp', first, others, rfl⟩, ?_⟩
      · exact List.forall_mem_cons.mpr ⟨delayed.length.trans_le hxs, small⟩
      · rw [List.flatten_cons, List.length_append, delayed.length, length, List.flatten_cons, List.length_append]
      · rw [List.flatten_cons, List.map_append, List.append_assoc, queue, ← List.append_assoc, delayed.queue,
          List.append_assoc, List.flatten_cons, List.map_append]
      · rw [hcRun_cons empty call run, kcRun, if_neg empty, List.zipWith_append answered]

end

/-! ### SETCOEF -/

theorem pcSetCoefficients_eq {st : PcState α} (hin : st.p ≤ st.inRing.n) (hout : st.p ≤ st.outRing.n) (c : List α) :
    pcSetCoefficients env st c = some (pcCleared env (pcLoaded env st c)) :=
  pcReset_eq (st := pcLoaded env st c) hin hout

/-- A reset succeeds where the rings have room for its zeros, whatever the arithmetic is (R366). -/
theorem hcReset_eq (hin : st.q.p ≤ st.q.inRing.n) (hout : st.q.p ≤ st.q.outRing.n) (hdly : st.t - st.l ≤ st.dly.n) :
    hcReset env st = some (hcCleared env st) := by
  rw [hcReset, pcReset_eq hin hout, ringSeed_eq hdly]
  rfl

/-- The state SETCOEF leaves, with the coefficients `ck` in K and `cq` in Q (R365). -/
def hcLoaded (env : PcEnv α) (st : HcState α) (mode : HcMode) (ck cq : List α) : HcState α :=
  { st with
    mode := mode, k := kcSetCoefficients env.arith st.k ck, q := pcCleared env (pcLoaded env st.q cq),
    dly := seeded env.arith.zero st.dly (st.t - st.l) }

theorem hcSetCoefficients_eq (hin : st.q.p ≤ st.q.inRing.n) (hout : st.q.p ≤ st.q.outRing.n)
    (hdly : st.t - st.l ≤ st.dly.n) (c : List α) : hcSetCoefficients env st c =
      some (if c.length ≤ st.t then hcLoaded env st .timeOnly c [env.arith.zero]
        else hcLoaded env st .hybrid (c.take st.t) (c.drop st.t)) := by
  have reset (mode : HcMode) (ck cq : List α) : hcReset env { st with
      mode := mode, k := kcSetCoefficients env.arith st.k ck, q := pcCleared env (pcLoaded env st.q cq) } =
        some (hcLoaded env st mode ck cq) := hcReset_eq hin hout hdly
  unfold hcSetCoefficients
  split
  · rw [pcSetCoefficients_eq hin hout]
    exact reset ..
  · rw [pcSetCoefficients_eq hin hout]
    exact reset ..

/-- The Hybrid state SETCOEF leaves is ready for its first call. -/
theorem hcLoaded_ready (env : PcEnv α) (even : st.q.f = 2 * st.q.p) (pos : 1 ≤ st.q.p) (kMaxin : st.k.maxin = st.maxin)
    (inSize : st.q.inRing.n = 2 * st.q.p + st.q.maxin ∧ st.q.inRing.mrs = st.q.f)
    (outSize : st.q.outRing.n = st.q.p + st.q.maxin ∧ st.q.outRing.mrs = st.q.maxin) (qMaxin : st.q.maxin = st.maxin)
    (dlySize : st.dly.n = (st.t - st.l) + st.maxin ∧ st.dly.mrs = st.maxin) (ck cq : List α) :
    HybridReady (hcLoaded env st .hybrid ck cq) := by
  obtain ⟨dlyN, dlyMrs⟩ := dlySize
  obtain ⟨dly, n', mrs', level⟩ := ringOk_seed (q := st.dly) (by omega)
    (ringSeed_eq (zero := env.arith.zero) (count := st.t - st.l) (by omega))
  exact
    { mode := rfl
      carry := List.length_replicate
      kMaxin := kMaxin
      levels := pcCleared_levels (st := pcLoaded env st.q cq) env even pos inSize outSize
      qMaxin := qMaxin
      dly := dly
      room := (congrArg (· + st.maxin) level).trans dlyN.symm |>.le
      mrs := dlyMrs }

end

end Sys2Proof.Proofs
end

section
/-! SUPPORT. The ideal law of the hybrid convolver (44_hybrid.md R365, R368, R370): the delay of the samples and the latency of Q
together are the threshold, from which tap on Q's coefficients stand. -/
namespace Sys2Proof.Proofs
open Sys2Proof.Machine Sys2Proof.Safety Sys2Proof.Ideal

/-- Zeros in front of the samples add to the delay, and samples behind the output's time do not matter. -/
theorem convolveAt_zeros_append (h x : List ℝ) (delay d : ℕ) {n t : ℕ} (ht : t < n) :
    convolveAt h ((List.replicate d 0 ++ x).take n) delay t = convolveAt h x (d + delay) t := by
  refine Finset.sum_congr rfl fun k _ => ?_
  have sample := getD_take_drop (List.replicate d 0 ++ x) 0 n (t - delay - k)
  rw [List.drop_zero, if_pos (by omega), Nat.zero_add, getD_zeros_append] at sample
  rw [sample]
  by_cases reached : d + delay + k ≤ t
  · rw [if_pos (by omega), if_pos reached, if_pos (by omega), show t - delay - k - d = t - (d + delay) - k by omega]
  · rw [if_neg reached]
    split
    · rw [if_neg (by omega), mul_zero]
    · rfl

/-- The taps before tap `n` and those from it on make up the convolution (R370). -/
theorem convolveAt_take_add_drop (h x : List ℝ) {n : ℕ} (hn : n ≤ h.length) (t : ℕ) :
    convolveAt (h.take n) x 0 t + convolveAt (h.drop n) x n t = convolveAt h x 0 t := by
  obtain ⟨m, hm⟩ := Nat.exists_eq_add_of_le hn
  have front (k : ℕ) (hk : k ∈ Finset.range n) : tapTerm (h.take n) x 0 t k = tapTerm h x 0 t k := by
    have tap := getD_take_drop h 0 n k
    rw [List.drop_zero, if_pos (Finset.mem_range.mp hk), Nat.zero_add] at tap
    rw [tapTerm, tap, tapTerm]
  have behind (k : ℕ) : tapTerm (h.drop n) x n t k = tapTerm h x 0 t (n + k) := by
    have tap : (h.drop n).getD k 0 = h.getD (n + k) 0 := by simp [List.getD_eq_getElem?_getD]
    rw [tapTerm, tap, tapTerm, Nat.zero_add, Nat.sub_zero, Nat.sub_sub]
  calc convolveAt (h.take n) x 0 t + convolveAt (h.drop n) x n t
      = ∑ k ∈ Finset.range n, tapTerm (h.take n) x 0 t k + ∑ k ∈ Finset.range m, tapTerm (h.drop n) x n t k := by
        rw [convolveAt, List.length_take_of_le hn, convolveAt, List.length_drop, hm, Nat.add_sub_cancel_left]
        rfl
    _ = ∑ k ∈ Finset.range (n + m), tapTerm h x 0 t k := by
        rw [Finset.sum_congr rfl front, Finset.sum_congr rfl fun k _ => behind k, Finset.sum_range_add]
    _ = convolveAt h x 0 t := by
        rw [convolveAt, hm]
        rfl

/-- The samples at the front of a queue are fixed by their number. -/
theorem eq_take_of_map_append {α : Type} {xs stream : List α} {rest : List (Option α)}
    (h : xs.map some ++ rest = stream.map some) : xs = stream.take xs.length := by
  refine List.map_injective_iff.mpr (Option.some_injective α) ?_
  rw [List.map_take, ← h, List.take_left' (List.length_map _)]

/-- Where the samples' delay and Q's latency make up the threshold, the two paths' streams add up to the convolution. -/
theorem convolved_take_add_drop (h x : List ℝ) {n delay d : ℕ} (hn : n ≤ h.length) (threshold : d + delay = n) :
    List.zipWith (· + ·) (convolved (h.take n) x 0)
      (convolved (h.drop n) ((List.replicate d 0 ++ x).take x.length) delay) = convolved h x 0 := by
  have length : ((List.replicate d 0 ++ x).take x.length).length = x.length := by simp
  rw [convolved, convolved, length, List.zipWith_map, List.zipWith_self]
  refine List.map_congr_left fun t ht => ?_
  rw [convolveAt_zeros_append _ _ _ _ (List.mem_range.mp ht), threshold, convolveAt_take_add_drop h x hn]

/-- Settles O49: K and Q obey their own laws R324 and R265, Q on the delayed samples. -/
theorem hcStreamLaw : Obligations.HcStreamLaw := by
  unfold Obligations.HcStreamLaw
  intro k st0 h blocks hk hf lat kMaxc kMaxin qMaxc qMaxin qF inN inMrs outN outMrs dlyN dlyMrs pos le maxin
  have half : 2 ^ k = 2 * 2 ^ (k - 1) := by rw [← pow_succ', Nat.sub_add_cancel hk]
  have hp : st0.q.p = 2 ^ (k - 1) := p_eq_half (by omega)
  have hl : st0.l = st0.q.p := by rw [HcState.l, PcState.p, qF]
  have one : 1 ≤ 2 ^ (k - 1) := Nat.one_le_two_pow
  have load := hcSetCoefficients_eq (env := Ideal.env) (st := st0) (by omega) (by omega) (by omega) h
  have kLaw (c : List ℝ) (hpos : 1 ≤ c.length) (hle : c.length ≤ st0.k.maxc) :
      (kcRun exact (kcSetCoefficients exact st0.k c) blocks).2 = convolved c blocks.flatten 0 :=
    kcStreamLaw st0.k c blocks hpos hle (kMaxin ▸ maxin)
  by_cases hc : h.length ≤ st0.t
  · rw [if_pos hc] at load
    exact ⟨_, _, load, iff_of_true rfl hc, (hcRun_timeOnly rfl blocks).trans
      (congrArg (fun ys => some (_, ys)) (kLaw h pos (by omega)))⟩
  · rw [if_neg hc] at load
    have ready : HybridReady (hcLoaded Ideal.env st0 .hybrid (h.take st0.t) (h.drop st0.t)) :=
      hcLoaded_ready Ideal.env (by omega) (by omega) kMaxin (by omega) (by omega) qMaxin ⟨dlyN, dlyMrs⟩ _ _
    obtain ⟨xds, q, yp, st', small, length, ⟨rest, queue⟩, qRun, run⟩ := ready.run length_idealFft maxin
    have seed : ringUnread (hcLoaded Ideal.env st0 .hybrid (h.take st0.t) (h.drop st0.t)).dly =
        (List.replicate (st0.t - st0.l) 0).map some := by
      rw [List.map_replicate]
      exact ringUnread_seeded (by omega)
    rw [seed, ← List.map_append] at queue
    have delayed := length ▸ eq_take_of_map_append queue
    obtain ⟨q0, q1, qLoad, qLaw⟩ := pcStreamLaw k st0.q (h.drop st0.t) xds hk (by omega) (by omega) (by omega) (by omega)
      (by omega) (by rw [List.length_drop]; omega) (by rw [List.length_drop]; omega) (qMaxin ▸ small)
    obtain rfl := Option.some.inj (qLoad.symm.trans (pcSetCoefficients_eq (by omega) (by omega) _))
    obtain ⟨rfl, rfl⟩ := Prod.mk.inj (Option.some.inj (qRun.symm.trans qLaw))
    refine ⟨_, st', load, iff_of_false nofun hc, run.trans (congrArg (fun ys => some (st', ys)) ?_)⟩
    have sum := convolved_take_add_drop h blocks.flatten (n := st0.t) (delay := st0.q.p) (d := st0.t - st0.l)
      (by omega) (by omega)
    rw [← delayed, ← kLaw (h.take st0.t) (by rw [List.length_take]; omega) (by rw [List.length_take]; omega)] at sum
    exact sum

end Sys2Proof.Proofs
end

section
/-! SUPPORT. Operand writes of two agents that interleave (60_exceptions.md R413). -/
namespace Sys2Proof.Proofs
open Sys2Proof.Machine Sys2Proof.Safety

/-- The ports whose writes R413 guards: CMD and the argument registers. -/
def guardedPort : RegPort → Bool
  | .cmd => true
  | .arg _ => true
  | .argHalf _ _ => true
  | _ => false

/-- An agent's write into the sequence another agent has open is the fault of R413. -/
theorem regWrite_foreign {s : State} {agent owner : Nat} {data : List Byte} {port : RegPort}
    (howner : s.owner = some owner) (hne : agent ≠ owner) (hport : guardedPort port = true) :
    regWrite agent data s port = .fault .hostProtocol := by
  have foreign : s.ownedByOther agent = true := by simp [State.ownedByOther, howner, hne.symm]
  cases port with
  | cmd => exact if_pos foreign
  | arg k => exact if_pos foreign
  | argHalf k high => exact if_pos foreign
  | _ => cases hport

/-- Settles O9: the writes named select CMD's port, an argument register's or a half's, which R413 guards. -/
theorem secondAgentFaults : Obligations.SecondAgentFaults := by
  unfold Obligations.SecondAgentFaults
  intro s g h howner hne
  have fault {off : Nat} {data : List Byte} {port : RegPort} (hport : regPort off data.length = some port)
      (guarded : guardedPort port = true) :
      hostStep (.write h (s.plat.regBase + off) data) s = .fault .hostProtocol :=
    (hostStep_write_port h hport).trans (regWrite_foreign howner hne guarded)
  refine ⟨fun data len => fault (off := 0) (port := .cmd) (by rw [len]; rfl) rfl, fun i data hi len => ?_,
    fun i data hi len => ?_⟩
  · rw [Nat.add_assoc]
    rcases len with len | len
    · exact fault (by rw [len]; exact regPort_argLow hi) rfl
    · exact fault (by rw [len]; exact regPort_arg hi) rfl
  · rw [Nat.add_assoc, Nat.add_assoc]
    exact fault (by rw [len]; exact regPort_argHigh hi) rfl

end Sys2Proof.Proofs
end

section
/-! SUPPORT. The handle check (60_exceptions.md R403): every command that takes a handle begins with it. -/
namespace Sys2Proof.Proofs
open Sys2Proof.Machine Sys2Proof.Safety

/-- The handle check fails on a dead handle, and on one of another unit than the tag `u` of the check's projection. -/
theorem invalid_of_badHandle {σ β : Type} {proj : UnitState → Option σ} {s : State} {u : UnitTag} {f : Instance × σ → Cmd β}
    (tag : ∀ v st, proj v = some st → unitTag v = u)
    (bad : ∀ x, assocGet (s.arg 0) s.insts = some x → unitTag x.unit ≠ u) : Invalid (checkHandle proj s (s.arg 0) >>= f) :=
  invalid_handle fun x st live hu => absurd (tag x.unit st hu) (bad x live)

theorem unitTag_of_asRb (v : UnitState) (st : RbState) (h : v.asRb = some st) : unitTag v = .rb := by
  rw [asRb_eq_some.mp h, unitTag]

theorem unitTag_of_asKc (v : UnitState) (st : KcState F32) (h : v.asKc = some st) : unitTag v = .kc := by
  rw [asKc_eq_some.mp h, unitTag]

theorem unitTag_of_asPc (v : UnitState) (st : PcState F32) (h : v.asPc = some st) : unitTag v = .pc := by
  rw [asPc_eq_some.mp h, unitTag]

theorem unitTag_of_asHc (v : UnitState) (st : HcState F32) (h : v.asHc = some st) : unitTag v = .hc := by
  rw [asHc_eq_some.mp h, unitTag]

/-- Every command that takes a handle fails on a bad one, whatever its other operands are. -/
theorem command_invalid_of_badHandle {i : Instr} {u : UnitTag} {s : State} (hi : handleUnit i = some u)
    (bad : ∀ x, assocGet (s.arg 0) s.insts = some x → unitTag x.unit ≠ u) : Invalid (command i s) := by
  cases i with
  | rbDestroy | rbClear | rbPut | rbPeek | rbGet | rbDpeek | rbRemain | rbFree =>
    cases hi
    exact invalid_of_badHandle unitTag_of_asRb bad
  | kcDestroy | kcReset | kcSetcoef | kcConvolve | kcGetlat =>
    cases hi
    exact invalid_of_badHandle unitTag_of_asKc bad
  | pcDestroy | pcReset | pcSetcoef | pcConvolve | pcGetlat =>
    cases hi
    exact invalid_of_badHandle unitTag_of_asPc bad
  | hcDestroy | hcReset | hcSetcoef | hcConvolve | hcGetlat =>
    cases hi
    exact invalid_of_badHandle unitTag_of_asHc bad
  | _ => cases hi

/-- Settles O21. -/
theorem badHandleIsInvalidArgument : Obligations.BadHandleIsInvalidArgument := by
  unfold Obligations.BadHandleIsInvalidArgument
  intro i u s hi bad
  rw [exec_eq_finish, command_invalid_of_badHandle hi bad]
  rfl

end Sys2Proof.Proofs
end

section
/-! SUPPORT. Why a command can stop (60_exceptions.md R401, R405, R414): the status codes and the fault causes of each command,
read off its body once. -/
namespace Sys2Proof.Proofs
open Sys2Proof.Machine Sys2Proof.Safety

/-- The regions whose bytes a command reads or writes in memory. -/
def accessed (i : Instr) (s : State) : List Span := sources i s ++ destinations i s ++ usedRings i s

/-- The reasons for which command `i` may stop in `s`: a code that R414 lists for it, or a fault with its cause of R405.
Of `internal` nothing is said: well-kept convolvers rule it out (R159, `exec_not_internal`). -/
def CanStop (i : Instr) (s : State) : Stop → Prop
  | .status c => c = .invalidArgument ∨ c ∈ otherCodes i
  | .fault .bus => ∃ sp ∈ accessed i s, ∃ a, sp.has a = true ∧ s.plat.backed a = false
  | .fault .hostProtocol => hasDestination i = true ∧ ∃ sp ∈ destinations i s, s.meetsArena sp.base sp.len = true
  | .fault .internal => True

/-- Where command `i`, or the part `c` of it, stops in `s`, it does so for such a reason. -/
def Stops (i : Instr) (s : State) {α : Type} (c : Cmd α) : Prop := ∀ e, c = .error e → CanStop i s e

/-! ### Parts of commands -/

section
variable {i : Instr} {s : State} {α β : Type}

theorem stops_ok (a : α) : Stops i s (.ok a) := nofun

theorem stops_error {e : Stop} (h : CanStop i s e) : Stops i s (.error e : Cmd α) := by
  intro _ he
  cases he
  exact h

theorem stops_bind {x : Cmd α} {f : α → Cmd β} (hx : Stops i s x) (hf : ∀ a, x = .ok a → Stops i s (f a)) :
    Stops i s (x >>= f) := by
  cases x with
  | ok a => exact hf a rfl
  | error e => exact stops_error (hx e rfl)

theorem stops_ite {p : Prop} [Decidable p] {c d : Cmd α} (hc : p → Stops i s c) (hd : ¬p → Stops i s d) :
    Stops i s (if p then c else d) := by
  split
  · exact hc ‹_›
  · exact hd ‹_›

theorem stops_require {p : Prop} [Decidable p] {c : StatusCode} (h : c = .invalidArgument ∨ c ∈ otherCodes i) :
    Stops i s (require p c) := stops_ite (fun _ => stops_ok _) fun _ => stops_error h

theorem stops_faultIf {p : Prop} [Decidable p] {f : Fault} (h : p → CanStop i s (.fault f)) : Stops i s (faultIf p f) :=
  stops_ite (fun hp => stops_error (h hp)) fun _ => stops_ok _

theorem stops_orInternal (x : Option α) : Stops i s (orInternal x) := by
  cases x with
  | some v => exact stops_ok v
  | none => exact stops_error trivial

theorem stops_handle {proj : UnitState → Option α} {hdl : Nat} {f : Instance × α → Cmd β}
    (h : ∀ x st, assocGet hdl s.insts = some x → proj x.unit = some st → Stops i s (f (x, st))) :
    Stops i s (checkHandle proj s hdl >>= f) := by
  refine stops_bind (fun e he => ?_) fun p hp => h p.1 p.2 (checkHandle_ok.mp hp).1 (checkHandle_ok.mp hp).2
  rw [checkHandle_error he]
  exact .inl rfl

/-! ### Accesses to memory -/

theorem exists_unbacked {p : Platform} {a n : Nat} (h : backedRange p a n = false) :
    ∃ b, a ≤ b ∧ b < a + n ∧ p.backed b = false := by
  by_contra none
  refine Bool.eq_false_iff.mp h ((backedRange_iff ..).mpr fun k hk => ?_)
  by_contra unbacked
  exact none ⟨a + k, by omega, by omega, Bool.eq_false_iff.mpr unbacked⟩

/-- The bytes of `[a, a + n)` lie in a region the command accesses. -/
def Accessed (i : Instr) (s : State) (a n : Nat) : Prop := ∃ sp ∈ accessed i s, sp.base ≤ a ∧ a + n ≤ sp.base + sp.len

theorem accessed_whole {a n : Nat} (h : { base := a, len := n } ∈ accessed i s) : Accessed i s a n :=
  ⟨_, h, Nat.le_refl _, Nat.le_refl _⟩

theorem Accessed.mono {a m n : Nat} (h : Accessed i s a n) (le : m ≤ n) : Accessed i s a m := by
  obtain ⟨sp, hsp, lo, hi⟩ := h
  exact ⟨sp, hsp, lo, by omega⟩

theorem mem_accessed_of_source {sp : Span} (h : sp ∈ sources i s) : sp ∈ accessed i s :=
  List.mem_append_left _ (List.mem_append_left _ h)

theorem mem_accessed_of_destination {sp : Span} (h : sp ∈ destinations i s) : sp ∈ accessed i s :=
  List.mem_append_left _ (List.mem_append_right _ h)

theorem mem_accessed_of_ring {sp : Span} (h : sp ∈ usedRings i s) : sp ∈ accessed i s := List.mem_append_right _ h

theorem canStop_bus {a n : Nat} (h : Accessed i s a n) (unbacked : backedRange s.plat a n = false) :
    CanStop i s (.fault .bus) := by
  obtain ⟨sp, hsp, lo, hi⟩ := h
  obtain ⟨b, hlo, hhi, hb⟩ := exists_unbacked unbacked
  exact ⟨sp, hsp, b, (Span.has_iff ..).mpr (by omega), hb⟩

/-- An access to such bytes, in a state on the same platform, stops for want of one of them alone. -/
theorem stops_backed {t : State} {a n : Nat} {v : α} (plat : t.plat = s.plat) (h : Accessed i s a n) :
    Stops i s (if backedRange t.plat a n then .ok v else .error (.fault .bus)) :=
  stops_ite (fun _ => stops_ok v) fun unbacked => stops_error (canStop_bus h (plat ▸ Bool.eq_false_iff.mpr unbacked))

theorem stops_memRead {a n : Nat} (h : Accessed i s a n) : Stops i s (memRead s a n) := stops_backed rfl h

theorem stops_memWrite {t : State} {a : Nat} {bs : List Byte} (plat : t.plat = s.plat) (h : Accessed i s a bs.length) :
    Stops i s (memWrite t a bs) := stops_backed plat h

theorem stops_memZero {t : State} {a n : Nat} (plat : t.plat = s.plat) (h : Accessed i s a n) : Stops i s (memZero t a n) :=
  stops_backed plat h

theorem stops_memHavoc {t : State} {a n : Nat} (plat : t.plat = s.plat) (h : Accessed i s a n) :
    Stops i s (memHavoc t a n) := stops_backed plat h

theorem stops_readSamples {a n : Nat} (h : Accessed i s a (4 * n)) : Stops i s (readSamples s a n) :=
  stops_bind (stops_memRead h) fun _ _ => stops_ok _

theorem stops_touchRings {spans : List Span} (h : ∀ sp ∈ spans, sp ∈ usedRings i s) : Stops i s (touchRings s spans) := by
  refine stops_faultIf fun unbacked => ?_
  obtain ⟨sp, hsp, hb⟩ := List.all_eq_false.mp unbacked
  exact canStop_bus (accessed_whole (mem_accessed_of_ring (h sp hsp))) (Bool.eq_false_iff.mpr hb)

/-- A CONVOLVE writes at most as many samples as A3 counts, to the output in A2. -/
theorem stops_writeOutput {ys : List F32} (dest : { base := s.arg 2, len := 4 * s.arg 3 } ∈ destinations i s)
    (hlen : ys.length ≤ s.arg 3) : Stops i s (memWrite s (s.arg 2) (bytesOf ys)) := by
  refine stops_memWrite rfl ((accessed_whole (mem_accessed_of_destination dest)).mono ?_)
  rw [bytesOf_length]
  omega

theorem stops_putRecords {st : RbState} {count slot : Nat} {bs : List Byte} {t : State} (plat : t.plat = s.plat)
    (h : ∀ k, k < count → ∀ sp ∈ slotSpans st ((slot + k) % st.size), sp ∈ destinations i s) :
    Stops i s (putRecords st count slot bs t) := by
  induction count generalizing slot bs t with
  | zero => exact stops_ok t
  | succ count ih =>
    have write {u : State} {a : Nat} (hu : u.plat = s.plat)
        (ha : { base := a, len := st.rs } ∈ slotSpans st (slot % st.size)) : Stops i s (memWrite u a (bs.take st.rs)) :=
      stops_memWrite hu ((accessed_whole (mem_accessed_of_destination (h 0 (Nat.succ_pos _) _ ha))).mono
        (List.length_take_le ..))
    refine stops_bind (stops_bind (write plat List.mem_cons_self) fun t1 h1 => ?_) fun t1 h1 => ?_
    · refine stops_ite (fun hk => write ?_ (by simp [slotSpans, hk])) fun _ => stops_ok _
      rw [(memWrite_ok h1).2]
      exact plat
    · refine ih (by rw [slotWrite_ok h1]; exact plat) fun k hk => ?_
      rw [show slot + 1 + k = slot + (k + 1) by omega]
      exact h (k + 1) (Nat.succ_lt_succ hk)

/-! ### Operands -/

theorem canStop_overlap {a n : Nat} (hi : hasDestination i = true) (dest : { base := a, len := n } ∈ destinations i s)
    (meets : s.meetsArena a n = true) : CanStop i s (.fault .hostProtocol) := ⟨hi, _, dest, meets⟩

/-- A CREATE's shared part leaves the rest of the command to run at the handle `align16(buf)`. -/
theorem stops_create {buf bsz ws : Nat} {valid : Bool} {mk : Nat → UnitState} {f : Nat × State → Cmd State}
    (hi : hasDestination i = true) (dest : { base := buf, len := ws } ∈ destinations i s)
    (h : ∀ t : State, t.plat = s.plat → Stops i s (f (align16 buf, t))) :
    Stops i s (createInstance s buf bsz valid ws mk >>= f) := by
  refine stops_bind ?_ fun ⟨hdl, t⟩ run => ?_
  · iterate 4 refine stops_bind (stops_require (.inl rfl)) fun _ _ => ?_
    exact stops_bind (stops_faultIf (canStop_overlap hi dest)) fun _ _ => stops_ok _
  · obtain ⟨-, -, -, -, -, rfl, effect⟩ := createInstance_ok run
    exact h t (by rw [effect])

theorem stops_readCoefficients {maxc : Nat} (source : { base := s.arg 1, len := 4 * s.arg 2 } ∈ sources i s) :
    Stops i s (readCoefficients s maxc) := by
  iterate 3 refine stops_bind (stops_require (.inl rfl)) fun _ _ => ?_
  exact stops_readSamples (accessed_whole (mem_accessed_of_source source))

theorem stops_checkBlock {maxin : Nat} (hi : hasDestination i = true)
    (dest : { base := s.arg 2, len := 4 * s.arg 3 } ∈ destinations i s) : Stops i s (checkBlock s maxin) := by
  iterate 3 refine stops_bind (stops_require (.inl rfl)) fun _ _ => ?_
  exact stops_faultIf (canStop_overlap hi dest)

theorem stops_readBlock (source : { base := s.arg 1, len := 4 * s.arg 3 } ∈ sources i s) :
    Stops i s (readSamples s (s.arg 1) (s.arg 3)) := stops_readSamples (accessed_whole (mem_accessed_of_source source))

/-! ### The shapes of the commands -/

theorem stops_worksize {valid : Bool} {v : Nat} :
    Stops i s (do require (valid = true) .invalidArgument; return s.complete v) :=
  stops_bind (stops_require (.inl rfl)) fun _ _ => stops_ok _

theorem stops_query {proj : UnitState → Option α} {v : Instance × α → Nat} :
    Stops i s (do let x ← checkHandle proj s (s.arg 0); return s.complete (v x)) :=
  stops_handle fun _ _ _ _ => stops_ok _

theorem stops_destroy {proj : UnitState → Option α} (dest : destinations i s = arenaAt s (s.arg 0)) :
    Stops i s (do let (x, _) ← checkHandle proj s (s.arg 0); destroyInstance s (s.arg 0) x) := by
  refine stops_handle fun x _ live _ => stops_bind (stops_memZero rfl ?_) fun _ _ => stops_ok _
  refine accessed_whole (mem_accessed_of_destination ?_)
  rw [dest, arenaAt, live]
  exact List.mem_cons_self

/-- The end of a CREATE or a RESET, or of a SETCOEF, of a convolver with internal rings. -/
theorem stops_rings {spans : List Span} {x : Option α} {answer : α → State} (h : spans = usedRings i s) :
    Stops i s (do touchRings s spans; let st ← orInternal x; return answer st) :=
  stops_bind (stops_touchRings fun _ hsp => h ▸ hsp) fun _ _ => stops_bind (stops_orInternal _) fun _ _ => stops_ok _

end

/-! ### The commands -/

section
variable {s : State}

theorem rbCreate_stops : Stops .rbCreate s (rbCreate s) := by
  have dest : { base := s.arg 3, len := wsRb (s.arg 0) (s.arg 1) (s.arg 2) } ∈ destinations .rbCreate s := List.mem_cons_self
  obtain ⟨above, inside⟩ := ring_inside_arena (s.arg 3) (s.arg 0) (s.arg 1) (s.arg 2)
  refine stops_create rfl dest fun t plat => ?_
  exact stops_bind (stops_memZero plat ⟨_, mem_accessed_of_destination dest, above, inside⟩) fun _ _ => stops_ok _

theorem rbClear_stops : Stops .rbClear s (rbClear s) := by
  refine stops_handle fun x st live hu => stops_bind (stops_memZero rfl ?_) fun _ _ => stops_ok _
  refine accessed_whole (mem_accessed_of_destination ?_)
  simp only [destinations, ringSpans, live, asRb_eq_some.mp hu, Bool.false_eq_true, if_false, List.mem_singleton]

theorem rbPut_stops : Stops .rbPut s (rbPut s) := by
  refine stops_handle fun x st live hu => ?_
  have hu := asRb_eq_some.mp hu
  iterate 2 refine stops_bind (stops_require (.inl rfl)) fun _ _ => ?_
  refine stops_bind (stops_require (.inr List.mem_cons_self)) fun _ _ => ?_
  refine stops_bind (stops_memRead (accessed_whole (mem_accessed_of_source ?_))) fun recs _ => ?_
  · simp only [sources, heldRecordSize, live, hu, List.mem_singleton]
  refine stops_bind (stops_putRecords rfl fun k hk sp hsp => ?_) fun _ _ => stops_ok _
  simp only [destinations, ringSpans, live, hu, if_true]
  exact List.mem_flatMap.mpr ⟨k, List.mem_range.mpr hk, hsp⟩

theorem stops_checkView {i : Instr} (hi : otherCodes i = [.exceedsMaxRequiredSize, .exceedsRemainingData]) (st : RbState)
    (n : Nat) : Stops i s (checkView st n) := by
  refine stops_bind (stops_require (.inr ?_)) fun _ _ => stops_require (.inr ?_)
  all_goals simp [hi]

theorem rbPeek_stops : Stops .rbPeek s (rbPeek s) :=
  stops_handle fun _ st _ _ => stops_bind (stops_checkView rfl st _) fun _ _ => stops_ok _

theorem rbGet_stops : Stops .rbGet s (rbGet s) :=
  stops_handle fun _ st _ _ => stops_bind (stops_checkView rfl st _) fun _ _ => stops_ok _

theorem rbDpeek_stops : Stops .rbDpeek s (rbDpeek s) := by
  refine stops_handle fun _ _ _ _ => ?_
  refine stops_bind (stops_require (.inl rfl)) fun _ _ => ?_
  refine stops_bind (stops_require (.inr (by simp [otherCodes]))) fun _ _ => ?_
  exact stops_bind (stops_require (.inr (by simp [otherCodes]))) fun _ _ => stops_ok _

theorem fftCommand_stops {i : Instr} {kind : FftKind} (hi : hasDestination i = true) (dest : destinations i s =
      [{ base := s.arg 2, len := 4 * fftFloats kind (s.arg 0) }, { base := s.arg 3, len := 4 * fftFloats kind (s.arg 0) }]) :
    Stops i s (fftCommand kind s) := by
  have x : { base := s.arg 2, len := 4 * fftFloats kind (s.arg 0) } ∈ destinations i s := by simp [dest]
  have scratch : { base := s.arg 3, len := 4 * fftFloats kind (s.arg 0) } ∈ destinations i s := by simp [dest]
  refine stops_bind (stops_require (.inl rfl)) fun _ _ => ?_
  refine stops_bind (stops_require (.inl rfl)) fun _ hvalid => ?_
  iterate 2 refine stops_bind (stops_require (.inl rfl)) fun _ _ => ?_
  refine stops_bind (stops_faultIf fun meets => ?_) fun _ _ => ?_
  · exact meets.elim (canStop_overlap hi x) (canStop_overlap hi scratch)
  refine stops_bind (stops_readSamples (accessed_whole (mem_accessed_of_destination x))) fun v hread => ?_
  have hlen := length_fftImpl (require_ok hvalid) (readSamples_ok hread).2.2
  refine stops_bind (stops_memWrite rfl ?_) fun s1 h1 => ?_
  · rw [bytesOf_length, hlen]
    exact accessed_whole (mem_accessed_of_destination x)
  refine stops_bind (stops_memHavoc ?_ (accessed_whole (mem_accessed_of_destination scratch))) fun _ _ => stops_ok _
  rw [(memWrite_ok h1).2]

theorem kcConvolve_stops : Stops .kcConvolve s (kcConvolveCommand s) := by
  refine stops_handle fun x st _ _ => stops_bind (stops_checkBlock rfl List.mem_cons_self) fun _ _ => ?_
  refine stops_ite (fun _ => stops_ok _) fun _ => stops_bind (stops_readBlock List.mem_cons_self) fun xs hread => ?_
  refine stops_bind (stops_writeOutput List.mem_cons_self ?_) fun _ _ => stops_ok _
  rw [outputSamples, length_settleNaNs, ← (readSamples_ok hread).2.2]
  exact length_kcConvolve_le st xs

theorem pcConvolve_stops : Stops .pcConvolve s (pcConvolveCommand s) := by
  refine stops_handle fun x st live _ => stops_bind (stops_checkBlock rfl List.mem_cons_self) fun _ _ => ?_
  refine stops_bind (stops_readBlock List.mem_cons_self) fun xs hread => ?_
  refine stops_bind (stops_touchRings fun sp hsp => ?_) fun _ _ => stops_bind (stops_orInternal _) fun r hrun => ?_
  · rwa [← heldRings_eq live] at hsp
  refine stops_bind (stops_writeOutput List.mem_cons_self ?_) fun _ _ => stops_ok _
  rw [← (readSamples_ok hread).2.2]
  exact length_pcConvolve_le (orInternal_ok hrun)

/-- The rings an HC.CONVOLVE of at least one sample operates on are those of its mode. -/
theorem usedRings_hcConvolve {x : Instance} {st : HcState F32} (live : assocGet (s.arg 0) s.insts = some x)
    (hu : x.unit = .hc st) (hn : s.arg 3 ≠ 0) :
    usedRings .hcConvolve s = if st.mode = .timeOnly then [] else internalRings (s.arg 0) x.unit := by
  have hybrid : heldHybrid s = decide (st.mode = .hybrid) := by simp only [heldHybrid, live, hu]
  rw [usedRings, hybrid, heldRings_eq live]
  cases st.mode <;> simp [hn]

theorem hcConvolve_stops : Stops .hcConvolve s (hcConvolveCommand s) := by
  refine stops_handle fun x st live hu => stops_bind (stops_checkBlock rfl List.mem_cons_self) fun _ _ => ?_
  refine stops_ite (fun _ => stops_ok _) fun hn => stops_bind (stops_readBlock List.mem_cons_self) fun xs hread => ?_
  refine stops_bind (stops_touchRings fun sp hsp => ?_) fun _ _ => stops_bind (stops_orInternal _) fun r hrun => ?_
  · rwa [usedRings_hcConvolve live (asHc_eq_some.mp hu) hn]
  refine stops_bind (stops_writeOutput List.mem_cons_self ?_) fun _ _ => stops_ok _
  rw [outputSamples, length_settleNaNs, ← (readSamples_ok hread).2.2]
  exact length_hcConvolve_le (orInternal_ok hrun)

theorem command_stops (i : Instr) : Stops i s (command i s) := by
  cases i with
  | rbWorksize | kcWorksize | pcWorksize | hcWorksize => exact stops_worksize
  | rbDestroy | kcDestroy | pcDestroy | hcDestroy => exact stops_destroy rfl
  | rbRemain | rbFree | kcGetlat | pcGetlat | hcGetlat => exact stops_query
  | rbCreate => exact rbCreate_stops
  | rbClear => exact rbClear_stops
  | rbPut => exact rbPut_stops
  | rbPeek => exact rbPeek_stops
  | rbGet => exact rbGet_stops
  | rbDpeek => exact rbDpeek_stops
  | fftCplx => exact fftCommand_stops rfl (by simp only [destinations, fftFloats, ← Nat.mul_assoc])
  | fftReal => exact fftCommand_stops rfl rfl
  | kcCreate => exact stops_create rfl List.mem_cons_self fun _ _ => stops_ok _
  | pcCreate | hcCreate => exact stops_create rfl List.mem_cons_self fun _ _ => stops_rings rfl
  | kcReset => exact stops_handle fun _ _ _ _ => stops_ok _
  | pcReset | hcReset => exact stops_handle fun _ _ live _ => stops_rings (heldRings_eq live).symm
  | kcSetcoef =>
    exact stops_handle fun _ _ _ _ => stops_bind (stops_readCoefficients List.mem_cons_self) fun _ _ => stops_ok _
  | pcSetcoef | hcSetcoef =>
    exact stops_handle fun _ _ live _ => stops_bind (stops_readCoefficients List.mem_cons_self) fun _ _ =>
      stops_rings (heldRings_eq live).symm
  | kcConvolve => exact kcConvolve_stops
  | pcConvolve => exact pcConvolve_stops
  | hcConvolve => exact hcConvolve_stops

end

/-! ### The statements -/

/-- The commands that have codes of their own are the ring's data commands (R414). -/
theorem otherCodes_cases {i : Instr} {c : StatusCode} (h : c ∈ otherCodes i) :
    (i = .rbPut ∧ c = .exceedsCapacity) ∨
      ((i = .rbPeek ∨ i = .rbGet ∨ i = .rbDpeek) ∧ (c = .exceedsRemainingData ∨ c = .exceedsMaxRequiredSize)) := by
  cases i with
  | rbPut => exact .inl ⟨rfl, List.mem_singleton.mp h⟩
  | rbPeek | rbGet | rbDpeek => exact .inr ⟨by simp, by simpa [otherCodes, or_comm] using h⟩
  | _ => cases h

/-- Settles O16: a success has code 0, and a failure has RES 0 and a code for which the command can stop. -/
theorem commandStatusCodes : Obligations.CommandStatusCodes := by
  unfold Obligations.CommandStatusCodes
  intro i s t h
  rw [exec_eq_finish] at h
  rcases finish_next h with ok | ⟨c, stop, rfl⟩
  · rw [(command_ok ok).frame]
    exact .inl rfl
  · refine .inr ⟨rfl, ?_⟩
    rcases command_stops i _ stop with rfl | hc
    · exact .inl rfl
    · rcases otherCodes_cases hc with ⟨hi, rfl⟩ | ⟨hi, rfl | rfl⟩
      · exact .inr (.inl ⟨hi, rfl⟩)
      · exact .inr (.inr ⟨hi, .inl rfl⟩)
      · exact .inr (.inr ⟨hi, .inr rfl⟩)

/-- Settles O26: a fault's cause is the one for which the command can stop with it. -/
theorem faultCausesAreComplete : Obligations.FaultCausesAreComplete := by
  unfold Obligations.FaultCausesAreComplete
  intro i s
  have cause {f : Fault} (h : exec i s = .fault f) : CanStop i s (.fault f) :=
    command_stops i _ (finish_faults ((exec_eq_finish i s).symm.trans h))
  exact ⟨cause, cause⟩

end Sys2Proof.Proofs
end

section
/-! SUPPORT. Block reset (70_reset_and_hazards.md R440) and the fault it does not leave (60_exceptions.md R404). -/
namespace Sys2Proof.Proofs
open Sys2Proof.Machine

/-- An argument register reads 0 at its reset value, whatever its number. -/
theorem args_get_zero (k : Nat) : Args.zero.get k = 0 := by
  unfold Args.get
  split <;> rfl

/-- With no live instance no region overlaps a live arena. -/
theorem meetsArena_of_noInstances {s : State} (h : s.insts = []) (a n : Nat) : s.meetsArena a n = false :=
  (meetsArena_false_iff s a n).mpr fun _ hp => absurd (h ▸ hp) List.not_mem_nil

/-- The fault is sticky (R404): a run that has ended in a fault ends in it however many more steps it is given. -/
theorem run_fault_add {M : Host.Core} {f : M.Fault} (m : Nat) :
    ∀ {k : Nat} {s : M.State}, M.run k s = .fault f → M.run (k + m) s = .fault f
  | 0, _, h => nomatch h
  | k + 1, s, h => by
    rw [Nat.add_right_comm]
    simp only [Host.Core.run] at h ⊢
    cases hstep : M.step s with
    | next t =>
      rw [hstep] at h
      exact run_fault_add m h
    | fault g => rwa [hstep] at h
    | refused g => rwa [hstep] at h

/-- Settles O13: the reset state shows the registers, the memory and an instance set with no arena; a fault ends the run
before any later action, a reset among them. -/
theorem blockReset : Obligations.BlockReset := by
  unfold Obligations.BlockReset
  refine ⟨fun s => ⟨Machine.blockReset s, rfl, blockReset_cmd s, blockReset_status s, blockReset_res s, fun k _ => ?_,
    blockReset_insts s, blockReset_mem s, blockReset_plat s, fun hdl => ?_, ?_⟩, fun k m s f => run_fault_add m⟩
  · rw [blockReset_args, args_get_zero]
  · rw [blockReset_insts, assocGet]
  · exact meetsArena_of_noInstances (blockReset_insts s)

end Sys2Proof.Proofs
end
